-- ==== Sys2Proof/Word.lean ====
section
/-!
DEFINITION. The word types of the Ferim model and the map type its state is made of.

A register is 32 bits (spec/08_thread.md R183); addresses are computed as naturals and integers (R15) and narrowed where
the manual narrows them.  A map is a list of key and value pairs, so that a state stays plain data.
-/
namespace Sys2Proof

/-- A byte of memory. -/
abbrev Byte := BitVec 8
/-- A register's 32-bit pattern (R71). -/
abbrev Word := BitVec 32
/-- A V pair's, or a record word's, 64-bit pattern. -/
abbrev Dword := BitVec 64

/-- A finite map from naturals: entries with rising keys.  A key that is not listed reads as the value its reader names. -/
abbrev NMap (α : Type) := List (Nat × α)

/-- An interval of signed integers, both ends included (R191). -/
structure Intv where
  lo : Int
  hi : Int
deriving DecidableEq, Repr

end Sys2Proof
end

