-- ==== Sys2Proof/Syntax.lean ====
section
/-!
DEFINITION. The instructions of the Gelras set and the steps of the Ferim device: one constructor of `Instr` for each row
of spec/opcode_table.json.  The first part are instructions that a thread executes, with the operands the encodings give
them (spec/02_encoding.md R38 to R57 and the encoding table of each chapter).  The second part are the steps of the device
and of its host (spec/95_what_each_step_holds.md): they have no encoding, and their operands name the object that moves and
whatever the manual leaves to the device's choice (R14).
-/
namespace Sys2Proof

/-- The class of a register field (R43). -/
inductive Cls | x | v
deriving DecidableEq, Repr

/-- The tier of a register field (R43, R44). -/
inductive Tier | main | opnd | last | const
deriving DecidableEq, Repr

/-- A 10-bit register field (R43). -/
structure Field where
  tier : Tier
  fe   : Bool
  cls  : Cls
  idx  : Nat
deriving DecidableEq, Repr

/-- The guarding predicate (R41). -/
structure Guard where
  p   : Nat
  neg : Bool
deriving DecidableEq, Repr

/-- Source B of the register or immediate forms (R198, R241): a register in the 64-bit form, a register in the 96-bit form,
a 16-bit or a 32-bit immediate. -/
inductive SrcB
  | reg (f : Field)
  | wide (f : Field)
  | imm16 (v : BitVec 16)
  | imm32 (v : BitVec 32)
deriving DecidableEq, Repr

/-- A branch offset in units of 4 bytes (R201). -/
inductive Off
  | s16 (v : BitVec 16)
  | s32 (v : BitVec 32)
deriving DecidableEq, Repr

/-- Comparand and offset of `BRC` (R200). -/
inductive BrcB
  | reg (b : Field) (off : Off)
  | imm (v : BitVec 32) (off : BitVec 16)
deriving DecidableEq, Repr

/-- Conditions of `BRC`; the first six are those of `ICMP` and `ICMPU` (R200, R215). -/
inductive Cond | eq | ne | lt | le | gt | ge | ltu | geu
deriving DecidableEq, Repr

/-- Conditions of `FCMP` and `DCMP` (R241). -/
inductive FCond | eq | ne | lt | le | gt | ge | ord | uno
deriving DecidableEq, Repr

/-- Rounding modes (R87). -/
inductive Rnd | rn | rz | rm | rp
deriving DecidableEq, Repr

/-- Element formats, codes 0 to 13 (R75). -/
inductive Fmt | f32 | bf16 | f16 | e4m3 | e5m2 | e3m2 | e2m3 | e2m1 | i8 | i4 | vq2 | f64 | i32 | u32
deriving DecidableEq, Repr

/-- Access sizes (R52). -/
inductive Size | b8 | b16 | b32 | b64 | b128
deriving DecidableEq, Repr

/-- Ordering qualifiers (R52). -/
inductive Order | none | acq | rel | acqrel
deriving DecidableEq, Repr

/-- Scopes (R52, R319). -/
inductive Scope | gang | wg | clu | dev | sys
deriving DecidableEq, Repr

/-- Count of `SLEEP` (R209). -/
inductive SleepN
  | imm (n : BitVec 16)
  | reg (a : Field)
deriving DecidableEq, Repr

/-- Bounds of `CLAMP` (R215). -/
inductive ClampB
  | regs (b c : Field)
  | imms (lo hi : BitVec 32)
deriving DecidableEq, Repr

/-- The constant of `MOVI` (R226, R227). -/
inductive MovImm
  | s16 (v : BitVec 16)
  | hi16 (v : BitVec 16)
  | w32 (v : BitVec 32)
  | d64 (v : BitVec 64)
deriving DecidableEq, Repr

/-- Widths of `MOV` (R226). -/
inductive MovW | w1 | w2 | w4
deriving DecidableEq, Repr

/-- The lane mask of a cross-lane instruction (R232). -/
inductive LMask
  | imm (m : BitVec 64)
  | pair (f : Field)
deriving DecidableEq, Repr

/-- Modes of `XLANE` (R234, R235). -/
inductive XMode | from | rot | swap | seg
deriving DecidableEq, Repr

/-- Modes of `PCOLL` (R234, R236). -/
inductive PMode | some | every | mask | same | count
deriving DecidableEq, Repr

/-- Operations of `LREDUCE` and `LSCAN` (R234, R237). -/
inductive LaneOp | iadd | imin | imax | iminu | imaxu | fadd | fmin | fmax
deriving DecidableEq, Repr

/-- Source formats of `AMAX` (R247). -/
inductive AmaxFmt | f32 | bf16x2 | f16x2
deriving DecidableEq, Repr

/-- Destination and sources of a one-, two- or three-source operation. -/
structure Alu1 where
  d : Field
  a : Field
deriving DecidableEq, Repr

structure Alu2 where
  d : Field
  a : Field
  b : SrcB
deriving DecidableEq, Repr

structure Alu3 where
  d : Field
  a : Field
  b : SrcB
  c : Field
deriving DecidableEq, Repr

/-- The memory form (R270): order, scope and the status predicate. -/
structure MemW where
  order : Order
  scope : Scope
  stat  : Option Nat
deriving DecidableEq, Repr

/-- Granule forms of `LDS` (R271, R278). -/
inductive FeMode | none | keep | clr
deriving DecidableEq, Repr

/-- The scratch form (R271). -/
structure ScrW where
  order : Order
  scope : Scope
  fe    : FeMode
deriving DecidableEq, Repr

/-- The array form in its three lengths, with the extension word where the length has one (R270). -/
inductive AForm (ω : Type)
  | a64 (off : BitVec 12)
  | a96 (off : BitVec 12) (w : ω)
  | a128 (off : BitVec 32) (w : ω)
deriving DecidableEq, Repr

/-- An array operand `Ak[x+off]` (R269, R272). -/
structure ArrOp (ω : Type) where
  k    : Nat
  x    : Field
  form : AForm ω
deriving DecidableEq, Repr

/-- Placement coordinates (R57). -/
inductive Place
  | slice (n : Nat)
  | stack (n : Nat)
  | core (n : Nat)
  | home
deriving DecidableEq, Repr

/-- Operations of `CCTL` (R269, R282). -/
inductive CctlOp | wb | inv | wbinv | iinv
deriving DecidableEq, Repr

/-- The ticket form of `TKT.LD` (R303): lines 1 to 16 and the status predicate. -/
structure TkW where
  lines : Nat
  stat  : Option Nat
deriving DecidableEq, Repr

/-- Atomic operations (R340). -/
inductive AtomOp | add | min | max | minu | maxu | and | or | xor | xchg | fadd | fmin | fmax | mask
deriving DecidableEq, Repr

/-- The atomic form (R339). -/
structure AtW where
  order  : Order
  scope  : Scope
  remote : Bool
  size   : Size
  stat   : Option Nat
  peer   : Option Nat
deriving DecidableEq, Repr

/-- Byte offset of `ATOMS` in its two lengths (R338). -/
inductive SForm
  | s96 (off : BitVec 16)
  | s128 (off : BitVec 32)
deriving DecidableEq, Repr

/-- Conditions of `WAITA` (R345). -/
inductive WCond | eq | ne | ge | geu
deriving DecidableEq, Repr

/-- The wait form (R345). -/
structure WaW where
  order   : Order
  scope   : Scope
  remote  : Bool
  size    : Size
  cond    : WCond
  stat    : Option Nat
  timeout : Nat
deriving DecidableEq, Repr

/-- Kinds of a matrix operand (R379, R389). -/
inductive SpKind | dense | s24 | s14
deriving DecidableEq, Repr

/-- Range operand of `LOCK.Q` (R424, R426). -/
inductive LockR
  | scratch (x : Field)
  | global (va : Field)
deriving DecidableEq, Repr

/-- Barrier levels (R429). -/
inductive Lvl | gang | wg | clu | stk | grid
deriving DecidableEq, Repr

/-- A barrier operand: level and number (R434). -/
structure Bar where
  lvl : Lvl
  num : Nat
deriving DecidableEq, Repr

/-- Units that can leave service (R28, R29). -/
inductive UnitId
  | stack (n : Nat)
  | die (n : Nat)
  | interchange (n : Nat)
deriving DecidableEq, Repr

/-- An agent of the directory (R352): a slice, a peer device 1 to 15, or the host. -/
inductive Agent
  | slice (n : Nat)
  | peer (p : Nat)
  | host
deriving DecidableEq, Repr

/-- Why a link fails in training or in operation, with the lanes that are good where they are what fails it (R499, R500). -/
inductive LinkWhy
  | noPartner
  | fewLanes (lanes : BitVec 8)
  | peerClash
  | lost (lanes : BitVec 8)
deriving DecidableEq, Repr

/-- What comes with a frame on a Skoen link (R496, R497): its number; how many frames this side has sent since the last one came; and what its
control slot says: the next frame that the peer expects, or with `nak` the one that it refuses. -/
structure FrameIn where
  seq  : Nat
  sent : Nat
  ack  : Nat
  nak  : Bool
  /-- The transactions of this side that the frame's flits answer (R503). -/
  answered : List Nat
deriving DecidableEq, Repr

/-- A snoop of the host (R352): the line, and whether the host asks for it for itself. -/
structure Snoop where
  line : Nat
  excl : Bool
deriving DecidableEq, Repr

/-- How a firmware install fails (R518). -/
inductive FwWhy | badImage | readFail | storeFail
deriving DecidableEq, Repr

/-- What a host or peer access to device memory does (R351, R121): a store of bytes or a read of a count of bytes. -/
inductive HostAcc
  | read (n : Nat)
  | write (bytes : List Byte)
deriving DecidableEq, Repr

/-- Where a host access lands: the launch window by offset, or device memory by IA and interleave set (R121, R106). -/
inductive HostAddr
  | window (off : Nat)
  | mem (ia : Nat) (ilv : Nat) (set : Nat)
deriving DecidableEq, Repr

/-- What a peer's request asks for at this device's home (R503). -/
inductive PeerOp
  | read (ia : Nat) (n : Nat)
  | write (ia : Nat) (bytes : List Byte)
  | atom (ia : Nat) (op : AtomOp) (size : Size) (data : Dword)
  | cas (ia : Nat) (size : Size) (new cmp : Dword)
  /-- The requester acknowledges the response that was kept for it. -/
  | ack
deriving DecidableEq, Repr

/-- Every row of spec/opcode_table.json. -/
inductive Instr
  -- Control (group 0x0; spec/08_thread.md R200)
  | blockEnd
  | nop (g : Guard)
  | bra (g : Guard) (off : Off)
  | brc (g : Guard) (c : Cond) (a : Field) (b : BrcB)
  | brp (g : Guard) (all : Bool) (p : Nat) (off : Off)
  | brx (g : Guard) (a : Field) (off : BitVec 16)
  | brxAbs (g : Guard) (a : Field)
  | call (g : Guard) (d : Field) (off : Off)
  | callx (g : Guard) (d a : Field)
  | ret (g : Guard) (a : Field)
  | join (g : Guard)
  | exit (g : Guard)
  | yield (g : Guard)
  | sleep (g : Guard) (n : SleepN)
  -- Integer (group 0x1; R210)
  | iadd (g : Guard) (o : Alu2)
  | isub (g : Guard) (o : Alu2)
  | imul (g : Guard) (o : Alu2)
  | imulh (g : Guard) (u : Bool) (o : Alu2)
  | imad (g : Guard) (o : Alu3)
  | ineg (g : Guard) (o : Alu1)
  | iabs (g : Guard) (o : Alu1)
  | imin (g : Guard) (o : Alu2)
  | imax (g : Guard) (o : Alu2)
  | iminu (g : Guard) (o : Alu2)
  | imaxu (g : Guard) (o : Alu2)
  | isad (g : Guard) (o : Alu3)
  -- Logic (group 0x2; R212)
  | and (g : Guard) (o : Alu2)
  | or (g : Guard) (o : Alu2)
  | xor (g : Guard) (o : Alu2)
  | andn (g : Guard) (o : Alu2)
  | not (g : Guard) (o : Alu1)
  | blut (g : Guard) (o : Alu3) (lut : BitVec 8)
  | shl (g : Guard) (o : Alu2)
  | shr (g : Guard) (o : Alu2)
  | sar (g : Guard) (o : Alu2)
  | rol (g : Guard) (o : Alu2)
  | bcnt (g : Guard) (o : Alu1)
  | clz (g : Guard) (o : Alu1)
  | ctz (g : Guard) (o : Alu1)
  | bitrev (g : Guard) (o : Alu1)
  | bfe (g : Guard) (s : Bool) (o : Alu2)
  | bfi (g : Guard) (o : Alu3)
  -- Compare and interval (group 0x3; R215)
  | icmp (g : Guard) (c : Cond) (pd : Nat) (a : Field) (b : SrcB)
  | icmpu (g : Guard) (c : Cond) (pd : Nat) (a : Field) (b : SrcB)
  | pset (g : Guard) (tt : BitVec 4) (pd pa pb : Nat)
  | pmov (g : Guard) (d : Field)
  | pmovW (g : Guard) (a : Field) (mask : BitVec 7)
  | clamp (g : Guard) (d a : Field) (b : ClampB)
  | widen (g : Guard) (d : Field) (lo hi : BitVec 32)
  | intvSet (g : Guard) (d a b : Field)
  | intvChk (g : Guard) (d : Field) (lo hi : BitVec 32)
  | intvGet (g : Guard) (d a : Field)
  | intvUn (g : Guard) (d a : Field)
  -- Moves, conversion and lanes (group 0x4; spec/09_vector.md R226, R230, R234, R239)
  | mov (g : Guard) (w : MovW) (d a : Field)
  | movi (g : Guard) (d : Field) (v : MovImm)
  | sel (g : Guard) (o : Alu2) (p : Nat)
  | cvt (g : Guard) (tgt src : Fmt) (r : Rnd) (sat : Bool) (elem : Nat) (d a : Field)
  | cvtq (g : Guard) (d a : Field) (slot : Nat)
  | xlane (g : Guard) (m : XMode) (d a b : Field) (mask : LMask)
  | pcoll (g : Guard) (m : PMode) (pd : Nat) (d : Field) (pa : Nat) (mask : LMask)
  | lreduce (g : Guard) (op : LaneOp) (d a : Field) (mask : LMask)
  | lscan (g : Guard) (op : LaneOp) (excl : Bool) (d a : Field) (mask : LMask)
  | xeq (g : Guard) (b64 : Bool) (d a : Field) (mask : LMask)
  | sread (g : Guard) (d : Field) (sel : Nat)
  | getf (g : Guard) (d : Field) (slot word : Nat)
  -- FP32 and FP64 (group 0x5; R241)
  | fadd (g : Guard) (r : Rnd) (o : Alu2)
  | fsub (g : Guard) (r : Rnd) (o : Alu2)
  | fmul (g : Guard) (r : Rnd) (o : Alu2)
  | ffma (g : Guard) (r : Rnd) (o : Alu3)
  | fmin (g : Guard) (o : Alu2)
  | fmax (g : Guard) (o : Alu2)
  | fcmp (g : Guard) (c : FCond) (pd : Nat) (a : Field) (b : SrcB)
  | frnd (g : Guard) (r : Rnd) (o : Alu1)
  | frcp (g : Guard) (o : Alu1)
  | frsq (g : Guard) (o : Alu1)
  | fsqrt (g : Guard) (o : Alu1)
  | fexp2 (g : Guard) (o : Alu1)
  | flog2 (g : Guard) (o : Alu1)
  | fsin (g : Guard) (o : Alu1)
  | fcos (g : Guard) (o : Alu1)
  | ftanh (g : Guard) (o : Alu1)
  | dadd (g : Guard) (r : Rnd) (negb : Bool) (d a b : Field)
  | dmul (g : Guard) (r : Rnd) (d a b : Field)
  | dfma (g : Guard) (r : Rnd) (d a b c : Field)
  | dcmp (g : Guard) (c : FCond) (pd : Nat) (a b : Field)
  -- Packed narrow arithmetic (group 0x6; R247)
  | h2add (g : Guard) (r : Rnd) (d a b : Field)
  | h2mul (g : Guard) (r : Rnd) (d a b : Field)
  | h2fma (g : Guard) (r : Rnd) (d a b c : Field)
  | b2add (g : Guard) (r : Rnd) (d a b : Field)
  | b2mul (g : Guard) (r : Rnd) (d a b : Field)
  | b2fma (g : Guard) (r : Rnd) (d a b c : Field)
  | pkminmax (g : Guard) (max bf : Bool) (d a b : Field)
  | f8dot (g : Guard) (ae5 be5 : Bool) (d a b c : Field)
  | i8dot (g : Guard) (ua ub : Bool) (d a b c : Field)
  | vqdec (g : Guard) (hi f16 : Bool) (d a b : Field) (slot : Nat)
  | amax (g : Guard) (f : AmaxFmt) (d a b : Field)
  -- Arrays and memory access (group 0x7; spec/10_array.md R269)
  | ld (g : Guard) (sz : Size) (sgn : Bool) (d : Field) (m : ArrOp MemW)
  | st (g : Guard) (sz : Size) (m : ArrOp MemW) (s : Field)
  | ldu (g : Guard) (sz : Size) (sgn : Bool) (d : Field) (m : ArrOp MemW)
  | lds (g : Guard) (sz : Size) (sgn : Bool) (d x : Field) (off : BitVec 16) (w : Option ScrW)
  | sts (g : Guard) (sz : Size) (x : Field) (off : BitVec 16) (w : Option ScrW) (s : Field)
  | ldp (g : Guard) (sz : Size) (sgn : Bool) (d x : Field) (off : BitVec 16) (core : Nat) (w : ScrW)
  | stp (g : Guard) (sz : Size) (x : Field) (off : BitVec 16) (core : Nat) (w : ScrW) (s : Field)
  | ldXs (g : Guard) (d : Field) (m : ArrOp MemW)
  | stXs (g : Guard) (m : ArrOp MemW) (s : Field)
  | lda (g : Guard) (sz : Size) (sgn : Bool) (d va : Field) (off : BitVec 16) (w : Option ScrW)
  | sta (g : Guard) (sz : Size) (va : Field) (off : BitVec 16) (w : Option ScrW) (s : Field)
  | pref (g : Guard) (l2 : Bool) (m : ArrOp Unit)
  | resv (g : Guard) (m : ArrOp Unit)
  | resvClr (g : Guard) (m : ArrOp Unit)
  | cctl (g : Guard) (op : CctlOp) (va : Field) (count : Nat)
  | arraySet (g : Guard) (k : Nat) (a : Field)
  | arrayGet (g : Guard) (d : Field) (k : Nat)
  | arrayChk (g : Guard) (keep : Bool) (d : Field)
  -- Tickets (group 0x8; spec/11_ticket.md R303)
  | tktLd (g : Guard) (try_ : Bool) (d : Field) (m : ArrOp TkW)
  | tktRdv (g : Guard) (sz : Size) (nf : Option Nat) (d t xo : Field)
  | tktRds (g : Guard) (nf : Option Nat) (d t xs : Field)
  | tktPoll (g : Guard) (pd : Nat) (t : Field)
  | tktWaitany (g : Guard) (d xa : Field) (count ps : Nat)
  | tktDrop (g : Guard) (stat : Option Nat) (t : Field)
  | tktStat (g : Guard) (d t : Field)
  -- Atomics and order (group 0x9; spec/12_ordering.md R338)
  | atom (g : Guard) (op : AtomOp) (d : Field) (m : ArrOp AtW) (s : Field)
  | red (g : Guard) (op : AtomOp) (m : ArrOp AtW) (s : Field)
  | cas (g : Guard) (d : Field) (k : Nat) (x : Field) (off : BitVec 32) (w : AtW) (new cmp : Field)
  | atoms (g : Guard) (op : AtomOp) (d x : Field) (f : SForm) (w : AtW) (s : Field)
  | cass (g : Guard) (d x : Field) (off : BitVec 32) (w : AtW) (new cmp : Field)
  | fence (g : Guard) (o : Order) (sc : Scope) (remote : Bool)
  | waita (g : Guard) (d : Field) (k : Nat) (x b : Field) (off : BitVec 32) (w : WaW)
  | lineClr (g : Guard) (m : ArrOp Unit)
  -- Matrix engine (group 0xA; spec/14_tile.md R389)
  | mma (g : Guard) (d x : Field) (fa fb : Nat) (mc : Bool)
  | mmaSp (g : Guard) (d x : Field) (ka kb : SpKind) (fa fb : Nat) (mc : Bool)
  | mmaMcr (g : Guard) (d x : Field) (ka kb : SpKind) (fa fb : Nat)
  | accZero (g : Guard) (d x : Field)
  | accLd (g : Guard) (d x : Field)
  | accSt (g : Guard) (d x : Field)
  | accCvt (g : Guard) (d x : Field) (slot : Nat) (r : Rnd) (sat : Bool)
  | accAmax (g : Guard) (d x : Field)
  -- Transfer engine (group 0xB; spec/15_transfer.md R426)
  | xfer (g : Guard) (d x c : Field) (we : Bool)
  | xferIm2c (g : Guard) (d x c : Field) (we fresh : Bool)
  | xferGath (g : Guard) (d x c : Field) (we : Bool)
  | xferScat (g : Guard) (d x c : Field)
  | xferUnpk (g : Guard) (d x c : Field) (we : Bool)
  | xferPack (g : Guard) (d x c : Field)
  | xferMcast (g : Guard) (d x c : Field) (we : Bool) (mask : BitVec 4)
  | xferPref (g : Guard) (d x c : Field) (pl : Place)
  | xferPagein (g : Guard) (d x : Field) (pl : Place)
  | lockQ (g : Guard) (d : Field) (r : LockR) (n : Nat)
  | granFill (g : Guard) (x : Field) (n : Nat)
  | granEmpty (g : Guard) (x : Field) (n : Nat)
  -- Barriers (group 0xC; spec/16_barrier.md R434)
  | barArr (g : Guard) (d : Field) (b : Bar)
  | barWait (g : Guard) (a : Field)
  | barSync (g : Guard) (b : Bar)
  | barTry (g : Guard) (pd : Nat) (a : Field)
  | barCnt (g : Guard) (d : Field) (b : Bar)
  | elect (g : Guard) (pd : Nat) (gang : Option LMask)
  -- Kernels, queues, contexts, pages (group 0xD; R144, R129, R114, R468)
  | klaunch (g : Guard) (d a : Field)
  | kjoin (g : Guard) (poll : Bool) (d a : Field)
  | kkill (g : Guard) (d a : Field)
  | qpost (g : Guard) (d q a : Field)
  | qstat (g : Guard) (d q : Field)
  | ctxRd (g : Guard) (d : Field) (sel : Nat)
  | ctxWr (g : Guard) (sel : Nat) (a : Field)
  | pageMap (g : Guard) (d a img : Field)
  | pageMapAlloc (g : Guard) (d a img : Field)
  | pageMapUpd (g : Guard) (d a img : Field)
  | pageMapRgn (g : Guard) (d a : Field) (large : Bool)
  | pageUnmap (g : Guard) (d a : Field)
  | pageUnmapRgn (g : Guard) (d a : Field)
  | pageRef (g : Guard) (d a : Field)
  | pageUnref (g : Guard) (d a : Field)
  | pageCopy (g : Guard) (d a : Field) (pool : Nat)
  | pageProbe (g : Guard) (d a : Field)
  | pageProbeClr (g : Guard) (d a : Field)
  | pageProbeFrame (g : Guard) (d a : Field)
  | pageInv (g : Guard) (d a : Field)
  | pageInvFail (g : Guard) (d a : Field)
  | pagePin (g : Guard) (d a : Field)
  | pagePinClr (g : Guard) (d a : Field)
  -- Handlers and system (group 0xE; spec/18_trap.md R487)
  | trap (g : Guard) (code : BitVec 16)
  | eret (g : Guard)
  | eretFault (g : Guard)
  | hrd (g : Guard) (d : Field) (kind idx : Nat)
  | hwr (g : Guard) (kind idx : Nat) (a : Field)
  | getev (g : Guard) (d : Field) (ps : Nat)
  | bkpt (g : Guard) (code : BitVec 16)
  | clk (g : Guard) (ord : Bool) (d : Field)
  | perf (g : Guard) (d : Field) (n : Nat)
  | preemptChk (g : Guard) (pd : Nat)
  -- Group 0xF (R35, R41, R55): only the length code and the predicate field are interpreted
  | idiv (g : Guard) (words : Nat) (rest : BitVec 128)
  | irem (g : Guard) (words : Nat) (rest : BitVec 128)
  -- Steps of the device and its host: traps that wait (R307, R479)
  | settledTrap (wid t : Nat)
  | deferredTrap (wid t : Nat)
  -- Reset and units (R29, R110, R359, R465, R508, R507)
  | deviceReset (stks : BitVec 32) (dies : BitVec 8) (ics : BitVec 2)
  | unitFailure (u : UnitId)
  | computeDieLoss (die : Nat)
  | interchangeDieLoss (ic : Nat)
  | channelRetire (stack ch : Nat)
  | capacityPortDown (port : Nat)
  | hostLinkDown
  -- Context commands (R100)
  | ctxCreate (id : Nat)
  | ctxActivate (id : Nat)
  | ctxSuspend (id : Nat)
  | ctxSuspendDone (id : Nat)
  | ctxResume (id : Nat)
  | ctxTeardown (id : Nat)
  | ctxRelease (id : Nat)
  | ctxRecordHostWrite (id sel : Nat) (v : Dword)
  -- Queues and kernels (R120, R123, R141, R142)
  | queueBind (q : Nat)
  | queueStart (q : Nat)
  | queueStop (q : Nat)
  | queueUnbind (q : Nat)
  | recordParse (q : Nat)
  | kernelSelect (h : Nat) (cores : List Nat)
  | kernelQuiet (h : Nat)
  | dispatchPreempt (h : Nat)
  | drainTimeout (wid : Nat)
  | wgSave (wid : Nat)
  | wgFlush (wid : Nat)
  | wgRestore (wids : List Nat)
  -- Scheduling and waits (R157, R161, R164, R441, R209)
  | eligibleStarvation (core bay : Nat)
  | joinTimeout (wid gang : Nat)
  | gangDeadlock (wid gang : Nat)
  | barrierDeadlockWg (wid : Nat)
  | barrierDeadlockUpper (h : Nat) (b : Bar) (unit : Nat)
  | sleepExpiry (wid t : Nat)
  | producerComplete (wid t seq : Nat)
  -- Memory (R314, R324 to R329, R342, R346, R347, R451, R455 to R457, R463)
  | l1WriteBack (core line : Nat)
  | recordRegister (core line : Nat)
  | drainComplete (slice core : Nat)
  | acquireAtHome (wid t seq : Nat)
  | remotePromotion (wid t : Nat)
  | atomicPerform (wid t seq : Nat)
  | waitaPoll (wid t : Nat)
  | waitaTimeout (wid t : Nat)
  | translateRequest (wid t seq : Nat)
  | pageMissRepost (slice page : Nat)
  | grantRequest (core id : Nat)
  | sidingReplay (core id : Nat)
  | pageMigrate (core id : Nat)
  -- Directory (R354, R355, R357, R351)
  | dirRd (slice line : Nat)
  | dirRdx (slice line : Nat)
  | dirWb (slice line : Nat)
  | dirDrop (slice line : Nat)
  | dirHomeR (line : Nat)
  | dirHomeW (line : Nat)
  | dirQueueRetry (half : Nat)
  | hostDeviceAccess (a : HostAddr) (o : HostAcc)
  -- Tickets (R294, R295)
  | ticketAlloc (wid t seq : Nat)
  | ticketServiced (slice entry : Nat)
  | ticketRedeem (wid t : Nat)
  | ticketDelivered (slice entry : Nat)
  | ticketDropEvent (wid t seq : Nat)
  | ticketAgeScan (slice : Nat)
  -- Engines (R374, R383, R394, R425, R86)
  | xferStart (core : Nat)
  | xferComplete (core id : Nat)
  | mmaStart (core : Nat)
  | multicastTimeout (core : Nat)
  | mmaComplete (core : Nat)
  | engineDeadlock (core : Nat)
  | codebookRead (core h slot : Nat)
  -- Links (R497, R500, R501, R503)
  | linkTrain (n : Nat)
  | linkRetire (n : Nat)
  | linkReset (n : Nat)
  | upOk (n : Nat)
  | upHalf (n : Nat) (lanes : BitVec 8)
  | linkFail (n : Nat) (why : LinkWhy)
  | linkQuiet (n : Nat)
  /-- A frame arrives on a link, and whether its parity corrects it (R496, R497). -/
  | skoenFrameReceive (n : Nat) (frame : FrameIn) (good : Bool)
  | linkRecalibrate (n : Nat) (bad : BitVec 8)
  | peerRequest (p txn : Nat) (o : PeerOp)
  -- Firmware, health, power (R519, R514, R9, R511, R513, R515)
  | fwInstall
  | fwArm
  | fwDisarm
  | fwWritten
  | fwFailed (why : FwWhy)
  | hlthWrite (v : Dword)
  | registerWrite (off : Nat) (v : Dword)
  | powerStateEntry
  | wakeEvent
  | thermalCrossing (die : Nat) (thr : Nat) (up : Bool)
  | archiveWrite
  | hostSnoop (snoop : Snoop)
  | hostLinkUp (rate width : Nat)
  | suddenPowerLoss
  | eagerDrainComplete (wid t : Nat)
deriving DecidableEq, Repr

end Sys2Proof
end

