-- ==== Sys2Proof/Config.lean ====
section
/-!
DEFINITION. What an implementation fixes and what the manual leaves open: the constants of the module
(spec/01_module.md R17 to R27) and the free values, which have no body, so that nothing can be proved of them.
-/
namespace Sys2Proof

/-- One turn of the module: which agent moves next (notes/assumptions/2.md, DESIGN CHOICE).  `bay` lets a bay of a core choose and
issue one group (R154); `event` is a step of the device or its host; `idle` passes clocks; `hostStore` is a store by the host to
its own memory. -/
inductive Turn
  | bay (core bay : Nat)
  | event (e : Instr)
  | idle (clks : Nat)
  | hostStore (hpa : Nat) (b : Byte)
deriving DecidableEq, Repr, Inhabited

namespace Config

/-- The turn taken when the agenda is empty, by the number of turns taken (notes/assumptions/2.md). -/
opaque freeTurn : Nat → Turn

/-- A free choice between two outcomes, by the model's counter (notes/assumptions/3.md): the copy of a stored-over fetch block
that is executed (R37). -/
opaque freeChoice : Nat → Bool

/-- Which stored element a 2:4 entry whose two indices are equal gives, by the entry: the first or the second (R379 checks none of
`MMA.MCR`; notes/assumptions/3.md).  The same entry gives the same element always (R94). -/
opaque sparsePick : Nat → Bool

/-- A word that an instruction leaves undefined, by the model's counter (notes/assumptions/3.md): the second word of a refused
`ACC.AMAX` (R372, R387). -/
opaque freeWord : Nat → BitVec 32

/-- The candidate result of a function of R246 on an FP32 pattern, by the function's code; used where the manual gives a bound
and no value (notes/assumptions/6.md). -/
opaque freeFn : Nat → BitVec 32 → BitVec 32

def cores : Nat := 256
def slices : Nat := 64
def bays : Nat := 4
/-- Slots of a bay and entries of its issue window (R155, R228). -/
def baySlots : Nat := 16
def window : Nat := 8
/-- Bytes of a bay's register partition (R142). -/
def partition : Nat := 131072
def scratchBytes : Nat := 524288
def accBytes : Nat := 1048576
/-- Entries of the core's tables (R26, R27, R391, R374, R416, R455, R456, R262). -/
def sidingEntries : Nat := 512
def grants : Nat := 256
def interlock : Nat := 64
def xferQueue : Nat := 64
def xferRunning : Nat := 8
def mmaQueue : Nat := 32
def reservedLines : Nat := 512
/-- Entries of a slice's tables (R289, R325, R347, R457). -/
def tickets : Nat := 4096
def ticketLines : Nat := 16384
def records : Nat := 2048
def monitors : Nat := 128
def missTable : Nat := 64
/-- Directory sets and ways of one interchange die, and queued requests of a half (R352, R354). -/
def dirSets : Nat := 65536
def dirWays : Nat := 16
def dirQueue : Nat := 4096
/-- Entries of the kernel table (R134), context identifiers and active slots (R96), queues and their slots (R117). -/
def kernels : Nat := 4096
def contexts : Nat := 4096
def activeSlots : Nat := 256
def queues : Nat := 256
def queueSlots : Nat := 64
/-- Core clocks in a microsecond (R170). -/
def clkPerUs : Nat := 1100
/-- Frames of a stack's pool (R453). -/
def stackFrames : Nat := 976562

end Config
end Sys2Proof
end

