-- ==== Sys2Proof/Machine/State.lean ====
section
/-!
DEFINITION. The state of the Ferim module, as plain data: host registers, contexts, queues, the kernel table, workgroups with
their threads, cores, slices, the interchange directory, memory, links, power and firmware, and the model's own fields (agenda,
counters, the issue group).  INVENTORY.md, heading State, names the rule and the reset value of each part.  A map lists only
what differs from its reset value.
-/
namespace Sys2Proof.Machine
open Sys2Proof

/-! ### Threads (spec/08_thread.md R183, spec/18_trap.md R479 to R482) -/

/-- Every interval of a register lies inside this one (R73). -/
def full : Intv := ⟨-2147483648, 2147483647⟩

/-- An entry with an interval: an operand-file or last-result entry (R49, R50). -/
structure Ent where
  val : Word
  iv  : Intv
deriving DecidableEq, Repr

/-- An X register. -/
structure XReg where
  val : Word
  iv  : Intv
  ful : Bool
deriving DecidableEq, Repr

/-- A V register. -/
structure VReg where
  val : Word
  ful : Bool
deriving DecidableEq, Repr

/-- X and V registers and `P0` to `P6`: the thread's own, or the handler bank (R482). -/
structure Regs where
  x : NMap XReg
  v : NMap VReg
  p : BitVec 7
deriving DecidableEq, Repr

/-- The destination of a producer: registers from `idx` on, of the bank when `bank` (R484), but for those that `HWR` has written since
(R489). -/
structure Target where
  cls  : Cls
  idx  : Nat
  n    : Nat
  bank : Bool
  skip : List Nat
deriving DecidableEq, Repr

/-- What one lane's memory request asks (R264, R270). `xs` marks a spill image (R276). -/
structure Req where
  va    : Nat
  size  : Nat
  sgn   : Bool
  xs    : Bool
  near  : Bool
  svc   : Nat
  order : Order
  scope : Scope
  remote : Bool
  /-- The lane whose load it is, for the lanes of a uniform load (R275). -/
  uni : Option Nat := none
  /-- An allocation is queued on the full table of its slice (R304). -/
  queued : Bool := false
  /-- The clk at which the request of a held thread issued (R466), and the bytes of the pieces of a wait's read that are performed (R332). -/
  start : Nat := 0
  got : NMap Byte := []
deriving DecidableEq, Repr

/-- The instruction that an access or a wait belongs to, for the report of a trap after settlement (R307): its PC, its words, and the
lanes of its issue group. -/
structure Origin where
  ipc   : Nat
  insn  : List Word
  lanes : BitVec 64
deriving DecidableEq, Repr

/-- What an atomic of one lane does (R340, R342): the operation, or `none` for a compare-and-swap, with its data; and whether it is a `RED`. -/
structure AtomReq where
  op   : Option AtomOp
  size : Size
  data : Nat
  cmp  : Nat
  red  : Bool
  orig : Origin
deriving DecidableEq, Repr

/-- A pending report of a trap after settlement (R307, R480): what the frame will hold. -/
structure Report where
  cause  : Nat
  detail : Nat
  addr   : Nat
  orig   : Origin
deriving DecidableEq, Repr

/-- A part of a split store: its VA and its bytes (R332). -/
structure Piece where
  va    : Nat
  bytes : List Byte
deriving DecidableEq, Repr

/-- The work an outstanding producer still has to do (R187). -/
inductive Work
  /-- A global load, with the bytes of the pieces that are performed, by their place in the access (R332). -/
  | load (r : Req) (got : NMap Byte)
  /-- A global atomic. `recd` says that its release record was refused, so that it is sent without one (R328). -/
  | atom (r : Req) (a : AtomReq) (recd : Bool)
  /-- Pieces of a split global store that are not performed yet, with a release store's scope (R332). -/
  | store (pieces : List Piece) (near : Bool) (svc : Nat) (rel : Option Scope)
  /-- A granule-consuming load of scratchpad, an acquire or not (R278). -/
  | granule (off size : Nat) (sgn : Bool) (clr : Bool) (order : Order) (scope : Scope)
  /-- A misaligned load of a workgroup's scratchpad through an array: first byte, bytes, sign, spill image, and the bytes of the pieces that are
  performed (R332). -/
  | spotLoad (wid off size : Nat) (sgn xs : Bool) (order : Order) (scope : Scope) (got : NMap Byte)
  /-- Pieces of a misaligned store to a workgroup's scratchpad that are not performed yet. -/
  | spotStore (wid : Nat) (pieces : List Piece)
  /-- A ticket allocation (R304), with its instruction and active lanes (R302). -/
  | ticket (r : Req) (lines : Nat) (try_ : Bool) (orig : Origin)
  /-- A ticket drop (R310). -/
  | drop (tkt : Dword)
  /-- `KJOIN` on a handle (R147). -/
  | kjoin (h : Nat) (poll : Bool)
  /-- `KKILL` on a handle; `own` when a lane of its issue group names the kernel of the thread; `found` once it has killed, with the state
that it found (R148). -/
  | kkill (h : Nat) (own : Bool) (found : Option Nat)
  /-- A record read: `KLAUNCH` (R146) or `QPOST` to a queue (R130). -/
  | launch (va : Nat)
  | post (q va : Nat)
  /-- `GETEV` (R492). -/
  | getev
  /-- A page instruction, performed at the page's agent (R469). -/
  | page (i : Instr) (ia : Nat) (img : Nat)
  /-- An engine command whose status word is to come (R306, R387, R412). -/
  | engine
  /-- The answer is known. -/
  | done (vals : List Word) (iv : Intv) (ok : Bool)
  /-- The producer failed; `ue` tells UE from PAGE (R479). -/
  | failed (ue : Bool)
  /-- The lane of an atomic failed: its report is made once every lane of its group has settled (R343). -/
  | trap (r : Report)
deriving DecidableEq, Repr

/-- An outstanding long-latency producer (R187 to R190). `seq` is its place in program order; `insn` names the instruction. -/
structure Prod where
  seq  : Nat
  tgt  : Option Target
  stat : Option Nat
  bank : Bool
  work : Work
  /-- The page whose mapping the request waits for (R457). -/
  wait : Option Nat
  /-- The clk at which it issued: producers of one issue group share it (R264, R342), and deadlines count from it (R466). -/
  born : Nat
deriving DecidableEq, Repr

/-- A ticket redeem that a thread waits for (R305). -/
structure Redeem where
  tkt  : Dword
  off  : Nat
  size : Size
  d    : Field
  nf   : Option Nat
  acc  : Bool
  orig : Origin
  /-- The `TKT.RDS` that it belongs to, with the number of its producer (R306). -/
  rds  : Option (Instr × Nat)
deriving DecidableEq, Repr

/-- The wait that a thread is held in after it issued (R156, R174). The PC stands at the waiting instruction, but for `join`. -/
inductive Hold
  | none
  | sleep (till : Nat)
  | join (at_ start : Nat)
  | lane (mask : BitVec 64) (start : Nat)
  | barWait (tok : Word)
  | barSync (tok : Word)
  | fence (order : Order) (scope : Scope) (remote : Bool) (stage : Nat)
  | waita (r : Req) (cond : WCond) (b : Nat) (d : Field) (n : Nat) (till : Option Nat) (stat : Option Nat) (mon : Bool)
      (next : Nat) (page : Option Nat) (orig : Origin)
  | redeem (r : Redeem)
  | waitany (tkts : List Dword) (d : Field) (ps : Nat)
  /-- Parked on the matrix engine's or the transfer engine's queue (R372 step 9), or on the entries that `need` names by core (R418). -/
  | engine (mat : Bool) (need : List (Nat × Nat)) (orig : Origin)
  /-- Held at step 11 of R372 with the registered command. -/
  | sparse (cmd : Nat)
  /-- Held at `KJOIN` until the producer with this number completes (R147, R174). -/
  | kjoin (seq : Nat)
  /-- A fetch, or the read of a codebook, that waits for a page since a clk; `failed` when the pager has failed it. The address and the
  instruction are what a trap reports. -/
  | miss (page : Nat) (failed : Bool) (addr : Nat) (orig : Origin) (start : Nat)
  | lineClr (r : Req) (page : Option Nat) (orig : Origin)
  /-- Stands at an instruction that could not issue: its trap needs the frame of the slot (`true`, R480), or a lane needs an entry of the full
  siding (R456). -/
  | stand (frame : Bool)
  /-- A lane that is settled waits for the other lanes of its issue group (R305, R363); its PC stands after the instruction. -/
  | settled (orig : Origin)
  /-- Held for the read of a codebook, by a matrix command when `mat`, since a clk (R86). -/
  | codebook (slot : Nat) (mat : Bool) (start : Nat) (page : Option Nat) (orig : Origin)
deriving DecidableEq, Repr

/-- The error set and its flags (R479). -/
structure Errs where
  x    : BitVec 64
  v    : BitVec 64
  ue   : Bool
  page : Bool
  /-- The line of the sided store that failed first, which a deferred PAGE trap reports (R456). -/
  va   : Nat
deriving DecidableEq, Repr

structure Thread where
  pc     : Nat
  regs   : Regs
  o      : NMap Ent
  l0     : Ent
  l1     : Ent
  pend   : BitVec 7
  prods  : List Prod
  seq    : Nat
  hold   : Hold
  errs   : Errs
  /-- Errors that arrive in the handler, of accesses issued before the trap: they are taken after `ERET` (R485). -/
  later  : Errs
  handler : Bool
  bank   : Regs
  bpend  : BitVec 7
  report : List Report
  live   : Bool
  last   : Nat
deriving DecidableEq, Repr

/-! ### Workgroups (spec/07_group.md, spec/10_array.md R252, spec/16_barrier.md R430) -/

/-- The trap frame of a slot (R481). -/
structure Frame where
  cause  : Nat
  kind   : Nat
  detail : Nat
  lanes  : BitVec 64
  mask   : BitVec 64
  done   : BitVec 64
  pc     : Nat
  ipc    : Nat
  insn   : List Word
  addr   : Nat
  next   : Nat
  npMask : BitVec 64
  npAddr : Nat
  nuMask : BitVec 64
  nuAddr : Nat
deriving DecidableEq, Repr

/-- Where a slot stands (R155). -/
inductive Station | window | yard | eligible | free
deriving DecidableEq, Repr

structure Slot where
  place : Station
  since : Nat
  last  : Nat
  busy  : Bool
  frame : Frame
  /-- Its number within the bay, which a restored workgroup keeps (R142, R228). -/
  num   : Nat
deriving DecidableEq, Repr

/-- The state of a gang: its array registers, mask status, footprints and barrier masks. -/
structure Gang where
  arr   : NMap (BitVec 128)
  mask  : BitVec 64
  fp    : NMap (Nat × Nat)
  bars  : NMap (BitVec 64)
deriving DecidableEq, Repr

/-- Count and phase of a barrier above the gang (R430). -/
structure Phase where
  count : Nat
  phase : Bool
deriving DecidableEq, Repr

/-- A pre-emption mechanism (R166). -/
inductive Mech | drain | save | flush
deriving DecidableEq, Repr

/-- A pre-emption request in force (R170, R171). -/
structure Preempt where
  bySuspend : Bool
  mech      : Mech
  start     : Nat
  bound     : Nat
  /-- The page that the write of the save region waits for, and whether the pager has failed it (R457). -/
  wait      : Option (Nat × Bool)
  /-- A drain was abandoned at its bound, which is a miss (R172). -/
  missed    : Bool
deriving DecidableEq, Repr

structure Wg where
  kernel  : Nat
  ctx     : Nat
  lin     : Nat
  core    : Nat
  width   : Nat
  placed  : Nat
  threads : NMap Thread
  slots   : NMap Slot
  gangs   : NMap Gang
  scratch : NMap Byte
  empty   : List Nat
  acc     : NMap Word
  badScratch : List Nat
  badAcc  : List Nat
  bars    : NMap Phase
  upper   : NMap Nat
  progress : Nat
  preempt : Option Preempt
  engStuck : Option Nat
  ended   : Bool
  saveAt  : Nat
deriving DecidableEq, Repr

/-- A workgroup whose state stands in its save region (R173, R177). -/
structure Saved where
  wid    : Nat
  kernel : Nat
  ctx    : Nat
  lin    : Nat
  core   : Nat
  saveAt : Nat
  bySuspend : Bool
  /-- The numbers of its slots in their bays, which it reads again after the restore (R228). -/
  nums   : List Nat
  /-- What the lane block of a thread in its handler has no place for: its pending reports, its error set and the errors for after `ERET`
  (notes/assumptions/21.md). -/
  kept   : NMap (List Report × Errs × Errs)
deriving DecidableEq, Repr

/-! ### Kernels, queues and contexts -/

/-- The states of a kernel (R136). -/
inductive KState | queued | waiting | dispatching | running | draining | complete | faulted | killed
deriving DecidableEq, Repr

/-- How a kernel that is being stopped will end, once no request of it is outstanding (R137 step 5): its final state, the cause, and the
address of its KERNEL_FAULT. -/
structure Stop where
  state : KState
  cause : Nat
  addr  : Nat
deriving DecidableEq, Repr

structure Kern where
  krec   : BitVec 2048
  state  : KState
  cause  : Nat
  ctx    : Nat
  queue  : Option Nat
  parent : Option Nat
  order  : Nat
  prio   : Nat
  parse  : Nat
  next   : Nat
  ret    : List Nat
  ended  : Nat
  bars   : NMap Phase
  donePend : Bool
  /-- Since when it has been QUEUED without room on any core (R168). -/
  roomless : Option Nat
  addr   : Nat
  /-- The queue has not been unbound since the record was parsed (R135). -/
  held   : Bool
  /-- The kernels that it waits for, by their entries (R127). -/
  deps   : List Nat
  stop   : Option Stop
  /-- The clk at which a workgroup of it was last placed on a core, restored to it, saved or ended there, by core (R441). -/
  moved  : NMap Nat
  /-- A `KJOIN` has returned its ended status, so that its handle names no kernel, though its completion word may still wait (R135, R139). -/
  joined : Bool
deriving DecidableEq, Repr

/-- The states of a queue (R118). -/
inductive QState | free | stopped | running | halted
deriving DecidableEq, Repr

structure Queue where
  cfgCtx   : BitVec 12
  cfgPrio  : BitVec 3
  cfgSrc   : Bool
  cfgRes   : BitVec 48
  state    : QState
  armed    : Bool
  err      : Nat
  tag      : Nat
  src      : Bool
  prio     : BitVec 3
  parsed   : BitVec 32
  /-- Records parsed since BIND, not reduced (R134). -/
  index    : Nat
  posted   : List (BitVec 2048)
deriving DecidableEq, Repr

/-- The states of a context (R97). -/
inductive CState | free | built | active | suspended | faulted | tornDown
deriving DecidableEq, Repr

structure Ctx where
  state : CState
  held  : Bool
  words : NMap Dword
  /-- The cause of a context fault whose kernels have not all ended, so that its step 4 is still to come (R102). -/
  fault : Option Nat
deriving DecidableEq, Repr

/-! ### Cores -/

/-- A valid byte of an L1 line (R349). -/
structure Cell1 where
  val   : Byte
  dirty : Bool
deriving DecidableEq, Repr

/-- An L1 line: valid bytes, the context and interleave set it was reached through, `reserved` by gangs (workgroup, gang, array),
and the release record it is held for (R324); the contexts that wrote its dirty bytes (R103), and since when it has been dirty or its hold
has been over (R314). -/
structure Line1 where
  cells : NMap Cell1
  ctx   : Nat
  ilv   : Nat
  set   : Nat
  resv  : List (Nat × Nat × Nat)
  held  : Option Scope
  writers : List Nat
  since : Nat
deriving DecidableEq, Repr

/-- A write grant (R455): page of the global IA, context, and whether the page lies in the far tier. -/
structure Grant where
  page : Nat
  ctx  : Nat
  far  : Bool
deriving DecidableEq, Repr

/-- The states of a siding entry (R456). -/
inductive SState | grant | pager | replay
deriving DecidableEq, Repr

/-- A siding entry: one thread's bytes for one line, or one `RED` lane (R456). -/
structure Side where
  id    : Nat
  wid   : Nat
  t     : Nat
  ctx   : Nat
  kernel : Nat
  va    : Nat
  gia   : Nat
  ilv   : Nat
  set   : Nat
  bytes : NMap Byte
  red   : Option AtomReq
  near  : Bool
  state : SState
  /-- A release store's scope, when the entry is one (R324). -/
  rel   : Option Scope
  svc   : Nat
  born  : Nat
  /-- The clks at which the instructions issued whose bytes it holds, and whether the thread was in its handler then (R265, R485). -/
  marks : List Nat
  handler : Bool
deriving DecidableEq, Repr

/-- A byte range in an engine's space: scratchpad of a workgroup, accumulator store of a workgroup, or global of a context. -/
inductive Space
  | scratch (wid : Nat)
  | acc (wid : Nat)
  | global (ctx : Nat)
deriving DecidableEq, Repr

/-- A range of the interlocking table (R416). -/
structure Lock where
  cmd   : Nat
  space : Space
  dest  : Bool
  lo    : Nat
  hi    : Nat
deriving DecidableEq, Repr

/-- A command of the transfer or matrix engine (R374, R391): the instruction, the lane it acts for, and what acceptance captured:
its record's words, its operands and its ranges. -/
structure Cmd where
  id      : Nat
  instr   : Instr
  wid     : Nat
  t       : Nat
  ctx     : Nat
  kernel  : Nat
  gang    : Nat
  seq     : Nat
  record  : List Dword
  args    : List Nat
  started : Bool
  moved   : Bool
  at_     : Nat
  /-- The clk at which it started. -/
  begun   : Nat
  cause   : Nat
  info    : Nat
  vals    : List Word
  /-- The page whose mapping it waits for (R457), and those that the pager has failed. -/
  wait    : Option Nat
  bad     : List Nat
deriving DecidableEq, Repr

/-- A line-buffer set of `XFER.IM2C` (R402): the command that filled it, by workgroup, record and the coordinates c, ow0 and n, and the
bytes of the input rows kept, by h and VA. -/
structure LineBuf where
  set    : Nat
  wid    : Nat
  record : List Dword
  coords : List Nat
  rows   : NMap (NMap Byte)
deriving DecidableEq, Repr

/-- A drain of a core that a slice ordered (R326): the lines with dirty bytes, the number of the last record that the slice had registered,
and the request that waits for it: workgroup, thread and producer. -/
structure Drain where
  slice : Nat
  lines : List Nat
  upTo  : Nat
  who   : Option (Nat × Nat × Option Nat)
deriving DecidableEq, Repr

structure Core where
  l1     : NMap Line1
  grants : List Grant
  siding : List Side
  sideId : Nat
  locks  : List Lock
  xq     : List Cmd
  mq     : List Cmd
  cmdId  : Nat
  lbufs  : List LineBuf
  /-- Codebooks held: (kernel, slot) and the 1,024 bytes (R86). -/
  books  : List (Nat × Nat × List Byte)
  /-- Instruction-fetch copies: fetch block by context and VA block, with its eight words (R37). -/
  icache : List (Nat × Nat × List Word)
  perf   : NMap Dword
  dlmT   : BitVec 32
  dlmX   : BitVec 32
  dlmM   : BitVec 32
  mcast  : Option Nat
  /-- Matrix commands that are registered and wait for the metadata check (R372 step 11). -/
  pend   : List Cmd
  /-- Since when the transfer queue has been full (R493). -/
  fullAt : Option Nat
  drains : List Drain
deriving DecidableEq, Repr

/-! ### Slices and the directory -/

/-- The states of a ticket entry (R290). -/
inductive TState | free | pending | ready | redeeming | orphaned
deriving DecidableEq, Repr

/-- A ticket-table entry (R290) with its pinned lines (R289) and what its service still has to read. -/
structure Ticket where
  state    : TState
  gen      : BitVec 8
  ctx      : Nat
  lines    : Nat
  svc      : Nat
  poison   : BitVec 16
  /-- What the fetch under way has found, which SERVICED makes `svc` and `poison` (R294). -/
  svcNew   : Nat
  poisonNew : BitVec 16
  rekeyed  : Bool
  dropped  : Bool
  inflight : Bool
  /-- The block's first byte: its global IA with the interleave set it was reached through. -/
  ia       : Nat
  ilv      : Nat
  set      : Nat
  near     : Bool
  /-- The class, core and kernel of the fetch, for its deadline (R466). -/
  cls      : Nat
  core     : Nat
  kernel   : Nat
  wait     : Option Nat
  /-- The lines of the block that are still to be read, and the first bytes of the pieces of them that have been (R296). -/
  left     : List Nat
  got      : List Nat
  /-- The clk at which the fetch was issued, and at which the entry was made (R294). -/
  born     : Nat
  alloc    : Nat
  ready    : Nat
  data     : NMap Byte
  freedAt  : Nat
  /-- The thread that issued the fetch: workgroup and thread (R297). -/
  issuer   : Nat × Nat
  /-- Who redeems it: core, workgroup, thread. -/
  redeemer : Option (Nat × Nat × Nat)
  /-- The transfer command that redeems it into scratchpad, by core and identifier (R306). -/
  byCmd    : Option (Nat × Nat)
deriving DecidableEq, Repr

/-- A slot of a release-record entry (R325), with the number of its last registration at the slice (R326). -/
structure RecSlot where
  core  : Nat
  scope : Scope
  no    : Nat
deriving DecidableEq, Repr

/-- A visitor line with the version it was received under (R350, R357). -/
structure Visitor where
  data  : NMap Byte
  dirty : Bool
  ver   : Nat
deriving DecidableEq, Repr

/-- A miss-table entry: the page, its event kind, the context it was posted to, whether the event was dropped, and the time of the
last post (R457). -/
structure Miss where
  page    : Nat
  kind    : Nat
  ctx     : Nat
  info    : Nat
  dropped : Bool
  posted  : Nat
deriving DecidableEq, Repr

structure Slice where
  tickets  : NMap Ticket
  /-- Counter that orders the entries by when they became FREE (R291). -/
  freeNo   : Nat
  waiting  : List (Nat × Nat × Nat)
  records  : NMap (List RecSlot)
  monitors : NMap (List (Nat × Nat))
  misses   : List Miss
  tierPosts : NMap Nat
  visitors : NMap Visitor
  wbuf     : NMap Visitor
  lastScan : Nat
  /-- Registrations of release records so far. -/
  recNo    : Nat
  /-- The counters of the visit filter that are not 0 (R351). -/
  visit    : NMap Nat
deriving DecidableEq, Repr

/-- The states of a directory entry (R353). -/
inductive DState | i | s | e | o | m
deriving DecidableEq, Repr

/-- A directory entry of a line (R352). -/
structure Dir where
  state  : DState
  busy   : Bool
  ver    : Nat
  owner  : Option Agent
  slices : List Nat
  peers  : List Nat
  host   : Bool
  way    : Nat
  used   : Nat
  /-- The home slice of the line, whose visit filter counts the entry (R351). -/
  home   : Nat
deriving DecidableEq, Repr

/-- A request of an agent that waits in a half's queue (R354); the agent is numbered as `dir.owner` numbers it. -/
structure DirReq where
  rdx   : Bool
  slice : Nat
  line  : Nat
deriving DecidableEq, Repr

/-! ### Frames -/

/-- A pool of frames (R453): its size, its free list as runs of consecutive frames from the top of the stack, and its frame table
entries that are not zero. -/
structure Pool where
  size   : Nat
  up     : Bool
  free   : List (Nat × Nat)
  frames : Nat
  table  : NMap (BitVec 32)
deriving DecidableEq, Repr

/-! ### Links, power, firmware -/

/-- The states of a Skoen link (R499). -/
inductive LState | down | training | up | degraded | retiring | failed
deriving DecidableEq, Repr

structure Link where
  peer    : BitVec 4
  res     : BitVec 60
  state   : LState
  lanes   : BitVec 8
  err     : Nat
  replays : Nat
  losses  : Nat
  /-- The sequence number of the next frame, and the replays of it in a row (R497). -/
  rxSeq   : Nat
  replayRun : Nat
  /-- The sending side (R497): the sequence number of the next frame, the frames that are not acknowledged, and the replays of the first of
  them in a row. -/
  txSeq   : Nat
  txBuf   : List Nat
  txRun   : Nat
  /-- Requests sent on the link that the peer has not answered: transaction identifier, peer and IA there (R501, R503). -/
  opn     : List (Nat × Nat × Nat)
deriving DecidableEq, Repr

/-- The firmware's states (R517). -/
inductive FwState | running | installing | recovery
deriving DecidableEq, Repr

structure Firmware where
  addr    : Dword
  len     : Dword
  busy    : Bool
  state   : FwState
  armed   : Bool
  status  : Nat
  version : Nat
  /-- The version of the stored image, and whether it passes its check. -/
  image   : Nat
  valid   : Bool
  began   : FwState
deriving DecidableEq, Repr

/-- The copies of a line that was reached through interleave sets with different homes (R109): the home whose copy the frame holds, and the
copies of the others. -/
structure HomeCopies where
  home   : Nat
  others : NMap (List Byte)
deriving DecidableEq, Repr

/-- A CXL memory event (R512): the frames of a pool that the device adds, or takes away. -/
structure CxlEvent where
  add    : Bool
  pool   : Nat
  frame  : Nat
  frames : Nat
deriving DecidableEq, Repr

/-- The archive (R515). -/
structure Archive where
  soft    : Nat
  uncorr  : Nat
  retired : Nat
  resets  : Nat
  cross   : NMap Nat
  dlmT    : Nat
  dlmX    : Nat
  dlmM    : Nat
  maps    : NMap (List Nat)
  bands   : NMap Nat
deriving DecidableEq, Repr

structure Power where
  tol     : BitVec 32
  retain  : Bool
  /-- The reserved bits [63:33] of `PWRCTL`, which are read and written and have no effect (R510). -/
  res     : BitVec 31
  state   : Nat
  /-- The device enters the state `goal`, or, when that is 0, leaves one, by the clk `due` at the latest (R510, R511). -/
  moving  : Bool
  goal    : Nat
  due     : Nat
  off     : List Nat
  thr     : NMap Nat
  cattemp : Bool
deriving DecidableEq, Repr

/-- Host-visible registers of the device that no other part holds. -/
structure Regs0 where
  stacksUp : BitVec 32
  diesUp   : BitVec 8
  icUp     : BitVec 2
  degraded : Bool
  homemap  : List Nat
  ctxarg   : Dword
  ctxBusy  : Bool
  ctxStatus : Nat
  ctxDetail : Nat
  suspending : Option Nat
  pcEnable : Bool
  pcRes    : BitVec 31
  pcWait   : BitVec 16
  pcBound  : BitVec 16
  prRequests : BitVec 32
  prMisses : Nat
  prMech   : Nat
  prMiss   : Bool
  ptValid  : Bool
  ptLpa    : Nat
  hUnit    : Bool
  hThermal : Bool
  hPeer    : Bool
  hChannel : Bool
  hlRate   : Nat
  hlWidth  : Nat
  hlCxl    : Bool
  childSerial : Nat
  rrQueue  : Nat
deriving DecidableEq, Repr

/-- The issue group that the running instruction acts for (notes/assumptions/4.md): its core, workgroup, slot, threads, PC and words. -/
structure Issue where
  core  : Nat
  wid   : Nat
  slot  : Nat
  lanes : List Nat
  pc    : Nat
  words : List Word
  /-- The group did not issue: its threads stay at the instruction. -/
  held  : Bool
deriving DecidableEq, Repr

structure State where
  clk      : Nat
  regs     : Regs0
  ctxs     : NMap Ctx
  queues   : NMap Queue
  kernels  : NMap Kern
  wgs      : NMap Wg
  saved    : List Saved
  cores    : NMap Core
  slices   : NMap Slice
  dir      : NMap Dir
  dirVers  : NMap Nat
  dirQueue : List DirReq
  /-- Requests that found a queue full, with the clk at which their sender tries again (R354), and the count that orders uses of entries. -/
  dirRetry : List (DirReq × Nat)
  dirUse   : Nat
  pools    : NMap Pool
  mem      : List Host.Cell
  /-- Lines that have copies at several homes; none while software keeps R109. -/
  homes    : NMap HomeCopies
  poison   : List Nat
  links    : NMap Link
  /-- Responses kept for peers until they acknowledge them: peer, transaction identifier, data; and the next identifier of this device's own
  requests (R503). -/
  peerDone : List (Nat × Nat × List Byte)
  txn      : Nat
  power    : Power
  fw       : Firmware
  arch     : Archive
  archStored : Archive
  msi      : List Nat
  /-- The CXL memory events reported to the host, oldest first (R512). -/
  cxlEvents : List CxlEvent
  /-- Which workgroup number a dispatch order gives next (notes/assumptions/4.md). -/
  wgSerial : Nat
  kernOrder : Nat
  agenda   : List Turn
  turnNo   : Nat
  freeCtr  : Nat
  issue    : Issue
deriving DecidableEq, Repr

/-! ### Faults and refusals -/

/-- Why the machine stops. -/
inductive Fault
  /-- An access to a physical address that no memory backs.  No step raises it: the manual gives every such access a trap, an engine cause or a
  status (R108, R447, R451), and those are modelled.  Safe. -/
  | noMemory (pa : Nat)
deriving DecidableEq, Repr

/-- Why an instruction has no meaning. -/
inductive Refusal
  /-- Raised by `exec` for an instruction that is not modelled yet; it names the mnemonic.  Safe. -/
  | notModelled (mnemonic : String)
deriving DecidableEq, Repr

/-! ### Reset values -/

def Ent.zero : Ent := ⟨0, ⟨0, 0⟩⟩
def XReg.zero : XReg := ⟨0, ⟨0, 0⟩, true⟩
def VReg.zero : VReg := ⟨0, true⟩
def Regs.zero : Regs := ⟨[], [], 0⟩
def Errs.zero : Errs := ⟨0, 0, false, false, 0⟩
def Frame.zero : Frame := ⟨0, 0, 0, 0, 0, 0, 0, 0, [], 0, 0, 0, 0, 0, 0⟩
def Gang.zero : Gang := ⟨[], 0, [], []⟩
def Phase.zero : Phase := ⟨0, false⟩

def Thread.zero : Thread :=
  { pc := 0, regs := .zero, o := [], l0 := .zero, l1 := .zero, pend := 0, prods := [], seq := 0, hold := .none,
    errs := .zero, later := .zero, handler := false, bank := .zero, bpend := 0, report := [], live := false, last := 0 }

def Slot.zero : Slot := ⟨.free, 0, 0, false, .zero, 0⟩

def Wg.zero : Wg :=
  { kernel := 0, ctx := 0, lin := 0, core := 0, width := 8, placed := 0, threads := [], slots := [], gangs := [],
    scratch := [], empty := [], acc := [], badScratch := [], badAcc := [], bars := [], upper := [], progress := 0,
    preempt := none, engStuck := none, ended := false, saveAt := 0 }

def Kern.zero : Kern :=
  { krec := 0, state := .queued, cause := 0, ctx := 0, queue := none, parent := none, order := 0, prio := 0, parse := 0,
    next := 0, ret := [], ended := 0, bars := [], donePend := false, roomless := none, addr := 0,
    held := true, deps := [], stop := none, moved := [], joined := false }

def Queue.zero : Queue :=
  { cfgCtx := 0, cfgPrio := 0, cfgSrc := false, cfgRes := 0, state := .free, armed := false, err := 0, tag := 0,
    src := false, prio := 0, parsed := 0, index := 0, posted := [] }

def Ctx.zero : Ctx := ⟨.free, false, [], none⟩

def Line1.zero : Line1 := ⟨[], 0, 0, 0, [], none, [], 0⟩

def Core.zero : Core :=
  { l1 := [], grants := [], siding := [], sideId := 0, locks := [], xq := [], mq := [], cmdId := 0, lbufs := [],
    books := [], icache := [], perf := [], dlmT := 0, dlmX := 0, dlmM := 0, mcast := none, pend := [],
    fullAt := none, drains := [] }

def Ticket.zero : Ticket :=
  { state := .free, gen := 0, ctx := 0, lines := 0, svc := 0, poison := 0, svcNew := 0, poisonNew := 0, rekeyed := false, dropped := false,
    inflight := false, ia := 0, ilv := 0, set := 0, near := false, cls := 0, core := 0, kernel := 0, wait := none, left := [], got := [],
    born := 0, alloc := 0, ready := 0, data := [], freedAt := 0,
    issuer := (0, 0), redeemer := none, byCmd := none }

def Slice.zero : Slice :=
  { tickets := [], freeNo := 0, waiting := [], records := [], monitors := [], misses := [], tierPosts := [],
    visitors := [], wbuf := [], lastScan := 0, recNo := 0, visit := [] }

def Dir.zero : Dir := ⟨.i, false, 0, some (.slice 0), [], [], false, 0, 0, 0⟩

def Link.zero : Link :=
  { peer := 0, res := 0, state := .down, lanes := 0, err := 0, replays := 0, losses := 0, rxSeq := 0, replayRun := 0,
    txSeq := 0, txBuf := [], txRun := 0, opn := [] }

def Archive.zero : Archive := ⟨0, 0, 0, 0, [], 0, 0, 0, [], []⟩

/-- A pool of `f` frames as reset fills it: R = 2T + 1 frames are reserved and the others free, the lowest on top (R453). -/
def Pool.fresh (f : Nat) (up root : Bool) : Pool :=
  let t := (4 * f + 65535) / 65536
  let r := 2 * t + 1
  { size := f, up := up, free := if r < f then [(r, f - r)] else [], frames := f - r,
    table := if root then [(2 * t, 0x10001)] else [] }

/-- The stack whose pool holds the root of the translation tree: the lowest-numbered one in service (R448), by its own bit alone (DESIGN CHOICE,
notes/assumptions/46.md). -/
def rootStack (stks : BitVec 32) : Nat := ((List.range 32).find? fun k => stks.getLsbD k).getD 0

/-- `homemap` of the units in service (R446): the entries of slices out of service go to those in service in turn. -/
def buildHomemap (stks : BitVec 32) (dies : BitVec 8) : List Nat :=
  let ok := fun n => stks.getLsbD (n / 2) && dies.getLsbD (n / 8)
  let good := (List.range 64).filter ok
  let bad := (List.range 64).filter fun n => !ok n
  (List.range 64).map fun n => if ok n then n else good.getD (bad.idxOf n % max good.length 1) n

/-- LPA[40:12] of the root node: frame 2T of the root stack (R448, R453). -/
def rootLpa (stks : BitVec 32) : Nat := (rootStack stks * 2 ^ 36 + 120 * 65536) / 4096

/-- The registers after a reset with these units in service.  `dir_degraded` is 1 unless both interchange dies are (DESIGN CHOICE where none is,
notes/assumptions/46.md). -/
def Regs0.fresh (stks : BitVec 32) (dies : BitVec 8) (ics : BitVec 2) : Regs0 :=
  { stacksUp := stks, diesUp := dies, icUp := ics, degraded := ics != 3, homemap := buildHomemap stks dies, ctxarg := 0,
    ctxBusy := false, ctxStatus := 0, ctxDetail := 0, suspending := none, pcEnable := false, pcRes := 0, pcWait := 100,
    pcBound := 50, prRequests := 0, prMisses := 0, prMech := 0, prMiss := false, ptValid := false, ptLpa := 0,
    hUnit := false, hThermal := false, hPeer := false, hChannel := false, hlRate := 0, hlWidth := 0, hlCxl := false,
    childSerial := 1, rrQueue := 0 }

/-- The pools after reset: one per stack, and the capacity ports with no expander attached (notes/assumptions/9.md). -/
def freshPools (stks : BitVec 32) : NMap Pool :=
  (List.range 32).map (fun k => (k, Pool.fresh Config.stackFrames (stks.getLsbD k) (k == rootStack stks))) ++
  [(32, Pool.fresh 0 false false), (33, Pool.fresh 0 false false)]

/-- The machine right after a reset in which every unit passes self-test. -/
def State.reset : State :=
  { clk := 0, regs := .fresh 0xFFFFFFFF 0xFF 3, ctxs := [], queues := [], kernels := [], wgs := [], saved := [], cores := [],
    slices := [], dir := [], dirVers := [], dirQueue := [], dirRetry := [], dirUse := 0, pools := freshPools 0xFFFFFFFF, mem := [], homes := [], poison := [],
    links := [], peerDone := [], txn := 0,
    power := { tol := 0, retain := false, res := 0, state := 0, moving := false, goal := 0, due := 0, off := [], thr := [], cattemp := false },
    fw := { addr := 0, len := 0, busy := false, state := .running, armed := false, status := 0, version := 0, image := 1, valid := true,
            began := .running },
    arch := .zero, archStored := .zero, msi := [], cxlEvents := [], wgSerial := 0, kernOrder := 0, agenda := [], turnNo := 0, freeCtr := 0,
    issue := { core := 0, wid := 0, slot := 0, lanes := [], pc := 0, words := [], held := false } }

end Sys2Proof.Machine
end

