-- ==== Sys2Proof/Machine/Maps.lean ====
section
/-!
DEFINITION. Named operations on maps, on lists, and on memory as a canonical list of cells; byte order is decided here once
(R4).
-/
namespace Sys2Proof

namespace NMap
variable {α : Type}

/-- The entry at a key. -/
def get? : NMap α → Nat → Option α
  | [], _ => none
  | (i, a) :: m, k => if i = k then some a else get? m k

/-- The entry at a key, or a default. -/
def getD (m : NMap α) (k : Nat) (d : α) : α := (m.get? k).getD d

/-- Put an entry, keeping rising keys when they rise. -/
def set : NMap α → Nat → α → NMap α
  | [], k, a => [(k, a)]
  | (i, b) :: m, k, a =>
    if k < i then (k, a) :: (i, b) :: m
    else if k = i then (k, a) :: m
    else (i, b) :: set m k a

/-- Remove a key. -/
def erase (m : NMap α) (k : Nat) : NMap α := m.filter fun e => e.1 ≠ k

/-- Change the entry at a key, from a default when there is none. -/
def update (m : NMap α) (k : Nat) (d : α) (f : α → α) : NMap α := m.set k (f (m.getD k d))

def has (m : NMap α) (k : Nat) : Bool := (m.get? k).isSome

def keys (m : NMap α) : List Nat := m.map Prod.fst

def mapVals (f : Nat → α → α) (m : NMap α) : NMap α := m.map fun e => (e.1, f e.1 e.2)

end NMap

/-! ### Numbers -/

/-- `x[n-1:0]` as a two's-complement integer (R71). -/
def sext (x : Int) (n : Nat) : Int :=
  let v := x % 2 ^ n
  if v ≥ 2 ^ (n - 1) then v - 2 ^ n else v

/-- The `n`-bit pattern of an integer (R71). -/
def trunc (x : Int) (n : Nat) : Nat := (x % 2 ^ n).toNat

/-- A register pattern as a signed integer. -/
def sint (w : Word) : Int := w.toInt

/-- The register pattern of an integer. -/
def toWord (x : Int) : Word := BitVec.ofInt 32 x

/-- Round a quotient up. -/
def ceilDiv (a b : Nat) : Nat := (a + b - 1) / b

/-- Round a number up to a multiple. -/
def roundUp (a b : Nat) : Nat := ceilDiv a b * b

/-- The bits of a 64-bit mask that are set, lowest first. -/
def bitsOf (m : BitVec 64) : List Nat := (List.range 64).filter fun i => m.getLsbD i

/-- A 64-bit mask with the listed bits set. -/
def maskOf (l : List Nat) : BitVec 64 := l.foldl (fun m i => m ||| (1#64 <<< i)) 0

/-- Bytes of a number, lowest first. -/
def bytesOf (n : Nat) : Nat → List Byte
  | 0 => []
  | k + 1 => .ofNat 8 n :: bytesOf (n / 256) k

/-- A number from bytes, lowest first. -/
def ofBytes : List Byte → Nat
  | [] => 0
  | b :: l => b.toNat + 256 * ofBytes l

/-- The 32-bit words of a number, lowest first. -/
def wordList (n : Nat) : Nat → List Word
  | 0 => []
  | k + 1 => .ofNat 32 n :: wordList (n / 2 ^ 32) k

/-- A number from 32-bit words, lowest first. -/
def ofWords : List Word → Nat
  | [] => 0
  | w :: l => w.toNat + 2 ^ 32 * ofWords l

/-- Keep the first of equal entries. -/
def dedup (l : List Nat) : List Nat := l.foldl (fun r x => if r.contains x then r else r ++ [x]) []

/-- Replace the entry at an index. -/
def listSet {α : Type} (l : List α) (p : α → Bool) (f : α → α) : List α := l.map fun a => if p a then f a else a

namespace Memory

/-- What a byte that nothing has written reads as (notes/assumptions/1.md, DESIGN CHOICE). -/
def unlisted : Byte := 0

/-- Read one byte. -/
def read (m : List Host.Cell) (a : Nat) : Byte := NMap.getD m a unlisted

/-- Write one byte, keeping the canonical form: an entry never equals what an unlisted address reads as. -/
def write (m : List Host.Cell) (a : Nat) (b : Byte) : List Host.Cell :=
  if b = unlisted then NMap.erase m a else NMap.set m a b

/-- The canonical form: addresses strictly rising, no entry equal to the unlisted value. -/
def wf : List Host.Cell → Bool
  | [] => true
  | [c] => c.2 != unlisted
  | c :: d :: m => c.2 != unlisted && c.1 < d.1 && wf (d :: m)

/-- `n` bytes from an address. -/
def readN (m : List Host.Cell) (a n : Nat) : List Byte := (List.range n).map fun i => read m (a + i)

/-- Store bytes from an address. -/
def writeN (m : List Host.Cell) (a : Nat) : List Byte → List Host.Cell
  | [] => m
  | b :: l => writeN (write m a b) (a + 1) l

/-- A little-endian number of `n` bytes. -/
def readLE (m : List Host.Cell) (a n : Nat) : Nat := ofBytes (readN m a n)

def writeLE (m : List Host.Cell) (a n v : Nat) : List Host.Cell := writeN m a (bytesOf v n)

/-- Zero a range: every entry in it goes. -/
def zero (m : List Host.Cell) (a n : Nat) : List Host.Cell := m.filter fun c => c.1 < a || a + n ≤ c.1

/-- Copy the entries of a range to another place, over what was there (R463 step 3). -/
def move (m : List Host.Cell) (from_ to_ n : Nat) : List Host.Cell :=
  let src := m.filter fun c => from_ ≤ c.1 && c.1 < from_ + n
  src.foldl (fun r c => write r (to_ + (c.1 - from_)) c.2) (zero m to_ n)

end Memory
end Sys2Proof
end

