-- ==== Sys2Proof/Machine/Uses.lean ====
section
/-!
DEFINITION. The operands of each thread instruction: which register fields it reads and writes, how wide, of which class and
tier, and which predicates; and, beside them, the checks of a form that no single field shows.  Decoding (R35), the register
limits (R184, R484), readiness (R45, R188, R189) and the emptying of destinations (R187) all read this one table.
-/
namespace Sys2Proof

/-- Which classes an operand position accepts (R46). -/
inductive Acc | x | v | any
deriving DecidableEq, Repr

/-- Which tiers a source position accepts (R43): any, main or operand file, main only. -/
inductive Tiers | all | mainOpnd | mainOnly
deriving DecidableEq, Repr

/-- A source operand: its field, the number of registers it covers, and what the position accepts. -/
structure Src where
  f   : Field
  n   : Nat
  acc : Acc
  t   : Tiers
deriving DecidableEq, Repr

/-- A destination operand.  `long` marks the destination of a long-latency producer (R187, R47). -/
structure Dst where
  f    : Field
  n    : Nat
  acc  : Acc
  t    : Tiers
  long : Bool
deriving DecidableEq, Repr

/-- The operands of one instruction.  `pr` and `pw` list the predicates it reads and writes besides the guard; `ppend` says
that those of `pw` are pending until the producer completes (R189); `side` holds the remaining checks of the form. -/
structure Uses where
  srcs  : List Src := []
  dsts  : List Dst := []
  pr    : List Nat := []
  pw    : List Nat := []
  ppend : Bool := false
  side  : Bool := true
deriving DecidableEq, Repr

namespace Use

/-- A 32-bit source in any tier. -/
def s (f : Field) (acc : Acc := .any) : Src := ⟨f, 1, acc, .all⟩
/-- A V pair or quad source (R48). -/
def s2 (f : Field) : Src := ⟨f, 2, .v, .mainOnly⟩
def s4 (f : Field) : Src := ⟨f, 4, .v, .mainOnly⟩
/-- A destination in the main or operand-file tier (R47). -/
def d (f : Field) (acc : Acc := .any) : Dst := ⟨f, 1, acc, .mainOpnd, false⟩
/-- A destination in the main tier that is not marked empty. -/
def dm (f : Field) (acc : Acc := .any) : Dst := ⟨f, 1, acc, .mainOnly, false⟩
def d2 (f : Field) : Dst := ⟨f, 2, .v, .mainOnly, false⟩
def d4 (f : Field) : Dst := ⟨f, 4, .v, .mainOnly, false⟩
/-- The destination of a long-latency producer. -/
def l (f : Field) (acc : Acc := .v) : Dst := ⟨f, 1, acc, .mainOnly, true⟩
def l2 (f : Field) : Dst := ⟨f, 2, .v, .mainOnly, true⟩
def l4 (f : Field) : Dst := ⟨f, 4, .v, .mainOnly, true⟩

/-- The field that an instruction without that operand holds (R40). -/
def zeroField : Field := ⟨.main, false, .x, 0⟩

/-- The register of a source B, if it is one. -/
def srcB (b : SrcB) (acc : Acc := .any) : List Src :=
  match b with
  | .reg f => [s f acc]
  | .wide f => [s f acc]
  | .imm16 _ => []
  | .imm32 _ => []

/-- Source B of groups 0x1 to 0x3 has no 96-bit register form (R198, R210). -/
def bInt : SrcB → Bool
  | .wide _ => false
  | _ => true

/-- Where bits [63:48] hold a third field, an immediate takes the 96-bit form (R210, R212). -/
def bIntC : SrcB → Bool
  | .reg _ => true
  | .imm32 _ => true
  | _ => false

/-- `FFMA` and `SEL` have no 16-bit immediate (R226, R241). -/
def bFpC : SrcB → Bool
  | .imm16 _ => false
  | _ => true

def alu1 (o : Alu1) : Uses := { srcs := [s o.a], dsts := [d o.d] }
def alu2 (o : Alu2) : Uses := { srcs := s o.a :: srcB o.b, dsts := [d o.d], side := bInt o.b }
def alu3 (o : Alu3) : Uses := { srcs := s o.a :: srcB o.b ++ [s o.c], dsts := [d o.d], side := bIntC o.b }
def fp1 (o : Alu1) : Uses := { srcs := [s o.a .v], dsts := [d o.d .v] }
def fp2 (o : Alu2) : Uses := { srcs := s o.a .v :: srcB o.b .v, dsts := [d o.d .v] }
def fp3 (o : Alu3) : Uses := { srcs := s o.a .v :: srcB o.b .v ++ [s o.c .v], dsts := [d o.d .v], side := bFpC o.b }
def pk2 (r a b : Field) : Uses := { srcs := [s a .v, s b .v], dsts := [d r .v] }
def pk3 (r a b c : Field) : Uses := { srcs := [s a .v, s b .v, s c .v], dsts := [d r .v] }

/-- The registers of a value of an access size (R269). -/
def regsOf : Size → Nat
  | .b8 | .b16 | .b32 => 1
  | .b64 => 2
  | .b128 => 4

def ofSize (sz : Size) (f : Field) (acc : Acc := .any) : Src :=
  match regsOf sz with
  | 1 => s f acc
  | 2 => s2 f
  | _ => s4 f

def longOfSize (sz : Size) (f : Field) (acc : Acc := .any) : Dst :=
  match regsOf sz with
  | 1 => l f acc
  | 2 => l2 f
  | _ => l4 f

/-- `.S` is legal with `.B8` and `.B16` only (R269). -/
def sgnOk (sz : Size) (sgn : Bool) : Bool := !sgn || sz == .b8 || sz == .b16

/-- A scope is 0 when the order is 0 (R270). -/
def scopeOk (o : Order) (sc : Scope) : Bool := o != .none || sc == .gang

def predOk (p : Option Nat) : Bool :=
  match p with
  | none => true
  | some k => k < 7

def memW (load stat : Bool) (w : MemW) : Bool :=
  (w.order == .none || w.order == (if load then .acq else .rel)) && scopeOk w.order w.scope &&
  (stat || w.stat.isNone) && predOk w.stat

def arrForm {ω : Type} (ok : ω → Bool) (m : ArrOp ω) : Bool :=
  m.k < 16 && (match m.form with
    | .a64 _ => true
    | .a96 _ w => ok w
    | .a128 _ w => ok w)

/-- Ticket and atomic forms have no 64-bit length (R303, R338). -/
def arrLong {ω : Type} (m : ArrOp ω) : Bool :=
  match m.form with
  | .a64 _ => false
  | _ => true

/-- The extension word of an array form, if it has one. -/
def wordOf {ω : Type} (m : ArrOp ω) : Option ω :=
  match m.form with
  | .a64 _ => none
  | .a96 _ w => some w
  | .a128 _ w => some w

def statOf (m : ArrOp MemW) : List Nat :=
  match wordOf m with
  | some w => w.stat.toList
  | none => []

def loadU (sz : Size) (sgn : Bool) (r : Field) (m : ArrOp MemW) : Uses :=
  { srcs := [s m.x], dsts := [longOfSize sz r], pw := statOf m, ppend := true,
    side := sgnOk sz sgn && arrForm (memW true true) m }

def scrW (load fe : Bool) (w : Option ScrW) : Bool :=
  match w with
  | none => true
  | some w => (w.order == .none || w.order == (if load then .acq else .rel)) && scopeOk w.order w.scope &&
      (fe || w.fe == .none)

/-- The mask of a cross-lane instruction (R232). -/
def lmask : LMask → List Src
  | .imm _ => []
  | .pair f => [s2 f]

/-- Selectors of `SREAD`: the number of registers each writes, 0 for none (R228). -/
def sreadRegs (sel : Nat) : Nat :=
  if sel ≤ 5 || (8 ≤ sel && sel ≤ 0xE) || (0x10 ≤ sel && sel ≤ 0x16) || sel == 0x18 || sel == 0x19 then 1
  else if (0x20 ≤ sel && sel ≤ 0x22) || (0x40 ≤ sel && sel ≤ 0x45) then 2
  else 0

def fmtFloat : Fmt → Bool
  | .i8 | .i4 | .vq2 | .i32 | .u32 => false
  | _ => true

/-- Highest element index of a source format of `CVT` (R230). -/
def elemMax : Fmt → Nat
  | .f32 | .f64 | .i32 | .u32 => 0
  | .bf16 | .f16 => 1
  | .e4m3 | .e5m2 | .e3m2 | .e2m3 | .i8 => 3
  | .e2m1 | .i4 => 7
  | .vq2 => 0

def fpLane : LaneOp → Bool
  | .fadd | .fmin | .fmax => true
  | _ => false

def fpAtom : AtomOp → Bool
  | .fadd | .fmin | .fmax => true
  | _ => false

/-- Sizes of an atomic operation (R340). -/
def atomSize (op : AtomOp) (sz : Size) : Bool :=
  match op with
  | .fmin | .fmax => sz == .b32
  | _ => sz == .b32 || sz == .b64

def atomAcc (op : AtomOp) : Acc := if fpAtom op then .v else .any

def atomData (op : AtomOp) (sz : Size) (f : Field) : Src :=
  match op, sz with
  | .mask, .b32 => s2 f
  | .mask, _ => s4 f
  | _, _ => ofSize sz f (atomAcc op)

def hasAcq : Order → Bool
  | .acq | .acqrel => true
  | _ => false

def wide : Scope → Bool
  | .clu | .dev | .sys => true
  | _ => false

/-- The atomic form (R339). -/
def atW (remoteOk peerOk : Bool) (w : AtW) : Bool :=
  scopeOk w.order w.scope && (!w.remote || (remoteOk && hasAcq w.order && wide w.scope)) && predOk w.stat &&
  (match w.peer with
   | none => true
   | some c => peerOk && c < 4)

def barMax : Lvl → Nat
  | .gang => 4
  | .wg => 16
  | .clu => 8
  | .stk => 4
  | .grid => 4

def barU (b : Bar) : Bool := b.num < barMax b.lvl

def cmp6 : Cond → Bool
  | .ltu | .geu => false
  | _ => true

def imm16Len (n : Nat) : Bool := 1 ≤ n && n < 65536

/-- Selectors of `HRD` and `HWR` (R488); kinds 0 to 3 are further limited by the kernel's register counts. -/
def hsel (write : Bool) (kind idx : Nat) : Bool :=
  match kind with
  | 0 => idx < 64
  | 1 => !write && idx < 64
  | 2 => !write && idx < 64
  | 3 => idx < 64
  | 4 => idx == 0
  | 5 => idx < 8
  | 6 => idx < 2
  | 7 => !write && idx < 4
  | 8 => !write && idx < 4
  | 9 => if write then idx == 8 || idx == 9 else idx < 64
  | _ => false

def mmaU (r x : Field) (fa fb : Nat) : Uses :=
  { srcs := [s x], dsts := [l r], side := fa < 8 && fb < 8 }

def accU (r x : Field) : Uses := { srcs := [s x], dsts := [l r] }

def xferU (r x c : Field) : Uses := { srcs := [s x, s4 c], dsts := [l r] }

def pageU (r a : Field) : Uses := { srcs := [s2 a], dsts := [l r] }

end Use

open Use in
/-- The operands of a thread instruction; `none` for a step of the device, and for group 0xF, whose operands are not
interpreted (R41). -/
def Instr.uses : Instr → Option Uses
  | .blockEnd => some {}
  | .nop _ | .bra _ _ | .join _ | .exit _ | .yield _ => some {}
  | .brc _ _ a (.reg b _) => some { srcs := [s a .x, s b .x] }
  | .brc _ _ a (.imm _ _) => some { srcs := [s a .x] }
  | .brp _ _ p _ => some { pr := [p], side := p < 8 }
  | .brx _ a _ => some { srcs := [s a .x] }
  | .brxAbs _ a => some { srcs := [s2 a] }
  | .call _ r _ => some { dsts := [d2 r] }
  | .callx _ r a => some { srcs := [s2 a], dsts := [d2 r] }
  | .ret _ a => some { srcs := [s2 a] }
  | .sleep _ (.imm _) => some {}
  | .sleep _ (.reg a) => some { srcs := [s a .x] }
  | .iadd _ o | .isub _ o | .imul _ o | .imulh _ _ o | .imin _ o | .imax _ o | .iminu _ o | .imaxu _ o => some (alu2 o)
  | .imad _ o | .isad _ o | .bfi _ o => some (alu3 o)
  | .ineg _ o | .iabs _ o => some (alu1 o)
  | .and _ o | .or _ o | .xor _ o | .andn _ o | .shl _ o | .shr _ o | .sar _ o | .rol _ o | .bfe _ _ o => some (alu2 o)
  | .not _ o | .bcnt _ o | .clz _ o | .ctz _ o | .bitrev _ o => some (alu1 o)
  | .blut _ o _ =>
      some { alu3 o with side := (match o.b with
        | .wide _ => true
        | _ => false) }
  | .icmp _ c pd a b | .icmpu _ c pd a b =>
      some { srcs := s a :: srcB b, pw := [pd], side := bInt b && cmp6 c && pd < 7 }
  | .pset _ _ pd pa pb => some { pr := [pa, pb], pw := [pd], side := pd < 7 && pa < 8 && pb < 8 }
  | .pmov _ r => some { dsts := [d r .x], pr := [0, 1, 2, 3, 4, 5, 6] }
  | .pmovW _ a m => some { srcs := [s a .x], pw := (List.range 7).filter fun i => m.getLsbD i }
  | .clamp _ r a (.regs b c) => some { srcs := [s a, s b, s c], dsts := [d r] }
  | .clamp _ r a (.imms _ _) => some { srcs := [s a], dsts := [d r] }
  | .widen _ r lo hi | .intvChk _ r lo hi => some { dsts := [dm r .x], side := lo.toInt ≤ hi.toInt }
  | .intvSet _ r a b => some { srcs := [s a .x, s b .x], dsts := [dm r .x] }
  | .intvGet _ r a | .intvUn _ r a => some { srcs := [s a .x], dsts := [d2 r] }
  | .mov _ .w1 r a => some { srcs := [s a], dsts := [d r] }
  | .mov _ .w2 r a => some { srcs := [s2 a], dsts := [d2 r] }
  | .mov _ .w4 r a => some { srcs := [s4 a], dsts := [d4 r] }
  | .movi _ r (.d64 _) => some { dsts := [d2 r] }
  | .movi _ r _ => some { dsts := [d r] }
  | .sel _ o p => some { srcs := s o.a :: srcB o.b, dsts := [d o.d], pr := [p], side := bFpC o.b && p < 8 }
  | .cvt _ tgt src _ sat e r a =>
      some { srcs := [if src == .f64 then s2 a else s a (if fmtFloat src then .v else .any)],
             dsts := [if tgt == .f64 then d2 r else d r],
             side := tgt != .vq2 && src != .vq2 && (!sat || tgt == .f32 || tgt == .bf16 || tgt == .f16) &&
               e ≤ elemMax src }
  | .cvtq _ r a k => some { srcs := [s4 a], dsts := [d2 r], side := k < 8 }
  | .xlane _ _ r a b m => some { srcs := [s a, s b] ++ lmask m, dsts := [d r] }
  | .pcoll _ .mask pd r pa m =>
      some { srcs := lmask m, dsts := [d2 r], pr := [pa], side := pd == 0 && pa < 8 }
  | .pcoll _ .count pd r pa m =>
      some { srcs := lmask m, dsts := [d r .v], pr := [pa], side := pd == 0 && pa < 8 }
  | .pcoll _ _ pd r pa m => some { srcs := lmask m, pr := [pa], pw := [pd], side := pd < 7 && pa < 8 && r == zeroField }
  | .lreduce _ op r a m | .lscan _ op _ r a m =>
      some { srcs := s a (if fpLane op then .v else .any) :: lmask m, dsts := [d r .v] }
  | .xeq _ b64 r a m => some { srcs := (if b64 then s2 a else s a) :: lmask m, dsts := [d2 r] }
  | .sread _ r n =>
      some { dsts := [if sreadRegs n == 2 then d2 r else d r], side := sreadRegs n != 0 }
  | .getf _ r k w => some { dsts := [d r], side := k < 8 && w < 4 }
  | .fadd _ _ o | .fsub _ _ o | .fmul _ _ o | .fmin _ o | .fmax _ o => some (fp2 o)
  | .ffma _ _ o => some (fp3 o)
  | .fcmp _ _ pd a b => some { srcs := s a .v :: srcB b .v, pw := [pd], side := pd < 7 }
  | .frnd _ _ o | .frcp _ o | .frsq _ o | .fsqrt _ o | .fexp2 _ o | .flog2 _ o | .fsin _ o | .fcos _ o | .ftanh _ o =>
      some (fp1 o)
  | .dadd _ _ _ r a b | .dmul _ _ r a b => some { srcs := [s2 a, s2 b], dsts := [d2 r] }
  | .dfma _ _ r a b c => some { srcs := [s2 a, s2 b, s2 c], dsts := [d2 r] }
  | .dcmp _ _ pd a b => some { srcs := [s2 a, s2 b], pw := [pd], side := pd < 7 }
  | .h2add _ _ r a b | .h2mul _ _ r a b | .b2add _ _ r a b | .b2mul _ _ r a b => some (pk2 r a b)
  | .pkminmax _ _ _ r a b | .amax _ _ r a b => some (pk2 r a b)
  | .h2fma _ _ r a b c | .b2fma _ _ r a b c | .f8dot _ _ _ r a b c => some (pk3 r a b c)
  | .i8dot _ _ _ r a b c => some { srcs := [s a, s b, s c], dsts := [d r .v] }
  | .vqdec _ _ _ r a b k => some { srcs := [s a, s b], dsts := [d4 r], side := k < 8 }
  | .ld _ sz sgn r m | .ldu _ sz sgn r m => some (loadU sz sgn r m)
  | .st _ sz m v => some { srcs := [s m.x, ofSize sz v], side := arrForm (memW false false) m }
  | .lds _ sz sgn r x _ w =>
      some { srcs := [s x], dsts := [longOfSize sz r], side := sgnOk sz sgn && scrW true true w }
  | .sts _ sz x _ w v => some { srcs := [s x, ofSize sz v], side := scrW false false w }
  | .ldp _ sz sgn r x _ c w =>
      some { srcs := [s x], dsts := [longOfSize sz r], side := sgnOk sz sgn && c < 4 && scrW true false (some w) }
  | .stp _ sz x _ c w v => some { srcs := [s x, ofSize sz v], side := c < 4 && scrW false false (some w) }
  | .ldXs _ r m => some { loadU .b32 false r m with dsts := [l r .x] }
  | .stXs _ m v => some { srcs := [s m.x, ⟨v, 1, .x, .mainOpnd⟩], side := arrForm (memW false false) m }
  | .lda _ sz sgn r va _ w =>
      some { srcs := [s2 va], dsts := [longOfSize sz r], side := sgnOk sz sgn && scrW true false w }
  | .sta _ sz va _ w v => some { srcs := [s2 va, ofSize sz v], side := scrW false false w }
  | .pref _ _ m | .resv _ m => some { srcs := [s m.x], side := arrForm (fun _ => true) m }
  | .resvClr _ m =>
      some { side := m.x == zeroField && m.k < 16 && (match m.form with
        | .a64 o => o == 0
        | .a96 o _ => o == 0
        | .a128 o _ => o == 0) }
  | .cctl _ _ va n => some { srcs := [s2 va], side := 1 ≤ n && n < 4096 }
  | .arraySet _ k a => some { srcs := [s4 a], side := k < 16 }
  | .arrayGet _ r k => some { dsts := [d4 r], side := k < 16 }
  | .arrayChk _ _ r => some { dsts := [d2 r] }
  | .tktLd _ try_ r m =>
      some { srcs := [s m.x], dsts := [l2 r], ppend := true,
             pw := (match wordOf m with
               | some w => w.stat.toList
               | none => []),
             side := arrLong m && arrForm (fun w => 1 ≤ w.lines && w.lines ≤ 16 && predOk w.stat &&
               (!try_ || w.stat.isSome)) m }
  | .tktRdv _ sz nf r t xo =>
      some { srcs := [s2 t, s xo],
             dsts := [match sz with
               | .b64 => d2 r
               | .b128 => d4 r
               | _ => d r .v],
             pw := nf.toList, side := predOk nf && (sz == .b32 || sz == .b64 || sz == .b128) }
  | .tktRds _ nf r t xs => some { srcs := [s2 t, s xs], dsts := [l r], pw := nf.toList, ppend := true, side := predOk nf }
  | .tktPoll _ pd t => some { srcs := [s2 t], pw := [pd], ppend := true, side := pd < 7 }
  | .tktWaitany _ r xa n ps => some { srcs := [s xa .x], dsts := [dm r .x], pw := [ps], side := 1 ≤ n && n ≤ 32 && ps < 7 }
  | .tktDrop _ sp t => some { srcs := [s2 t], pw := sp.toList, ppend := true, side := predOk sp }
  | .tktStat _ r t => some { srcs := [s2 t], dsts := [l2 r] }
  | .atom _ op r m v =>
      some { srcs := (match wordOf m with
               | some w => [s m.x, atomData op w.size v]
               | none => []),
             dsts := (match wordOf m with
               | some w => [longOfSize w.size r (atomAcc op)]
               | none => []),
             pw := (match wordOf m with
               | some w => w.stat.toList
               | none => []),
             ppend := true,
             side := arrLong m && arrForm (fun w => atW true false w && atomSize op w.size) m }
  | .red _ op m v =>
      some { srcs := (match wordOf m with
               | some w => [s m.x, atomData op w.size v]
               | none => []),
             side := op != .xchg && arrLong m && arrForm (fun w => atW false false w && atomSize op w.size &&
               (w.order == .none || w.order == .rel) && w.stat.isNone) m }
  | .cas _ r k x _ w new cmp =>
      some { srcs := [s x, ofSize w.size new, ofSize w.size cmp], dsts := [longOfSize w.size r], pw := w.stat.toList,
             ppend := true, side := k < 16 && atW true false w && (w.size == .b32 || w.size == .b64 || w.size == .b128) }
  | .atoms _ op r x _ w v =>
      some { srcs := [s x, atomData op w.size v], dsts := [longOfSize w.size r (atomAcc op)], pw := w.stat.toList,
             ppend := true, side := atW false true w && atomSize op w.size }
  | .cass _ r x _ w new cmp =>
      some { srcs := [s x, ofSize w.size new, ofSize w.size cmp], dsts := [longOfSize w.size r], pw := w.stat.toList,
             ppend := true, side := atW false true w && (w.size == .b32 || w.size == .b64 || w.size == .b128) }
  | .fence _ o sc remote => some { side := o != .none && (!remote || (hasAcq o && wide sc)) }
  | .waita _ r k x b _ w =>
      some { srcs := [s x, ofSize w.size b], dsts := [match w.size with
               | .b64 => d2 r
               | _ => dm r],
             pw := w.stat.toList,
             side := k < 16 && (w.order == .none || w.order == .acq) && scopeOk w.order w.scope &&
               (!w.remote || (w.order == .acq && wide w.scope)) && (w.size == .b32 || w.size == .b64) && predOk w.stat &&
               w.timeout < 4096 && (w.timeout == 0 || w.stat.isSome) }
  | .lineClr _ m => some { srcs := [s m.x], side := arrForm (fun _ => true) m && (match m.form with
      | .a96 _ _ => false
      | _ => true) }
  | .mma _ r x fa fb _ => some (mmaU r x fa fb)
  | .mmaSp _ r x ka kb fa fb _ => some { mmaU r x fa fb with side := fa < 8 && fb < 8 && !(ka == .dense && kb == .dense) }
  | .mmaMcr _ r x _ _ fa fb => some (mmaU r x fa fb)
  | .accZero _ r x | .accLd _ r x | .accSt _ r x => some (accU r x)
  | .accCvt _ r x k _ _ => some { accU r x with side := k < 8 }
  | .accAmax _ r x => some { srcs := [s x], dsts := [l2 r] }
  | .xfer _ r x c _ | .xferIm2c _ r x c _ _ | .xferGath _ r x c _ | .xferScat _ r x c | .xferUnpk _ r x c _
  | .xferPack _ r x c | .xferMcast _ r x c _ _ => some (xferU r x c)
  | .xferPref _ r x c pl => some { xferU r x c with side := (match pl with
      | .home => true
      | .slice n => n < 64
      | _ => false) }
  | .xferPagein _ r x pl => some { srcs := [s x], dsts := [l r], side := (match pl with
      | .home => true
      | .stack n => n < 32
      | _ => false) }
  | .lockQ _ r (.scratch x) n => some { srcs := [s x], dsts := [d r .v], side := imm16Len n }
  | .lockQ _ r (.global va) n => some { srcs := [s2 va], dsts := [d r .v], side := imm16Len n }
  | .granFill _ x n | .granEmpty _ x n => some { srcs := [s x], side := imm16Len n }
  | .barArr _ r b => some { dsts := [dm r .x], side := barU b }
  | .barWait _ a => some { srcs := [s a .x] }
  | .barSync _ b => some { side := barU b }
  | .barTry _ pd a => some { srcs := [s a .x], pw := [pd], side := pd < 7 }
  | .barCnt _ r b => some { dsts := [d2 r], side := barU b }
  | .elect _ pd none => some { pw := [pd], side := pd < 7 }
  | .elect _ pd (some m) => some { srcs := lmask m, pw := [pd], side := pd < 7 }
  | .klaunch _ r a => some { srcs := [s2 a], dsts := [l2 r] }
  | .kjoin _ _ r a | .kkill _ r a => some { srcs := [s a .v], dsts := [l r] }
  | .qpost _ r q a => some { srcs := [s q .x, s2 a], dsts := [l r .x] }
  | .qstat _ r q => some { srcs := [s q .x], dsts := [d2 r] }
  | .ctxRd _ r n => some { dsts := [d2 r], side := n < 128 }
  | .ctxWr _ n a => some { srcs := [s2 a], side := n == 1 || n == 2 || n == 3 || n == 6 }
  | .pageMap _ r a img | .pageMapAlloc _ r a img | .pageMapUpd _ r a img => some { srcs := [s2 a, s4 img], dsts := [l r] }
  | .pageMapRgn _ r a _ => some (pageU r a)
  | .pageUnmap _ r a | .pageUnmapRgn _ r a | .pageRef _ r a | .pageUnref _ r a | .pageInv _ r a | .pageInvFail _ r a
  | .pagePin _ r a | .pagePinClr _ r a | .pageProbeFrame _ r a => some (pageU r a)
  | .pageCopy _ r a pool => some { pageU r a with side := pool ≤ 33 || pool == 63 }
  | .pageProbe _ r a | .pageProbeClr _ r a => some { srcs := [s2 a], dsts := [l4 r] }
  | .trap _ _ | .bkpt _ _ | .eret _ | .eretFault _ => some {}
  | .hrd _ r kind idx => some { dsts := [dm r .v], side := hsel false kind idx }
  | .hwr _ kind idx a => some { srcs := [s a], side := hsel true kind idx }
  | .getev _ r ps => some { dsts := [l4 r], pw := [ps], ppend := true, side := ps < 7 }
  | .clk _ _ r => some { dsts := [d2 r] }
  | .perf _ r n => some { dsts := [d2 r], side := n < 8 }
  | .preemptChk _ pd => some { pw := [pd], side := pd < 7 }
  | _ => none

/-- The guarding predicate of a thread instruction (R41); `BLOCK_END` ignores its predicate field (R32). -/
def Instr.guard? : Instr → Option Guard
  | .nop g | .bra g _ | .brc g _ _ _ | .brp g _ _ _ | .brx g _ _ | .brxAbs g _ | .call g _ _ | .callx g _ _ | .ret g _
  | .join g | .exit g | .yield g | .sleep g _
  | .iadd g _ | .isub g _ | .imul g _ | .imulh g _ _ | .imad g _ | .ineg g _ | .iabs g _ | .imin g _ | .imax g _
  | .iminu g _ | .imaxu g _ | .isad g _
  | .and g _ | .or g _ | .xor g _ | .andn g _ | .not g _ | .blut g _ _ | .shl g _ | .shr g _ | .sar g _ | .rol g _
  | .bcnt g _ | .clz g _ | .ctz g _ | .bitrev g _ | .bfe g _ _ | .bfi g _
  | .icmp g _ _ _ _ | .icmpu g _ _ _ _ | .pset g _ _ _ _ | .pmov g _ | .pmovW g _ _ | .clamp g _ _ _ | .widen g _ _ _
  | .intvSet g _ _ _ | .intvChk g _ _ _ | .intvGet g _ _ | .intvUn g _ _
  | .mov g _ _ _ | .movi g _ _ | .sel g _ _ | .cvt g _ _ _ _ _ _ _ | .cvtq g _ _ _ | .xlane g _ _ _ _ _
  | .pcoll g _ _ _ _ _ | .lreduce g _ _ _ _ | .lscan g _ _ _ _ _ | .xeq g _ _ _ _ | .sread g _ _ | .getf g _ _ _
  | .fadd g _ _ | .fsub g _ _ | .fmul g _ _ | .ffma g _ _ | .fmin g _ | .fmax g _ | .fcmp g _ _ _ _ | .frnd g _ _
  | .frcp g _ | .frsq g _ | .fsqrt g _ | .fexp2 g _ | .flog2 g _ | .fsin g _ | .fcos g _ | .ftanh g _
  | .dadd g _ _ _ _ _ | .dmul g _ _ _ _ | .dfma g _ _ _ _ _ | .dcmp g _ _ _ _
  | .h2add g _ _ _ _ | .h2mul g _ _ _ _ | .h2fma g _ _ _ _ _ | .b2add g _ _ _ _ | .b2mul g _ _ _ _
  | .b2fma g _ _ _ _ _ | .pkminmax g _ _ _ _ _ | .f8dot g _ _ _ _ _ _ | .i8dot g _ _ _ _ _ _ | .vqdec g _ _ _ _ _ _
  | .amax g _ _ _ _
  | .ld g _ _ _ _ | .st g _ _ _ | .ldu g _ _ _ _ | .lds g _ _ _ _ _ _ | .sts g _ _ _ _ _ | .ldp g _ _ _ _ _ _ _
  | .stp g _ _ _ _ _ _ | .ldXs g _ _ | .stXs g _ _ | .lda g _ _ _ _ _ _ | .sta g _ _ _ _ _ | .pref g _ _ | .resv g _
  | .resvClr g _ | .cctl g _ _ _ | .arraySet g _ _ | .arrayGet g _ _ | .arrayChk g _ _
  | .tktLd g _ _ _ | .tktRdv g _ _ _ _ _ | .tktRds g _ _ _ _ | .tktPoll g _ _ | .tktWaitany g _ _ _ _ | .tktDrop g _ _
  | .tktStat g _ _
  | .atom g _ _ _ _ | .red g _ _ _ | .cas g _ _ _ _ _ _ _ | .atoms g _ _ _ _ _ _ | .cass g _ _ _ _ _ _ | .fence g _ _ _
  | .waita g _ _ _ _ _ _ | .lineClr g _
  | .mma g _ _ _ _ _ | .mmaSp g _ _ _ _ _ _ _ | .mmaMcr g _ _ _ _ _ _ | .accZero g _ _ | .accLd g _ _ | .accSt g _ _
  | .accCvt g _ _ _ _ _ | .accAmax g _ _
  | .xfer g _ _ _ _ | .xferIm2c g _ _ _ _ _ | .xferGath g _ _ _ _ | .xferScat g _ _ _ | .xferUnpk g _ _ _ _
  | .xferPack g _ _ _ | .xferMcast g _ _ _ _ _ | .xferPref g _ _ _ _ | .xferPagein g _ _ _ | .lockQ g _ _ _
  | .granFill g _ _ | .granEmpty g _ _
  | .barArr g _ _ | .barWait g _ | .barSync g _ | .barTry g _ _ | .barCnt g _ _ | .elect g _ _
  | .klaunch g _ _ | .kjoin g _ _ _ | .kkill g _ _ | .qpost g _ _ _ | .qstat g _ _ | .ctxRd g _ _ | .ctxWr g _ _
  | .pageMap g _ _ _ | .pageMapAlloc g _ _ _ | .pageMapUpd g _ _ _ | .pageMapRgn g _ _ _ | .pageUnmap g _ _
  | .pageUnmapRgn g _ _ | .pageRef g _ _ | .pageUnref g _ _ | .pageCopy g _ _ _ | .pageProbe g _ _ | .pageProbeClr g _ _
  | .pageProbeFrame g _ _ | .pageInv g _ _ | .pageInvFail g _ _ | .pagePin g _ _ | .pagePinClr g _ _
  | .trap g _ | .eret g | .eretFault g | .hrd g _ _ _ | .hwr g _ _ _ | .getev g _ _ | .bkpt g _ | .clk g _ _ | .perf g _ _
  | .preemptChk g _ | .idiv g _ _ | .irem g _ _ => some g
  | _ => none

/-- The V pair that holds the mask of a cross-lane instruction, which every member reads (R232). -/
def Instr.laneMask? : Instr → Option Field
  | .xlane _ _ _ _ _ (.pair f) | .pcoll _ _ _ _ _ (.pair f) | .lreduce _ _ _ _ (.pair f) | .lscan _ _ _ _ _ (.pair f)
  | .xeq _ _ _ _ (.pair f) | .elect _ _ (some (.pair f)) => some f
  | _ => none

/-- The instruction is one that a thread executes; the others are steps of the device. -/
def Instr.isThread (i : Instr) : Bool := i == .blockEnd || i.guard?.isSome

end Sys2Proof
end

