-- ==== Sys2Proof/Machine/Access.lean ====
section
/-!
DEFINITION. Accessors: where each piece of state lives, the fields of launch records and context records, and the one place
where a thread's registers are read and written (R43 to R51, R73, R74, R183 to R189).
-/
namespace Sys2Proof.Machine
open Sys2Proof

/-! ### Places in the state -/

def State.wg (s : State) (w : Nat) : Wg := s.wgs.getD w .zero
/-- Change a workgroup, if there is one. -/
def State.setWg (s : State) (w : Nat) (f : Wg → Wg) : State :=
  { s with wgs := match s.wgs.get? w with
      | some g => s.wgs.set w (f g)
      | none => s.wgs }
def State.core (s : State) (c : Nat) : Core := s.cores.getD c .zero
def State.setCore (s : State) (c : Nat) (f : Core → Core) : State := { s with cores := s.cores.update c .zero f }
def State.slice (s : State) (n : Nat) : Slice := s.slices.getD n .zero
def State.setSlice (s : State) (n : Nat) (f : Slice → Slice) : State := { s with slices := s.slices.update n .zero f }
def State.ctx (s : State) (c : Nat) : Ctx := s.ctxs.getD c .zero
def State.setCtx (s : State) (c : Nat) (f : Ctx → Ctx) : State := { s with ctxs := s.ctxs.update c .zero f }
def State.queue (s : State) (q : Nat) : Queue := s.queues.getD q .zero
def State.setQueue (s : State) (q : Nat) (f : Queue → Queue) : State := { s with queues := s.queues.update q .zero f }
def State.kern (s : State) (h : Nat) : Kern := s.kernels.getD h .zero
/-- Change a kernel table entry, if there is one. -/
def State.setKern (s : State) (h : Nat) (f : Kern → Kern) : State :=
  { s with kernels := match s.kernels.get? h with
      | some k => s.kernels.set h (f k)
      | none => s.kernels }
def State.pool (s : State) (k : Nat) : Pool := s.pools.getD k (.fresh 0 false false)
def State.setPool (s : State) (k : Nat) (f : Pool → Pool) : State :=
  { s with pools := s.pools.update k (.fresh 0 false false) f }
def State.link (s : State) (n : Nat) : Link := s.links.getD n .zero
def State.setLink (s : State) (n : Nat) (f : Link → Link) : State := { s with links := s.links.update n .zero f }
def State.dirOf (s : State) (line : Nat) : Dir := s.dir.getD line .zero

def Wg.thread (w : Wg) (t : Nat) : Thread := w.threads.getD t .zero
def Wg.setThread (w : Wg) (t : Nat) (f : Thread → Thread) : Wg := { w with threads := w.threads.update t .zero f }
def Wg.gang (w : Wg) (g : Nat) : Gang := w.gangs.getD g .zero
def Wg.setGang (w : Wg) (g : Nat) (f : Gang → Gang) : Wg := { w with gangs := w.gangs.update g .zero f }
def Wg.slot (w : Wg) (k : Nat) : Slot := w.slots.getD k .zero
def Wg.setSlot (w : Wg) (k : Nat) (f : Slot → Slot) : Wg := { w with slots := w.slots.update k .zero f }

def State.thread (s : State) (w t : Nat) : Thread := (s.wg w).thread t
def State.setThread (s : State) (w t : Nat) (f : Thread → Thread) : State := s.setWg w fun g => g.setThread t f

/-- Change each listed thread of a workgroup. -/
def State.setThreads (s : State) (w : Nat) (l : List Nat) (f : Nat → Thread → Thread) : State :=
  s.setWg w fun g => l.foldl (fun g t => g.setThread t (f t)) g

/-- Threads of a workgroup that have not ended (R165). -/
def Wg.live (w : Wg) : List Nat := (w.threads.filter fun e => e.2.live).map Prod.fst
/-- The gang, the lane within the gang and the lane within the slot of a thread (R150, R152). -/
def Wg.gangOf (w : Wg) (t : Nat) : Nat := t / w.width
def Wg.laneOf (w : Wg) (t : Nat) : Nat := t % w.width
def slotLane (t : Nat) : Nat := t % 64
def slotOf (t : Nat) : Nat := t / 64
/-- Live threads of one gang. -/
def Wg.gangLive (w : Wg) (g : Nat) : List Nat := w.live.filter fun t => w.gangOf t == g

/-- Coordinates of a core (R17). -/
def sliceOfCore (c : Nat) : Nat := c / 4
def dieOfCore (c : Nat) : Nat := c / 32
def stackOfCore (c : Nat) : Nat := c / 8
def dieOfSlice (n : Nat) : Nat := n / 8

/-- Units in service (R29). -/
def State.dieUp (s : State) (d : Nat) : Bool := d < 8 && s.regs.diesUp.getLsbD d
def State.coreUp (s : State) (c : Nat) : Bool := s.dieUp (dieOfCore c)
def State.sliceUp (s : State) (n : Nat) : Bool := n < 64 && s.dieUp (dieOfSlice n) && s.regs.stacksUp.getLsbD (n / 2)

/-- Capability registers (R23 to R28). -/
def modcap1 : Nat := 512 + 2 ^ 16 * 512 + 2 ^ 32 * 192 + 2 ^ 48 * 1024
def modcap2 : Nat := 6144 + 2 ^ 16 * 64 + 2 ^ 32 * 8192 + 2 ^ 48 * 96
def modcap3 : Nat := 6 + 2 ^ 8 * 5 + 2 ^ 16 * 3 + 2 ^ 24 * 3 + 2 ^ 32 * 7 + 2 ^ 48 * 4096
def modcap4 : Nat := 0 + 2 ^ 16 * 128 + 2 ^ 24 * 64 + 2 ^ 32 * 2048 + 2 ^ 48 * 512
def State.modcap5 (s : State) : Nat :=
  s.regs.stacksUp.toNat + 2 ^ 32 * s.regs.diesUp.toNat + 2 ^ 40 * s.regs.icUp.toNat + 2 ^ 42 * s.regs.degraded.toNat
def State.modcap (s : State) (n : Nat) : Nat :=
  match n with
  | 0 => 8 + 2 ^ 8 * 32 + 2 ^ 16 * 8 + 2 ^ 24 * 4 + 2 ^ 32 * 4 + 2 ^ 40 * 16 + 2 ^ 48 * 64 + 2 ^ 56 * 2
  | 1 => modcap1
  | 2 => modcap2
  | 3 => modcap3
  | 4 => modcap4
  | 5 => s.modcap5
  | _ => 0

/-! ### Launch records (R132) -/

/-- Bits [lo+n-1 : lo] of a launch record. -/
def kfld (r : BitVec 2048) (lo n : Nat) : Nat := r.toNat / 2 ^ lo % 2 ^ n

namespace Krec
variable (r : BitVec 2048)
def codeVa := kfld r 0 57
def argVa := kfld r 64 57
def gridX := kfld r 128 16
def gridY := kfld r 144 16
def gridZ := kfld r 160 16
def widthCode := kfld r 176 2
/-- Gang width W (R132). -/
def width := 8 * 2 ^ kfld r 176 2
def gangs := kfld r 180 10
def scratch := kfld r 192 20
def acc := kfld r 212 21
def vregs := kfld r 233 7
def xregs := kfld r 240 7
def barGang := kfld r 256 3
def barWg := kfld r 259 5
def barClu := kfld r 264 4
def barStk := kfld r 268 3
def barGrid := kfld r 271 3
def svc := kfld r 274 2
def restartable := kfld r 276 1 == 1
def coresidentBit := kfld r 277 1 == 1
def irq := kfld r 278 1 == 1
def prio := kfld r 279 3
def lenHint := kfld r 288 32
def doneVa := kfld r 320 57
def dep0 := kfld r 384 32
def dep1 := kfld r 416 32
def budget (c : Nat) := kfld r (448 + 16 * c) 16
/-- Format slot `Fn`, 128 bits (R82). -/
def fslot (n : Nat) := kfld r (512 + 128 * n) 128
def tag := kfld r 2032 8
def sealByte := kfld r 2040 8
/-- Workgroups of the grid, threads and slots of a workgroup (R150, R152). -/
def wgCount := gridX r * gridY r * gridZ r
def threads := gangs r * width r
def slots := ceilDiv (gangs r * width r) 64
/-- A kernel is co-resident (R143). -/
def coresident := coresidentBit r || barClu r != 0 || barStk r != 0 || barGrid r != 0
/-- Declared barriers of a level (R429). -/
def bars (l : Lvl) : Nat :=
  match l with
  | .gang => barGang r
  | .wg => barWg r
  | .clu => barClu r
  | .stk => barStk r
  | .grid => barGrid r
end Krec

/-- The launch record of the kernel a workgroup belongs to. -/
def State.krecOf (s : State) (w : Nat) : BitVec 2048 := (s.kern (s.wg w).kernel).krec

/-! ### Context records (R104) -/

def Ctx.word (c : Ctx) (n : Nat) : Dword := c.words.getD n 0
def Ctx.setWord (c : Ctx) (n : Nat) (v : Dword) : Ctx := { c with words := c.words.set n v }
def Ctx.fld (c : Ctx) (n lo w : Nat) : Nat := (c.word n).toNat / 2 ^ lo % 2 ^ w
/-- Replace bits [lo+w-1 : lo] of word n. -/
def Ctx.setFld (c : Ctx) (n lo w v : Nat) : Ctx :=
  let x := (c.word n).toNat
  c.setWord n (.ofNat 64 (x - 2 ^ lo * (x / 2 ^ lo % 2 ^ w) + 2 ^ lo * (v % 2 ^ w)))
def Ctx.capPager (c : Ctx) : Bool := c.fld 0 0 1 == 1
def Ctx.capLauncher (c : Ctx) : Bool := c.fld 0 1 1 == 1
def Ctx.capHandler (c : Ctx) : Bool := c.fld 0 2 1 == 1
def Ctx.capUnchecked (c : Ctx) : Bool := c.fld 0 3 1 == 1
def Ctx.ageLimit (c : Ctx) : Nat := if c.fld 1 0 20 = 0 then 1000 else c.fld 1 0 20
def Ctx.secret (c : Ctx) : Dword := c.word 2
def Ctx.trapPc (c : Ctx) : Nat := c.fld 3 0 57
def Ctx.evqVa (c : Ctx) : Nat := c.fld 4 0 57
def Ctx.evqLog2 (c : Ctx) : Nat := c.fld 5 0 4
def Ctx.msiVector (c : Ctx) : Nat := c.fld 5 4 12
def Ctx.evqHead (c : Ctx) : Nat := c.fld 6 0 32
def Ctx.evqTail (c : Ctx) : Nat := c.fld 7 0 32
def Ctx.saveVa (c : Ctx) : Nat := c.fld 8 0 57
def Ctx.saveLen (c : Ctx) : Nat := c.fld 9 0 40
def Ctx.orphans (c : Ctx) : Nat := c.fld 10 0 32
def Ctx.evLost (c : Ctx) : Nat := c.fld 10 32 32
def CState.code : CState → Nat
  | .free => 0 | .built => 1 | .active => 2 | .suspended => 3 | .faulted => 4 | .tornDown => 5

/-- The word a selector reads: `ctx.id` and `ctx.state` stand in word 12, and the secret of word 2 is write-only (R9, R104). -/
def State.ctxWord (s : State) (id n : Nat) : Dword :=
  let c := s.ctx id
  if c.state = .free ∨ n = 2 then 0
  else if n = 12 then .ofNat 64 (id + 4096 * c.state.code)
  else c.word n

/-- The context of the issue group. -/
def State.ictx (s : State) : Ctx := s.ctx (s.wg s.issue.wid).ctx
def State.ikrec (s : State) : BitVec 2048 := s.krecOf s.issue.wid
def State.iwg (s : State) : Wg := s.wg s.issue.wid
def State.ithread (s : State) (t : Nat) : Thread := s.thread s.issue.wid t
def State.iset (s : State) (t : Nat) (f : Thread → Thread) : State := s.setThread s.issue.wid t f

/-- Count one in a core's performance counter (R493). -/
def State.count (s : State) (c k : Nat) : State := s.setCore c fun x => { x with perf := x.perf.update k 0 (· + 1) }

/-- The extra clk of a per-lane check (R257, R277). -/
def State.checked (s : State) : State := { s.count s.issue.core 1 with clk := s.clk + 1 }

/-! ### Registers (R43 to R51, R73, R74) -/

/-- The FP32 constant table (R51). -/
def fpConst (k : Nat) : Word :=
  match k with
  | 0 => 0x00000000 | 1 => 0x3F800000 | 2 => 0x40000000 | 3 => 0x3F000000 | 4 => 0xBF800000 | 5 => 0x40800000
  | 6 => 0x3E800000 | 7 => 0x41200000 | 8 => 0x3EAAAAAB | 9 => 0x3F317218 | 10 => 0x3FB8AA3B | 11 => 0x40490FDB
  | 12 => 0x3F3504F3 | 13 => 0x7F7FFFFF | 14 => 0x7F800000 | _ => 0x80000000

def point (x : Int) : Intv := ⟨x, x⟩

/-- The registers that a main-tier field names: the bank in handler mode (R484). -/
def Thread.cur (t : Thread) : Regs := if t.handler then t.bank else t.regs
def Thread.setCur (t : Thread) (f : Regs → Regs) : Thread :=
  if t.handler then { t with bank := f t.bank } else { t with regs := f t.regs }

def Regs.getX (r : Regs) (k : Nat) : XReg := r.x.getD k .zero
def Regs.getV (r : Regs) (k : Nat) : VReg := r.v.getD k .zero
def Regs.setX (r : Regs) (k : Nat) (e : XReg) : Regs := { r with x := r.x.set k e }
def Regs.setV (r : Regs) (k : Nat) (e : VReg) : Regs := { r with v := r.v.set k e }
def Thread.getO (t : Thread) (k : Nat) : Ent := t.o.getD k .zero

/-- A register of the field is full, all that it covers. -/
def Thread.fullAt (t : Thread) (f : Field) (n : Nat) : Bool :=
  match f.tier, f.cls with
  | .main, .x => (t.cur.getX f.idx).ful
  | .main, .v => (List.range n).all fun i => (t.cur.getV (f.idx + i)).ful
  | _, _ => true

/-- Read a 32-bit source: its pattern and the interval its signed value lies in (R73). -/
def Thread.read (t : Thread) (f : Field) : Word × Intv :=
  match f.tier, f.cls with
  | .main, .x => ((t.cur.getX f.idx).val, (t.cur.getX f.idx).iv)
  | .main, .v => ((t.cur.getV f.idx).val, full)
  | .opnd, .x => ((t.getO f.idx).val, (t.getO f.idx).iv)
  | .opnd, .v => ((t.getO f.idx).val, full)
  | .last, .x => let e := if f.idx = 0 then t.l0 else t.l1; (e.val, e.iv)
  | .last, .v => ((if f.idx = 0 then t.l0 else t.l1).val, full)
  | .const, .x => (.ofNat 32 f.idx, point f.idx)
  | .const, .v => (fpConst f.idx, point (fpConst f.idx).toInt)

def Thread.val (t : Thread) (f : Field) : Word := (t.read f).1

/-- The words of a source of n registers, lowest first (R73). -/
def Thread.readN (t : Thread) (f : Field) (n : Nat) : List Word :=
  if n = 1 then [t.val f] else (List.range n).map fun i => (t.cur.getV (f.idx + i)).val

/-- A pair or quad as one number. -/
def Thread.wide (t : Thread) (f : Field) (n : Nat) : Nat := ofWords (t.readN f n)

/-- Shift the last results (R50); handler instructions leave them unchanged (R484). -/
def Thread.pushLast (t : Thread) (v : Word) (iv : Intv) : Thread :=
  if t.handler then t else { t with l1 := t.l0, l0 := ⟨v, iv⟩ }

/-- Write a destination without touching the last results (R74, R49). -/
def Thread.put (t : Thread) (f : Field) (v : Word) (iv : Intv) : Thread :=
  match f.tier, f.cls with
  | .main, .x => t.setCur fun r => r.setX f.idx ⟨v, iv, true⟩
  | .main, .v => t.setCur fun r => r.setV f.idx ⟨v, true⟩
  | .opnd, .x => { t with o := t.o.set f.idx ⟨v, iv⟩ }
  | .opnd, .v => { t with o := t.o.set f.idx ⟨v, full⟩ }
  | _, _ => t

/-- Write a 32-bit destination that is not marked empty (R74, R50). -/
def Thread.write (t : Thread) (f : Field) (v : Word) (iv : Intv) : Thread :=
  (t.put f v iv).pushLast v (if f.cls = .x then iv else full)

/-- Write a V destination of n registers from a number; `L0` receives the lowest word (R50). -/
def Thread.writeN (t : Thread) (f : Field) (n v : Nat) : Thread :=
  let ws := wordList v n
  let t' := t.setCur fun r => (List.range n).foldl (fun r i => r.setV (f.idx + i) ⟨ws.getD i 0, true⟩) r
  t'.pushLast (ws.getD 0 0) full

/-- Predicate k: `P7` reads as true (R185). -/
def Thread.pred (t : Thread) (k : Nat) : Bool := k ≥ 7 || t.cur.p.getLsbD k
def setBit {n : Nat} (x : BitVec n) (k : Nat) (b : Bool) : BitVec n :=
  if b then x ||| (1 <<< k : BitVec n) else x &&& ~~~(1 <<< k : BitVec n)
def Thread.setPred (t : Thread) (k : Nat) (b : Bool) : Thread := t.setCur fun r => { r with p := setBit r.p k b }

/-- The guard of a thread (R41). -/
def Thread.guard (t : Thread) (g : Guard) : Bool := t.pred g.p != g.neg

/-- A predicate is pending in the bank the thread uses (R189). -/
def Thread.pending (t : Thread) (k : Nat) : Bool := k < 7 && (if t.handler then t.bpend else t.pend).getLsbD k

/-- The registers of a target that its producer still writes, with their places in the result. -/
def Target.places (g : Target) : List (Nat × Nat) :=
  ((List.range g.n).map fun i => (i, g.idx + i)).filter fun e => !g.skip.contains e.2

/-- Mark registers empty or full in one bank. -/
def Regs.setFull (r : Regs) (g : Target) (b : Bool) : Regs :=
  g.places.foldl (fun r (e : Nat × Nat) => match g.cls with
    | .x => r.setX e.2 { r.getX e.2 with ful := b }
    | .v => r.setV e.2 { r.getV e.2 with ful := b }) r

def Thread.onBank (t : Thread) (bank : Bool) (f : Regs → Regs) : Thread :=
  if bank then { t with bank := f t.bank } else { t with regs := f t.regs }

def Thread.setPend (t : Thread) (bank : Bool) (p : Option Nat) (b : Bool) : Thread :=
  match p with
  | none => t
  | some k => if bank then { t with bpend := setBit t.bpend k b } else { t with pend := setBit t.pend k b }

/-- Start a long-latency producer: the destination becomes empty and its status predicate pending (R187, R189). -/
def Thread.start (t : Thread) (d : Option Dst) (stat : Option Nat) (w : Work) (born : Nat) : Thread :=
  let tgt := d.map fun d => (⟨d.f.cls, d.f.idx, d.n, t.handler, []⟩ : Target)
  let t1 := match tgt with
    | some g => t.onBank t.handler fun r => r.setFull g false
    | none => t
  let t2 := t1.setPend t.handler stat true
  { t2 with prods := t2.prods ++ [⟨t.seq, tgt, stat, t.handler, w, none, born⟩],
            seq := t.seq + 1 }

/-- Change the work of a producer. -/
def Thread.setWork (t : Thread) (seq : Nat) (w : Work) : Thread :=
  { t with prods := listSet t.prods (fun p => p.seq == seq) fun p => { p with work := w } }

def Thread.prod? (t : Thread) (seq : Nat) : Option Prod := t.prods.find? fun p => p.seq == seq

end Sys2Proof.Machine
end

