-- ==== Sys2Proof/Machine/Translate.lean ====
section
/-!
DEFINITION. Translation: range registers (R106 to R108), home slices (R446, R447), the tree and its entries (R448 to R451),
frames and pools (R452, R453).  Physical memory is one address space of the model: a local frame at its LPA, a CXL frame from
2^44, host memory from 2^60, the memory of peer p from p × 2^64 by the peer's IA (notes/assumptions/1.md).  An IA of peer p is held
with p above its 48 bits, so that one number names a line of any device.
-/
namespace Sys2Proof.Machine
open Sys2Proof

/-- A range register (R106). -/
structure Range where
  va   : Nat
  size : Nat
  ia   : Nat
  perm : Nat
  ilv  : Nat
  set  : Nat
  peer : Nat
deriving DecidableEq, Repr

/-- Register m of a context; `none` when it is not valid. -/
def Ctx.range (c : Ctx) (m : Nat) : Option Range :=
  let n := 16 + 4 * m
  if c.fld (n + 3) 0 1 = 1 then
    some { va := c.fld n 0 57, size := c.fld (n + 1) 0 57, ia := c.fld (n + 2) 0 48, perm := c.fld (n + 3) 1 3,
           ilv := c.fld (n + 3) 4 2, set := c.fld (n + 3) 6 5, peer := c.fld (n + 3) 11 4 }
  else none

def Range.covers (r : Range) (va : Nat) : Bool := r.va ≤ va && va < r.va + r.size

/-- The register that covers a VA (R108). -/
def Ctx.rangeOf (c : Ctx) (va : Nat) : Option Range :=
  (List.range 16).findSome? fun m =>
    match c.range m with
    | some r => if r.covers va then some r else none
    | none => none

/-- The kind of an access: it names the permission bit (R106). -/
inductive Need | rd | wr | ex
deriving DecidableEq, Repr

def Need.bit : Need → Nat
  | .rd => 0
  | .wr => 1
  | .ex => 2

/-- An IA with its device, and the interleave set it was reached through. -/
structure GAddr where
  gia : Nat
  ilv : Nat
  set : Nat
deriving DecidableEq, Repr

/-- The IA of a VA, or `none` where the access takes PAGE (R108). -/
def Ctx.resolve (c : Ctx) (n : Need) (va : Nat) : Option GAddr :=
  match c.rangeOf va with
  | some r =>
    if r.perm / 2 ^ n.bit % 2 = 1 then some ⟨r.peer * 2 ^ 48 + r.ia + (va - r.va), r.ilv, r.set⟩ else none
  | none => none

def peerOf (gia : Nat) : Nat := gia / 2 ^ 48
def iaOf (gia : Nat) : Nat := gia % 2 ^ 48
def lineOf (gia : Nat) : Nat := gia / 128

/-- The home slice of an IA, or, for a peer's, the visitor slice of this device (R446, R502). -/
def State.home (s : State) (a : GAddr) : Nat :=
  let b := fun lo n => bits a.gia lo n
  match a.ilv with
  | 0 => s.regs.homemap.getD (b 12 6 ^^^ b 18 6) 0
  | 1 => 8 * a.set + (b 12 3 ^^^ b 15 3)
  | _ => 2 * a.set + (b 12 1 ^^^ b 13 1)
where
  bits (w lo n : Nat) : Nat := w / 2 ^ lo % 2 ^ n

/-- The page agent (R461). -/
def State.agent (s : State) (ia : Nat) : Nat := s.regs.homemap.getD (ia / 2 ^ 16 % 64) 0

/-- Links that serve a peer, in ascending number (R502). -/
def State.routes (s : State) (p : Nat) : List Nat :=
  (List.range 12).filter fun n =>
    let l := s.link n
    l.peer.toNat == p && (l.state == .up || l.state == .degraded)

/-! ### The tree (R448 to R450) -/

def State.m64 (s : State) (pa : Nat) : Nat := Memory.readLE s.mem pa 8

/-- The address of a node's entry when the entry is valid. -/
def State.child (s : State) (node idx : Nat) : Option Nat :=
  let e := s.m64 (node + 8 * idx)
  if e % 2 = 1 then some e else none

/-- The first steps after a reset build the root and read the stored image, so that `PTROOT` and `fwsts.version`, which hold 0 at reset (R10),
report them before anything else happens (R448, R517). -/
def State.boot (s : State) : State :=
  if s.regs.ptValid then s
  else { s with regs := { s.regs with ptValid := true, ptLpa := rootLpa s.regs.stacksUp },
                fw := { s.fw with version := if s.fw.valid then s.fw.image else 0 } }

def State.rootNode (s : State) : Nat := s.regs.ptLpa * 4096

/-- Node addresses that an entry names. -/
def nextNode (e : Nat) : Nat := e / 2 ^ 12 % 2 ^ 29 * 4096
def leafNode (e : Nat) : Nat := e / 2 ^ 6 % 2 ^ 35 * 64

/-- The region directory entry of an IA: its address, and its value when valid. -/
def State.region (s : State) (ia : Nat) : Option (Nat × Nat) :=
  match s.child s.rootNode (ia / 2 ^ 39 % 512) with
  | none => none
  | some e0 =>
    match s.child (nextNode e0) (ia / 2 ^ 30 % 512) with
    | none => none
    | some e1 =>
      let a := nextNode e1 + 8 * (ia / 2 ^ 23 % 128)
      let e2 := s.m64 a
      if e2 % 2 = 1 then some (a, e2) else none

/-- The address of the PTE of an IA and whether its page is large.  A node that lies in a stack out of service is read as before (DESIGN CHOICE,
notes/assumptions/46.md). -/
def State.pteAt (s : State) (ia : Nat) : Option (Nat × Bool) :=
  match s.region ia with
  | none => none
  | some (_, e) =>
    let large := e / 2 % 2 = 1
    some (leafNode e + 16 * (if large then ia / 2 ^ 21 % 4 else ia / 2 ^ 16 % 128), large)

def State.pte (s : State) (a : Nat) : Nat := Memory.readLE s.mem a 16
def State.setPte (s : State) (a v : Nat) : State := { s with mem := Memory.writeLE s.mem a 16 v }

namespace Pte
variable (p : Nat)
def fld (lo n : Nat) : Nat := p / 2 ^ lo % 2 ^ n
def put (lo n v : Nat) : Nat := p - 2 ^ lo * (p / 2 ^ lo % 2 ^ n) + 2 ^ lo * (v % 2 ^ n)
def valid := fld p 0 1 == 1
def tier := fld p 1 2
def perm := fld p 3 3
def cow := fld p 6 1 == 1
def near := fld p 7 1 == 1
def pin := fld p 8 1 == 1
def shared := fld p 9 1 == 1
def migrating := fld p 11 1 == 1
def ctx := fld p 16 12
def frame := fld p 32 40
def access := fld p 80 24
def fp := fld p 104 24
end Pte

/-- Pool and frame number of a local or CXL frame (R452, R453). -/
def poolOf (tier frame : Nat) : Nat := if tier = 0 then frame / 2 ^ 20 % 32 else 32 + frame / 2 ^ 27 % 2
def frameNo (tier frame : Nat) : Nat := if tier = 0 then frame % 2 ^ 20 else frame % 2 ^ 27

/-- The physical address of a frame of a pool. -/
def framePa (pool f : Nat) : Nat :=
  if pool < 32 then pool * 2 ^ 36 + f * 65536 else 2 ^ 44 + (pool - 32) * 2 ^ 43 + f * 65536

/-- A frame field that names a frame of a pool. -/
def frameRef (pool f : Nat) : Nat := if pool < 32 then pool * 2 ^ 20 + f else (pool - 32) * 2 ^ 27 + f

def hostPa (hpa : Nat) : Nat := 2 ^ 60 + hpa
def peerPa (p ia : Nat) : Nat := p * 2 ^ 64 + ia

/-- The physical address of an IA under a PTE (R452). -/
def physOf (p ia : Nat) (large : Bool) : Nat :=
  let off := if large then ia % 2 ^ 21 else ia % 2 ^ 16
  match Pte.tier p with
  | 2 => hostPa (Pte.frame p % 2 ^ 36 * 65536 + off)
  | 3 => peerPa (Pte.frame p / 2 ^ 32 % 16) (Pte.frame p % 2 ^ 32 * 65536 + off)
  | t => framePa (poolOf t (Pte.frame p)) (frameNo t (Pte.frame p)) + off

/-! ### Frame table and free lists (R453) -/

def Pool.count (p : Pool) (f : Nat) : Nat := (p.table.getD f 0).toNat % 65536
def Pool.isTable (p : Pool) (f : Nat) : Bool := (p.table.getD f 0).getLsbD 16
def Pool.isRetired (p : Pool) (f : Nat) : Bool := (p.table.getD f 0).getLsbD 17
def Pool.setEntry (p : Pool) (f count : Nat) (table retired : Bool) : Pool :=
  let e : BitVec 32 := .ofNat 32 (count + 65536 * table.toNat + 131072 * retired.toNat)
  { p with table := if e = 0 then p.table.erase f else p.table.set f e }
/-- Reserved frames of a pool (R453). -/
def Pool.reserved (p : Pool) : Nat := 2 * ((4 * p.size + 65535) / 65536) + 1
def Pool.freeCount (p : Pool) : Nat := p.free.foldl (fun n r => n + r.2) 0
def Pool.isFree (p : Pool) (f : Nat) : Bool := p.free.any fun r => r.1 ≤ f && f < r.1 + r.2
def Pool.push (p : Pool) (f : Nat) : Pool := { p with free := (f, 1) :: p.free }

/-- Take frames out of the free list, the order of the others unchanged. -/
def Pool.remove (p : Pool) (f n : Nat) : Pool :=
  let cut := fun (r : Nat × Nat) =>
    let lo := max r.1 f
    let hi := min (r.1 + r.2) (f + n)
    if lo ≥ hi then [r]
    else (if r.1 < lo then [(r.1, lo - r.1)] else []) ++ (if hi < r.1 + r.2 then [(hi, r.1 + r.2 - hi)] else [])
  { p with free := (p.free.map cut).flatten }

/-- The frame on top of the free list. -/
def Pool.top (p : Pool) : Option Nat := (p.free.find? fun r => r.2 ≠ 0).map Prod.fst

/-- The aligned run of 32 free frames that holds the entry nearest the top of the list. -/
def Pool.topRun (p : Pool) : Option Nat :=
  p.free.findSome? fun r =>
    let b := r.1 / 32
    let l := (r.1 + r.2 - 1) / 32
    ([b, b + 1].filter (· ≤ l)).findSome? fun k =>
      if (List.range 32).all fun i => p.isFree (32 * k + i) then some (32 * k) else none

/-- A local or CXL frame is well formed (R452). -/
def State.frameOk (s : State) (tier frame : Nat) : Bool :=
  let p := s.pool (poolOf tier frame)
  let f := frameNo tier frame
  (if tier = 0 then frame < 2 ^ 25 else frame < 2 ^ 28) && p.reserved ≤ f && f < p.size

/-- Set the count of a frame; at 0 the frame goes to the free list, unless it is retired (R453, R465). -/
def State.setCount (s : State) (pool f count : Nat) : State :=
  s.setPool pool fun p =>
    let p' := p.setEntry f count (p.isTable f && count != 0) (p.isRetired f)
    if count = 0 && !p.isRetired f then p'.push f else p'

/-- Pop a frame and zero it. -/
def State.popFrame (s : State) (pool : Nat) : Option (Nat × State) :=
  match (s.pool pool).top with
  | none => none
  | some f => some (f, { s.setPool pool fun p => p.remove f 1 with mem := Memory.zero s.mem (framePa pool f) 65536 })

/-- Pop the run of 32 frames of a large page and zero them. -/
def State.popRun (s : State) (pool : Nat) : Option (Nat × State) :=
  match (s.pool pool).topRun with
  | none => none
  | some f => some (f, { s.setPool pool fun p => p.remove f 32 with mem := Memory.zero s.mem (framePa pool f) (32 * 65536) })

/-! ### Translation at the home slice (R451) -/

/-- What the home slice answers: perform at a physical address of a tier; a miss, of the region or of the page; not resolvable; a
tier miss; copy-on-write with the frame's count; or a home or port out of service (R447, R508). -/
inductive Tr
  | ok (pa tier : Nat)
  | miss (region : Bool)
  | denied
  | tier
  | cow (count : Nat)
  | dead
deriving DecidableEq, Repr

/-- A stack serves its frames: it is in service, and so is the die whose slices drive its channels (R18, R28).  An access to a frame of
another stack is not performed (DESIGN CHOICE, notes/assumptions/46.md). -/
def State.stackServes (s : State) (k : Nat) : Bool := s.regs.stacksUp.getLsbD k && s.dieUp (k / 4)

/-- The memory behind a PTE can be reached: the stack or port of its frame serves, host memory is up, the peer has a route (R447, R504, R507,
R508). -/
def State.frameUp (s : State) (p : Nat) : Bool :=
  match Pte.tier p with
  | 0 => s.stackServes (poolOf 0 (Pte.frame p))
  | 1 => (s.pool (poolOf 1 (Pte.frame p))).up
  | 2 => s.regs.hlCxl
  | _ => s.routes (Pte.frame p / 2 ^ 32 % 16) != []

/-- Rules 1 to 5 of R451 for a request to a home slice.  `near` marks a near-only request, `store` a store, reduction, `LINE.CLR`
or grant request. -/
def State.translate (s : State) (ctx : Nat) (a : GAddr) (n : Need) (near store : Bool) : Tr :=
  let ia := iaOf a.gia
  if peerOf a.gia ≠ 0 then (if s.routes (peerOf a.gia) = [] then .denied else .ok (peerPa (peerOf a.gia) ia) 3)
  else if !s.sliceUp (s.home a) then .dead
  else match s.pteAt ia with
  | none => .miss true
  | some (pa, large) =>
    let p := s.pte pa
    if !Pte.valid p then .miss false
    else if (!Pte.shared p && Pte.ctx p != ctx) || Pte.perm p / 2 ^ n.bit % 2 = 0 then .denied
    else if Pte.migrating p then .miss false
    else if Pte.tier p = 1 && (Pte.near p || near) then .tier
    else if !s.frameUp p then (if Pte.tier p < 2 then .dead else .denied)
    else if store && Pte.cow p then .cow ((s.pool (poolOf (Pte.tier p) (Pte.frame p))).count (frameNo (Pte.tier p) (Pte.frame p)))
    else .ok (physOf p ia large) (Pte.tier p)

/-- The memory behind a global IA can be reached now: an access or a write-back to a frame that cannot is not performed (R447, R504, R507,
R508). -/
def State.reachable (s : State) (gia : Nat) : Bool :=
  if peerOf gia ≠ 0 then s.routes (peerOf gia) != []
  else match s.pteAt (iaOf gia) with
  | none => false
  | some (pa, _) => Pte.valid (s.pte pa) && s.frameUp (s.pte pa)

/-- The peer that holds a line's home copy, with the line's IA there (R452, R502). -/
def State.peerHome (s : State) (gl : Nat) : Option (Nat × Nat) :=
  if peerOf (128 * gl) ≠ 0 then some (peerOf (128 * gl), iaOf (128 * gl))
  else match s.pteAt (iaOf (128 * gl)) with
  | none => none
  | some (pa, large) =>
    let p := s.pte pa
    if Pte.valid p && Pte.tier p == 3 then some (Pte.frame p / 2 ^ 32 % 16, physOf p (iaOf (128 * gl)) large % 2 ^ 64) else none

/-- The link that a request to an IA of peer p goes on (R503). -/
def State.routeOf (s : State) (p ia : Nat) : Option Nat :=
  match s.routes p with
  | [] => none
  | l => l[ia / 2 ^ 8 % 256 % l.length]?

/-- A request of a line of a peer goes out: it stays open on its link until the peer answers it (R501, R503). -/
def State.peerSend (s : State) (gl : Nat) : State :=
  match s.peerHome gl with
  | none => s
  | some (p, ia) => match s.routeOf p ia with
    | none => s
    | some k => { s.setLink k fun l => { l with opn := l.opn ++ [(s.txn, p, ia)] } with txn := s.txn + 1 }

/-- The physical address behind an IA whatever the permissions, where the home has one. -/
def State.phys (s : State) (gia : Nat) : Option Nat :=
  if peerOf gia ≠ 0 then some (peerPa (peerOf gia) (iaOf gia))
  else match s.pteAt (iaOf gia) with
  | none => none
  | some (pa, large) => let p := s.pte pa; if Pte.valid p then some (physOf p (iaOf gia) large) else none

/-- The memory type of an IA by its tier: 0 local, 1 CXL, 2 host, 3 peer; local where nothing is mapped. -/
def State.tierOf (s : State) (gia : Nat) : Nat :=
  if peerOf gia ≠ 0 then 3
  else match s.pteAt (iaOf gia) with
  | none => 0
  | some (pa, _) => Pte.tier (s.pte pa)

/-- Bytes of a single-copy atomic access to a memory type (R26). -/
def atomUnit (tier : Nat) : Nat := if tier = 1 ∨ tier = 2 then 8 else 32

/-- The context that owns the page of an IA (R361). -/
def State.owner (s : State) (gia : Nat) : Option Nat :=
  match s.pteAt (iaOf gia) with
  | none => none
  | some (pa, _) => let p := s.pte pa; if Pte.valid p && peerOf gia = 0 then some (Pte.ctx p) else none

/-- Count a served request, or a footprint, in the page's entry (R454). -/
def State.countPte (s : State) (gia lo : Nat) : State :=
  if peerOf gia ≠ 0 then s
  else match s.pteAt (iaOf gia) with
  | none => s
  | some (pa, _) =>
    let p := s.pte pa
    if Pte.valid p then s.setPte pa (Pte.put p lo 24 (min (Pte.fld p lo 24 + 1) (2 ^ 24 - 1))) else s

/-- Clear `pte.cow` where the frame's count is 1 (R458). -/
def State.clearCow (s : State) (gia : Nat) : State :=
  match s.pteAt (iaOf gia) with
  | none => s
  | some (pa, _) => s.setPte pa (Pte.put (s.pte pa) 6 1 0)

end Sys2Proof.Machine
end

