-- ==== Sys2Proof/Machine/Coherence.lean ====
section
/-!
DEFINITION. Lines: the home copy with its poison mark, the interchange directory with the visitor copies, the L1s, and the release
records (spec/13_line.md R349 to R361, spec/12_ordering.md R313 to R331).  A line is named by its global IA divided by 128.
-/
namespace Sys2Proof.Machine
open Sys2Proof

/-! ### The home copy -/

/-- The physical address of a line's home copy, where its page is mapped. -/
def State.lineAddr (s : State) (gl : Nat) : Option Nat := s.phys (128 * gl)

def State.isPoison (s : State) (gl : Nat) : Bool :=
  match s.lineAddr gl with
  | some pa => s.poison.contains (pa / 128)
  | none => false

/-- The recovery state: the fixed loader runs, and an install from it does not leave it (R519, R520). -/
def State.inRecovery (s : State) : Bool := s.fw.state == .recovery || (s.fw.state == .installing && s.fw.began == .recovery)

/-- An uncorrectable error goes into the archive (R515), which recovery does not update (R520). -/
def State.uncorrected (s : State) : State :=
  if s.inRecovery then s else { s with arch := { s.arch with uncorr := min (s.arch.uncorr + 1) (2 ^ 64 - 1) } }

def State.setPoison (s : State) (gl : Nat) (b : Bool) : State :=
  match s.lineAddr gl with
  | none => s
  | some pa =>
    if b then (if s.poison.contains (pa / 128) then s else { s.uncorrected with poison := pa / 128 :: s.poison })
    else { s with poison := s.poison.filter (· != pa / 128) }

/-- The 128 bytes of the home copy. -/
def State.homeLine (s : State) (gl : Nat) : List Byte :=
  match s.lineAddr gl with
  | some pa => Memory.readN s.mem pa 128
  | none => List.replicate 128 0

/-- Wake the lanes that a monitor entry of the line holds (R347). -/
def State.wake (s : State) (gl : Nat) : State :=
  let lanes := (s.slices.map fun e => e.2.monitors.getD gl []).flatten
  let s1 := if lanes = [] then s else { s with slices := s.slices.mapVals fun _ n => { n with monitors := n.monitors.erase gl } }
  lanes.foldl (fun s e => s.setThread e.1 e.2 fun t =>
    match t.hold with
    | .waita r c b d n till st _ _ pg o => { t with hold := .waita r c b d n till st false s.clk pg o }
    | _ => t) s1

/-- A write to a physical line: discarded where the memory cannot be reached (R447, R508), and while the line is poisoned, unless it covers all
of it and comes from a thread or engine command of the context that owns the page, which clears the mark (R361).  To a peer it is a request on a
link. -/
def State.putHome (s : State) (gl : Nat) (ctx : Option Nat) (bytes : NMap Byte) : State :=
  match s.lineAddr gl with
  | none => s
  | some pa =>
    let store := fun (s : State) =>
      (({ s with mem := bytes.foldl (fun m (e : Nat × Byte) => Memory.write m (pa + e.1) e.2) s.mem }).wake gl).peerSend gl
    if !s.reachable (128 * gl) then s
    else if s.poison.contains (pa / 128) then
      if bytes.length = 128 && ctx.isSome && s.owner (128 * gl) == ctx then store (s.setPoison gl false) else s
    else store s

def lineMap (l : List Byte) : NMap Byte := (List.range 128).map fun i => (i, l.getD i 0)
def lineBytes (m : NMap Byte) : List Byte := (List.range 128).map fun i => m.getD i 0

/-! ### Agents and their copies (R350, R352) -/

/-- The number of an agent in `dir.owner`. -/
def agentCode : Agent → Nat
  | .slice n => n
  | .peer p => 63 + p
  | .host => 79

def agentOf (n : Nat) : Agent := if n < 64 then .slice n else if n < 79 then .peer (n - 63) else .host

/-- The agents of an entry's map, by their numbers. -/
def Dir.agents (e : Dir) : List Nat := e.slices ++ e.peers.map (63 + ·) ++ if e.host then [79] else []

def Dir.setAgents (e : Dir) (l : List Nat) : Dir :=
  { e with slices := l.filter (· < 64), peers := (l.filter fun n => 64 ≤ n && n < 79).map (· - 63), host := l.contains 79 }

/-- The copy of a line that an agent holds, in its ways or in its write-back buffer; the copies of peers and of the host stand under their
numbers beside those of the slices (notes/assumptions/18.md). -/
def State.visitor (s : State) (n gl : Nat) : Option Visitor :=
  match (s.slice n).visitors.get? gl with
  | some v => some v
  | none => (s.slice n).wbuf.get? gl

def State.setVisitor (s : State) (n gl : Nat) (v : Visitor) : State :=
  s.setSlice n fun x => { x with visitors := x.visitors.set gl v, wbuf := x.wbuf.erase gl }

def State.dropVisitor (s : State) (n gl : Nat) : State :=
  s.setSlice n fun x => { x with visitors := x.visitors.erase gl, wbuf := x.wbuf.erase gl }

/-- A line that agent v receives. -/
def State.give (s : State) (v gl : Nat) (data : NMap Byte) (dirty : Bool) (ver : Nat) : State :=
  s.setVisitor v gl { data := data, dirty := dirty, ver := ver }

/-- An owner that has forwarded dirty data keeps its copy buffered until the forward is acknowledged (R357). -/
def State.retain (s : State) (n gl : Nat) (v : Visitor) : State :=
  s.setSlice n fun x => { x with visitors := x.visitors.erase gl, wbuf := x.wbuf.set gl v }

/-! ### The directory (R351 to R358) -/

/-- Half and set of a line; with one interchange die both halves share its sets (R359). -/
def State.dirSet (s : State) (gl : Nat) : Nat :=
  if s.regs.degraded then gl / 2 % Config.dirSets else gl % (2 * Config.dirSets)

def State.setDir (s : State) (gl : Nat) (e : Dir) : State := { s with dir := s.dir.set gl e }

/-- Change an entry that a request has used: it becomes the most recently used (R358). -/
def State.useDir (s : State) (gl : Nat) (e : Dir) : State :=
  { s with dir := s.dir.set gl { e with used := s.dirUse }, dirUse := s.dirUse + 1 }

/-- The home slice of a line: that of the first range register that covers it, by context and number; of the set of all slices where none
does (notes/assumptions/25.md). -/
def State.homeOfLine (s : State) (gl : Nat) : Nat :=
  match s.ctxs.findSome? fun e => if e.2.state == .free || e.2.state == .tornDown then none
      else (List.range 16).findSome? fun m => (e.2.range m).bind fun r =>
        let b := r.peer * 2 ^ 48 + r.ia
        if b ≤ 128 * gl && 128 * gl < b + r.size then some (s.home ⟨128 * gl, r.ilv, r.set⟩) else none with
  | some n => n
  | none => s.home ⟨128 * gl, 0, 0⟩

/-- Counter of a line in the visit filter of its home: a line's number modulo the 65,536 counters (DESIGN CHOICE, notes/assumptions/18.md). -/
def visitKey (gl : Nat) : Nat := gl % 65536

/-- The directory counts an entry in the home's filter, or takes it out (R351); lines of a peer are homed there. -/
def State.countVisit (s : State) (n gl : Nat) (up : Bool) : State :=
  if peerOf (128 * gl) ≠ 0 then s
  else s.setSlice n fun x =>
    let v := x.visit.getD (visitKey gl) 0
    let v' := if up then v + 1 else v - 1
    { x with visit := if v' = 0 then x.visit.erase (visitKey gl) else x.visit.set (visitKey gl) v' }

/-- The filter of the line's home reports the line visited. -/
def State.visited (s : State) (gl : Nat) : Bool :=
  peerOf (128 * gl) ≠ 0 ||
  (s.slice ((s.dir.get? gl).elim (s.homeOfLine gl) Dir.home)).visit.getD (visitKey gl) 0 != 0

/-- Free an entry; its way remembers the version (R356). -/
def State.freeDir (s : State) (gl : Nat) : State :=
  match s.dir.get? gl with
  | none => s
  | some e =>
    { s.countVisit e.home gl false with dir := s.dir.erase gl, dirVers := s.dirVers.set (16 * s.dirSet gl + e.way) e.ver }

def bump (v : Nat) : Nat := (v + 1) % 65536

/-- Version u is older than version w (R356). -/
def older (u w : Nat) : Bool := 1 ≤ (w + 65536 - u) % 65536 && (w + 65536 - u) % 65536 ≤ 32767

/-- The copy that an entry's owner holds. -/
def State.ownerCopy (s : State) (gl : Nat) : Option (Nat × Visitor) :=
  if (s.dirOf gl).state = .i || (s.dirOf gl).state = .s then none
  else (s.dirOf gl).owner.bind fun a => (s.visitor (agentCode a) gl).map fun v => (agentCode a, v)

/-- Recall: the owner writes dirty data home, and keeps a clean copy. -/
def State.recall (s : State) (gl : Nat) : State :=
  match s.ownerCopy gl with
  | some (n, v) => if v.dirty then (s.putHome gl none v.data).setVisitor n gl { v with dirty := false } else s
  | none => s

/-- Drop every copy that the entry's map names, but for one agent's. -/
def State.invalidate (s : State) (gl : Nat) (but : Option Nat) : State :=
  (s.dirOf gl).agents.foldl (fun s n => if some n = but then s else s.dropVisitor n gl) s

/-- Overflow chooses the entry (R355, R358). -/
def State.evictDir (s : State) (gl : Nat) : State := ((s.recall gl).invalidate gl none).freeDir gl

/-- The victim of R358 among the entries of a set. -/
def State.victim (s : State) (set : Nat) : Option Nat :=
  let here := s.dir.filter fun e => s.dirSet e.1 == set && !e.2.busy
  let rank := fun (d : DState) => match d with
    | .s => 0
    | .e => 1
    | _ => 2
  let best := here.foldl (fun (b : Option (Nat × Nat × Nat)) e =>
    let k := (rank e.2.state, e.2.used, e.1)
    match b with
    | none => some k
    | some (r, u, g) => if k.1 < r || (k.1 = r && k.2.1 < u) then some k else some (r, u, g)) none
  best.map fun k => k.2.2

/-- Allocate an entry in state I, evicting when the set is full; `none` when every way is busy. -/
def State.allocDir (s : State) (gl : Nat) : Option State :=
  let set := s.dirSet gl
  let ways := fun (s : State) => (s.dir.filter fun e => s.dirSet e.1 == set).map fun e => e.2.way
  let free := fun (s : State) => (List.range 16).find? fun w => !(ways s).contains w
  let put := fun (s : State) (w : Nat) =>
    let n := s.homeOfLine gl
    (s.countVisit n gl true).useDir gl { Dir.zero with way := w, ver := s.dirVers.getD (16 * set + w) 0, home := n }
  match free s with
  | some w => some (put s w)
  | none =>
    match s.victim set with
    | none => none
    | some g => let s1 := s.evictDir g; (free s1).map (put s1)

/-- The open transaction of a line completes: its forward is acknowledged, and an owner that the entry names no longer frees its buffer
(R354, R357). -/
def State.dirClose (s : State) (gl : Nat) : State :=
  let e := s.dirOf gl
  if !e.busy then s
  else
    let s1 := { s with slices := s.slices.mapVals fun n x => if e.agents.contains n then x else { x with wbuf := x.wbuf.erase gl } }
    s1.setDir gl { e with busy := false }

/-- Transactions of a full set complete until a request for the line finds a way (R358). -/
def State.dirRoom (s : State) (gl : Nat) : State :=
  if (s.dirOf gl).state != .i || (s.allocDir gl).isSome then s
  else ((s.dir.filter fun e => s.dirSet e.1 == s.dirSet gl).map Prod.fst).foldl State.dirClose s

/-- The home sends the data of a line; a peer's home by a request on a link. -/
def State.homeData (s : State) (gl : Nat) : NMap Byte := lineMap (s.homeLine gl)

/-- RD(V) (R355); the state is unchanged when no entry can be had. -/
def State.dirRdOp (s : State) (v gl : Nat) : State :=
  let e := s.dirOf gl
  let join := fun (s : State) (e : Dir) => s.useDir gl (e.setAgents (dedup (e.agents ++ [v])))
  match e.state with
  | .i =>
    match s.allocDir gl with
    | none => s
    | some s1 =>
      let e := s1.dirOf gl
      ((s1.setDir gl { e.setAgents [v] with state := .e, owner := some (agentOf v), ver := bump e.ver }).give v gl
        (s1.homeData gl) false (bump e.ver)).peerSend gl
  | .s => ((join s e).give v gl (s.homeData gl) false e.ver).peerSend gl
  | .e | .m | .o =>
    match s.ownerCopy gl with
    | some (o, c) =>
      if o = v then s
      else if c.dirty || e.state = .o then (join s { e with state := .o, busy := true }).give v gl c.data false e.ver
      else (join s { e with state := .s, owner := none, ver := bump e.ver, busy := true }).give v gl c.data false (bump e.ver)
    | none => ((join s { e with state := .s, owner := none, ver := bump e.ver }).give v gl (s.homeData gl) false (bump e.ver)).peerSend gl

/-- RDX(V) (R355). -/
def State.dirRdxOp (s : State) (v gl : Nat) : State :=
  let e := s.dirOf gl
  let own := fun (s : State) (e : Dir) (data : NMap Byte) (ver : Nat) (busy : Bool) =>
    (s.useDir gl { e.setAgents [v] with state := .m, owner := some (agentOf v), ver := ver, busy := busy }).give v gl data true ver
  match e.state with
  | .i =>
    match s.allocDir gl with
    | none => s
    | some s1 => let e := s1.dirOf gl; (own s1 e (s1.homeData gl) (bump e.ver) false).peerSend gl
  | .s =>
    let s1 := s.invalidate gl (some v)
    match if e.agents.contains v then (s.slice v).visitors.get? gl else none with
    | some c => own s1 e c.data (bump e.ver) false
    | none => (own s1 e (s.homeData gl) (bump e.ver) false).peerSend gl
  | .e | .m | .o =>
    match s.ownerCopy gl with
    | some (o, c) =>
      if o = v then own (s.invalidate gl (some v)) e c.data (if e.state = .o then e.ver else bump e.ver) false
      else
        let s1 := s.invalidate gl (some v)
        own (if c.dirty then s1.retain o gl c else s1) e c.data (bump e.ver) true
    | none => (own (s.invalidate gl (some v)) e (s.homeData gl) (bump e.ver) false).peerSend gl

/-- What a peer or the host does with a line that it owns is its own: the bytes are free, and of an E line also whether it has written them
(R353; notes/assumptions/18.md). -/
def State.outsideOwns (s : State) (v gl : Nat) : State :=
  let e := s.dirOf gl
  let write := e.state = .m || Config.freeChoice (s.freeCtr + 128)
  if v < 64 || e.owner ≠ some (agentOf v) || !write then s
  else
    let data : NMap Byte := (List.range 128).map fun i => (i, (Config.freeWord (s.freeCtr + i)).setWidth 8)
    { s.setVisitor v gl { data := data, dirty := true, ver := e.ver } with freeCtr := s.freeCtr + 129 }

/-- A request takes its turn at the directory, with what an owner outside the device then does. -/
def State.dirServe (s : State) (q : DirReq) : State :=
  (if q.rdx then s.dirRdxOp q.slice q.line else s.dirRdOp q.slice q.line).outsideOwns q.slice q.line

/-- An event of a line is taken after its open transaction and after the requests that wait for the line, in their order (R354). -/
def State.dirTurn (s : State) (gl : Nat) : State :=
  (s.dirQueue.filter fun q => q.line == gl).foldl (fun s q => ((s.dirRoom gl).dirServe q).dirClose gl)
    ({ s with dirQueue := s.dirQueue.filter fun q => q.line != gl }.dirClose gl)

/-- A home-side read (R351, R355); of a peer's line it is a request on a link. -/
def State.homeR (s : State) (gl : Nat) : State :=
  let s := s.peerSend gl
  if !s.visited gl then s
  else
    let s := s.dirTurn gl
    let e := s.dirOf gl
    match e.state with
    | .i => s
    | .s => s
    | .e | .m | .o => (s.recall gl).setDir gl { e with state := .s, owner := none, ver := bump e.ver }

/-- A home-side write: no copy stays (R351, R355). -/
def State.homeW (s : State) (gl : Nat) : State :=
  if !s.visited gl then s
  else
    let s := s.dirTurn gl
    let e := s.dirOf gl
    match e.state with
    | .i => s
    | .s => (s.invalidate gl none).freeDir gl
    | .e | .m | .o => (((s.recall gl).invalidate gl none).setDir gl { e with ver := bump e.ver }).freeDir gl

/-- WB(V) (R355, R357): performed when the carried version equals the stamp; else acknowledged and discarded.  The owner's comes after the open
transaction of the line; another's copy stays buffered while an open forward needs it. -/
def State.dirWbOp (s : State) (v gl : Nat) : State :=
  let s := if (s.dirOf gl).owner = some (agentOf v) then s.dirClose gl else s
  let e := s.dirOf gl
  match s.visitor v gl with
  | none => s
  | some c =>
    let owner : Bool := e.owner == some (agentOf v)
    let home := if c.ver = e.ver then s.putHome gl none c.data else s
    match e.state, owner with
    | .e, true | .m, true => ((home.dropVisitor v gl).setDir gl { e with ver := bump e.ver }).freeDir gl
    | .o, true => (home.dropVisitor v gl).setDir gl
        { e.setAgents (e.agents.filter (· != v)) with state := .s, owner := none, ver := bump e.ver }
    | .i, _ => s.dropVisitor v gl
    | _, _ => if e.busy then s else s.setSlice v fun x => { x with wbuf := x.wbuf.erase gl }

/-- DROP(V) of a clean copy (R355), after the open transaction of the line (R354). -/
def State.dirDropOp (s : State) (v gl : Nat) : State :=
  let s := s.dirClose gl
  let e := s.dirOf gl
  let rest := e.agents.filter (· != v)
  let owner : Bool := e.owner == some (agentOf v)
  match s.visitor v gl with
  | none => s
  | some c =>
    if c.dirty || (owner && e.state == .o) then s
    else match e.state with
    | .i => s.dropVisitor v gl
    | .s => if rest = [] then (s.dropVisitor v gl).freeDir gl else (s.dropVisitor v gl).setDir gl (e.setAgents rest)
    | .e => if owner then (s.dropVisitor v gl).freeDir gl else s
    | .m => s
    | .o => (s.dropVisitor v gl).setDir gl { e.setAgents rest with state := if rest.any fun n => some (agentOf n) ≠ e.owner then .o else .m }

/-- LOSS of an agent, for one entry (R355, R360). -/
def State.dirLoss (s : State) (a : Agent) (gl : Nat) : State :=
  let s := s.dirClose gl
  let e := s.dirOf gl
  let l := e.agents.filter (· != agentCode a)
  let s1 := s.dropVisitor (agentCode a) gl
  match e.state with
  | .i => s1
  | .s => if l = [] then s1.freeDir gl else s1.setDir gl (e.setAgents l)
  | .e | .m => if e.owner = some a then (s1.setPoison gl true).freeDir gl else s1
  | .o =>
    let e1 := { e.setAgents l with state := if l.length ≤ 1 then .m else .o }
    if e.owner ≠ some a then s1.setDir gl e1
    else match l with
      | [] => (s1.setPoison gl true).freeDir gl
      | n :: r =>
        let k := r.foldl min n
        (s1.setSlice k fun x => { x with visitors := x.visitors.update gl ⟨[], false, 0⟩ fun v => { v with dirty := true, ver := bump e.ver } }).setDir
          gl { e1 with owner := some (agentOf k), ver := bump e.ver }

/-- The dirty copies of a line, wherever agents hold them (R359). -/
def State.dirtyCopies (s : State) (gl : Nat) : List Visitor :=
  (s.slices.map fun e => ([e.2.visitors.get? gl, e.2.wbuf.get? gl].filterMap id).filter Visitor.dirty).flatten

/-- Steps 3 and 4 of R359 for a line: every copy leaves its agent, and the newest of the dirty ones goes home. -/
def State.recallAll (s : State) (gl : Nat) : State :=
  let new := (s.dirtyCopies gl).foldl (fun (b : Option Visitor) c => match b with
    | none => some c
    | some x => if older x.ver c.ver then some c else some x) none
  let s1 := match new with
    | some c => s.putHome gl none c.data
    | none => s
  { s1 with slices := s1.slices.mapVals fun _ x => { x with visitors := x.visitors.erase gl, wbuf := x.wbuf.erase gl } }.freeDir gl

/-! ### The coherent level as a core reaches it (R350) -/

/-- The slice in whose visitor ways a core's miss or write-back goes: that of its own cluster for a line homed on another die; for a peer's
line the slice that the interleave set names (R502); for host memory homed on the core's die, the home.  `none` for a line that goes to its
home: one homed on the core's die, or any line while that slice is out of service (DESIGN CHOICE, notes/assumptions/46.md). -/
def State.wayOf (s : State) (c : Nat) (a : GAddr) : Option Nat :=
  let h := s.home a
  let near := dieOfSlice h == dieOfCore c
  let v := if peerOf a.gia ≠ 0 || near then h else sliceOfCore c
  if (near && peerOf a.gia = 0 && s.tierOf a.gia != 2) || !s.sliceUp v then none else some v

/-! ### One home for a line (R109) -/

def Range.holds (r : Range) (ia : Nat) : Bool := r.peer == 0 && r.ia ≤ ia && ia < r.ia + r.size

/-- The home whose copy the frame of a line holds: that of the first range over it, until another set reaches it. -/
def State.homeAt (s : State) (gl : Nat) : Option Nat :=
  match s.homes.get? gl with
  | some h => some h.home
  | none => s.ctxs.findSome? fun e =>
    if e.2.state == .free then none
    else (List.range 16).findSome? fun m => match e.2.range m with
      | some r => if r.holds (128 * gl) then some (s.home ⟨128 * gl, r.ilv, r.set⟩) else none
      | none => none

/-- The frame of a line holds the copy of the home that an access reaches.  Through a set with another home than software has used so far the
access finds that home's own copy, which begins as the frame's bytes (R109). -/
def State.via (s : State) (a : GAddr) : State :=
  let gl := lineOf a.gia
  let h := s.home a
  match s.lineAddr gl, s.homeAt gl with
  | some pa, some p =>
    if peerOf a.gia ≠ 0 || p = h then s
    else
      let s1 := s.homeW gl
      let o := ((s1.homes.get? gl).map HomeCopies.others).getD []
      { s1 with mem := (match o.get? h with
                  | some b => Memory.writeN s1.mem pa b
                  | none => s1.mem)
                homes := s1.homes.set gl ⟨h, (o.erase h).set p (s1.homeLine gl)⟩ }
  | _, _ => s

/-- A read, and a write, at the home that an access reaches. -/
def State.readHome (s : State) (a : GAddr) : State := (s.via a).homeR (lineOf a.gia)
def State.writeHome (s : State) (a : GAddr) : State := (s.via a).homeW (lineOf a.gia)

/-- Read a line at the coherent level for a core. -/
def State.cohRead (s : State) (c : Nat) (a : GAddr) : State × List Byte :=
  let gl := lineOf a.gia
  let s := s.via a
  match s.wayOf c a with
  | none => let s1 := s.homeR gl; (s1, s1.homeLine gl)
  | some v =>
    let s1 := if ((s.slice v).visitors.get? gl).isSome then s else ((s.dirTurn gl).dirRoom gl).dirRdOp v gl
    (s1, match s1.visitor v gl with
      | some x => lineBytes x.data
      | none => s1.homeLine gl)

/-- Write bytes of a line at the coherent level for a core: a home, a stack or a port out of service, a lost peer and host memory without CXL
discard them (R447, R504, R507, R508), and a poisoned line is written only as R361 says.  The owner of an E or M line writes it without a
request (R353). -/
def State.cohWrite (s : State) (c : Nat) (a : GAddr) (ctx : Nat) (bytes : NMap Byte) : State :=
  let gl := lineOf a.gia
  let home := fun (s : State) => ((s.homeW gl).putHome gl (some ctx) bytes).countPte a.gia 80
  if bytes = [] || (peerOf a.gia = 0 && !s.sliceUp (s.home a)) || !s.reachable a.gia then s
  else
  let s := s.via a
  if s.isPoison gl then home s
  else match s.wayOf c a with
    | none => home s
    | some v =>
      let e := s.dirOf gl
      let mine := (e.state = .m || e.state = .e) && e.owner = some (.slice v)
      let s1 := if mine then s else ((s.dirTurn gl).dirRoom gl).dirRdxOp v gl
      match s1.visitor v gl with
      | some x => ((s1.setVisitor v gl { x with data := bytes.foldl (fun d e => d.set e.1 e.2) x.data, dirty := true }).wake gl).countPte a.gia 80
      | none => home s1

/-! ### L1 (R314, R316, R349) -/

def Line1.dirty (l : Line1) : NMap Byte := (l.cells.filter fun e => e.2.dirty).map fun e => (e.1, e.2.val)
/-- The line as a core reaches it. -/
def Line1.addr (l : Line1) (gl : Nat) : GAddr := ⟨128 * gl, l.ilv, l.set⟩
def State.l1 (s : State) (c gl : Nat) : Line1 := (s.core c).l1.getD gl .zero
def State.setL1 (s : State) (c gl : Nat) (l : Line1) : State :=
  s.setCore c fun x =>
    { x with l1 := if l.cells = [] && l.resv = [] && l.held = none then x.l1.erase gl else x.l1.set gl l }

/-! ### Release records (R324 to R330) -/

/-- The wider of two scopes. -/
def scopeRank : Scope → Nat
  | .gang => 0 | .wg => 1 | .clu => 2 | .dev => 3 | .sys => 4
def scopeMax (a b : Scope) : Scope := if scopeRank a < scopeRank b then b else a
def coreWide (a : Scope) : Bool := 2 ≤ scopeRank a

/-- Order a drain of a core for a slice: it covers the bytes that are dirty now, and the records that the slice has registered (R326). -/
def State.orderDrain (s : State) (n c : Nat) (who : Option (Nat × Nat × Option Nat)) : State :=
  let lines := ((s.core c).l1.filter fun e => e.2.dirty != []).map Prod.fst
  s.setCore c fun x => { x with drains := x.drains ++ [⟨n, lines, (s.slice n).recNo, who⟩] }

/-- Register a record at the slice; `none` when it is refused (R325). -/
def State.register (s : State) (n gl c : Nat) (sc : Scope) : Option State :=
  let rs := (s.slice n).records
  let no := (s.slice n).recNo + 1
  let put := fun (l : List RecSlot) => some (s.setSlice n fun x => { x with records := x.records.set gl l, recNo := no })
  match rs.get? gl with
  | none => if rs.length ≥ Config.records then none else put [⟨c, sc, no⟩]
  | some l =>
    if l.any fun k => k.core == c then
      put (l.map fun k => if k.core = c then { k with scope := scopeMax k.scope sc, no := no } else k)
    else if l.length ≥ 4 then none
    else put (l ++ [⟨c, sc, no⟩])

/-- A record that has arrived on a watched line starts a drain of its core (R330). -/
def State.watchDrain (s : State) (n gl c : Nat) : State :=
  if (s.slice n).monitors.has gl then s.orderDrain n c none else s

/-- Slots that cover an acquire by core c (R327, R329). -/
def covering (l : List RecSlot) (c : Nat) (remote : Bool) : List RecSlot :=
  l.filter fun k =>
    remote || (match k.scope with
      | .dev | .sys => true
      | .clu => sliceOfCore k.core == sliceOfCore c
      | .gang | .wg => k.core == c)

/-! ### Write-backs and drains (R314, R324, R326) -/

/-- Write the dirty bytes of a line back; they stay as clean bytes. -/
def State.putBack (s : State) (c gl : Nat) : State :=
  let l := s.l1 c gl
  if l.dirty = [] then s
  else (s.cohWrite c (l.addr gl) l.ctx l.dirty).setL1 c gl
    { l with cells := l.cells.mapVals fun _ x => { x with dirty := false }, held := none, writers := [] }

/-- The record of a held line arrives at its slice, which ends the hold: registered, or refused (`true`).  A slice that has left service keeps no
records. -/
def State.recordLine (s : State) (c gl : Nat) : State × Bool :=
  let l := s.l1 c gl
  match l.held with
  | none => (s, false)
  | some sc =>
    let n := s.home (l.addr gl)
    let free := fun (s : State) => s.setL1 c gl { s.l1 c gl with held := none, since := s.clk }
    if !s.sliceUp n then (free s, false)
    else match s.register n gl c sc with
      | some s1 => ((free s1).watchDrain n gl c, false)
      | none => (free s, true)

/-- Every byte of a core's L1 that is dirty goes to the coherent level (R326), after the records of the lines that are held. -/
def State.drainCore (s : State) (c : Nat) : State :=
  let s1 := (s.core c).l1.keys.foldl (fun s gl => (s.recordLine c gl).1) s
  (s1.core c).l1.keys.foldl (fun s gl => s.putBack c gl) s1

/-- The hold of a line ends; a refused record makes the core drain, the line with the rest (R328). -/
def State.endHold (s : State) (c gl : Nat) : State :=
  let (s1, refused) := s.recordLine c gl
  if refused then s1.drainCore c else s1

/-- Write a line back; a line held for its record goes after it (R324). -/
def State.writeBack (s : State) (c gl : Nat) : State := (s.endHold c gl).putBack c gl

/-- A drain that slice n ordered completes: the lines are written back, and the core's slots registered before the order go (R326). -/
def State.finishDrain (s : State) (d : Drain) (c : Nat) : State :=
  let s1 := d.lines.foldl (fun s gl => s.writeBack c gl) s
  let s2 := s1.setCore c fun x => { x with drains := x.drains.erase d }
  s2.setSlice d.slice fun n =>
    { n with records := (n.records.mapVals fun _ l => l.filter fun k => !(k.core == c && k.no ≤ d.upTo)).filter fun e => e.2 != [] }

/-- Dirty bytes are written back no later than 22,000 clk after the store, or after the hold (R314). -/
def State.agedOut (s : State) : State :=
  s.cores.foldl (fun s e => (e.2.l1.filter fun l => l.2.dirty != [] && l.2.held.isNone && l.2.since + 22000 ≤ s.clk).foldl
    (fun s l => s.writeBack e.1 l.1) s) s

/-- Drop the clean bytes of a line. -/
def State.dropClean (s : State) (c gl : Nat) : State :=
  let l := s.l1 c gl
  s.setL1 c gl { l with cells := l.cells.filter fun e => e.2.dirty }

/-- Before a read at the coherent level (R316). -/
def State.flushLine (s : State) (c gl : Nat) : State := (s.writeBack c gl).dropClean c gl

/-- An acquire at `.CLU` or wider drops every clean byte (R322). -/
def State.acquireDrop (s : State) (c : Nat) : State := (s.core c).l1.keys.foldl (fun s gl => s.dropClean c gl) s

/-- Fill a line: every byte that is not dirty takes the coherent level's value (R314). -/
def State.fill (s : State) (c ctx : Nat) (a : GAddr) : State :=
  let gl := lineOf a.gia
  let (s1, d) := s.cohRead c a
  let l := s1.l1 c gl
  s1.setL1 c gl { l with ilv := a.ilv, set := a.set, ctx := if l.dirty = [] then ctx else l.ctx,
                         cells := (List.range 128).map fun i =>
                           (i, match l.cells.get? i with
                             | some x => if x.dirty then x else ⟨d.getD i 0, false⟩
                             | none => ⟨d.getD i 0, false⟩) }

/-- The value of a valid byte. -/
def State.l1Byte (s : State) (c gia : Nat) : Option Byte := ((s.l1 c (lineOf gia)).cells.get? (gia % 128)).map Cell1.val

/-- A store performed in the L1: bytes of one line, by offset. -/
def State.l1Store (s : State) (c ctx : Nat) (a : GAddr) (bytes : NMap Byte) : State :=
  let gl := lineOf a.gia
  let l := s.l1 c gl
  s.setL1 c gl { l with ilv := a.ilv, set := a.set, ctx := ctx, writers := dedup (l.writers ++ [ctx]),
                        since := if l.dirty = [] then s.clk else l.since,
                        cells := bytes.foldl (fun m e => m.set e.1 ⟨e.2, true⟩) l.cells }

/-! ### Pages, grants and revokes (R455, R462) -/

/-- The page of a global IA and its length. -/
def State.pageOf (s : State) (gia : Nat) : Nat × Nat :=
  let large := peerOf gia = 0 && (match s.region (iaOf gia) with
    | some (_, e) => e / 2 % 2 = 1
    | none => false)
  let n := if large then 2 ^ 21 else 2 ^ 16
  (gia / n * n, n)

def State.grantOf (s : State) (c ctx gia : Nat) : Option Grant :=
  (s.core c).grants.find? fun g => g.page == (s.pageOf gia).1 && g.ctx == ctx

/-- Use a grant: it becomes the most recently used. -/
def State.touchGrant (s : State) (c : Nat) (g : Grant) : State :=
  s.setCore c fun x => { x with grants := x.grants.filter (· != g) ++ [g] }

/-- Give a grant, evicting the least recently used of 256. -/
def State.addGrant (s : State) (c : Nat) (g : Grant) : State :=
  s.setCore c fun x =>
    let l := x.grants.filter fun h => !(h.page == g.page && h.ctx == g.ctx)
    { x with grants := (if l.length ≥ Config.grants then l.drop 1 else l) ++ [g] }

def inPage (p : Nat × Nat) (gl : Nat) : Bool := p.1 ≤ 128 * gl && 128 * gl < p.1 + p.2

/-- A revoke waits out release-record holds (R462). -/
def State.revokeReady (s : State) (gia : Nat) : Bool :=
  let p := s.pageOf gia
  s.cores.all fun e => e.2.l1.all fun l => !(inPage p l.1 && l.2.held.isSome)

/-- Revoke a page on every core (R462); what visitors hold of it goes to the frame too, which a PTE of another IA can name (R527). -/
def State.revoke (s : State) (gia : Nat) : State :=
  let p := s.pageOf gia
  let s1 := s.cores.keys.foldl (fun s c =>
    let s1 := ((s.core c).l1.keys.filter (inPage p)).foldl (fun s gl => s.flushLine c gl) s
    s1.setCore c fun x => { x with grants := x.grants.filter fun g => !(p.1 ≤ g.page && g.page < p.1 + p.2) }) s
  let s2 := ((s1.dir.map Prod.fst).filter (inPage p)).foldl (fun s gl => s.homeW gl) s1
  { s2 with homes := s2.homes.filter fun e => !inPage p e.1 }

end Sys2Proof.Machine
end

