-- ==== Sys2Proof/Machine/Lifecycle.lean ====
section
/-!
DEFINITION. What happens to kernels, workgroups, threads and contexts apart from the instructions: event posts (spec/04_context.md R112),
waits on the pager (spec/17_page.md R457 to R460), barrier phases (spec/16_barrier.md R430 to R432), the end of threads and workgroups (R165,
R207), stopping and ending a kernel (spec/06_kernel.md R137 to R141), and the context fault (R102).
-/
namespace Sys2Proof.Machine
open Sys2Proof

/-! ### Accesses by the device through a context -/

/-- How an access of the device through a VA ends: performed, a translation miss, or not resolvable, tier-missed or out of service. -/
inductive Put
  | ok (s : State)
  | miss
  | no
deriving DecidableEq, Repr

/-- A store of the device at the coherent level by VA, of bytes in one line. -/
def State.lineStore (s : State) (ctx va : Nat) (bytes : List Byte) : Put :=
  match (s.ctx ctx).resolve .wr va with
  | none => .no
  | some a =>
    let gl := lineOf a.gia
    let put := fun (s : State) => (s.writeHome a).putHome gl (some ctx) ((List.range bytes.length).map fun i => (a.gia % 128 + i, bytes.getD i 0))
    match s.translate ctx a .wr false true with
    | .ok _ _ => .ok (put (s.countPte a.gia 80))
    | .miss _ => .miss
    | .cow n => if n ≤ 1 then .ok (put ((s.clearCow a.gia).countPte a.gia 80)) else .miss
    | .denied | .tier | .dead => .no

/-- A store of the device at the coherent level by VA, line by line: all of it, or none. -/
def State.deviceStore (s : State) (ctx va : Nat) (bytes : List Byte) : Put :=
  let n := 128 - va % 128
  if bytes.length ≤ n then s.lineStore ctx va bytes
  else match s.lineStore ctx va (bytes.take n) with
    | .ok s1 => s1.lineStore ctx (va + n) (bytes.drop n)
    | r => r

/-- A read of the device at the coherent level by VA, inside one line: the bytes and whether the line is poisoned. -/
inductive Got
  | ok (s : State) (bytes : List Byte)
  | miss (gia : Nat)
  | denied
  | tier (gia : Nat)
  | dead
  | bad
deriving DecidableEq, Repr

def State.deviceRead (s : State) (ctx : Nat) (n : Need) (va len : Nat) : Got :=
  match (s.ctx ctx).resolve n va with
  | none => .denied
  | some a =>
    let gl := lineOf a.gia
    match s.translate ctx a n false false with
    | .ok _ _ =>
      if s.isPoison gl then .bad
      else let s1 := (s.readHome a).countPte a.gia 80; .ok s1 (((s1.homeLine gl).drop (a.gia % 128)).take len)
    | .miss _ => .miss a.gia
    | .cow _ | .denied => .denied
    | .tier => .tier a.gia
    | .dead => .dead

/-! ### Events (R111, R112) -/

def State.signal (s : State) (v : Nat) : State := { s with msi := s.msi ++ [v] }

/-- Post an event to a context, or drop it and count it as lost (R112). -/
def State.post (s : State) (ctx kind info addr : Nat) : State :=
  let c := s.ctx ctx
  let n := (c.evqTail + 2 ^ 32 - c.evqHead) % 2 ^ 32
  let lost := fun (s : State) => s.setCtx ctx fun c => c.setFld 10 32 32 (c.evLost + 1)
  if n ≥ 2 ^ c.evqLog2 then lost s
  else
    match s.deviceStore ctx (c.evqVa + 16 * (c.evqTail % 2 ^ c.evqLog2)) (bytesOf (kind + 2 ^ 16 * info + 2 ^ 64 * addr) 16) with
    | .ok s1 =>
      let s2 := s1.setCtx ctx fun c => c.setFld 7 0 32 (c.evqTail + 1)
      if n = 0 then s2.signal c.msiVector else s2
    | .miss | .no => lost s

/-- `ev.info` of the page events (R460): slice, requesting core, write, engine, ticket fetch, missing region. -/
def pageInfo (slice core : Nat) (write engine ticket region : Bool) : Nat :=
  slice + 2 ^ 6 * core + 2 ^ 14 * write.toNat + 2 ^ 15 * engine.toNat + 2 ^ 16 * ticket.toNat + 2 ^ 17 * region.toNat

/-- Post TIER_MISS, at most once per page every 100 µs (R459). -/
def State.postTier (s : State) (a : GAddr) (ctx core : Nat) (write engine ticket : Bool) : State :=
  let n := s.home a
  let pg := (s.pageOf a.gia).1
  let due := match (s.slice n).tierPosts.get? pg with
    | none => true
    | some t => t + 100 * Config.clkPerUs ≤ s.clk
  if due then
    (s.setSlice n fun x => { x with tierPosts := x.tierPosts.set pg s.clk }).post ctx 1 (pageInfo n core write engine ticket false) pg
  else s

/-- What waits for the pager on a page: a producer of a thread, a held thread, a siding entry, a command, a ticket fetch, the completion word
of a kernel, the save of a workgroup. -/
inductive Waiter
  | prod (w t seq : Nat)
  | held (w t : Nat)
  | side (core id : Nat)
  | cmd (core id : Nat)
  | tkt (slice entry : Nat)
  | done (h : Nat)
  | save (w : Nat)
deriving DecidableEq, Repr

/-- The page that a held thread waits for. -/
def Hold.page? : Hold → Option Nat
  | .waita _ _ _ _ _ _ _ _ _ p _ | .lineClr _ p _ | .codebook _ _ _ p _ => p
  | .miss p failed _ _ _ => if failed then Option.none else some p
  | _ => Option.none

/-- The part of a kernel's completion word that waits for the pager: the first, by line, whose page is missing (R139). -/
def State.doneMiss (s : State) (k : Kern) : Option GAddr :=
  let va := Krec.doneVa k.krec
  ([va] ++ if 120 < va % 128 then [va / 128 * 128 + 128] else []).findSome? fun v =>
    ((s.ctx k.ctx).resolve .wr v).filter fun a => match s.translate k.ctx a .wr false true with
      | .miss _ => true
      | .cow n => 1 < n
      | _ => false

/-- The waiters of R457 on the pages for which p holds. -/
def State.waiters (s : State) (p : Nat → Bool) : List Waiter :=
  let yes := fun (o : Option Nat) => (o.map p).getD false
  let ofThread := fun (w : Nat) (e : Nat × Thread) =>
    ((e.2.prods.filter fun q => yes q.wait).map fun q => Waiter.prod w e.1 q.seq) ++ if yes e.2.hold.page? then [.held w e.1] else []
  let ofWg := fun (e : Nat × Wg) => (e.2.threads.map (ofThread e.1)).flatten ++
    match e.2.preempt with
    | some q => (match q.wait with
      | some (pg, false) => if p pg then [.save e.1] else []
      | _ => [])
    | none => []
  let ofCore := fun (e : Nat × Core) =>
    ((e.2.siding.filter fun x => x.state == .pager && p (s.pageOf x.gia).1).map fun x => Waiter.side e.1 x.id) ++
    ((e.2.xq ++ e.2.mq).filter fun c => yes c.wait).map fun c => Waiter.cmd e.1 c.id
  let ofSlice := fun (e : Nat × Slice) => (e.2.tickets.filter fun k => yes k.2.wait).map fun k => Waiter.tkt e.1 k.1
  let ends := s.kernels.filter fun e => e.2.donePend && yes ((s.doneMiss e.2).map fun a => (s.pageOf a.gia).1)
  (s.wgs.map ofWg).flatten ++ (s.cores.map ofCore).flatten ++ (s.slices.map ofSlice).flatten ++ ends.map fun e => .done e.1

/-- Entries of a miss table on which nothing waits are freed (R457). -/
def State.sweepMisses (s : State) (n : Nat) : State :=
  s.setSlice n fun x => { x with misses := x.misses.filter fun m => s.waiters (· == m.page) != [] }

/-- A request waits for the pager: the slice records the page and posts PAGE_MISS or COW when it makes the entry; a full table makes
none (R457). -/
def State.postMiss (s : State) (a : GAddr) (ctx kind info : Nat) : State :=
  let n := s.home a
  let pg := (s.pageOf a.gia).1
  let s := s.sweepMisses n
  let x := s.slice n
  if x.misses.any fun m => m.page == pg then s
  else if x.misses.length ≥ Config.missTable then s
  else
    let lost := (s.ctx ctx).evLost
    let s1 := s.post ctx kind info pg
    s1.setSlice n fun x => { x with misses := x.misses ++ [⟨pg, kind, ctx, info, (s1.ctx ctx).evLost != lost, s.clk⟩] }

/-- The miss table of the home has an entry for the page: without one, a waiting request asks again (R457). -/
def State.entered (s : State) (a : GAddr) : Bool := (s.slice (s.home a)).misses.any fun m => m.page == (s.pageOf a.gia).1

/-- The answer of translation for a request that may wait, with the posts it makes: perform, wait on a page, fail, tier miss, or
discard at a home that is out of service. -/
inductive Ask
  | go (s : State)
  | wait (s : State) (page : Nat)
  | fail
  | tier (s : State)
  | dead
deriving DecidableEq, Repr

/-- R451 with R457 to R459 for one request of a core. -/
def State.ask (s : State) (ctx core : Nat) (a : GAddr) (n : Need) (near store engine ticket : Bool) : Ask :=
  let pg := (s.pageOf a.gia).1
  let w := n == .wr
  match s.translate ctx a n near store with
  | .ok _ _ => .go (s.countPte a.gia 80)
  | .miss r => .wait (s.postMiss a ctx 3 (pageInfo (s.home a) core w engine ticket r)) pg
  | .cow c =>
    if c ≤ 1 then .go ((s.clearCow a.gia).countPte a.gia 80)
    else .wait (s.postMiss a ctx 2 (s.home a + 2 ^ 6 * core + 2 ^ 15 * engine.toNat + 2 ^ 16 * c)) pg
  | .denied => .fail
  | .tier => .tier (s.postTier a ctx core w engine ticket)
  | .dead => .dead

/-! ### Barriers (R429 to R432) -/

def lvlCode : Lvl → Nat
  | .gang => 0 | .wg => 1 | .clu => 2 | .stk => 3 | .grid => 4

/-- Where the phase of an upper-level barrier stands in its kernel: level, unit and number. -/
def barKey (b : Bar) (unit : Nat) : Nat := 8192 * lvlCode b.lvl + 16 * unit + b.num

/-- The unit of a level that a core lies in. -/
def unitOf (l : Lvl) (core : Nat) : Nat :=
  match l with
  | .clu => sliceOfCore core
  | .stk => stackOfCore core
  | _ => 0

/-- Index of an upper-level barrier among a workgroup's contributions (R442). -/
def upperIdx (b : Bar) : Nat :=
  match b.lvl with
  | .clu => b.num
  | .stk => 8 + b.num
  | _ => 12 + b.num

/-- Resident member workgroups of an upper-level barrier's unit. -/
def State.memberWgs (s : State) (h : Nat) (l : Lvl) (unit : Nat) : List Nat :=
  (s.wgs.filter fun e => e.2.kernel == h && (l == .grid || unitOf l e.2.core == unit)).map Prod.fst

def State.liveMembers (s : State) (w : Nat) (l : Lvl) : Nat :=
  let g := s.wg w
  match l with
  | .gang => 0
  | .wg => g.live.length
  | _ => ((s.memberWgs g.kernel l (unitOf l g.core)).map fun v => (s.wg v).live.length).foldl (· + ·) 0

/-- Count and phase of a barrier above the gang. -/
def State.phaseOf (s : State) (w : Nat) (b : Bar) : Phase :=
  let g := s.wg w
  match b.lvl with
  | .gang => .zero
  | .wg => g.bars.getD b.num .zero
  | l => (s.kern g.kernel).bars.getD (barKey b (unitOf l g.core)) .zero

def State.setPhase (s : State) (w : Nat) (b : Bar) (p : Phase) : State :=
  let g := s.wg w
  match b.lvl with
  | .gang => s
  | .wg => s.setWg w fun g => { g with bars := g.bars.set b.num p }
  | l => s.setKern g.kernel fun k => { k with bars := k.bars.set (barKey b (unitOf l g.core)) p }

/-- Complete the phase of a barrier whose condition holds (R432). -/
def State.barCheck (s : State) (w : Nat) (b : Bar) : State :=
  let p := s.phaseOf w b
  let n := s.liveMembers w b.lvl
  if b.lvl = .gang || p.count < n || n = 0 then s
  else
    let s1 := s.setPhase w b ⟨0, !p.phase⟩
    if b.lvl = .wg then s1
    else
      let g := s.wg w
      (s.memberWgs g.kernel b.lvl (unitOf b.lvl g.core)).foldl
        (fun s v => s.setWg v fun x => { x with upper := x.upper.set (upperIdx b) 0 }) s1

/-- The mask of a gang barrier. -/
def Wg.gangBar (w : Wg) (g n : Nat) : BitVec 64 := (w.gang g).bars.getD n 0

/-- Complete a gang barrier's phase when every live lane has its bit set. -/
def State.gangCheck (s : State) (w g n : Nat) : State :=
  let x := s.wg w
  let live := x.gangLive g
  if live ≠ [] && live.all fun t => (x.gangBar g n).getLsbD (x.laneOf t) then
    s.setWg w fun x => x.setGang g fun y => { y with bars := y.bars.set n 0 }
  else s

/-- Every barrier that threads of a workgroup belong to, checked after an exit. -/
def State.checkAll (s : State) (w g : Nat) : State :=
  let s1 := (List.range 4).foldl (fun s n => s.gangCheck w g n) s
  let bars := (List.range 16).map (Bar.mk .wg) ++ (List.range 8).map (Bar.mk .clu) ++ (List.range 4).map (Bar.mk .stk) ++
    (List.range 4).map (Bar.mk .grid)
  bars.foldl (fun s b => s.barCheck w b) s1

/-! ### L1 reservations of gangs (R262) -/

/-- Release the lines reserved by the gangs that satisfy p. -/
def Core.unreserve (c : Core) (p : Nat × Nat × Nat → Bool) : Core :=
  { c with l1 := (c.l1.mapVals fun _ l => { l with resv := l.resv.filter fun r => !p r }).filter fun e =>
      !(e.2.cells = [] && e.2.resv = [] && e.2.held = none) }

/-! ### Ends of threads and workgroups -/

/-- Remove a thread's lanes from monitor entries (R347). -/
def State.unmonitor (s : State) (p : Nat × Nat → Bool) : State :=
  { s with slices := s.slices.mapVals fun _ n =>
      { n with monitors := (n.monitors.mapVals fun _ l => l.filter fun e => !p e).filter fun e => e.2 != [] } }

/-- Ended means that the kernel holds one of its three final states. -/
def KState.final (k : KState) : Bool := k == .complete || k == .faulted || k == .killed

/-- The frame of a slot frees when no thread of `tf.lanes` is left in handler mode (R480). -/
def Wg.frameCheck (w : Wg) (k : Nat) : Wg :=
  let sl := w.slot k
  if sl.busy && (w.threads.all fun e => !(slotOf e.1 == k && e.2.live && e.2.handler)) then w.setSlot k fun x => { x with busy := false }
  else w

/-- Commands of a workgroup that its core's engines still hold. -/
def State.cmdsOf (s : State) (w : Nat) : List Cmd :=
  let c := s.core (s.wg w).core
  (c.xq ++ c.mq).filter fun e => e.wid == w

/-- Replace the transfer queue; the clks for which it stood full are counted (R493). -/
def Core.setXq (c : Core) (clk : Nat) (l : List Cmd) : Core :=
  { c with xq := l, fullAt := if l.length < Config.xferQueue then none else some (c.fullAt.getD clk),
           perf := match c.fullAt with
             | some t => if l.length < Config.xferQueue then c.perf.update 5 0 (· + .ofNat 64 (clk - t)) else c.perf
             | none => c.perf }

/-- Drop commands and their ranges, which can lie in the tables of other cores (R417); a party of a multicast that goes waits no more (R383). -/
def State.cancel (s : State) (p : Cmd → Bool) : State :=
  let gone := ((s.cores.map fun e => ((e.2.xq ++ e.2.mq ++ e.2.pend).filter p).map Cmd.id)).flatten
  { s with cores := s.cores.mapVals fun _ c =>
      { c.setXq s.clk (c.xq.filter fun e => !p e) with
        mq := c.mq.filter fun e => !p e, mcast := if c.mq.head?.any p then none else c.mcast, pend := c.pend.filter fun e => !p e,
        locks := c.locks.filter fun l => !gone.contains l.cmd } }

/-- The kernel's last workgroup has ended (ALL_ENDED, R141). -/
def State.allEnded (s : State) (h : Nat) : State :=
  let k := s.kern h
  if (k.state == .running || k.state == .dispatching) && k.stop.isNone && k.ended == Krec.wgCount k.krec then
    s.setKern h fun k => { k with state := .draining }
  else s

/-- A workgroup that has ended leaves its core once no command and no request of it is left (R165). -/
def State.wgRelease (s : State) (w : Nat) : State :=
  if (s.wg w).ended && (s.cmdsOf w).isEmpty && ((s.wg w).threads.all fun e => e.2.prods.isEmpty && e.2.hold == .none) then
    { s with wgs := s.wgs.erase w }
  else s

/-- The request of a thread that has ended is over. -/
def State.dropHold (s : State) (w t : Nat) : State := (s.setThread w t fun x => { x with hold := .none }).wgRelease w

/-- A held thread has a request at a slice. -/
def Hold.inFlight : Hold → Bool
  | .redeem r => r.acc
  | .lineClr _ _ _ => true
  | .waita _ _ _ _ _ _ _ _ _ page _ => page.isSome
  | .codebook _ _ _ page _ => page.isSome
  | .miss _ failed _ _ _ => !failed
  | _ => false

/-- The request of a held thread that outlives it: a redeem of `TKT.RDS` does not, since its command is cancelled (R137 step 5). -/
def Hold.left (h : Hold) : Hold :=
  match h with
  | .redeem r => if r.rds.isNone && h.inFlight then h else .none
  | _ => if h.inFlight then h else .none

/-- What a thread that has ended leaves behind: requests that it issued still complete, and their results are discarded (R190, R207).  A kill that
waits for its kernel's stop is over when its own kernel is `stopped`. -/
def Prod.left (stopped : Bool) (p : Prod) : Option Prod :=
  let keep := match p.work with
    | .load _ _ | .atom _ _ _ | .store _ _ _ _ | .ticket _ _ _ _ | .drop _ | .launch _ | .post _ _ | .getev | .page _ _ _ => true
    | .kkill _ _ found => !stopped || found.isNone
    | .spotStore _ _ => true
    | .granule _ _ _ clr _ _ => clr
    | _ => false
  if keep then some { p with tgt := none, stat := none } else none

/-- A workgroup keeps no granule loads once all its threads have ended. -/
def Work.isGranule : Work → Bool
  | .granule _ _ _ _ _ _ => true
  | _ => false

def Thread.ended (t : Thread) (stopped : Bool) : Thread :=
  { t with live := false, hold := t.hold.left, report := [], handler := false, errs := .zero, later := .zero,
           prods := (t.prods.filterMap (Prod.left stopped)).filter fun p => !p.work.isGranule }

/-- The threads of a workgroup that leave requests behind. -/
def Wg.leftover (g : Wg) (stopped : Bool) : NMap Thread :=
  (g.threads.map fun e => (e.1, e.2.ended stopped)).filter fun e => e.2.prods != [] || e.2.hold != .none

/-- A pre-emption has ended: it missed its bound, or not (R171, R172). -/
def State.preemptOver (s : State) (p : Preempt) : State :=
  let late := p.missed || p.start + p.bound < s.clk
  { s with regs := { s.regs with prMiss := late, prMisses := if late then min (s.regs.prMisses + 1) 65535 else s.regs.prMisses } }

/-- A workgroup whose save or flush has begun issues nothing (R173, R175). -/
def Wg.stopped (w : Wg) : Bool :=
  match w.preempt with
  | some p => p.mech != .drain
  | none => false

/-- A workgroup of the kernel has come to the core, left it or ended there (R441). -/
def Kern.stirred (k : Kern) (core clk : Nat) : Kern := { k with moved := k.moved.set core clk }

/-- A workgroup whose threads have all ended: it counts as ended, its slots and registers are released, and the rest when its engine
commands have completed (R165). -/
def State.wgEnd (s : State) (w : Nat) : State :=
  let g := s.wg w
  if g.live ≠ [] || g.ended then s
  else
    let s1 := (s.setWg w fun g => { g with ended := true, slots := [], threads := g.leftover false, preempt := none }).setKern g.kernel fun k =>
      { k with ended := k.ended + 1 }.stirred g.core s.clk
    let s2 := match g.preempt with
      | none => s1
      | some p => s1.preemptOver p
    s2.allEnded g.kernel

/-- End a thread (R207): it leaves rendezvous, `JOIN` waits and barrier counts; its outstanding results are discarded. -/
def State.exitThread (s : State) (w t : Nat) : State :=
  let s1 := (s.setThread w t fun t => { t with live := false, prods := t.prods.filterMap (Prod.left false), hold := .none, report := [], handler := false,
                                               errs := .zero, later := .zero }).unmonitor (· == (w, t))
  let s2 := s1.setWg w fun g => g.frameCheck (slotOf t)
  let g := (s.wg w).gangOf t
  let s3 := s2.checkAll w g
  let s4 := if (s3.wg w).gangLive g = [] then s3.setCore (s.wg w).core (Core.unreserve · fun r => r.1 == w && r.2.1 == g) else s3
  (s4.wgEnd w).wgRelease w

/-- Remove a workgroup whose state is discarded (R137, R175): commands, siding entries, reservations, monitor entries go with it.  Requests
that it has issued complete, but for allocations that are queued (notes/assumptions/23.md). -/
def State.removeWg (s : State) (w : Nat) : State :=
  let queued := fun (t : Nat) (p : Prod) => s.slices.any fun e => e.2.waiting.contains (w, t, p.seq)
  let g : Wg := { s.wg w with threads := (s.wg w).threads.mapVals fun t x => { x with prods := x.prods.filter fun p => !queued t p } }
  let s1 := ((s.cancel fun e => e.wid == w).setCore g.core fun c =>
    { c.unreserve (fun r => r.1 == w) with siding := c.siding.filter fun e => e.wid != w,
                                                                        lbufs := c.lbufs.filter fun b => b.wid != w }).unmonitor (·.1 == w)
  let left := g.leftover true
  { s1 with wgs := if left = [] then s1.wgs.erase w
              else s1.wgs.set w { g with ended := true, slots := [], threads := left, preempt := none },
            slices := s1.slices.mapVals fun _ n => { n with waiting := n.waiting.filter fun e => e.1 != w } }

/-! ### Ends of kernels -/

/-- Remove the kernel's workgroups and requests (R137); saved regions are discarded (R176). -/
def State.kernelStop (s : State) (h : Nat) : State :=
  let s1 := ((s.wgs.filter fun e => e.2.kernel == h).map Prod.fst).foldl (fun s w => s.removeWg w) s
  let s2 := s1.cancel fun e => e.kernel == h
  { s2 with saved := s2.saved.filter (fun v => v.kernel != h),
            cores := s2.cores.mapVals fun _ c => { c with siding := c.siding.filter fun e => e.kernel != h } }

/-- Nothing of a kernel is left under way: no workgroup on a core with a request, no command, no siding entry, no ticket fetch (R137, R141). -/
def State.quiet (s : State) (h : Nat) : Bool :=
  !(s.wgs.any fun e => e.2.kernel == h) &&
  !(s.cores.any fun e => (e.2.xq ++ e.2.mq ++ e.2.pend).any (fun c => c.kernel == h) || e.2.siding.any fun x => x.kernel == h) &&
  !(s.slices.any fun e => e.2.tickets.any fun k => k.2.kernel == h && k.2.inflight)

/-- Entries of ended kernels that nothing holds any more are freed (R135). -/
def State.sweepKernels (s : State) : State :=
  let held := fun (e : Nat × Kern) =>
    !e.2.state.final || e.2.donePend ||
    (match e.2.parent, e.2.queue with
     | some p, _ => (match s.kernels.get? p with
        | some k => !k.state.final
        | none => false)
     | none, some q => e.2.held && (s.queue q).index < e.2.parse + 65
     | none, none => false)
  let keep := s.kernels.filter held
  let gone := (s.kernels.filter fun e => !held e).map Prod.fst
  if gone = [] then s
  else { s with kernels := keep, cores := s.cores.mapVals fun _ c => { c with books := c.books.filter fun b => !gone.contains b.1 } }

/-- Make the stores of a context visible at the coherent level: its dirty bytes in every L1 are written back (R138, R103). -/
def State.drainCtx (s : State) (ctx : Nat) : State :=
  s.cores.keys.foldl (fun s c =>
    ((s.core c).l1.filter fun e => e.2.writers.contains ctx && e.2.dirty != []).foldl (fun s e => s.writeBack c e.1) s) s

/-- The handle of an entry of the kernel table.  Entries are kept by their handles; one whose handle an unfinished or held kernel has already
stands 2^32 above it (R134, notes/assumptions/62.md). -/
def handleOf (k : Nat) : Nat := k % 2 ^ 32

def KState.doneCode : KState → Nat
  | .complete => 1
  | .faulted => 2
  | _ => 3

/-- The steps of R138 after the completion word: the event and the signal. -/
def State.closeEnd (s : State) (h : Nat) : State :=
  let k := s.kern h
  let s1 := s.setKern h fun k => { k with donePend := false }
  let s2 := if k.state = .faulted then s1.post k.ctx 4 (k.cause + 2 ^ 8 * handleOf h) k.addr else s1
  if Krec.irq k.krec then s2.signal (s2.ctx k.ctx).msiVector else s2

/-- A completion word that cannot be written is reported by an event (R139). -/
def State.noWord (s : State) (h : Nat) : State := (s.post (s.kern h).ctx 4 (0x93 + 2 ^ 8 * handleOf h) (s.kern h).addr).closeEnd h

/-- The steps of R138 after the stores: the completion word, the event, the signal.  A translation miss holds them (R139); its event names core 0,
as the device makes the store (DESIGN CHOICE, notes/assumptions/66.md). -/
def State.finishEnd (s : State) (h : Nat) : State :=
  let k := s.kern h
  let va := Krec.doneVa k.krec
  if va = 0 then s.closeEnd h
  else
    match s.deviceStore k.ctx va (bytesOf (k.state.doneCode + 2 ^ 8 * k.cause + 2 ^ 32 * handleOf h) 8) with
    | .ok s1 => s1.closeEnd h
    | .miss =>
      let s1 := match s.doneMiss k with
        | some a => (match s.ask k.ctx 0 a .wr false true false false with
          | .wait s1 _ => s1
          | _ => s)
        | none => s
      s1.setKern h fun k => { k with donePend := true }
    | .no => s.noWord h

/-- End one kernel without its dependents (R138); `quiet` is the end that TEARDOWN makes. -/
def State.endOne (s : State) (h : Nat) (st : KState) (cause addr : Nat) (quiet : Bool) : State :=
  let k := s.kern h
  if k.state.final || !s.kernels.has h then s
  else
    let s1 := s.setKern h fun k => { k with state := st, cause := cause, addr := addr, bars := [], roomless := none, deps := [], stop := none }
    if quiet then s1 else (s1.drainCtx k.ctx).finishEnd h

/-- The entry that a handle names in a context: the newest one that has it. -/
def State.kidOf? (s : State) (ctx h : Nat) : Option Nat :=
  ((s.kernels.filter fun e => handleOf e.1 == h && e.2.ctx == ctx && !e.2.joined).foldl (fun (b : Option (Nat × Nat)) e => match b with
    | some (o, k) => if o < e.2.order then some (e.2.order, e.1) else some (o, k)
    | none => some (e.2.order, e.1)) none).map Prod.snd

/-- An entry has not ended, or has ended FAULTED or KILLED. -/
def State.depOpen (s : State) (k : Nat) : Bool := (s.kernels.get? k).any fun x => !x.state.final
def State.depFailed (s : State) (k : Nat) : Bool := (s.kernels.get? k).any fun x => x.state == .faulted || x.state == .killed

/-- Settle the kernels that wait for one that has ended (R127): DEPS_MET or DEP_FAILED, as far as the chain goes. -/
def State.settleDeps (s : State) : Nat → State
  | 0 => s
  | n + 1 =>
    match (s.kernels.filter fun e => e.2.state == .waiting && e.2.stop.isNone && e.2.deps.any s.depFailed) with
    | e :: _ => (s.endOne e.1 .killed 0x90 0 false).settleDeps n
    | [] =>
      { s with kernels := s.kernels.mapVals fun _ k =>
          let l := k.deps.filter s.depOpen
          { k with deps := l, state := if k.state == .waiting && l.isEmpty then .queued else k.state } }

/-- Step 4 of R102, once every kernel of the context has ended. -/
def State.faultPosted (s : State) (ctx : Nat) : State :=
  match (s.ctx ctx).fault with
  | none => s
  | some cause =>
    if s.kernels.any fun e => e.2.ctx == ctx && !e.2.state.final then s
    else
      let s1 := s.setCtx ctx fun c => { c.setFld 11 0 8 cause with fault := none }
      (s1.post ctx 5 cause 0).signal (s1.ctx ctx).msiVector

/-- End a kernel with everything that follows (R138, R127, R135, R102). -/
def State.kernelEnd (s : State) (h : Nat) (st : KState) (cause addr : Nat) (quiet : Bool) : State :=
  (((s.endOne h st cause addr quiet).settleDeps (s.kernels.length + 1)).faultPosted (s.kern h).ctx).sweepKernels

/-- Stop a kernel and end it once no request of it is outstanding (R137, R138). -/
def State.stopEnd (s : State) (h : Nat) (p : Stop) : State :=
  let s1 := s.kernelStop h
  if s1.quiet h then s1.kernelEnd h p.state p.cause p.addr false else s1.setKern h fun k => { k with stop := some p }

/-- A kernel that is being stopped ends when its last request is over. -/
def State.stopOver (s : State) (h : Nat) : State :=
  match (s.kern h).stop with
  | some p => if s.quiet h then s.kernelEnd h p.state p.cause p.addr false else s
  | none => s

/-- The kernel has ended, or its end is under way. -/
def State.ending (s : State) (h : Nat) : Bool := (s.kern h).state.final || (s.kern h).stop.isSome || !s.kernels.has h

/-- The kernel ends, or has ended, in FAULTED. -/
def State.faulting (s : State) (h : Nat) : Bool :=
  (s.kern h).state == .faulted || (match (s.kern h).stop with
    | some p => p.state == .faulted
    | none => false)

/-- FAULT of a kernel (R141): stop, then end. -/
def State.kernelFault (s : State) (h cause addr : Nat) : State := if s.ending h then s else s.stopEnd h ⟨.faulted, cause, addr⟩

/-- KILL by `KKILL` (R141): a draining kernel ignores it. -/
def State.kernelKill (s : State) (h : Nat) : State :=
  if s.ending h || (s.kern h).state = .draining then s else s.stopEnd h ⟨.killed, 0x91, 0⟩

/-! ### Queues (R120) -/

/-- The window address of a slot (R121): the launch window follows the capacity tier in the model's physical memory. -/
def windowPa (q slot : Nat) : Nat := 2 ^ 59 + q * 16384 + slot * 256

/-- Discard (R120). -/
def State.queueDiscard (s : State) (q : Nat) : State :=
  if (s.queue q).src then s.setQueue q fun x => { x with posted := [] }
  else { s with mem := (List.range 64).foldl (fun m i => Memory.write m (windowPa q i + 255) 0) s.mem }

/-- Unbind a queue: its kernels' entries are held no longer once they have ended (R135); the kernels go on (R120).  `qsts.armed` goes with the
binding (DESIGN CHOICE, notes/assumptions/47.md). -/
def State.queueFree (s : State) (q : Nat) : State :=
  let s1 := (s.queueDiscard q).setQueue q fun x => { x with state := .free, armed := false }
  ({ s1 with kernels := s1.kernels.mapVals fun _ k => if k.queue = some q then { k with held := false } else k }).sweepKernels

/-- The queues bound to a context. -/
def State.queuesOf (s : State) (ctx : Nat) : List Nat :=
  (s.queues.filter fun e => e.2.state != .free && e.2.cfgCtx.toNat == ctx).map Prod.fst

def State.ctxOn (s : State) (ctx : Nat) : State :=
  (s.queuesOf ctx).foldl (fun s q => s.setQueue q fun x => if x.state = .stopped && x.armed then { x with state := .running } else x) s

def State.ctxOff (s : State) (ctx : Nat) : State :=
  (s.queuesOf ctx).foldl (fun s q => s.setQueue q fun x => if x.state = .running then { x with state := .stopped } else x) s

def State.ctxEnd (s : State) (ctx : Nat) : State := (s.queuesOf ctx).foldl (fun s q => s.queueFree q) s

/-! ### Context fault (R102) -/

/-- The command that runs ends with a status (R99); `ctxsts.detail` of a status other than BADREC is 0 (DESIGN CHOICE, notes/assumptions/64.md). -/
def State.ctxDone (s : State) (status detail : Nat) : State :=
  { s with regs := { s.regs with ctxStatus := status, ctxDetail := detail, ctxBusy := false } }

/-- FAULT of an ACTIVE context: dispatch stops, every kernel is stopped and ends, commands and siding entries go, and the cause is posted when
the last kernel has ended. -/
def State.ctxFault (s : State) (ctx cause : Nat) (kernel pc : Nat) : State :=
  if (s.ctx ctx).state ≠ .active then s
  else
    let s1 := (s.ctxOff ctx).setCtx ctx fun c => { c with state := .faulted, fault := some cause }
    let ks := (s1.kernels.filter fun e => e.2.ctx == ctx && !e.2.state.final).map Prod.fst
    let s2 := ks.foldl (fun s h => s.kernelStop h) s1
    let s3 := s2.cancel fun e => e.ctx == ctx
    let s4 := { s3 with cores := s3.cores.mapVals fun _ c => { c with siding := c.siding.filter fun e => e.ctx != ctx } }
    let s5 := ks.foldl (fun s h => s.setKern h fun k => { k with stop := some ⟨.faulted, cause, if h = kernel then pc else 0⟩ }) s4
    let s6 := (ks.foldl (fun s h => s.stopOver h) s5).faultPosted ctx
    if s.regs.suspending = some ctx then
      { s6 with regs := { s6.regs with ctxStatus := 5, ctxDetail := 0, ctxBusy := false, suspending := none } }
    else s6

end Sys2Proof.Machine
end

