-- ==== Sys2Proof/Machine/Ops.lean ====
section
/-!
DEFINITION. The shared operations of the thread instructions: readiness and the register limits, taking a trap (spec/18_trap.md R477 to
R485) and returning from it (R490), completing and failing a long-latency producer (R187, R479), and issuing (R154, R268).
-/
namespace Sys2Proof.Machine
open Sys2Proof

/-! ### Cause codes (R476) -/

namespace Cause
def ill := 0x01
def unimpl := 0x02
def straddle := 0x03
def align := 0x04
def priv := 0x05
def fe := 0x06
def bounds := 0x07
def intv := 0x08
def lock := 0x09
def tkt := 0x0A
def page := 0x0B
def ue := 0x0C
def sparse := 0x0D
def bar := 0x0E
def engdl := 0x0F
def swtrap := 0x10
def bkpt := 0x11
end Cause

/-- A trap to take: its cause with what the frame records, the threads that have the cause, and the resume PC when it is not the
instruction's own. -/
structure TrapReq where
  cause  : Nat
  mask   : List Nat
  detail : Nat := 0
  addr   : Nat := 0
  kind   : Nat := 0
  pc     : Option Nat := none
  done   : List Nat := []
  npMask : List Nat := []
  npAddr : Nat := 0
  nuMask : List Nat := []
  nuAddr : Nat := 0
  /-- The threads that take it, when they are not the whole issue group (R163). -/
  lanes  : Option (List Nat) := none
deriving DecidableEq, Repr

/-- The lanes of a slot that threads stand for. -/
def laneMask (l : List Nat) : BitVec 64 := maskOf (l.map slotLane)

/-- The bank at trap entry (R483). -/
def bankInit (cause lane : Nat) : Regs :=
  { x := [(0, ⟨.ofNat 32 cause, point cause, true⟩), (1, ⟨.ofNat 32 lane, point lane, true⟩)], v := [], p := 0 }

/-- Put threads into handler mode at an address. -/
def State.enterHandler (s : State) (w : Nat) (lanes : List Nat) (pc cause : Nat) : State :=
  s.setThreads w lanes fun n t =>
    { t with handler := true, pc := pc, bank := bankInit cause (slotLane n), bpend := 0, hold := .none }

/-- Take a trap for the threads `lanes` of one slot, at instruction address `ipc` with its words (R477, R480, R483, R485): a trap inside
a handler faults the context; a busy frame leaves the machine as it is; without a handler the kernel takes FAULT. -/
def State.takeTrap (s : State) (w : Nat) (lanes : List Nat) (ipc : Nat) (insn : List Word) (r : TrapReq) : State :=
  match lanes with
  | [] => s
  | t0 :: _ =>
    let g := s.wg w
    let k := slotOf t0
    let tc := s.ctx g.ctx
    let pc := r.pc.getD ipc
    let lock := fun (s : State) => if r.cause = Cause.lock then s.count g.core 4 else s
    if lanes.any fun t => (g.thread t).handler then (lock s).ctxFault g.ctx r.cause g.kernel ipc
    else if (g.slot k).busy then s
    else
      let s := lock s
      if tc.trapPc = 0 then s.kernelFault g.kernel r.cause pc
      else
        let fr : Frame :=
          { cause := r.cause, kind := r.kind, detail := r.detail, lanes := laneMask lanes, mask := laneMask r.mask,
            done := laneMask r.done, pc := pc, ipc := ipc, insn := insn, addr := r.addr,
            next := (if r.npMask = [] then 0 else 1) + (if r.nuMask = [] then 0 else 2),
            npMask := laneMask r.npMask, npAddr := r.npAddr, nuMask := laneMask r.nuMask, nuAddr := r.nuAddr }
        (s.setWg w fun x => x.setSlot k fun sl => { sl with busy := true, frame := fr }).enterHandler w lanes tc.trapPc r.cause

/-! ### Traps that wait (R307, R479) -/

def Errs.any (e : Errs) : Bool := e.x != 0 || e.v != 0 || e.ue || e.page

/-- A request of the thread waits for the pager, and holds it: a load, an atomic that is no reduction, or the read of a record (R457). -/
def Thread.paged (t : Thread) : Bool :=
  t.prods.any fun p => p.wait.isSome && (match p.work with
    | .load _ _ | .launch _ | .post _ _ | .getev => true
    | .atom _ a _ => !a.red
    | _ => false)

/-- A thread waits with a lane of its `TKT.LD` that is queued on a full table (R174, R302; notes/assumptions/19.md), or for the pager with a request
of its own. -/
def Wg.ticketHeld (w : Wg) (t : Nat) : Bool :=
  (w.thread t).paged || w.live.any fun u => slotOf u == slotOf t && (w.thread u).prods.any fun p => match p.work with
    | .ticket r _ false o => r.queued && o.lanes.getLsbD (slotLane t)
    | _ => false

/-- The threads of a slot that stand with a thread, outside any wait. -/
def Wg.standing (w : Wg) (t : Nat) : List Nat :=
  let a := w.thread t
  w.live.filter fun u => slotOf u == slotOf t && (w.thread u).pc == a.pc && (w.thread u).handler == a.handler &&
    (w.thread u).hold == .none && !w.ticketHeld u

/-- Take the deferred trap of a thread and of those that stand with it and carry errors (R479). -/
def State.takeDeferred (s : State) (w t : Nat) : State :=
  let g := s.wg w
  let ls := (g.standing t).filter fun u => (g.thread u).errs.any && !(g.thread u).handler
  let ue := ls.filter fun u => (g.thread u).errs.ue
  let pc := (g.thread t).pc
  let r : TrapReq := if ue ≠ [] then { cause := Cause.ue, mask := ue, detail := 1, kind := 2, pc := some pc }
    else { cause := Cause.page, mask := ls, detail := 1, kind := 2, pc := some pc,
           addr := ((ls.map fun u => (g.thread u).errs.va).find? (· != 0)).getD 0 }
  s.takeTrap w ls 0 [] r

/-- Precedence of the causes after settlement (R307). -/
def settleRank (c : Nat) : Nat :=
  if c = Cause.align then 0 else if c = Cause.tkt then 1 else if c = Cause.page then 2 else 3

/-- The instruction that holds a thread until its lanes have settled. -/
def Hold.origin? : Hold → Option Origin
  | .waita _ _ _ _ _ _ _ _ _ _ o | .lineClr _ _ o => some o
  | .redeem r => some r.orig
  | .engine _ _ o => some o
  | _ => Option.none

/-- A lane of a report's instruction is still held at it, so that the group has not settled (R307). -/
def Wg.unsettled (w : Wg) (t : Nat) (o : Origin) : Bool :=
  w.live.any fun u => slotOf u == slotOf t && (w.thread u).hold.origin? == some o

/-- A lane reports a failure of its instruction; of one that issued in a handler it faults the context (R485). -/
def State.reportFrom (s : State) (w t : Nat) (handler : Bool) (r : Report) : State :=
  let g := s.wg w
  if handler then s.ctxFault g.ctx r.cause g.kernel (g.thread t).pc
  else s.setThread w t fun x => { x with report := x.report ++ [r] }

/-- The report of a lane that is held at its instruction, or issues it. -/
def State.reportLane (s : State) (w t : Nat) (r : Report) : State := s.reportFrom w t (s.thread w t).handler r

/-- Take the pending reports of a thread and of those that stand with it and report the same instruction (R307). -/
def State.takeSettled (s : State) (w t : Nat) : State :=
  let g := s.wg w
  match (g.thread t).report with
  | [] => s
  | r0 :: _ =>
    let mine := fun u => (g.thread u).report.find? fun r => r.orig == r0.orig
    let ls := (g.standing t).filter fun u => (mine u).isSome
    let reps := ls.filterMap fun u => (mine u).map fun r => (u, r)
    let best := reps.foldl (fun m e => min m (settleRank e.2.cause)) 3
    let of := fun (c : Nat) => reps.filter fun e => settleRank e.2.cause == c
    let first := (of best).head?
    let page := if best < 2 then of 2 else []
    let ue := if best < 3 then of 3 else []
    let addrOf := fun (l : List (Nat × Report)) => (l.head?.map fun e => e.2.addr).getD 0
    let pc := (g.thread t).pc
    match first with
    | none => s
    | some (_, r) =>
      let req : TrapReq :=
        { cause := r.cause, mask := (of best).map Prod.fst, detail := r.detail, addr := r.addr, kind := if r.cause = Cause.bar then 0 else 1,
          pc := some pc, done := if r.cause = Cause.bar then [] else ls,
          npMask := page.map Prod.fst, npAddr := addrOf page, nuMask := ue.map Prod.fst, nuAddr := addrOf ue }
      let s1 := s.takeTrap w ls r0.orig.ipc r0.orig.insn req
      if s1 = s then s
      else s1.setThreads w ls fun _ t => { t with report := t.report.filter fun r => r.orig != r0.orig }

/-! ### Producers (R187, R189, R479) -/

/-- A producer is over: it leaves the list, and its status predicate is written. -/
def Thread.endProd (t : Thread) (p : Prod) (ok : Bool) : Thread :=
  let t1 := { t with prods := t.prods.filter fun q => q.seq != p.seq }
  match p.stat with
  | none => t1
  | some k => (t1.setPend p.bank (some k) false).onBank p.bank fun r => { r with p := setBit r.p k ok }

/-- A producer's registers become full. -/
def Thread.landRegs (t : Thread) (p : Prod) (vals : List Word) (iv : Intv) : Thread :=
  match p.tgt with
  | none => t
  | some g => t.onBank p.bank fun r => g.places.foldl (fun r (e : Nat × Nat) => match g.cls with
      | .x => r.setX e.2 ⟨vals.getD 0 0, iv, true⟩
      | .v => r.setV e.2 ⟨vals.getD e.1 0, true⟩) r

/-- Write a producer's result: its registers, and then its predicate. -/
def Thread.land (t : Thread) (p : Prod) (vals : List Word) (iv : Intv) (ok : Bool) : Thread := (t.landRegs p vals iv).endProd p ok

/-- The bits of the registers a target covers. -/
def Target.bits (g : Target) : BitVec 64 := maskOf (g.places.map Prod.snd)

/-- Errors enter the error set; those that arrive in the handler wait for its end (R485). -/
def Thread.addErrs (t : Thread) (f : Errs → Errs) : Thread :=
  if t.handler then { t with later := f t.later } else { t with errs := f t.errs }

/-- Every register of a producer has been written since by `HWR`, which discards its result (R489). -/
def Prod.discarded (p : Prod) : Bool := p.tgt.any fun g => g.places.isEmpty

/-- A producer of the thread's own registers fails: they stay empty and enter the error set (R479). -/
def Thread.failProd (t : Thread) (p : Prod) (ue : Bool) : Thread :=
  let mark := fun (e : Errs) =>
    let e1 := match p.tgt with
      | none => e
      | some g => match g.cls with
        | .x => { e with x := e.x ||| g.bits }
        | .v => { e with v := e.v ||| g.bits }
    if ue then { e1 with ue := true } else { e1 with page := true }
  (if p.discarded then t else t.addErrs mark).endProd p false

/-- Fail a producer; one that was issued in handler mode faults the context (R485). -/
def State.failProducer (s : State) (w t : Nat) (p : Prod) (ue : Bool) : State :=
  if p.bank then
    let g := s.wg w
    s.ctxFault g.ctx (if ue then Cause.ue else Cause.page) g.kernel (g.thread t).pc
  else s.setThread w t fun x => x.failProd p ue

/-! ### Readiness and limits (R45, R154, R184, R188, R189, R484) -/

/-- A source register is empty and its field waits. -/
def srcWaits (t : Thread) (u : Src) : Bool := !u.f.fe && !t.fullAt u.f u.n
/-- A source register is empty and its field traps. -/
def srcTraps (t : Thread) (u : Src) : Bool := u.f.fe && !t.fullAt u.f u.n

/-- `HRD` and `HWR` of the trapped thread's predicates wait for those that are pending, as any instruction does that reads or writes them (R189). -/
def Thread.predsWait (t : Thread) : Instr → Bool
  | .hrd _ _ 4 _ | .hwr _ 4 _ _ => t.handler && t.pend != 0
  | _ => false

/-- The thread is ready at the instruction: its guard is settled, and where it is active no register or predicate keeps it back. -/
def Thread.ready (t : Thread) (i : Instr) : Bool :=
  t.hold == .none &&
  (match i.guard? with
   | none => true
   | some g => !t.pending g.p &&
      (if !t.guard g then (match i.laneMask? with
          | some f => t.fullAt f 2
          | none => true) else
        match i.uses with
        | none => true
        | some u => !(u.srcs.any (srcWaits t)) && (u.dsts.all fun d => t.fullAt d.f d.n) &&
            !((u.pr ++ u.pw).any t.pending) && !t.predsWait i))

/-- Every register that the instruction names exists: the kernel's counts, or the bank and the instructions allowed in a handler. -/
def fieldOk (r : BitVec 2048) (handler : Bool) (f : Field) (n : Nat) : Bool :=
  match f.tier, f.cls with
  | .main, .x => f.idx + n ≤ (if handler then 8 else Krec.xregs r)
  | .main, .v => f.idx + n ≤ (if handler then 16 else Krec.vregs r)
  | .opnd, _ => !handler
  | .last, _ => !handler
  | .const, _ => true

/-- Instructions that take ILL in handler mode (R484), and those that take it outside (R488). -/
def handlerIll : Instr → Bool
  | .ctxWr _ _ _ | .qpost _ _ _ _ | .klaunch _ _ _ => true
  | .mma _ _ _ _ _ _ | .mmaSp _ _ _ _ _ _ _ _ | .mmaMcr _ _ _ _ _ _ _ | .accZero _ _ _ | .accLd _ _ _ | .accSt _ _ _
  | .accCvt _ _ _ _ _ _ | .accAmax _ _ _ => true
  | .xfer _ _ _ _ _ | .xferIm2c _ _ _ _ _ _ | .xferGath _ _ _ _ _ | .xferScat _ _ _ _ | .xferUnpk _ _ _ _ _ | .xferPack _ _ _ _
  | .xferMcast _ _ _ _ _ _ | .xferPref _ _ _ _ _ | .xferPagein _ _ _ _ => true
  | _ => false

def onlyHandler : Instr → Bool
  | .eret _ | .eretFault _ | .hrd _ _ _ _ | .hwr _ _ _ _ => true
  | _ => false

/-- Kinds 0 to 3 of a handler selector name registers of the trapped thread, within the kernel's counts (R488). -/
def hselOk (r : BitVec 2048) : Instr → Bool
  | .hrd _ _ kind idx | .hwr _ kind idx _ => if kind ≤ 2 then idx < Krec.xregs r else if kind = 3 then idx < Krec.vregs r else true
  | _ => true

/-- The instruction is legal for the thread's mode and the kernel's register counts. -/
def limitsOk (r : BitVec 2048) (handler : Bool) (i : Instr) : Bool :=
  (match i.uses with
   | none => true
   | some u => (u.srcs.all fun x => fieldOk r handler x.f x.n) && (u.dsts.all fun d => fieldOk r handler d.f d.n)) &&
  (if handler then !handlerIll i else !onlyHandler i) && hselOk r i

/-- A slot that a matrix operand of a kind accepts (R367, R389). -/
def mmaSlot (r : BitVec 2048) (k : SpKind) (n : Nat) : Bool :=
  let f := Krec.fslot r n % 16
  1 ≤ f && f ≤ 10 && (f != 10 || k == .dense)

/-- The format slot that an instruction names is one that it accepts (R84, R229, R240, R250); otherwise its active lanes take ILL. -/
def slotOk (r : BitVec 2048) : Instr → Bool
  | .getf _ _ k _ => Krec.fslot r k % 16 ≠ 15
  | .cvtq _ _ _ k => let f := Krec.fslot r k % 16; 3 ≤ f && f ≤ 9 && Krec.fslot r k / 16 % 4 == 1
  | .vqdec _ _ _ _ _ _ k => Krec.fslot r k % 16 == 10
  | .mma _ _ _ a b _ => mmaSlot r .dense a && mmaSlot r .dense b
  | .mmaSp _ _ _ ka kb a b _ | .mmaMcr _ _ _ ka kb a b => mmaSlot r ka a && mmaSlot r kb b
  | .accCvt _ _ _ k rnd sat =>
    let f := Krec.fslot r k % 16
    1 ≤ f && f ≤ 9 && (!sat || f ≤ 2) && (rnd == .rn || Krec.fslot r k / 16 % 4 != 1)
  | _ => true

/-! ### Issuing -/

/-- What a meaning's body answers: done; a trap at issue; threads put into a wait at the instruction, which does not issue; or not now,
so that the group stays at the instruction.  `trapIn` is a trap beside which something else happened (an event posted, a cycle inserted); `full`
says that a lane finds no entry in the siding. -/
inductive Res
  | ok (s : State)
  | trap (r : TrapReq)
  | trapIn (s : State) (r : TrapReq)
  | wait (s : State)
  | hold
  | full
deriving DecidableEq, Repr

/-- The active lanes of the issue group (R13, R41). -/
def State.active (s : State) (i : Instr) : List Nat :=
  match i.guard? with
  | none => s.issue.lanes
  | some g => s.issue.lanes.filter fun t => (s.ithread t).guard g

/-- A PC is kept modulo 2^57: the target of a branch by R201; the PC after the last instruction of the address space as the model's choice
(DESIGN CHOICE, notes/assumptions/63.md). -/
def pcMask (n : Nat) : Nat := n % 2 ^ 57

/-- The PC after the running instruction. -/
def State.nextPc (s : State) : Nat := pcMask (s.issue.pc + 4 * s.issue.words.length)

/-- Every thread of the group continues at the next instruction (R186). -/
def State.advance (s : State) : State :=
  s.setThreads s.issue.wid s.issue.lanes fun _ t => { t with pc := s.nextPc, last := s.clk }

/-- Count an issue group (R169, R493), and pass its cost. -/
def State.counted (s : State) (cost : Nat) : State :=
  let s1 := s.count s.issue.core 0
  let s2 := if s1.wgs.has s.issue.wid then
      s1.setWg s.issue.wid fun g =>
        { g.setSlot s.issue.slot fun sl => { sl with last := s.clk } with progress := min (g.progress + 1) (2 ^ 32 - 1) }
    else s1
  { s2 with clk := s2.clk + cost }

/-- The group does not issue: its threads stay at the instruction. -/
def State.stay (s : State) : State := { s with issue := { s.issue with held := true } }

/-- The frame of the slot is busy, so that the threads of a trap at issue stay at the instruction (R480). -/
def State.frameBusy (s : State) (lanes : List Nat) : Bool :=
  (s.iwg.slot s.issue.slot).busy && !(lanes.any fun t => (s.ithread t).handler)

/-- Threads stand at the instruction until the frame of their slot is free, or until the siding has room. -/
def State.stand (s : State) (lanes : List Nat) (frame : Bool) : State :=
  s.setThreads s.issue.wid lanes fun _ t => { t with pc := s.issue.pc, hold := .stand frame }

/-- Take a trap of the issue group at its instruction; while the slot's frame is busy the group does not issue (R480). -/
def State.trapIssue (s : State) (r : TrapReq) : State :=
  let lanes := r.lanes.getD s.issue.lanes
  if s.frameBusy lanes then s.stand lanes true else s.takeTrap s.issue.wid lanes s.issue.pc s.issue.words r

/-- The first FE source of an active lane: the field that the frame records (R476). -/
def feTrap (s : State) (i : Instr) (act : List Nat) (enc : Field → Nat) : Option TrapReq :=
  match i.uses with
  | none => none
  | some u =>
    let bad := act.filter fun t => u.srcs.any (srcTraps (s.ithread t))
    match bad with
    | [] => none
    | t :: _ =>
      let f := (u.srcs.find? (srcTraps (s.ithread t))).map fun x => enc x.f
      some { cause := Cause.fe, mask := bad, detail := f.getD 0 }

/-- A register field's ten bits (R43). -/
def fieldBits (f : Field) : Nat :=
  f.idx + 64 * (if f.cls = .v then 1 else 0) + 128 * f.fe.toNat +
  256 * (match f.tier with
    | .main => 0
    | .opnd => 1
    | .last => 2
    | .const => 3)

/-- Issue an instruction for the group: it stays when a thread is not ready; then the checks of decode for the mode and the counts, the FE
rule, and the body, which sees the state with the PCs advanced and the active lanes.  A group that takes a trap here does not count in the
progress of its workgroup (R169; DESIGN CHOICE, notes/assumptions/66.md). -/
def issue (i : Instr) (cost : Nat) (body : List Nat → State → Res) (s : State) : Host.Outcome State Fault Refusal :=
  let act := s.active i
  if !(s.issue.lanes.all fun t => (s.ithread t).ready i) then .next s.stay
  else if !(s.issue.lanes.all fun t => limitsOk s.ikrec (s.ithread t).handler i) then
    .next (s.trapIssue { cause := Cause.ill, mask := s.issue.lanes })
  else if act ≠ [] ∧ slotOk s.ikrec i = false then .next (s.trapIssue { cause := Cause.ill, mask := act })
  else match feTrap s i act fieldBits with
    | some r => .next (s.trapIssue r)
    | none => match body act s.advance with
      | .ok s' => .next (s'.counted cost)
      | .trap r => .next (s.trapIssue r)
      | .trapIn s' r => .next (if s.frameBusy (r.lanes.getD s.issue.lanes) then s.trapIssue r else s'.trapIssue r)
      | .wait s' => .next s'
      | .hold => .next s.stay
      | .full => .next (s.stand s.issue.lanes false)

/-- An instruction that acts on each active lane alone. -/
def perLane (i : Instr) (cost : Nat) (f : Thread → Thread) (s : State) : Host.Outcome State Fault Refusal :=
  issue i cost (fun act s => .ok (s.setThreads s.issue.wid act fun _ t => f t)) s

/-- A trap for every active lane, when there is one. -/
def trapAll (act : List Nat) (cause : Nat) (detail addr : Nat := 0) : Res :=
  .trap { cause := cause, mask := act, detail := detail, addr := addr }

/-- The lanes for which p fails take a trap; `none` when there are none. -/
def failing (act : List Nat) (p : Nat → Bool) (cause : Nat) (addr : Nat → Nat) : Option Res :=
  match act.filter p with
  | [] => none
  | t :: l => some (.trap { cause := cause, mask := t :: l, addr := addr t })

/-! ### Return from a handler (R490) -/

/-- Set every register of the error set full with 0, and clear the set and its flags; the errors that arrived in the handler take its place (R485). -/
def Thread.clearErrs (t : Thread) : Thread :=
  let r1 := (bitsOf t.errs.x).foldl (fun r k => r.setX k .zero) t.regs
  let r2 := (bitsOf t.errs.v).foldl (fun r k => r.setV k .zero) r1
  { t with regs := r2, errs := t.later, later := .zero }

/-- The lane leaves handler mode and resumes. -/
def Thread.leave (t : Thread) (fr : Frame) (lane : Nat) : Thread :=
  let pc := if fr.done.getLsbD lane && fr.kind = 0 && fr.pc = fr.ipc then pcMask (fr.ipc + 4 * fr.insn.length) else fr.pc
  { t.clearErrs with handler := false, bank := .zero, bpend := 0, pc := pc }

/-- The lowest pending cause of a frame becomes the one taken (R490). -/
def Frame.advance (fr : Frame) : Frame :=
  if fr.next % 2 = 1 then { fr with cause := Cause.page, detail := 0, mask := fr.npMask, addr := fr.npAddr, next := fr.next - 1 }
  else { fr with cause := Cause.ue, detail := 0, mask := fr.nuMask, addr := fr.nuAddr, next := 0 }

/-- `ERET` of active lanes of one slot: either the frame's next cause is taken by every lane of `tf.lanes`, or the lanes resume; a
misaligned `tf.pc` faults the context. -/
def State.returnFrom (s : State) (w k : Nat) (act : List Nat) (pc : Nat) : State :=
  let g := s.wg w
  let fr := (g.slot k).frame
  let inFrame := g.live.filter fun t => slotOf t == k && fr.lanes.getLsbD (slotLane t) && (g.thread t).handler
  if fr.next ≠ 0 then
    let f1 := fr.advance
    if (s.ctx g.ctx).trapPc = 0 then s.kernelFault g.kernel f1.cause f1.pc
    else (s.setWg w fun x => x.setSlot k fun sl => { sl with frame := f1 }).enterHandler w inFrame (s.ctx g.ctx).trapPc f1.cause
  else
    let s1 := s.setThreads w act fun n t => t.leave fr (slotLane n)
    if act.any fun t => (s1.thread w t).pc % 4 ≠ 0 then s.ctxFault g.ctx Cause.align g.kernel pc
    else s1.setWg w fun x => x.frameCheck k

end Sys2Proof.Machine
end

