-- ==== Sys2Proof/Machine/Waits.lean ====
section
/-!
DEFINITION. When the waits that hold threads end: release conditions (spec/12_ordering.md R321), barrier waits (R437), `JOIN` (R161),
cross-lane rendezvous (R162), and the waits that a bay settles before it chooses a group.
-/
namespace Sys2Proof.Machine
open Sys2Proof

/-! ### Releases and acquires (R321 to R323) -/

/-- Work that a release waits for: loads, stores and atomics. -/
def Work.isAccess : Work → Bool
  | .load _ _ | .store _ _ _ _ | .atom _ _ _ | .granule _ _ _ _ _ _ | .spotLoad _ _ _ _ _ _ _ _ | .spotStore _ _ => true
  | _ => false

/-- A ticket allocation or fetch of the thread is not serviced yet: releases and every `FENCE` wait for it (R297). -/
def State.ticketsOut (s : State) (w t : Nat) : Bool :=
  ((s.thread w t).prods.any fun p => match p.work with
    | .ticket _ _ _ _ => true
    | _ => false) ||
  (s.slices.any fun e => e.2.tickets.any fun k =>
      k.2.issuer == (w, t) && k.2.inflight && (k.2.state == .pending || k.2.state == .redeeming))

/-- What R321 asks of a thread; page instructions do not wait for the siding (R469). -/
def State.releaseReady (s : State) (w t : Nat) (siding : Bool) : Bool :=
  let x := s.thread w t
  !(x.prods.any fun p => p.work.isAccess) &&
  (!siding || !((s.core (s.wg w).core).siding.any fun e => e.wid == w && e.t == t)) && !s.ticketsOut w t

/-- An acquire at a scope drops the clean bytes of its core's L1 when the scope is `.CLU` or wider (R322). -/
def State.acquire (s : State) (c : Nat) (sc : Scope) : State := if coreWide sc then s.acquireDrop c else s

/-- An earlier acquire of the thread has not completed, so that a later access is not performed yet (R322); a granule load orders as an acquire
does (R335). -/
def Thread.acquiring (t : Thread) : Bool :=
  t.prods.any fun p => match p.work with
    | .load r _ | .atom r _ _ => Use.hasAcq r.order
    | .spotLoad _ _ _ _ _ o _ _ => Use.hasAcq o
    | .kjoin _ _ | .getev | .granule _ _ _ _ _ _ => true
    | _ => false

/-- The same for a thread with the lanes of its issue groups: the acquire of an atomic follows its last request (R342). -/
def Wg.acquiring (w : Wg) (t : Nat) : Bool :=
  (w.thread t).acquiring || w.live.any fun u => slotOf u == slotOf t && (w.thread u).prods.any fun p => match p.work with
    | .atom r a _ => Use.hasAcq r.order && a.orig.lanes.getLsbD (slotLane t)
    | _ => false

/-- The producers of a thread have written their results, and its stores are performed (R493). -/
def State.settledAll (s : State) (w t : Nat) : Bool :=
  (s.thread w t).prods.isEmpty && !((s.core (s.wg w).core).siding.any fun e => e.wid == w && e.t == t)

/-- The thread is ready at an instruction; at `CLK.ORD` it is not before it has settled (R493). -/
def State.readyAt (s : State) (w t : Nat) (i : Instr) : Bool :=
  (s.thread w t).ready i && (match i with
    | .clk g true _ => !(s.thread w t).guard g || s.settledAll w t
    | _ => true)

/-! ### Barriers -/

def barScope : Lvl → Scope
  | .gang => .gang
  | .wg => .wg
  | .clu => .clu
  | .stk | .grid => .dev

/-- The level and barrier that a token names (R435), when it passes the checks of R437. -/
def tokenBar (krec : BitVec 2048) (tok : Word) : Option Bar :=
  let n := tok.toNat
  let num := n / 16 % 16
  let mk := fun l => if n < 256 ∧ num < Use.barMax l ∧ num < Krec.bars krec l then some (Bar.mk l num) else none
  match n / 2 % 8 with
  | 0 => mk .gang
  | 1 => mk .wg
  | 2 => mk .clu
  | 3 => mk .stk
  | 4 => mk .grid
  | _ => none

/-- wait_done of R437. -/
def State.waitDone (s : State) (w t : Nat) (b : Bar) (tok : Word) : Bool :=
  let g := s.wg w
  match b.lvl with
  | .gang => !(g.gangBar (g.gangOf t) b.num).getLsbD (g.laneOf t)
  | _ => (s.phaseOf w b).phase != tok.getLsbD 0

/-- Put a thread in a wait at an instruction that starts at `pc`. -/
def Thread.waitAt (t : Thread) (pc : Nat) (h : Hold) : Thread := { t with pc := pc, hold := h }

/-- The running instruction, as the origin of a report. -/
def State.origin (s : State) : Origin := ⟨s.issue.pc, s.issue.words, laneMask s.issue.lanes⟩

/-- The bytes of the instruction of an origin. -/
def Origin.len (o : Origin) : Nat := 4 * o.insn.length

/-- The thread leaves a wait at a 64-bit instruction and continues after it. -/
def Thread.resume (t : Thread) (len : Nat) : Thread := { t with pc := pcMask (t.pc + len), hold := .none }

/-- The lane has settled: it waits, after the instruction, for the other lanes of its group (R305, R363). -/
def Thread.settle (t : Thread) (o : Origin) : Thread := { t with pc := pcMask (t.pc + o.len), hold := .settled o }

/-! ### Meeting points -/

/-- Release the `JOIN` wait of a gang when every live thread waits at one `JOIN`, or when it is due (R161). -/
def State.joinCheck (s : State) (w g : Nat) (due : Bool) : State :=
  let x := s.wg w
  let live := x.gangLive g
  let pcOf := fun t => match (x.thread t).hold with
    | .join a _ => some a
    | _ => none
  let waiting := live.filter fun t => (pcOf t).isSome
  match waiting with
  | [] => s
  | t :: _ =>
    if due || live.all fun u => pcOf u == pcOf t then s.setThreads w waiting fun _ x => { x with hold := .none } else s

/-- The members of a cross-lane instruction for a thread: live threads of its gang named in the mask, with the thread itself; in handler
mode only the threads in handler mode (R162, R484). -/
def Wg.crossSet (w : Wg) (t : Nat) (mask : BitVec 64) : List Nat :=
  let h := (w.thread t).handler
  (w.gangLive (w.gangOf t)).filter fun u => u == t || (mask.getLsbD (w.laneOf u) && (!h || (w.thread u).handler))

/-- Threads held at a rendezvous whose set is complete again, after exits: they issue again. -/
def State.laneCheck (s : State) (w t : Nat) : State :=
  let g := s.wg w
  match (g.thread t).hold with
  | .lane m _ =>
    let set := g.crossSet t m
    let there := fun u => (g.thread u).pc == (g.thread t).pc && (match (g.thread u).hold with
      | .lane _ _ => true
      | _ => false)
    if set.all there then s.setThread w t fun x => { x with hold := .none } else s
  | _ => s

end Sys2Proof.Machine
end

