-- ==== Sys2Proof/Machine/Operands.lean ====
section
/-!
DEFINITION. Operand forms: source B as a register or an immediate (spec/08_thread.md R198, spec/09_vector.md R241), branch targets (R201),
and wide values.
-/
namespace Sys2Proof.Machine
open Sys2Proof

/-- A source of a 32-bit operation: its pattern, its interval, and whether it is known: an immediate or a constant (R213). -/
structure Opd where
  val   : Word
  iv    : Intv
  known : Bool
deriving DecidableEq, Repr

def Thread.opd (t : Thread) (f : Field) : Opd :=
  let (v, iv) := t.read f
  ⟨v, iv, f.tier == .const⟩

def immOpd (v : Word) : Opd := ⟨v, point v.toInt, true⟩

/-- Source B: a 16-bit immediate is sign-extended (R198). -/
def Thread.opdB (t : Thread) : SrcB → Opd
  | .reg f => t.opd f
  | .wide f => t.opd f
  | .imm16 v => immOpd (v.signExtend 32)
  | .imm32 v => immOpd v

/-- Source B of a floating-point operation: the 16-bit immediate is the upper half of an FP32 word (R241). -/
def Thread.fpB (t : Thread) : SrcB → Word
  | .reg f => t.val f
  | .wide f => t.val f
  | .imm16 v => v.zeroExtend 32 <<< 16
  | .imm32 v => v

def Off.val : Sys2Proof.Off → Int
  | .s16 v => v.toInt
  | .s32 v => v.toInt

/-- The target of an offset from the running instruction (R201). -/
def State.target (s : State) (off : Int) : Nat := (((s.issue.pc : Int) + 4 * off) % 2 ^ 57).toNat

/-- The gangs of a list of threads, lowest first. -/
def State.gangsOf (s : State) (l : List Nat) : List Nat := dedup (l.map s.iwg.gangOf)

/-- A 64-bit value in a V pair. -/
def Thread.pair (t : Thread) (f : Field) : Nat := t.wide f 2

/-- The data of an access of n bytes in a register, pair or quad. -/
def Thread.data (t : Thread) (f : Field) (regs : Nat) : Nat := t.wide f regs

end Sys2Proof.Machine
end

