-- ==== Sys2Proof/Machine/Memory.lean ====
section
/-!
DEFINITION. Data access shared by groups 0x7 to 0x9: array registers and the bounds check (spec/10_array.md R252 to R259), footprints
(R260 to R262), the interlocking check (spec/15_transfer.md R420, R421), scratchpad and accumulator storage, loads and stores of one lane,
the siding (spec/17_page.md R456), and the service of a load's request (R451, R264).
-/
namespace Sys2Proof.Machine
open Sys2Proof

/-! ### Array registers -/

/-- An array register (R252). -/
structure Arr where
  base   : Nat
  extent : Nat
  esize  : Nat
  space  : Nat
  peer   : Nat
  trap   : Bool
  resv   : Bool
  near   : Bool
  svc    : Nat
deriving DecidableEq, Repr

def bfld {n : Nat} (b : BitVec n) (lo w : Nat) : Nat := b.toNat / 2 ^ lo % 2 ^ w

def arrOf (b : BitVec 128) : Arr :=
  { base := bfld b 0 57, extent := bfld b 64 32, esize := bfld b 96 3, space := bfld b 99 3, peer := bfld b 102 2,
    trap := b.getLsbD 104, resv := b.getLsbD 105, near := b.getLsbD 106, svc := bfld b 107 2 }

/-- The rules of R253 for an image. -/
def arrOk (r : BitVec 2048) (b : BitVec 128) : Bool :=
  let a := arrOf b
  let e := a.extent * 2 ^ a.esize
  bfld b 57 7 == 0 && bfld b 109 19 == 0 && a.esize ≤ 4 && a.space ≤ 3 && a.base % 2 ^ a.esize == 0 &&
  (match a.space with
   | 0 => a.base + e ≤ 2 ^ 57
   | 3 => 2 ≤ a.esize && a.base + e ≤ Krec.acc r
   | _ => a.base + e ≤ Krec.scratch r) &&
  (a.space == 2 || a.peer == 0)

def Wg.array (w : Wg) (t k : Nat) : Arr := arrOf ((w.gang (w.gangOf t)).arr.getD k 0)

/-- The element offset of an array form (R270). -/
def arrOff {ω : Type} (m : ArrOp ω) : Int :=
  match m.form with
  | .a64 o => o.toInt
  | .a96 o _ => o.toInt
  | .a128 o _ => o.toInt

/-- Bytes of an access size (R52). -/
def nBytes : Size → Nat
  | .b8 => 1 | .b16 => 2 | .b32 => 4 | .b64 => 8 | .b128 => 16

/-- What an instruction names through an array: register, index field, offset, bytes of the access, and whether one lane per gang acts for
all (R275). -/
structure Via where
  k    : Nat
  x    : Field
  off  : Int
  size : Nat
  uni  : Bool
deriving DecidableEq, Repr

/-- Elements that an access covers (R256). -/
def Via.n (v : Via) (a : Arr) : Nat := max 1 (v.size / 2 ^ a.esize)

/-- One gang's part of the check of R257: its array, the lanes that are checked, U, and the bad ones. -/
structure Part where
  gang  : Nat
  a     : Arr
  lanes : List Nat
  u     : Intv
  out   : Bool
  bad   : List Nat
deriving DecidableEq, Repr

/-- An index and the interval that it contributes: one read with class V contributes FULL (R257). -/
def Thread.index (t : Thread) (f : Field) : Word × Intv := ((t.read f).1, if f.cls = .v then full else (t.read f).2)

def State.part (s : State) (v : Via) (act : List Nat) (g : Nat) : Part :=
  let w := s.iwg
  let mine := act.filter fun t => w.gangOf t == g
  let chk := if v.uni then mine.take 1 else mine
  let a := w.array (mine.headD 0) v.k
  let n : Int := v.n a
  let ix := fun t => (w.thread t).index v.x
  let ivs := chk.map fun t => let e := (ix t).2; (⟨e.lo + v.off, e.hi + v.off + n - 1⟩ : Intv)
  let u : Intv := ⟨(ivs.map Intv.lo).foldl min ((ivs.map Intv.lo).headD 0), (ivs.map Intv.hi).foldl max ((ivs.map Intv.hi).headD 0)⟩
  let out := chk ≠ [] && (u.lo < 0 || (a.extent : Int) - 1 < u.hi)
  let bad := if out then chk.filter fun t =>
      let i := (ix t).1.toInt + v.off
      i < 0 || (a.extent : Int) - 1 < i + n - 1
    else []
  { gang := g, a := a, lanes := mine, u := u, out := out, bad := if v.uni && bad ≠ [] then mine else bad }

def State.parts (s : State) (v : Via) (act : List Nat) : List Part :=
  (dedup (act.map s.iwg.gangOf)).map (s.part v act)

/-- The byte address of a lane's element: exact, possibly negative (R256). -/
def State.elemAddr (s : State) (v : Via) (p : Part) (t : Nat) : Int :=
  let l := if v.uni then p.lanes.headD t else t
  p.a.base + (((s.ithread l).val v.x).toInt + v.off) * 2 ^ p.a.esize

/-! ### Places of storage -/

/-- Where a lane's bytes lie: global, the scratchpad of a workgroup, its accumulator store. -/
inductive Spot
  | glob (va : Nat)
  | scr (wid off : Nat)
  | acc (wid off : Nat)
deriving DecidableEq, Repr

/-- The workgroup whose scratchpad a position of the cluster reaches (R255). -/
def State.peerWg (s : State) (pos : Nat) : Option Nat :=
  let g := s.iwg
  if g.core % 4 = pos then some s.issue.wid
  else
    let c := g.core / 4 * 4 + pos
    let l := s.wgs.filter fun e => e.2.core == c && e.2.kernel == g.kernel && !e.2.ended
    (l.foldl (fun (b : Option (Nat × Nat)) e => match b with
      | some (w, n) => if e.2.lin < n then some (e.1, e.2.lin) else some (w, n)
      | none => some (e.1, e.2.lin)) none).map Prod.fst

/-- The place of a byte address in an array's space. -/
def State.spot (s : State) (a : Arr) (p : Nat) : Option Spot :=
  match a.space with
  | 0 => some (.glob p)
  | 1 => some (.scr s.issue.wid p)
  | 2 => (s.peerWg a.peer).map fun w => .scr w p
  | _ => some (.acc s.issue.wid p)

/-- The space, first byte and holding core of a place for the interlocking table (R416, R421). -/
def State.lockSpace (s : State) (sp : Spot) : Space × Nat × Nat :=
  match sp with
  | .glob va => (.global s.iwg.ctx, va, s.iwg.core)
  | .scr w o => (.scratch w, o, (s.wg w).core)
  | .acc w o => (.acc w, o, (s.wg w).core)

/-- A byte range meets a registered one: a destination, or a source when the access writes (R420). -/
def State.meets (s : State) (sp : Spot) (n : Nat) (write : Bool) : Bool :=
  let (space, lo, c) := s.lockSpace sp
  n ≠ 0 && (s.core c).locks.any fun l => l.space == space && (l.dest || write) && l.lo < lo + n && lo < l.hi

/-- Read scratchpad or accumulator bytes; `none` when one is uncorrectable. -/
def State.spotRead (s : State) (sp : Spot) (n : Nat) : Option (List Byte) :=
  match sp with
  | .glob _ => none
  | .scr w o =>
    let g := s.wg w
    if (List.range n).any fun i => g.badScratch.contains (o + i) then none else some (Memory.readN g.scratch o n)
  | .acc w o =>
    let g := s.wg w
    if (List.range n).any fun i => g.badAcc.contains ((o + i) / 4) then none
    else some ((List.range n).map fun i => .ofNat 8 ((g.acc.getD ((o + i) / 4) 0).toNat / 2 ^ (8 * ((o + i) % 4))))

/-- Write scratchpad or accumulator bytes. -/
def State.spotWrite (s : State) (sp : Spot) (bytes : List Byte) : State :=
  match sp with
  | .glob _ => s
  | .scr w o => s.setWg w fun g =>
      { g with scratch := Memory.writeN g.scratch o bytes,
               badScratch := g.badScratch.filter fun b => b < o || o + bytes.length ≤ b }
  | .acc w o => s.setWg w fun g =>
      let ws := wordList (ofBytes bytes) (bytes.length / 4)
      { g with acc := (List.range ws.length).foldl (fun m i => m.set (o / 4 + i) (ws.getD i 0)) g.acc,
               badAcc := g.badAcc.filter fun b => b < o / 4 || o / 4 + ws.length ≤ b }

/-! ### Footprints (R260 to R263) -/

/-- The footprint of a part: first and last byte. -/
def Part.fp (p : Part) : Option (Nat × Nat) :=
  let lo := max p.u.lo 0
  let hi := min p.u.hi ((p.a.extent : Int) - 1)
  if p.lanes = [] || hi < lo then none
  else some (p.a.base + lo.toNat * 2 ^ p.a.esize, p.a.base + (hi.toNat + 1) * 2 ^ p.a.esize - 1)

/-- The IA behind a VA whatever the permissions. -/
def Ctx.gia (c : Ctx) (va : Nat) : Option GAddr :=
  (c.rangeOf va).map fun r => ⟨r.peer * 2 ^ 48 + r.ia + (va - r.va), r.ilv, r.set⟩

/-- A VA behind a global IA: that of the first range register that covers it. -/
def Ctx.vaOf (c : Ctx) (gia : Nat) : Option Nat :=
  (List.range 16).findSome? fun m => (c.range m).bind fun r =>
    let b := r.peer * 2 ^ 48 + r.ia
    if b ≤ gia && gia < b + r.size then some (r.va + (gia - b)) else none

/-- Count a global footprint in the pages that it covers (R263, R454). -/
def State.countFp (s : State) (ctx lo hi : Nat) : State :=
  let pages := (List.range (hi / 65536 + 1 - lo / 65536)).filterMap fun i =>
    ((s.ctx ctx).gia ((lo / 65536 + i) * 65536)).map fun a => (s.pageOf a.gia).1
  (dedup pages).foldl (fun s pg => s.countPte pg 104) s

/-- Reserve the lines of a footprint for register k of a gang (R261, R262). -/
def State.reserve (s : State) (g k lo hi : Nat) : State :=
  let w := s.iwg
  let id := (s.issue.wid, g, k)
  let lines := dedup ((List.range (hi / 128 + 1 - lo / 128)).filterMap fun i =>
    ((s.ctx w.ctx).gia ((lo / 128 + i) * 128)).map fun a => lineOf a.gia)
  let freed := s.setCore w.core (Core.unreserve · (· == id))
  let held := ((freed.core w.core).l1.filter fun e => e.2.resv != []).map Prod.fst
  if (dedup (held ++ lines)).length > Config.reservedLines then s
  else
    let s1 := lines.foldl (fun s gl =>
      let l := s.l1 w.core gl
      s.setL1 w.core gl { l with resv := l.resv ++ [id], ctx := if l.cells = [] then w.ctx else l.ctx }) freed
    s1.setWg s.issue.wid fun x => x.setGang g fun y => { y with fp := y.fp.set k (lo, hi) }

/-- A footprint prefetch, near-only or not, takes an entry of the transfer queue, or is dropped (R261, R391). -/
def State.prefetch (s : State) (g lo hi : Nat) (near : Bool) : State :=
  let w := s.iwg
  let c := s.core w.core
  if c.xq.length ≥ Config.xferQueue then s
  else
    let cmd : Cmd :=
      { id := w.core + 256 * c.cmdId, instr := .pref ⟨7, false⟩ true ⟨0, Use.zeroField, .a64 0⟩, wid := s.issue.wid, t := 0, ctx := w.ctx,
        kernel := w.kernel, gang := g, seq := 0, record := [], args := [lo, hi, near.toNat], started := false, moved := false, at_ := s.clk, begun := s.clk,
        cause := 0, info := 0, vals := [], wait := none, bad := [] }
    s.setCore w.core fun c => { c.setXq s.clk (c.xq ++ [cmd]) with cmdId := c.cmdId + 1 }

/-- A command is a footprint prefetch. -/
def Cmd.isPrefetch (c : Cmd) : Bool :=
  match c.instr with
  | .pref _ _ _ => true
  | _ => false

/-- A footprint lies inside the one that the gang's record of register k holds (R261). -/
def State.inFp (s : State) (p : Part) (k lo hi : Nat) : Bool :=
  ((s.iwg.gang p.gang).fp.get? k).any fun e => e.1 ≤ lo && hi ≤ e.2

/-- Reservation and prefetch for a part of a load or store (R261), and the page counters (R263). -/
def State.footprint (s : State) (k : Nat) (use : Bool) (p : Part) : State :=
  match p.fp with
  | none => s
  | some (lo, hi) =>
    let s1 := if p.a.space = 0 then s.countFp s.iwg.ctx lo hi else s
    if !use || !p.a.resv || p.a.space ≠ 0 || s.inFp p k lo hi then s1
    else if hi / 128 + 1 - lo / 128 ≤ 16 then s1.reserve p.gang k lo hi
    else if hi + 1 - lo ≤ 2 ^ 20 then
      (s1.prefetch p.gang lo hi p.a.near).setWg s.issue.wid fun x => x.setGang p.gang fun y => { y with fp := y.fp.set k (lo, hi) }
    else s1

/-! ### The common course of an array access (R268) -/

/-- The order of an access through a memory, scratch or atomic form. -/
structure Ord where
  order : Order
  scope : Scope
deriving DecidableEq, Repr

def Ord.acq (o : Ord) : Bool := Use.hasAcq o.order
def Ord.rel (o : Ord) : Bool := o.order == .rel || o.order == .acqrel
def Ord.relaxed : Ord := ⟨.none, .gang⟩

def ordOf (w : Option MemW) : Ord :=
  match w with
  | some w => ⟨w.order, w.scope⟩
  | none => .relaxed

def ordScr (w : Option ScrW) : Ord :=
  match w with
  | some w => ⟨w.order, w.scope⟩
  | none => .relaxed

/-- A good lane: its number, its array and its place. -/
structure Good where
  t    : Nat
  a    : Arr
  spot : Spot
deriving DecidableEq, Repr

/-- An earlier acquire keeps later accesses back; a release waits for what R321 asks. -/
def State.orderHolds (s : State) (act : List Nat) (o : Ord) : Bool :=
  act.any fun t => s.iwg.acquiring t || (o.rel && !s.releaseReady s.issue.wid t true)

/-- Bits of gang.mask_status for bad lanes (R257). -/
def State.noteBad (s : State) (p : Part) : State :=
  if p.bad = [] then s
  else s.setWg s.issue.wid fun x => x.setGang p.gang fun y => { y with mask := y.mask ||| maskOf (p.bad.map x.laneOf) }

/-- The inserted cycle of a check that some gang fails to pass by its interval, and the bad lanes of the gangs that mask them (R257). -/
def State.boundsNoted (s : State) (ps : List Part) : State :=
  (ps.filter fun p => !p.a.trap).foldl State.noteBad (if ps.any Part.out then s.checked else s)

/-- A trap beside which the check inserted a cycle, or masked lanes of other gangs (R257, R284). -/
def trapAfter (act : List Nat) (addr : Nat → Nat) (cause : Nat) (mask : List Nat) (s : State) : Res :=
  .trapIn s { cause := cause, mask := mask, addr := addr (mask.headD (act.headD 0)) }

/-- The checks of R257, R255 and R263 in order, then the access: `write` says how it meets ranges, `use` that footprints reserve.  `f` gets
the good and the bad lanes. -/
def State.viaArray (s : State) (act : List Nat) (v : Via) (write use : Bool) (f : List Good → List Nat → State → Res) : Res :=
  let ps := s.parts v act
  let addr := fun (t : Nat) => (((ps.find? fun p => p.lanes.contains t)).map fun p => trunc (s.elemAddr v p t) 64).getD 0
  let s0 := s.boundsNoted ps
  let bad := (ps.map Part.bad).flatten
  if ps.any fun p => p.a.trap && p.bad != [] then trapAfter act addr Cause.bounds bad s0
  else if ps.any fun p => p.a.space == 2 && (s.peerWg p.a.peer).isNone then trapAfter act addr Cause.bounds act s0
  else
    let good := (ps.map fun p => (p.lanes.filter fun t => !p.bad.contains t).filterMap fun t =>
      (s.spot p.a (s.elemAddr v p t).toNat).map fun sp => (⟨t, p.a, sp⟩ : Good)).flatten
    match good.filter fun g => s.meets g.spot v.size write with
    | g :: l => trapAfter act addr Cause.lock ((g :: l).map Good.t) s0
    | [] => f good bad (ps.foldl (fun s p => s.footprint v.k use p) s0)

/-! ### Loads -/

/-- The words and the interval that a loaded value gives (R273). -/
def loadWords (size : Nat) (sgn : Bool) (v : Nat) : List Word :=
  if size < 4 then [if sgn then toWord (sext v (8 * size)) else .ofNat 32 v] else wordList v (size / 4)

def loadIv (size : Nat) (sgn : Bool) : Intv :=
  match size, sgn with
  | 1, false => ⟨0, 255⟩
  | 1, true => ⟨-128, 127⟩
  | 2, false => ⟨0, 65535⟩
  | 2, true => ⟨-32768, 32767⟩
  | _, _ => full

/-- A spill image gives its value and interval, or FULL when they do not agree (R196). -/
def imageOf (v : Nat) : Word × Intv :=
  let w : Word := .ofNat 32 v
  let lo := sext (v / 2 ^ 32 : Nat) 32
  let hi := sext (v / 2 ^ 64 : Nat) 32
  (w, if lo ≤ w.toInt ∧ w.toInt ≤ hi then ⟨lo, hi⟩ else full)

/-- The answer of a load of bytes. -/
def answer (size : Nat) (sgn xs : Bool) (bytes : List Byte) : Work :=
  let v := ofBytes bytes
  if xs then let (w, e) := imageOf v; .done [w] e true else .done (loadWords size sgn v) (loadIv size sgn) true

/-- The answer zero, of a masked or tier-missed lane (R258, R266, R276). -/
def zeroAnswer (size : Nat) (sgn xs : Bool) : Work := .done [] (if xs then ⟨0, 0⟩ else loadIv size sgn) false

/-- The destination and the status predicate of a producer. -/
def instrDst (i : Instr) : Option Dst := i.uses.bind fun u => u.dsts.head?
def instrStat (i : Instr) : Option Nat := i.uses.bind fun u => if u.ppend then u.pw.head? else none

/-- Write a destination and a status predicate at once, leaving the last results. -/
def Thread.giveNow (t : Thread) (i : Instr) (w : Work) : Thread :=
  match w with
  | .done vals iv ok =>
    let t1 := match instrDst i with
      | none => t
      | some d => t.setCur fun r => match d.f.cls with
        | .x => r.setX d.f.idx ⟨vals.getD 0 0, iv, true⟩
        | .v => (List.range d.n).foldl (fun r j => r.setV (d.f.idx + j) ⟨vals.getD j 0, true⟩) r
    match instrStat i with
    | some k => t1.setPred k ok
    | none => t1
  | _ => t

/-- Start a producer of the running instruction for a lane. -/
def State.produce (s : State) (i : Instr) (t : Nat) (w : Work) : State :=
  s.iset t fun x => x.start (instrDst i) (instrStat i) w s.clk

/-- An access of a thread of workgroup `own` to some of these bytes of a scratchpad is not performed yet: a granule load (R318), or pieces of a
misaligned access (R317). -/
def Thread.spotPend (t : Thread) (own w off n : Nat) : Bool :=
  t.prods.any fun p => match p.work with
    | .granule o k _ _ _ _ => own == w && o < off + n && off < o + k
    | .spotLoad v o k _ _ _ _ _ => v == w && o < off + n && off < o + k
    | .spotStore v l => v == w && l.any fun q => q.va < off + n && off < q.va + q.bytes.length
    | _ => false

def State.spotBusy (s : State) (t : Nat) (sp : Spot) (n : Nat) : Bool :=
  match sp with
  | .scr w o => (s.ithread t).spotPend s.issue.wid w o n
  | _ => false

/-- The parts of a byte range between the addresses that satisfy `cut`: VA, offset in the access, bytes. -/
def cutAt (cut : Nat → Bool) (va n : Nat) : List (Nat × Nat × Nat) :=
  let starts := (List.range n).filter fun i => i == 0 || cut (va + i)
  (starts.zip (starts.drop 1 ++ [n])).map fun e => (va + e.1, e.1, e.2 - e.1)

/-- The single-copy atomic pieces of an access of n bytes to memory of a unit: all of it where it is aligned and no larger than the unit, else cut
at the multiples of its size and of the unit (R26, R332). -/
def cutUnit (u va n : Nat) : List (Nat × Nat × Nat) :=
  if va % n = 0 && n ≤ u then [(va, 0, n)] else cutAt (fun a => a % n == 0 || a % u == 0) va n

/-- Bytes of a single-copy atomic access to scratchpad (R26). -/
def scratchUnit : Nat := 64

/-- A lane of a load: its place, near-only or not, its class, and the lane whose load it is (R275). -/
structure LoadLane where
  t    : Nat
  spot : Spot
  near : Bool
  svc  : Nat
  uni  : Option Nat
deriving DecidableEq, Repr

/-- A load of one lane: a request, or the answer of storage, which is performed as it issues (R313); `none` while an earlier granule load of the
thread covers its bytes. -/
def State.loadLane (s : State) (i : Instr) (e : LoadLane) (size : Nat) (sgn xs : Bool) (o : Ord) : Option State :=
  match e.spot with
  | .glob va => some (s.produce i e.t (.load { va := va, size := size, sgn := sgn, xs := xs, near := e.near, svc := e.svc, order := o.order,
                                               scope := o.scope, remote := false, uni := e.uni } []))
  | sp =>
    let now := fun (_ : Unit) =>
      let w := match s.spotRead sp size with
        | some b => answer size sgn xs b
        | none => .failed true
      let s1 := s.produce i e.t w
      if o.acq then s1.acquire s.iwg.core o.scope else s1
    if s.spotBusy e.t sp size then none
    else match sp with
      | .scr w at_ => some (if (cutUnit scratchUnit at_ size).length ≤ 1 then now ()
          else s.produce i e.t (.spotLoad w at_ size sgn xs o.order o.scope []))
      | _ => some (now ())

/-- Loads of good lanes, and zero for the bad ones. -/
def State.loadAll (s : State) (i : Instr) (good : List LoadLane) (bad : List Nat) (size : Nat) (sgn xs : Bool) (o : Ord) : Res :=
  let s1 := bad.foldl (fun s t => s.iset t fun x => x.giveNow i (zeroAnswer size sgn xs)) s
  match good.foldl (fun (r : Option State) e => r.bind fun s => s.loadLane i e size sgn xs o) (some s1) with
  | some s' => .ok s'
  | none => .hold

/-! ### Pieces (R26, R332) -/

/-- The parts of a byte range by line. -/
def pieces (va n : Nat) : List (Nat × Nat × Nat) :=
  ((List.range (if n = 0 then 0 else (va + n - 1) / 128 + 1 - va / 128)).map fun i =>
    let lo := max va ((va / 128 + i) * 128)
    let hi := min (va + n) ((va / 128 + i + 1) * 128)
    (lo, lo - va, hi - lo))

/-- Bytes of a single-copy atomic access at a VA (R26). -/
def State.unitAt (s : State) (ctx va : Nat) : Nat := atomUnit (((s.ctx ctx).gia va).elim 0 fun a => s.tierOf a.gia)

/-- The single-copy atomic pieces of an access to global memory (R332). -/
def State.split (s : State) (ctx va n : Nat) : List (Nat × Nat × Nat) := cutUnit (min (s.unitAt ctx va) (s.unitAt ctx (va + n - 1))) va n

/-- Which of n pieces is performed next: a free choice (notes/assumptions/8.md). -/
def State.pick (s : State) (n : Nat) : Nat × State :=
  if n ≤ 1 then (0, s) else ((Config.freeWord s.freeCtr).toNat % n, { s with freeCtr := s.freeCtr + 1 })

/-! ### Stores -/

/-- The global IAs of a byte range of VAs, whatever the permissions: first byte and length of each part. -/
def Ctx.spans (c : Ctx) (va n : Nat) : List (Nat × Nat) := (pieces va n).filterMap fun p => (c.gia p.1).map fun a => (a.gia, p.2.2)

/-- Two byte ranges of VAs share a byte: by their VAs, or by the IAs that range registers give them (R107, R317). -/
def Ctx.share (c : Ctx) (va n va' n' : Nat) : Bool :=
  (va < va' + n' && va' < va + n) || (c.spans va n).any fun a => (c.spans va' n').any fun b => a.1 < b.1 + b.2 && b.1 < a.1 + a.2

/-- The thread has an access to some of the bytes that is not performed yet (R317). -/
def Thread.busyAt (t : Thread) (c : Ctx) (va n : Nat) : Bool :=
  t.prods.any fun p => match p.work with
    | .load r _ | .atom r _ _ => c.share r.va r.size va n
    | .store l _ _ _ => l.any fun q => c.share q.va q.bytes.length va n
    | _ => false

/-- An access of the thread that cannot be resolved is remembered for a deferred trap; one issued in a handler faults the context; of a thread
that has exited it ends the kernel (R456, R485). -/
def State.storeFails (s : State) (w t : Nat) (kernel va : Nat) (handler : Bool) : State :=
  let g := s.wg w
  if !(g.thread t).live then s.kernelFault kernel Cause.page 0
  else if handler then s.ctxFault g.ctx Cause.page g.kernel (g.thread t).pc
  else s.setThread w t fun x => x.addErrs fun e => { e with page := true, va := if e.va = 0 then va / 128 * 128 else e.va }

/-- Put bytes into the siding: they join the thread's last entry when it is a plain one of the same line. -/
def State.side (s : State) (e : Side) : State :=
  let c := (s.wg e.wid).core
  let n := (s.core c).sideId
  let s1 := s.setCore c fun x =>
    let mine := x.siding.filter fun f => f.wid == e.wid && f.t == e.t
    match mine.getLast? with
    | some l =>
      if l.red.isNone && e.red.isNone && l.rel.isNone && e.rel.isNone && lineOf l.gia == lineOf e.gia && l.near == e.near &&
          l.handler == e.handler then
        { x with siding := listSet x.siding (fun f => f.id == l.id) fun f =>
            { f with bytes := e.bytes.foldl (fun m b => m.set b.1 b.2) f.bytes, marks := dedup (f.marks ++ e.marks) } }
      else { x with siding := x.siding ++ [{ e with id := x.sideId }], sideId := x.sideId + 1 }
    | none => { x with siding := x.siding ++ [{ e with id := x.sideId }], sideId := x.sideId + 1 }
  if (s1.core c).sideId = n then s1 else s1.count c 3

/-- Entry e of the siding touches some of the bytes of a line. -/
def Side.touches (e : Side) (gia n : Nat) : Bool :=
  lineOf e.gia == lineOf gia && (e.bytes.any fun b => gia % 128 ≤ b.1 && b.1 < gia % 128 + n)

/-- The thread has a siding entry that touches some of the bytes of a line. -/
def State.sidedAt (s : State) (w t gia n : Nat) : Bool :=
  (s.core (s.wg w).core).siding.any fun e => e.wid == w && e.t == t && e.touches gia n

/-- A lower lane of the instruction that issued at `born` has bytes of these in the siding, so that a lane's own go there too, behind them (R265,
R342). -/
def State.sidedBelow (s : State) (w t gia n born : Nat) : Bool :=
  (s.core (s.wg w).core).siding.any fun e => e.wid == w && e.t < t && e.marks.contains born && e.touches gia n

/-- A lower lane of the instruction that issued at `born` has a store or reduction of these bytes under way (R265, R342). -/
def Wg.pendingBelow (g : Wg) (c : Ctx) (t va n born : Nat) : Bool :=
  g.threads.any fun e => e.1 < t && e.2.prods.any fun p => p.born == born && (match p.work with
    | .atom r a _ => a.red && c.share r.va r.size va n
    | .store l _ _ _ => l.any fun q => c.share q.va q.bytes.length va n
    | _ => false)

/-- A lower lane of the instruction that issued at `born` has pieces of a store to these bytes of a scratchpad under way (R265). -/
def Wg.spotBelow (g : Wg) (t w off n born : Nat) : Bool :=
  g.threads.any fun e => e.1 < t && e.2.prods.any fun p => p.born == born && (match p.work with
    | .spotStore v l => v == w && l.any fun q => q.va < off + n && off < q.va + q.bytes.length
    | _ => false)

/-- A ticket fetch of the thread that issued before `born` has still to read a line, or to be allocated: a later store of the thread to the line
is performed after that read (R297). -/
def State.fetching (s : State) (w t gl born : Nat) : Bool :=
  (s.slices.any fun e => e.2.tickets.any fun k =>
    k.2.issuer == (w, t) && k.2.inflight && k.2.left.any fun j => lineOf k.2.ia + j == gl) ||
  (s.thread w t).prods.any fun p => p.born < born && (match p.work with
    | .ticket r n _ _ => ((s.ctx (s.wg w).ctx).gia r.va).any fun a => lineOf a.gia ≤ gl && gl < lineOf a.gia + n
    | _ => false)

/-- Stores or reductions of the thread that issued before `born` are still to be performed or sided, so that a later one is not sided before them
(R336). -/
def Thread.olderStores (t : Thread) (born : Nat) : Bool :=
  t.prods.any fun p => p.born < born && (match p.work with
    | .store _ _ _ _ => true
    | .atom _ a _ => a.red
    | _ => false)

/-- How a lane's store or reduction is taken: performed or sided; not now; or not before the siding has room. -/
inductive Took
  | ok (s : State)
  | later
  | full
deriving DecidableEq, Repr

def Took.bind (r : Took) (f : State → Took) : Took :=
  match r with
  | .ok s => f s
  | .later => .later
  | .full => .full

/-- What a lane writes: workgroup, lane, the issue clk of its instruction, whether it issued in a handler, near-only, class, and its release. -/
structure Writer where
  wid  : Nat
  t    : Nat
  born : Nat
  handler : Bool
  near : Bool
  svc  : Nat
  rel  : Option Scope
deriving DecidableEq, Repr

/-- The siding entry of a lane's bytes, or of its reduction. -/
def State.sideOf (s : State) (m : Writer) (va : Nat) (a : GAddr) (bytes : NMap Byte) (red : Option AtomReq) : Side :=
  let g := s.wg m.wid
  { id := 0, wid := m.wid, t := m.t, ctx := g.ctx, kernel := g.kernel, va := va, gia := a.gia, ilv := a.ilv, set := a.set, bytes := bytes,
    red := red, near := m.near, state := .grant, rel := m.rel, svc := m.svc, born := s.clk, marks := [m.born], handler := m.handler }

/-- An entry goes to the siding when it has room. -/
def State.sideIn (s : State) (e : Side) : Took :=
  if (s.core (s.wg e.wid).core).siding.length < Config.sidingEntries then .ok (s.side e) else .full

/-- A line is held back from write-back for the record of a release store (R324). -/
def State.holdLine (s : State) (c gl : Nat) (rel : Option Scope) : State :=
  match rel with
  | none => s
  | some sc => let l := s.l1 c gl
    s.setL1 c gl { l with held := some ((l.held.map fun h => scopeMax h sc).getD sc) }

/-- One piece of a global store by a lane: performed in the L1 under a grant, else sided (R455, R456). -/
def State.storePiece (s : State) (m : Writer) (va : Nat) (bytes : List Byte) : Took :=
  let g := s.wg m.wid
  let c := g.core
  match (s.ctx g.ctx).resolve .wr va with
  | none => .ok (s.storeFails m.wid m.t g.kernel va m.handler)
  | some a =>
    let cells := (List.range bytes.length).map fun i => (a.gia % 128 + i, bytes.getD i 0)
    if s.fetching m.wid m.t (lineOf a.gia) m.born then .later
    else match (if s.sidedAt m.wid m.t a.gia bytes.length || s.sidedBelow m.wid m.t a.gia bytes.length m.born then none
        else s.grantOf c g.ctx a.gia) with
    | some gr =>
      if m.near && gr.far then .ok (s.postTier a g.ctx c true false false)
      else .ok (((s.touchGrant c gr).l1Store c g.ctx a cells).holdLine c (lineOf a.gia) m.rel)
    | none => if (s.thread m.wid m.t).olderStores m.born then .later else s.sideIn (s.sideOf m va a cells none)

/-- A thread whose bytes need an entry of the full siding is held until there is one (R456). -/
def State.sideStuck (s : State) (w t : Nat) : State :=
  s.setThread w t fun x => if x.live && x.hold == .none then { x with hold := .stand false } else x

/-- A store of one lane: performed as it issues where it is one piece, and otherwise piece by piece (R332). -/
def State.storeLane (s : State) (t : Nat) (sp : Spot) (bytes : List Byte) (near : Bool) (svc : Nat) (o : Ord) : Took :=
  match sp with
  | .glob va =>
    let x := s.ithread t
    if x.busyAt s.ictx va bytes.length then .later
    else
      let rel := if o.rel && o.scope != .sys then some o.scope else none
      let l := s.split s.iwg.ctx va bytes.length
      if l.length ≤ 1 && !s.iwg.pendingBelow s.ictx t va bytes.length s.clk then
        s.storePiece ⟨s.issue.wid, t, s.clk, x.handler, near, svc, rel⟩ va bytes
      else .ok (s.iset t fun x => x.start none none
        (.store (l.map fun p => ⟨p.1, (bytes.drop p.2.1).take p.2.2⟩) near svc rel) s.clk)
  | .scr w o =>
    let l := cutUnit scratchUnit o bytes.length
    if s.spotBusy t sp bytes.length then .later
    else if l.length ≤ 1 && !s.iwg.spotBelow t w o bytes.length s.clk then .ok (s.spotWrite sp bytes)
    else .ok (s.iset t fun x => x.start none none (.spotStore w (l.map fun p => ⟨p.1, (bytes.drop p.2.1).take p.2.2⟩)) s.clk)
  | .acc _ _ => .ok (s.spotWrite sp bytes)

/-- One of the pieces of a store is over. -/
def Thread.pieceDone (t : Thread) (seq n : Nat) (rest : Work) : Thread :=
  if n ≤ 1 then { t with prods := t.prods.filter fun y => y.seq != seq } else t.setWork seq rest

/-- A piece of a split store is performed, when the lower lanes' bytes are (R265, R332).  One that needs an entry of the full siding holds its
thread (R456). -/
def State.storeStep (s : State) (w t : Nat) (p : Prod) : State :=
  match p.work with
  | .store l near svc rel =>
    let (k, s1) := s.pick l.length
    let q := l.getD k ⟨0, []⟩
    if (s.wg w).pendingBelow (s.ctx (s.wg w).ctx) t q.va q.bytes.length p.born then s
    else match s1.storePiece ⟨w, t, p.born, p.bank, near, svc, rel⟩ q.va q.bytes with
      | .ok s2 => s2.setThread w t fun x => x.pieceDone p.seq l.length (.store (l.eraseIdx k) near svc rel)
      | .full => s.sideStuck w t
      | .later => s
  | .spotStore v l =>
    let (k, s1) := s.pick l.length
    let q := l.getD k ⟨0, []⟩
    if (s.wg w).spotBelow t v q.va q.bytes.length p.born then s
    else (if s1.wgs.has v then s1.spotWrite (.scr v q.va) q.bytes else s1).setThread w t fun x =>
      x.pieceDone p.seq l.length (.spotStore v (l.eraseIdx k))
  | _ => s

/-- A step of each split store of a workgroup. -/
def State.storeSteps (s : State) (w : Nat) : State :=
  (s.wg w).threads.foldl (fun s e => e.2.prods.foldl (fun s p => match p.work with
    | .store _ _ _ _ | .spotStore _ _ => (s.storeStep w e.1 p).wgRelease w
    | _ => s) s) s

/-- A piece of a misaligned load of scratchpad is read; with the last the answer is known, and an acquire acts (R322, R332). -/
def State.spotStep (s : State) (w t : Nat) (p : Prod) : State :=
  match p.work with
  | .spotLoad v o n sgn xs order sc got =>
    let left := (cutUnit scratchUnit o n).filter fun q => !(List.range q.2.2).all fun i => got.has (q.2.1 + i)
    let (k, s1) := s.pick left.length
    let q := left.getD k ⟨o, 0, 0⟩
    (match s1.spotRead (.scr v q.1) q.2.2 with
    | none => s1.setThread w t fun x => x.setWork p.seq (.failed true)
    | some b =>
      let got' := (List.range q.2.2).foldl (fun m i => m.set (q.2.1 + i) (b.getD i 0)) got
      if got'.length < n then s1.setThread w t fun x => x.setWork p.seq (.spotLoad v o n sgn xs order sc got')
      else
        let s2 := s1.setThread w t fun x => x.setWork p.seq (answer n sgn xs ((List.range n).map fun i => got'.getD i 0))
        if Use.hasAcq order then s2.acquire (s.wg w).core sc else s2)
  | _ => s

/-- A release that performs its own drain first, for lanes on global memory and for others (R323, R331). -/
def State.eager (s : State) (o : Ord) (glob other : Bool) : State :=
  if o.rel && ((glob && o.scope == .sys) || (other && coreWide o.scope)) then s.drainCore s.iwg.core else s

def Spot.isGlob : Spot → Bool
  | .glob _ => true
  | _ => false

/-- Stores of the good lanes in ascending order, the highest lane last (R265); the group waits when one cannot be taken now. -/
def State.storeAll (s : State) (l : List (Good × List Byte)) (o : Ord) (svc : Good → Nat) : Res :=
  let glob := fun (e : Good × List Byte) => e.1.spot.isGlob
  match l.foldl (fun (r : Took) e => r.bind fun s => s.storeLane e.1.t e.1.spot e.2 e.1.a.near (svc e.1) o)
      (.ok (s.eager o (l.any glob) (l.any fun e => !glob e))) with
  | .ok s' => .ok s'
  | .later => .hold
  | .full => .full

/-! ### Scratchpad forms (R277) -/

/-- The byte offset of a lane: exact, with its interval. -/
def State.scrOff (s : State) (x : Field) (off : Int) (t : Nat) : Int := ((s.ithread t).val x).toInt + off

/-- The checks of R277 for lanes that access n bytes each with alignment al of a workgroup's allocation: ALIGN, then BOUNDS by the union
check.  `f` gets the offsets and the state. -/
def State.viaScratch (s : State) (act : List Nat) (x : Field) (off : Int) (n al : Nat) (wid : Option Nat) (write : Option Bool)
    (f : List (Nat × Nat) → State → Res) : Res :=
  let limit : Int := Krec.scratch s.ikrec
  let at_ := s.scrOff x off
  let addr := fun t => trunc (at_ t) 64
  match failing act (fun t => at_ t % al != 0) Cause.align addr with
  | some r => r
  | none =>
    match wid with
    | none => if act = [] then f [] s else .trap { cause := Cause.bounds, mask := act, addr := addr (act.headD 0) }
    | some w =>
      let out := act.any fun t => let e := ((s.ithread t).index x).2; e.lo + off < 0 || limit < e.hi + off + n
      let s1 := if out then s.checked else s
      match act.filter fun t => out && (at_ t < 0 || limit < at_ t + n) with
      | t :: l => trapAfter act addr Cause.bounds (t :: l) s1
      | [] =>
        match act.filter fun t => write.any fun wr => s.meets (.scr w (at_ t).toNat) n wr with
        | t :: l => trapAfter act addr Cause.lock (t :: l) s1
        | [] => f (act.map fun t => (t, (at_ t).toNat)) s1

/-- The lines of a core's L1 that the bytes [lo, hi) of a context touch, through any of its range registers. -/
def State.l1Lines (s : State) (core ctx lo hi : Nat) : List Nat :=
  let rs := (List.range 16).filterMap (s.ctx ctx).range
  (s.core core).l1.keys.filter fun gl => rs.any fun r =>
    let base := r.peer * 2 ^ 48 + r.ia
    let a := max lo r.va
    let b := min hi (r.va + r.size)
    a < b && 128 * gl < base + (b - r.va) && base + (a - r.va) < 128 * gl + 128

/-! ### The service of requests at the memory side -/

/-- A deadline that has passed is counted (R466, R467). -/
def State.late (s : State) (core kernel born svc : Nat) : State :=
  let b := Krec.budget (s.kern kernel).krec svc
  if b ≠ 0 ∧ born + 16 * b < s.clk then
    { s.setCore core fun c => { c with dlmT := if c.dlmT = 0xFFFFFFFF then c.dlmT else c.dlmT + 1 } with
      arch := { s.arch with dlmT := min (s.arch.dlmT + 1) (2 ^ 64 - 1) } }
  else s

/-- A byte that the thread's own siding holds; `some none` is a byte with a reduction still to replay. -/
def State.sidedByte (s : State) (w t gia : Nat) : Option (Option Byte) :=
  let l := (s.core (s.wg w).core).siding.filter fun e =>
    e.wid == w && e.t == t && lineOf e.gia == lineOf gia && (e.bytes.get? (gia % 128)).isSome
  if l.any fun e => e.red.isSome then some none
  else l.getLast?.bind fun e => (e.bytes.get? (gia % 128)).map some

/-- The answer of one line to a load: the line's bytes, from the L1 or by a request; wait on a page; failed; tier miss; UE. -/
inductive LineAns
  | hit (d : Nat → Byte)
  | bytes (s : State) (d : Nat → Byte)
  | wait (s : State) (page : Nat)
  | page
  | tier (s : State)
  | ue

/-- Read a line for a core: from the L1 when every byte that is asked for is valid there, else by a request to the home slice that fills the
line (R314, R451). -/
def State.readLine (s : State) (c ctx va : Nat) (need : List Nat) (near : Bool) : LineAns :=
  match (s.ctx ctx).resolve .rd va with
  | none => .page
  | some a =>
    let gl := lineOf a.gia
    let cell := fun (s : State) i => (s.l1Byte c (128 * gl + i)).getD 0
    if need.all fun i => (s.l1Byte c (128 * gl + i)).isSome then .hit (cell s)
    else match s.ask ctx c a .rd near false false false with
      | .fail => .page
      | .dead => .ue
      | .wait s1 pg => .wait s1 pg
      | .tier s1 => .tier s1
      | .go s1 => if s1.isPoison gl then .ue else let s2 := (s1.count c 2).fill c ctx a; .bytes s2 (cell s2)

/-- Read a line at the coherent level for an acquire or a `WAITA` (R316). -/
def State.readCoherent (s : State) (c ctx va : Nat) (near : Bool) : LineAns :=
  match (s.ctx ctx).resolve .rd va with
  | none => .page
  | some a =>
    let gl := lineOf a.gia
    match s.ask ctx c a .rd near false false false with
    | .fail => .page
    | .dead => .ue
    | .wait s1 pg => .wait s1 pg
    | .tier s1 => .tier s1
    | .go s1 =>
      if s1.isPoison gl then .ue
      else
        let s2 := (s1.flushLine c gl).readHome a
        let l := s2.homeLine gl
        .bytes s2 fun i => l.getD i 0

/-- A thread whose request is served together: workgroup-thread number and producer. -/
abbrev Served := Nat × Prod

/-- The lanes whose requests go with a producer's: those of its issue group that ask for the same lines (R264, R275). -/
def State.together (s : State) (w : Nat) (born : Nat) (p : Work → Bool) : List Served :=
  ((s.wg w).threads.map fun e => (e.2.prods.filter fun q => q.born == born && p q.work).map fun q => (e.1, q)).flatten

/-- An earlier access of the thread to the same bytes is not performed yet. -/
def Thread.earlier (t : Thread) (c : Ctx) (seq va n : Nat) : Bool := ({ t with prods := t.prods.filter fun p => p.seq < seq }).busyAt c va n

/-- A pending reduction in the siding keeps a read of its bytes back (R456). -/
def State.redBlocks (s : State) (w t va n : Nat) : Bool :=
  let ctx := s.ctx (s.wg w).ctx
  (List.range n).any fun i => match ctx.resolve .rd (va + i) with
    | some a => s.sidedByte w t a.gia == some none
    | none => false

/-- The byte of the thread's own siding at a VA. -/
def State.ownByte (s : State) (w t va : Nat) : Option Byte :=
  match ((s.ctx (s.wg w).ctx).resolve .rd va).bind fun a => s.sidedByte w t a.gia with
  | some (some b) => some b
  | _ => none

def linesOf (r : Req) : List Nat := (pieces r.va r.size).map fun p => p.1 / 128

/-- A lane of a load that is served: its producer, request, the bytes it has, the lane whose load it is, and the piece to read. -/
structure LoadPart where
  lane  : Nat
  prod  : Prod
  req   : Req
  got   : NMap Byte
  own   : Nat
  piece : Nat × Nat × Nat
deriving DecidableEq, Repr

/-- The pieces of a load that are not performed yet. -/
def State.loadLeft (s : State) (ctx : Nat) (r : Req) (got : NMap Byte) : List (Nat × Nat × Nat) :=
  (s.split ctx r.va r.size).filter fun p => !(List.range p.2.2).all fun i => got.has (p.2.1 + i)

/-- The lanes of an issue group that share the request of a piece: each has a piece in the line, asks with the same class and for near memory
alike, and no earlier access of the thread keeps it back (R264, R317). -/
def State.loadParts (s : State) (w born : Nat) (r : Req) (pc : Nat × Nat × Nat) (k : Nat) : List LoadPart :=
  let g := s.wg w
  (s.together w born fun q => match q with
    | .load r' _ => r'.near == r.near && r'.svc == r.svc
    | _ => false).filterMap fun e => match e.2.work with
      | .load r' got =>
        let l := (s.loadLeft g.ctx r' got).filter fun q => q.1 / 128 == pc.1 / 128
        let own := r'.uni.getD e.1
        let seq := if own = e.1 then e.2.seq else (((g.thread own).prods.find? fun q => q.born == born).map Prod.seq).getD 0
        let q := if l.contains pc then pc else l.getD (k % l.length) ⟨0, 0, 0⟩
        if l = [] || (g.thread own).earlier (s.ctx g.ctx) seq q.1 q.2.2 || s.redBlocks w own q.1 q.2.2 then none else some ⟨e.1, e.2, r', got, own, q⟩
      | _ => none

/-- A lane has read its piece of a line; with the last piece the answer is known. -/
def State.loadGot (s : State) (w : Nat) (e : LoadPart) (d : Nat → Byte) : State :=
  let got := (List.range e.piece.2.2).foldl (fun m i =>
    m.set (e.piece.2.1 + i) ((s.ownByte w e.own (e.piece.1 + i)).getD (d ((e.piece.1 + i) % 128)))) e.got
  let all := (List.range e.req.size).map fun i => got.getD i 0
  s.setThread w e.lane fun x => x.setWork e.prod.seq
    (if got.length = e.req.size then answer e.req.size e.req.sgn e.req.xs all else .load e.req got)

/-- Serve a piece of a load with those that share its line's request; `read` reads the line, `after` follows a load that is complete. -/
def State.serveLoad (s0 : State) (w t : Nat) (p : Prod) (r : Req) (got : NMap Byte) (read : State → Nat → List Nat → LineAns)
    (after : State → State) : State :=
  let g := s0.wg w
  let left := s0.loadLeft g.ctx r got
  let (k, s) := s0.pick left.length
  let pc := left.getD k ⟨r.va, 0, 0⟩
  let ls := s.loadParts w p.born r pc k
  let each := fun (s : State) (f : LoadPart → Work) => ls.foldl (fun s e => s.setThread w e.lane fun x => x.setWork e.prod.seq (f e)) s
  if !(ls.any fun e => e.lane == t && e.prod.seq == p.seq) then s0
  else
    let need := dedup ((ls.map fun e => ((List.range e.piece.2.2).filter fun i => (s.ownByte w e.own (e.piece.1 + i)).isNone).map fun i =>
      (e.piece.1 + i) % 128).flatten)
    let give := fun (s : State) (d : Nat → Byte) =>
      let s1 := ls.foldl (fun s e => s.loadGot w e d) s
      if ls.any fun e => e.got.length + e.piece.2.2 = e.req.size then after s1 else s1
    if need = [] then give s fun _ => 0
    else match read s (pc.1 / 128) need with
      | .hit d => give s d
      | .bytes s1 d => give (s1.late g.core g.kernel p.born r.svc) d
      | .wait s1 pg => ls.foldl (fun s e => s.setThread w e.lane fun x =>
          { x with prods := listSet x.prods (fun q => q.seq == e.prod.seq) fun q => { q with wait := some pg } }) s1
      | .page => each s fun _ => .failed false
      | .ue => each s fun _ => .failed true
      | .tier s1 => each s1 fun e => zeroAnswer e.req.size e.req.sgn e.req.xs

end Sys2Proof.Machine
end

