-- ==== Sys2Proof/Machine/Array.lean ====
section
/-!
DEFINITION. Group 0x7: arrays and memory access (spec/10_array.md R269 to R283).
-/
namespace Sys2Proof.Machine
open Sys2Proof

/-- An accumulator access below 4 bytes takes ALIGN (R274). -/
def accAlign (s : State) (act : List Nat) (v : Via) : Option Res :=
  failing act (fun t => (s.iwg.array t v.k).space == 3 && v.size < 4) Cause.align fun t =>
    ((s.parts v act).find? fun p => p.lanes.contains t).elim 0 fun p => trunc (s.elemAddr v p t) 64

/-- The data bytes of a store. -/
def Thread.dataBytes (t : Thread) (f : Field) (n : Nat) : List Byte := bytesOf (t.wide f (max 1 (n / 4))) n

/-- The course of a load through an array; the lanes of a uniform load share the load of the lowest active lane of their gang (R275). -/
def arrayLoad (i : Instr) (sz : Nat) (sgn xs uni : Bool) (m : ArrOp MemW) (s : State) : Host.Outcome State Fault Refusal :=
  issue i 1 (fun act s =>
    let v : Via := ⟨m.k, m.x, arrOff m, sz, uni⟩
    let o := ordOf (Use.wordOf m)
    if s.orderHolds act o then .hold
    else (accAlign s act v).getD (s.viaArray act v false true fun good bad s =>
      let lead := fun (t : Nat) => if uni then act.find? fun u => s.iwg.gangOf u == s.iwg.gangOf t else none
      s.loadAll i (good.map fun g => ⟨g.t, g.spot, g.a.near, g.a.svc, lead g.t⟩) bad sz sgn xs o)) s

/-- The course of a store through an array. -/
def arrayStore (i : Instr) (sz : Nat) (m : ArrOp MemW) (data : Thread → List Byte) (s : State) : Host.Outcome State Fault Refusal :=
  issue i 1 (fun act s =>
    let v : Via := ⟨m.k, m.x, arrOff m, sz, false⟩
    let o := ordOf (Use.wordOf m)
    if s.orderHolds act o then .hold
    else (accAlign s act v).getD (s.viaArray act v true true fun good _ s =>
      s.storeAll (good.map fun g => (g, data (s.ithread g.t))) o fun g => g.a.svc)) s

def execLd (g : Guard) (sz : Size) (sgn : Bool) (d : Field) (m : ArrOp MemW) (s : State) : Host.Outcome State Fault Refusal :=
  arrayLoad (.ld g sz sgn d m) (nBytes sz) sgn false false m s

def execSt (g : Guard) (sz : Size) (m : ArrOp MemW) (v : Field) (s : State) : Host.Outcome State Fault Refusal :=
  arrayStore (.st g sz m v) (nBytes sz) m (fun t => t.dataBytes v (nBytes sz)) s

def execLdu (g : Guard) (sz : Size) (sgn : Bool) (d : Field) (m : ArrOp MemW) (s : State) : Host.Outcome State Fault Refusal :=
  arrayLoad (.ldu g sz sgn d m) (nBytes sz) sgn false true m s

def execLdXs (g : Guard) (d : Field) (m : ArrOp MemW) (s : State) : Host.Outcome State Fault Refusal :=
  arrayLoad (.ldXs g d m) 16 false true false m s

/-- The 16-byte spill image of an X register (R196). -/
def Thread.spill (t : Thread) (f : Field) : List Byte :=
  let (v, e) := t.read f
  bytesOf (v.toNat + 2 ^ 32 * trunc e.lo 32 + 2 ^ 64 * trunc e.hi 32) 16

def execStXs (g : Guard) (m : ArrOp MemW) (v : Field) (s : State) : Host.Outcome State Fault Refusal :=
  arrayStore (.stXs g m v) 16 m (fun t => t.spill v) s

/-! ### Scratchpad and peer scratchpad -/

def execLds (g : Guard) (sz : Size) (sgn : Bool) (d x : Field) (off : BitVec 16) (w : Option ScrW) (s : State) :
    Host.Outcome State Fault Refusal :=
  issue (.lds g sz sgn d x off w) 1 (fun act s =>
    let n := nBytes sz
    let o := ordScr w
    let fe := (w.map ScrW.fe).getD .none
    if s.orderHolds act o then .hold
    else s.viaScratch act x off.toInt n n (some s.issue.wid) (if fe = .none then some false else none) fun l s =>
      match fe with
      | .none => s.loadAll (.lds g sz sgn d x off w) (l.map fun e => ⟨e.1, .scr s.issue.wid e.2, false, 0, none⟩) [] n sgn false o
      | m => .ok (l.foldl (fun s e =>
          s.produce (.lds g sz sgn d x off w) e.1 (.granule e.2 n sgn (m == .clr) o.order o.scope)) s)) s

def execLdp (g : Guard) (sz : Size) (sgn : Bool) (d x : Field) (off : BitVec 16) (core : Nat) (w : ScrW) (s : State) :
    Host.Outcome State Fault Refusal :=
  issue (.ldp g sz sgn d x off core w) 1 (fun act s =>
    let n := nBytes sz
    let o := ordScr (some w)
    let p := s.peerWg core
    if s.orderHolds act o then .hold
    else s.viaScratch act x off.toInt n n p (some false) fun l s =>
      s.loadAll (.ldp g sz sgn d x off core w) (l.map fun e => ⟨e.1, .scr (p.getD 0) e.2, false, 0, none⟩) [] n sgn false o) s

/-- A store to the scratchpad of a workgroup. -/
def scratchStore (s : State) (act : List Nat) (x : Field) (off : Int) (n : Nat) (wid : Option Nat) (o : Ord) (v : Field) : Res :=
  if s.orderHolds act o then .hold
  else s.viaScratch act x off n n wid (some true) fun l s =>
    s.storeAll (l.map fun e => (⟨e.1, arrOf 0, .scr (wid.getD 0) e.2⟩, (s.ithread e.1).dataBytes v n)) o fun _ => 0

def execSts (g : Guard) (sz : Size) (x : Field) (off : BitVec 16) (w : Option ScrW) (v : Field) (s : State) :
    Host.Outcome State Fault Refusal :=
  issue (.sts g sz x off w v) 1 (fun act s =>
    scratchStore s act x off.toInt (nBytes sz) (some s.issue.wid) (ordScr w) v) s

def execStp (g : Guard) (sz : Size) (x : Field) (off : BitVec 16) (core : Nat) (w : ScrW) (v : Field) (s : State) :
    Host.Outcome State Fault Refusal :=
  issue (.stp g sz x off core w v) 1 (fun act s =>
    scratchStore s act x off.toInt (nBytes sz) (s.peerWg core) (ordScr (some w)) v) s

/-! ### Unchecked access (R279) -/

/-- PRIV, then the addresses of the lanes; PAGE beyond 57 bits; LOCK. -/
def unchecked (s : State) (act : List Nat) (va : Field) (off : BitVec 16) (n : Nat) (write : Bool) (f : List (Nat × Nat) → Res) : Res :=
  let at_ := fun t => trunc (((s.ithread t).pair va : Int) + off.toInt) 64
  if act ≠ [] ∧ s.ictx.capUnchecked = false then trapAll act Cause.priv
  else match failing act (fun t => s.meets (.glob (at_ t)) n write) Cause.lock at_ with
    | some r => r
    | none => match failing act (fun t => at_ t ≥ 2 ^ 57) Cause.page at_ with
      | some r => r
      | none => f (act.map fun t => (t, at_ t))

def execLda (g : Guard) (sz : Size) (sgn : Bool) (d va : Field) (off : BitVec 16) (w : Option ScrW) (s : State) :
    Host.Outcome State Fault Refusal :=
  issue (.lda g sz sgn d va off w) 1 (fun act s =>
    let o := ordScr w
    if s.orderHolds act o then .hold
    else unchecked s act va off (nBytes sz) false fun l =>
      s.loadAll (.lda g sz sgn d va off w) (l.map fun e => ⟨e.1, .glob e.2, false, Krec.svc s.ikrec, none⟩) [] (nBytes sz) sgn false o) s

def execSta (g : Guard) (sz : Size) (va : Field) (off : BitVec 16) (w : Option ScrW) (v : Field) (s : State) :
    Host.Outcome State Fault Refusal :=
  issue (.sta g sz va off w v) 1 (fun act s =>
    let o := ordScr w
    if s.orderHolds act o then .hold
    else unchecked s act va off (nBytes sz) true fun l =>
      s.storeAll (l.map fun e => (⟨e.1, arrOf 0, .glob e.2⟩, (s.ithread e.1).dataBytes v (nBytes sz))) o fun _ => Krec.svc s.ikrec) s

/-! ### Prefetch, reservation and cache control (R280 to R282) -/

/-- Lanes of `PREF` and `RESV` that are neither bad nor meet a locked range (R258, R263), with the extra cycle of the check. -/
def hintLanes (s : State) (act : List Nat) (v : Via) : List (Nat × Arr × Nat) × Bool :=
  let ps := s.parts v act
  ((ps.map fun p => (p.lanes.filter fun t => !p.bad.contains t).filterMap fun t =>
      let a := (s.elemAddr v p t).toNat
      match s.spot p.a a with
      | some sp => if s.meets sp (2 ^ p.a.esize) false then none else some (t, p.a, a)
      | none => none).flatten,
   ps.any Part.out)

/-- Prefetch one line, dropped where it would fault, go far, or read poison. -/
def State.hintLine (s : State) (va : Nat) (l2 near : Bool) : State :=
  let g := s.iwg
  match (s.ctx g.ctx).resolve .rd va with
  | none => s
  | some a =>
    match s.translate g.ctx a .rd near false with
    | .ok _ _ =>
      if s.isPoison (lineOf a.gia) then s
      else if l2 then (s.countPte a.gia 80).homeR (lineOf a.gia) else (s.countPte a.gia 80).fill g.core g.ctx a
    | _ => s

def slow (b : Bool) (s : State) : State := if b then s.checked else s

/-- `PREF` names no size: each lane accesses one element of its array, 2^esize bytes (R280; DESIGN CHOICE, notes/assumptions/66.md), as `RESV` does. -/
def execPref (g : Guard) (l2 : Bool) (m : ArrOp Unit) (s : State) : Host.Outcome State Fault Refusal :=
  issue (.pref g l2 m) 1 (fun act s =>
    let v : Via := ⟨m.k, m.x, arrOff m, 1, false⟩
    let (lanes, out) := hintLanes s act v
    let s1 := (s.parts v act).foldl (fun s p => s.footprint m.k false p) s
    let s2 := lanes.foldl (fun s e =>
      if e.2.1.space ≠ 0 then s
      else (pieces e.2.2 (2 ^ e.2.1.esize)).foldl (fun s p => s.hintLine p.1 l2 e.2.1.near) s) s1
    .ok (slow out s2)) s

/-- `RESV` reserves the footprint of the active lanes, dropped ones among them (R260, R263), unless the record holds it already (R261). -/
def execResv (g : Guard) (m : ArrOp Unit) (s : State) : Host.Outcome State Fault Refusal :=
  issue (.resv g m) 1 (fun act s =>
    let v : Via := ⟨m.k, m.x, arrOff m, 1, false⟩
    let ps := s.parts v act
    let s1 := ps.foldl (fun s p =>
      let s1 := s.footprint m.k false p
      match p.fp with
      | some (lo, hi) =>
        if p.a.space = 0 ∧ hi / 128 + 1 - lo / 128 ≤ 16 ∧ s.inFp p m.k lo hi = false then s1.reserve p.gang m.k lo hi else s1
      | none => s1) s
    .ok (slow (ps.any Part.out) s1)) s

/-- Release register k's reservations of a gang and empty its footprint record. -/
def State.release (s : State) (g k : Nat) : State :=
  (s.setCore s.iwg.core (Core.unreserve · (· == (s.issue.wid, g, k)))).setWg s.issue.wid fun x =>
    x.setGang g fun y => { y with fp := y.fp.erase k }

def execResvClr (g : Guard) (m : ArrOp Unit) (s : State) : Host.Outcome State Fault Refusal :=
  issue (.resvClr g m) 1 (fun act s => .ok ((s.gangsOf act).foldl (fun s k => s.release k m.k) s)) s

/-- The IA intervals behind a VA range that loads may read. -/
def Ctx.readable (c : Ctx) (lo hi : Nat) : List (Nat × Nat) :=
  (List.range 16).filterMap fun m => match c.range m with
    | some r =>
      let a := max lo r.va
      let b := min hi (r.va + r.size)
      if a < b ∧ r.perm % 2 = 1 then some (r.peer * 2 ^ 48 + r.ia + (a - r.va), r.peer * 2 ^ 48 + r.ia + (b - r.va)) else none
    | none => none

/-- The L1 lines of the core in the range of a `CCTL` lane. -/
def State.cctlLines (s : State) (va count : Nat) : List Nat :=
  let lo := va / 128 * 128
  let iv := s.ictx.readable lo (lo + 128 * count)
  (s.core s.iwg.core).l1.keys.filter fun gl => iv.any fun e => e.1 ≤ 128 * gl && 128 * gl < e.2

/-- Stores of a thread to the bytes [lo, hi) have still to reach the L1. -/
def State.codeBusy (s : State) (t lo hi : Nat) : Bool :=
  ((s.ithread t).prods.any fun p => match p.work with
    | .store l _ _ _ => l.any fun q => q.va < hi && lo < q.va + q.bytes.length
    | _ => false) ||
  (s.core s.iwg.core).siding.any fun e => e.wid == s.issue.wid && e.t == t && e.va / 128 * 128 < hi && lo < e.va / 128 * 128 + 128

/-- The first and the last byte of a `CCTL` lane's fetch blocks, the latter exclusive. -/
def cctlSpan (va count : Nat) : Nat × Nat := (va / 32 * 32, va / 32 * 32 + 32 * count)

/-- A lane of `CCTL` waits: for its stores to the fetch blocks that it drops, or for a line held for a release record. -/
def State.cctlHeld (s : State) (t : Nat) : Instr → Bool
  | .cctl g op va count =>
    let a := (s.ithread t).pair va
    (s.ithread t).guard g &&
    (if op = .iinv then s.codeBusy t (cctlSpan a count).1 (cctlSpan a count).2
     else (s.cctlLines a count).any fun gl => let l := s.l1 s.iwg.core gl; l.held.isSome && l.dirty != [])
  | _ => false

/-- `CCTL`.  The invalidation of fetch blocks comes after the thread's own stores to them have reached the coherent level, which fetch reads, so that
the thread then sees what it stored (R37). -/
def execCctl (g : Guard) (op : CctlOp) (va : Field) (count : Nat) (s : State) : Host.Outcome State Fault Refusal :=
  issue (.cctl g op va count) 1 (fun act s =>
    let c := s.iwg.core
    let va' := fun t => (s.ithread t).pair va
    let span := fun t => cctlSpan (va' t) count
    if act.any fun t => s.cctlHeld t (.cctl g op va count) then .hold
    else if op = .iinv then
      let back := act.foldl (fun s t => (s.l1Lines c s.iwg.ctx (span t).1 (span t).2).foldl (fun s gl => s.writeBack c gl) s) s
      .ok (back.setCore c fun x => { x with icache := x.icache.filter fun e =>
        !(e.1 == s.iwg.ctx && act.any fun t => (span t).1 ≤ e.2.1 && e.2.1 < (span t).2) })
    else
      let lines := dedup (act.map fun t => s.cctlLines (va' t) count).flatten
      .ok (lines.foldl (fun s gl => if op = .wb then s.writeBack c gl else s.flushLine c gl) s)) s

/-! ### The array instructions (R283) -/

def execArraySet (g : Guard) (k : Nat) (a : Field) (s : State) : Host.Outcome State Fault Refusal :=
  issue (.arraySet g k a) 1 (fun act s =>
    let top := fun gang => (act.filter fun t => s.iwg.gangOf t == gang).foldl max 0
    let image := fun gang => (.ofNat 128 ((s.ithread (top gang)).wide a 4) : BitVec 128)
    let gangs := s.gangsOf act
    if gangs.any fun x => !arrOk s.ikrec (image x) then trapAll act Cause.ill
    else .ok (gangs.foldl (fun s x =>
      (s.release x k).setWg s.issue.wid fun w => w.setGang x fun y => { y with arr := y.arr.set k (image x) }) s)) s

def execArrayGet (g : Guard) (d : Field) (k : Nat) (s : State) : Host.Outcome State Fault Refusal :=
  issue (.arrayGet g d k) 1 (fun act s => .ok (s.setThreads s.issue.wid act fun n t =>
    t.writeN d 4 ((s.iwg.gang (s.iwg.gangOf n)).arr.getD k 0).toNat)) s

def execArrayChk (g : Guard) (keep : Bool) (d : Field) (s : State) : Host.Outcome State Fault Refusal :=
  issue (.arrayChk g keep d) 1 (fun act s =>
    let s1 := s.setThreads s.issue.wid act fun n t => t.writeN d 2 (s.iwg.gang (s.iwg.gangOf n)).mask.toNat
    .ok (if keep then s1 else (s.gangsOf act).foldl (fun s x =>
      s.setWg s.issue.wid fun w => w.setGang x fun y => { y with mask := 0 }) s1)) s

end Sys2Proof.Machine
end

