-- ==== Sys2Proof/Machine/Numbers.lean ====
section
/-!
DEFINITION. Numbers: exact values, the element formats, rounding, conversion, block quantisation, codebook decoding and the matrix
engine's accumulation (spec/03_numbers.md R75 to R93), and the floating-point operations of spec/09_vector.md R242 to R251.
-/
namespace Sys2Proof.Machine
open Sys2Proof

/-- An exact value: NaN, an infinity, or sign and magnitude n/d with d positive; a zero keeps its sign (R78). -/
inductive Num
  | nan
  | inf (neg : Bool)
  | fin (neg : Bool) (n d : Nat)
deriving DecidableEq, Repr

/-- A floating format: exponent bits, mantissa bits, bias, and whether an exponent of all ones stands for infinities and NaN. -/
structure Fp where
  e    : Nat
  m    : Nat
  bias : Nat
  ieee : Bool
deriving DecidableEq, Repr

def fp32 : Fp := ⟨8, 23, 127, true⟩
def fpBf16 : Fp := ⟨8, 7, 127, true⟩
def fp16 : Fp := ⟨5, 10, 15, true⟩
def fp64 : Fp := ⟨11, 52, 1023, true⟩

/-- The floating format of a code (R75). -/
def fpOf : Fmt → Option Fp
  | .f32 => some fp32
  | .bf16 => some fpBf16
  | .f16 => some fp16
  | .e4m3 => some ⟨4, 3, 7, false⟩
  | .e5m2 => some ⟨5, 2, 15, false⟩
  | .e3m2 => some ⟨3, 2, 3, false⟩
  | .e2m3 => some ⟨2, 3, 1, false⟩
  | .e2m1 => some ⟨2, 1, 1, false⟩
  | .f64 => some fp64
  | _ => none

/-- Width of an element in bits (R75). -/
def fmtWidth : Fmt → Nat
  | .f32 => 32 | .bf16 => 16 | .f16 => 16 | .e4m3 => 8 | .e5m2 => 8 | .e3m2 => 6 | .e2m3 => 6 | .e2m1 => 4
  | .i8 => 8 | .i4 => 4 | .vq2 => 16 | .f64 => 64 | .i32 => 32 | .u32 => 32

/-- `emax` of the block-scaled formats (R75). -/
def fmtEmax : Fmt → Int
  | .f32 => 127 | .bf16 => 127 | .f16 => 15 | .e4m3 => 8 | .e5m2 => 16 | .e3m2 => 4 | .e2m3 => 2 | .e2m1 => 2
  | .i8 => 6 | .i4 => 2 | .vq2 => 0 | .f64 => 1023 | .i32 => 30 | .u32 => 31

namespace Num

/-- n × 2^e. -/
def scale (neg : Bool) (n : Nat) (e : Int) : Num :=
  if 0 ≤ e then .fin neg (n * 2 ^ e.toNat) 1 else .fin neg n (2 ^ (-e).toNat)

def ofInt (x : Int) : Num := .fin (x < 0) x.natAbs 1

def zero : Num := .fin false 0 1

def isNan : Num → Bool
  | .nan => true
  | _ => false

def neg : Num → Num
  | .nan => .nan
  | .inf s => .inf (!s)
  | .fin s n d => .fin (!s) n d

def abs : Num → Num
  | .nan => .nan
  | .inf _ => .inf false
  | .fin _ n d => .fin false n d

def isZero : Num → Bool
  | .fin _ n _ => n == 0
  | _ => false

def mul : Num → Num → Num
  | .fin s n d, .fin t m e => .fin (s != t) (n * m) (d * e)
  | .nan, _ => .nan
  | _, .nan => .nan
  | .inf s, .inf t => .inf (s != t)
  | .inf s, .fin t m _ => if m = 0 then .nan else .inf (s != t)
  | .fin t m _, .inf s => if m = 0 then .nan else .inf (s != t)

/-- The exact sum; a zero sum of operands of opposite sign is −0 under `.RM` and +0 otherwise (R242). -/
def add (rm : Bool) : Num → Num → Num
  | .nan, _ => .nan
  | _, .nan => .nan
  | .inf s, .inf t => if s = t then .inf s else .nan
  | .inf s, .fin _ _ _ => .inf s
  | .fin _ _ _, .inf s => .inf s
  | .fin s n d, .fin t m e =>
    let (n, m, c) := if d = e then (n, m, d)
      else if d % e = 0 then (n, m * (d / e), d)
      else if e % d = 0 then (n * (e / d), m, e)
      else (n * e, m * d, d * e)
    if s = t then .fin s (n + m) c
    else if n = m then .fin rm 0 1
    else if m < n then .fin s (n - m) c
    else .fin t (m - n) c

/-- Quotient by a finite non-zero value. -/
def div : Num → Num → Num
  | .fin s n d, .fin t m e => .fin (s != t) (n * e) (d * m)
  | x, _ => x

/-- Strictly below, for values that are not NaN; zeros of either sign are equal. -/
def lt : Num → Num → Bool
  | .nan, _ => false
  | _, .nan => false
  | .inf s, .inf t => s && !t
  | .inf s, .fin _ _ _ => s
  | .fin _ _ _, .inf t => !t
  | .fin s n d, .fin t m e =>
    let x : Int := (if s then -(n : Int) else n) * e
    let y : Int := (if t then -(m : Int) else m) * d
    x < y

def eq (a b : Num) : Bool := !a.isNan && !b.isNan && !a.lt b && !b.lt a

def sign : Num → Bool
  | .nan => false
  | .inf s => s
  | .fin s _ _ => s

end Num

/-- ⌊log₂ (n/d)⌋ of a positive quotient. -/
def log2q (n d : Nat) : Int :=
  let k : Int := (Nat.log2 n : Int) - Nat.log2 d
  let below := if 0 ≤ k then decide (n < d * 2 ^ k.toNat) else decide (n * 2 ^ (-k).toNat < d)
  if below then k - 1 else k

/-- Round num/den to an integer by a mode (R87); `neg` is the sign of the value whose magnitude it is. -/
def roundQ (r : Rnd) (neg : Bool) (num den : Nat) : Nat :=
  let q := num / den
  let rem := num % den
  let up := match r with
    | .rn => den < 2 * rem || (2 * rem == den && q % 2 == 1)
    | .rz => false
    | .rm => neg && rem != 0
    | .rp => !neg && rem != 0
  if up then q + 1 else q

/-- n/d divided by 2^q, as a quotient. -/
def shiftQ (n d : Nat) (q : Int) : Nat × Nat := if 0 ≤ q then (n, d * 2 ^ q.toNat) else (n * 2 ^ (-q).toNat, d)

/-- The exponent of the grid step at a positive value (R88): subnormals at the bottom, no limit above. -/
def stepExp (p : Fp) (n d : Nat) : Int := max (log2q n d) (1 - p.bias) - p.m

/-- The largest finite magnitude of a format. -/
def largest (p : Fp) : Num :=
  Num.scale false (2 ^ (p.m + 1) - 1) ((2 ^ p.e : Nat) - (if p.ieee then 2 else 1) - p.bias - p.m)

/-- An infinity or the largest finite value, as IEEE 754 lays down for an overflow in the mode (R88). -/
def overflow (p : Fp) (r : Rnd) (neg : Bool) : Num :=
  let toInf := match r with
    | .rn => true
    | .rz => false
    | .rm => neg
    | .rp => !neg
  if toInf then .inf neg else (if neg then (largest p).neg else largest p)

/-- Round an exact value to a floating format (R88). -/
def roundFp (p : Fp) (r : Rnd) : Num → Num
  | .nan => .nan
  | .inf s => .inf s
  | .fin s n d =>
    if n = 0 then .fin s 0 1
    else
      let q := stepExp p n d
      let (a, b) := shiftQ n d q
      let y := Num.scale s (roundQ r s a b) q
      if p.ieee && (largest p).lt y.abs then overflow p r s else y

/-- `saturate` for a floating format (R88). -/
def satFp (p : Fp) : Num → Num
  | .nan => .nan
  | x => if (largest p).lt x.abs then (if x.sign then (largest p).neg else largest p) else x

/-- The pattern of a value on a format's grid (R78, R89). -/
def encodeFp (p : Fp) : Num → Nat
  | .nan => (2 ^ p.e - 1) * 2 ^ p.m + 2 ^ (p.m - 1)
  | .inf s => s.toNat * 2 ^ (p.e + p.m) + (2 ^ p.e - 1) * 2 ^ p.m
  | .fin s n d =>
    let sg := s.toNat * 2 ^ (p.e + p.m)
    if n = 0 then sg
    else
      let q := stepExp p n d
      let (a, b) := shiftQ n d q
      let m := a / b
      sg + (if m < 2 ^ p.m then m else ((q + p.m + p.bias).toNat) * 2 ^ p.m + (m - 2 ^ p.m))

/-- `decode_format` for a floating format (R78). -/
def decodeFp (p : Fp) (c : Nat) : Num :=
  let s := c / 2 ^ (p.e + p.m) % 2 == 1
  let e := c / 2 ^ p.m % 2 ^ p.e
  let m := c % 2 ^ p.m
  if p.ieee && e == 2 ^ p.e - 1 then (if m = 0 then .inf s else .nan)
  else if e = 0 then Num.scale s m (1 - (p.bias : Int) - p.m)
  else Num.scale s (2 ^ p.m + m) ((e : Int) - p.bias - p.m)

/-- `decode_format` (R78). -/
def decodeFmt (f : Fmt) (c : Nat) : Num :=
  match fpOf f with
  | some p => decodeFp p c
  | none => match f with
    | .u32 => .fin false (c % 2 ^ 32) 1
    | _ => Num.ofInt (sext c (fmtWidth f))

/-- Round a value to an integer by a mode. -/
def roundInt (r : Rnd) (s : Bool) (n d : Nat) : Int :=
  let m : Int := roundQ r s n d
  if s then -m else m

/-- Bounds of an integer format. -/
def intBounds : Fmt → Int × Int
  | .i8 => (-128, 127)
  | .i4 => (-8, 7)
  | .u32 => (0, 2 ^ 32 - 1)
  | _ => (-(2 ^ 31), 2 ^ 31 - 1)

/-- A target that holds every value of a floating source, infinities too, so that row 1 of R90 alone settles the pair.  From FP32 to FP32
rows 1 and 2 both apply and differ for an infinity under saturation: row 2 is taken (DESIGN CHOICE, notes/assumptions/32.md). -/
def holdsInf (t src : Fmt) : Bool := t == .f64 || ((t == .f32 || t == src) && (src == .f16 || src == .bf16))

/-- Conversion of a value to a format by R90: the code of a floating target, the integer of an integer target.  The pairs that no row of R90
names are the model's choice (DESIGN CHOICE, notes/assumptions/32.md): an integer that an INT32 or UINT32 target does not hold becomes the
target's nearest bound, and an E5M2 value beyond 65504 goes to FP16 as the row of FP32 sources says. -/
def convert (t : Fmt) (r : Rnd) (sat fromInt : Bool) (x : Num) : Int :=
  match fpOf t with
  | some p =>
    if p.ieee then
      if sat && !fromInt then
        (match x with
         | .nan => (encodeFp p .nan : Int)
         | .inf s => encodeFp p (if s then (largest p).neg else largest p)
         | .fin s n d =>
           let y := roundFp { p with ieee := false } r (.fin s n d)
           encodeFp p (if (largest p).lt y.abs then (if s then (largest p).neg else largest p) else y))
      else encodeFp p (roundFp p r x)
    else match x with
      | .nan => 0
      | .inf s => encodeFp p (if s then (largest p).neg else largest p)
      | .fin s n d => encodeFp p (satFp p (roundFp p r (.fin s n d)))
  | none =>
    let (lo, hi) := intBounds t
    match x with
    | .nan => 0
    | .inf s => if s then lo else hi
    | .fin s n d => max lo (min hi (roundInt r s n d))

/-! ### FP32 and FP64 operations (R242 to R245) -/

def f32 (w : Word) : Num := decodeFp fp32 w.toNat
def w32 (x : Num) : Word := .ofNat 32 (encodeFp fp32 x)

/-- One rounding of an exact result. -/
def fin32 (r : Rnd) (x : Num) : Word := w32 (roundFp fp32 r x)

def addRnd (p : Fp) (r : Rnd) (a b : Num) : Num := roundFp p r (a.add (r == .rm) b)
def mulRnd (p : Fp) (r : Rnd) (a b : Num) : Num := roundFp p r (a.mul b)
def fmaRnd (p : Fp) (r : Rnd) (a b c : Num) : Num := roundFp p r ((a.mul b).add (r == .rm) c)

/-- −0 orders below +0 (R243). -/
def below (a b : Num) : Bool := a.lt b || (a.eq b && a.sign && !b.sign)

/-- `FMIN` and `FMAX` on values of a format: one operand unchanged, by its code (R243). -/
def minMax (p : Fp) (isMax : Bool) (ca cb : Nat) : Nat :=
  let a := decodeFp p ca
  let b := decodeFp p cb
  if a.isNan && b.isNan then encodeFp p .nan
  else if a.isNan then cb
  else if b.isNan then ca
  else if isMax then (if below a b then cb else ca) else (if below b a then cb else ca)

/-- The conditions of `FCMP` and `DCMP` (R244). -/
def fcondHolds (c : FCond) (a b : Num) : Bool :=
  let un := a.isNan || b.isNan
  match c with
  | .eq => a.eq b
  | .ne => !a.eq b
  | .lt => a.lt b
  | .le => a.lt b || a.eq b
  | .gt => b.lt a
  | .ge => b.lt a || a.eq b
  | .ord => !un
  | .uno => un

/-- `FRND` (R245). -/
def frndWord (r : Rnd) (w : Word) : Word :=
  match f32 w with
  | .nan => w32 .nan
  | .inf _ => w
  | .fin s n d => if n ≥ d * 2 ^ 23 then w else w32 (.fin s (roundQ r s n d) 1)

/-! ### The function set (R246) -/

/-- Round a quotient to FP32 under RN, as a pattern. -/
def rn32 (s : Bool) (n d : Nat) : Word := fin32 .rn (.fin s n d)

/-- One unit in the last place at a positive value. -/
def ulp32 (n d : Nat) : Num := Num.scale false 1 (stepExp fp32 n d)

/-- The candidate when it is a finite value inside [lo, hi], else the other word. -/
def within (c : Word) (lo hi : Num) (other : Word) : Word :=
  match f32 c with
  | .fin s n d => if (Num.fin s n d).lt lo || hi.lt (.fin s n d) then other else c
  | _ => other

/-- Integer square root by bits, of numbers below 4^k. -/
def isqrtAux : Nat → Nat → Nat → Nat
  | 0, r, _ => r
  | k + 1, r, x => let t := r + 2 ^ k; if t * t ≤ x then isqrtAux k t x else isqrtAux k r x
def isqrt (x : Nat) : Nat := isqrtAux (Nat.log2 x / 2 + 1) 0 x

/-- √(n/d) correctly rounded under RN: the root is taken to many more bits than FP32 holds, with a sticky bit. -/
def sqrt32 (n d : Nat) : Word :=
  let big := n * d * 2 ^ 200
  let r := isqrt big
  let s := 2 * r + (if r * r = big then 0 else 1)
  rn32 false s (d * 2 ^ 101)

/-- The candidate when it is within a tolerance of a value, else the value rounded to FP32.  The value carries an error below 2^-64 of the
tolerance, which is taken off it (notes/assumptions/6.md). -/
def nearWord (free : Word) (y tol : Num) : Word :=
  let t := tol.mul (.fin false (2 ^ 64 - 1) (2 ^ 64))
  within free (y.add false t.neg) (y.add false t) (fin32 .rn y)

/-- Numbers in units of 2^-160: ln 2, and π/2 in units of 2^-320. -/
def fixOne : Nat := 2 ^ 160
def fixLn2 : Nat := 0xb17217f7d1cf79abc9e3b39803f2f6af40f34326
def fixHalfPi : Nat := 0x1921fb54442d18469898cc51701b839a252049c1114cf98e804177d4c76273644a29410f31c6809bb

/-- Terms of a power series in units of 2^-160: each is the one before times y over the next divisor, with every second sign changed when `alt`. -/
def series (y : Nat) (alt : Bool) (div : Nat → Nat) : Nat → Nat → Nat → Bool → Int
  | 0, _, _, _ => 0
  | m + 1, i, t, neg => (if neg then -(t : Int) else t) + series y alt div m (i + 1) (t * y / fixOne / div i) (neg != alt)

/-- e^y for 0 ≤ y < 1, in units of 2^-160. -/
def expFix (y : Nat) : Nat := (series y false (· + 1) 45 0 fixOne false).toNat

/-- sin and cos of 0 ≤ y < 2, in units of 2^-160. -/
def sinFix (y : Nat) : Int := series (y * y / fixOne) true (fun i => (2 * i + 2) * (2 * i + 3)) 30 0 y false
def cosFix (y : Nat) : Int := series (y * y / fixOne) true (fun i => (2 * i + 1) * (2 * i + 2)) 30 0 fixOne false

/-- Bits of log₂ of a number 1 ≤ m < 2 in units of 2^-160: each squaring gives one bit of the logarithm. -/
def log2Bits : Nat → Nat → Nat → Nat
  | 0, _, acc => acc
  | j + 1, m, acc =>
    let q := m * m / fixOne
    if 2 * fixOne ≤ q then log2Bits j (q / 2) (2 * acc + 1) else log2Bits j q (2 * acc)

/-- A number in units of 2^-160. -/
def fixNum (v : Int) : Num := .fin (v < 0) v.natAbs fixOne

def isPow2 (n d : Nat) : Bool := let k := log2q n d; if 0 ≤ k then n == d * 2 ^ k.toNat else n * 2 ^ (-k).toNat == d

def frcpWord (free : Word) (w : Word) : Word :=
  match f32 w with
  | .nan => w32 .nan
  | .inf s => w32 (.fin s 0 1)
  | .fin s n d =>
    if n = 0 then w32 (.inf s)
    else
      let best := rn32 s d n
      let y : Num := .fin s d n
      let u := ulp32 d n
      match f32 best with
      | .fin _ _ _ => if isPow2 n d then best else within free (y.add false u.neg) (y.add false u) best
      | _ => best

/-- A candidate c is within one unit of 1/√(n/d): (c − u)² x ≤ 1 ≤ (c + u)² x. -/
def frsqWord (free : Word) (w : Word) : Word :=
  match f32 w with
  | .nan => w32 .nan
  | .inf s => if s then w32 .nan else 0
  | .fin s n d =>
    if n = 0 then w32 (.inf s)
    else if s then w32 .nan
    else
      let best := sqrt32 d n
      let k := (log2q d n) / 2
      let u := Num.scale false 1 (k - 23)
      let x : Num := .fin false n d
      let one : Num := .fin false 1 1
      match f32 free with
      | .fin false m e =>
        let c : Num := .fin false m e
        let lo := c.add false u.neg
        let hi := c.add false u
        if !one.lt ((lo.mul lo).mul x) && !((hi.mul hi).mul x |>.lt one) && !lo.sign then free else best
      | _ => best

def fsqrtWord (w : Word) : Word :=
  match f32 w with
  | .nan => w32 .nan
  | .inf s => if s then w32 .nan else w
  | .fin s n d => if n = 0 then w else if s then w32 .nan else sqrt32 n d

/-- ⌊x⌋ of a value. -/
def floorNum (s : Bool) (n d : Nat) : Int := if s then -((n + d - 1) / d : Nat) else (n / d : Nat)

/-- 2^k rounded to FP32. -/
def exp2Int (k : Int) : Word :=
  if k > 1000 then w32 (.inf false) else if k < -1000 then 0 else fin32 .rn (Num.scale false 1 k)

def fexp2Word (free : Word) (w : Word) : Word :=
  match f32 w with
  | .nan => w32 .nan
  | .inf s => if s then 0 else w
  | .fin s n d =>
    let k := floorNum s n d
    if n % d = 0 then exp2Int k
    else if k ≥ 128 then w32 (.inf false)
    else if k < -1000 then nearWord free Num.zero (Num.scale false 1 (-148))
    else
      let frac := if s then d - n % d else n % d
      nearWord free ((fixNum (expFix (frac * fixLn2 / d))).mul (Num.scale false 1 k)) (Num.scale false 1 (max (k - 22) (-148)))

def flog2Word (free : Word) (w : Word) : Word :=
  match f32 w with
  | .nan => w32 .nan
  | .inf s => if s then w32 .nan else w
  | .fin s n d =>
    if n = 0 then w32 (.inf true)
    else if s then w32 .nan
    else
      let k := log2q n d
      if isPow2 n d then fin32 .rn (Num.ofInt k)
      else
        let m := if 0 ≤ k then n * fixOne / (d * 2 ^ k.toNat) else n * 2 ^ (-k).toNat * fixOne / d
        let v := k * fixOne + (log2Bits 100 m 0 : Int) * 2 ^ 60
        let tol := if k = 0 ∨ k = -1 then Num.scale false 1 (-22)
          else (ulp32 v.natAbs fixOne).mul (Num.ofInt 2)
        nearWord free (fixNum v) tol

/-- A result of `FSIN`, `FCOS` and `FTANH`: within 2⁻²¹ of the value. -/
def unitWord (free : Word) (y : Num) : Word := nearWord free y (Num.scale false 1 (-21))

/-- sin of q quarter turns and 0 ≤ r < π/2, in units of 2^-160. -/
def turnSin (q r : Nat) : Int :=
  match q % 4 with
  | 0 => sinFix r
  | 1 => cosFix r
  | 2 => -sinFix r
  | _ => -cosFix r

/-- The quarter turns of n/d and what is left, in units of 2^-160. -/
def quarters (n d : Nat) : Nat × Nat :=
  let x := n * 2 ^ 320 / d
  (x / fixHalfPi, x % fixHalfPi / fixOne)

/-- tanh of n/d, with e^(2n/d) = 2^m e^r. -/
def tanhNum (s : Bool) (n d : Nat) : Num :=
  if 64 * d ≤ n then .fin s 1 1
  else
    let y := 2 * n * fixOne / d
    let e := expFix (y % fixLn2) * 2 ^ (y / fixLn2)
    .fin s (e - fixOne) (e + fixOne)

def fsinWord (free : Word) (w : Word) : Word :=
  match f32 w with
  | .nan => w32 .nan
  | .inf _ => w32 .nan
  | .fin s n d => if n = 0 then w else
      let (q, r) := quarters n d
      let v := turnSin q r
      unitWord free (fixNum (if s then -v else v))

def fcosWord (free : Word) (w : Word) : Word :=
  match f32 w with
  | .nan => w32 .nan
  | .inf _ => w32 .nan
  | .fin _ n d => let (q, r) := quarters n d; unitWord free (fixNum (turnSin (q + 1) r))

def ftanhWord (free : Word) (w : Word) : Word :=
  match f32 w with
  | .nan => w32 .nan
  | .inf s => w32 (.fin s 1 1)
  | .fin s n d => if n = 0 then w else unitWord free (tanhNum s n d)

/-! ### Packed and dot operations (R248 to R251) -/

/-- Apply an operation to both half-words. -/
def halves (f : Nat → Nat → Nat → Nat) (a b c : Word) : Word :=
  .ofNat 32 (f (a.toNat % 65536) (b.toNat % 65536) (c.toNat % 65536) +
    65536 * f (a.toNat / 65536) (b.toNat / 65536) (c.toNat / 65536))

def byteOf (w : Word) (i : Nat) : Nat := w.toNat / 2 ^ (8 * i) % 256

def f8dotWord (fa fb : Fmt) (a b c : Word) : Word :=
  let terms := (List.range 4).map fun i => (decodeFmt fa (byteOf a i)).mul (decodeFmt fb (byteOf b i))
  let p := terms.foldl (fun s t => s.add false t) (Num.fin true 0 1)
  match f32 c with
  | .nan => w32 .nan
  | .inf _ => c
  | .fin s n d =>
    let e := p.add false (.fin s n d)
    if e.isZero then (if n = 0 && s && terms.all fun t => t.isZero && t.sign then 0x80000000 else 0)
    else fin32 .rn e

def i8dotWord (ua ub : Bool) (a b c : Word) : Word :=
  let ext := fun (u : Bool) (x : Nat) => if u then (x : Int) else sext x 8
  toWord ((List.range 4).foldl (fun s i => s + ext ua (byteOf a i) * ext ub (byteOf b i)) c.toInt)

/-- Bit i of a number. -/
def bitAt (n i : Nat) : Bool := n / 2 ^ i % 2 == 1

/-- `decode_vq2`: eight values of a code, from its codebook entry (R85). -/
def decodeVq2 (c entry : Nat) : List Num :=
  let p := (List.range 7).foldl (fun x j => x != bitAt c (j + 1)) false
  (List.range 8).map fun j => .fin (if j < 7 then bitAt c (j + 1) else p) (entry / 2 ^ (4 * j) % 16 + c % 2) 2

/-- The value of a UE8M0 block scale (R80). -/
def scaleVal (s : Nat) : Num := if s = 255 then .nan else Num.scale false 1 ((s : Int) - 127)

/-- Element × block scale × tensor scale (R81). -/
def scaled (x : Num) (blk : Option Nat) (tensor : Num) : Num :=
  let y := match blk with
    | some s => x.mul (scaleVal s)
    | none => x
  y.mul tensor

/-- `AMAX` over elements that are FP32 values (R251). -/
def amaxWord (els : List Num) (b : Word) : Word :=
  let all := f32 b :: els.map Num.abs
  if all.any Num.isNan then w32 .nan
  else w32 (all.foldl (fun m x => if below m x then x else m) (f32 b))

/-! ### Block quantisation (R91) -/

/-- The scale byte and the codes of a block. -/
def quantiseBlock (x : List Num) (f : Fmt) (t : Num) : Nat × List Nat :=
  let bad := fun (v : Num) => match v with
    | .fin _ _ _ => false
    | _ => true
  if t.isZero || x.any bad then (255, x.map fun _ => 0)
  else
    let y := x.map fun v => v.div t
    let a := y.foldl (fun m v => if m.lt v.abs then v.abs else m) Num.zero
    let s : Nat := match a with
      | .fin _ n d => if n = 0 then 0 else (min (max (log2q n d - fmtEmax f + 127) 0) 254).toNat
      | _ => 0
    (s, y.map fun v => trunc (convert f .rn false false (v.mul (Num.scale false 1 (127 - (s : Int))))) (fmtWidth f))

/-- Pack codes of a width, element 0 lowest (R79). -/
def packCodes (w : Nat) : List Nat → Nat
  | [] => 0
  | c :: l => c + 2 ^ w * packCodes w l

/-! ### Matrix accumulation (R93) -/

/-- The sum of one group of terms, as an FP32 value. -/
def groupSum (terms : List Num) : Num :=
  let hasInf := fun (s : Bool) => terms.any fun t => t == .inf s
  if terms.any Num.isNan || (hasInf true && hasInf false) then .nan
  else if hasInf true then .inf true
  else if hasInf false then .inf false
  else
    let e := terms.foldl (fun s t => s.add false t) Num.zero
    if e.isZero then Num.zero else roundFp fp32 .rn e

/-- `accumulate` (R93): groups in ascending K. -/
def accumulate (acc : Word) (groups : List (List Num)) : Word :=
  groups.foldl (fun a g => w32 (addRnd fp32 .rn (f32 a) (groupSum g))) acc

end Sys2Proof.Machine
end

