-- ==== Sys2Proof/Machine/Atomic.lean ====
section
/-!
DEFINITION. Group 0x9: atomics, fences, waits on an address and line clears (spec/12_ordering.md R338 to R348, spec/13_line.md R362 to R364).
-/
namespace Sys2Proof.Machine
open Sys2Proof

/-! ### The operations (R340) -/

/-- The new value of an operation of n bits, from the value held and the data. -/
def atomNew (op : AtomOp) (n m d : Nat) : Nat :=
  let s := fun (x : Nat) => sext x n
  match op with
  | .add => (m + d) % 2 ^ n
  | .min => if s d < s m then d else m
  | .max => if s m < s d then d else m
  | .minu => min m d
  | .maxu => max m d
  | .and => m &&& d
  | .or => m ||| d
  | .xor => m ^^^ d
  | .xchg => d
  | .fadd => let p := if n = 64 then fp64 else fp32; encodeFp p (addRnd p .rn (decodeFp p m) (decodeFp p d))
  | .fmin => minMax fp32 false m d
  | .fmax => minMax fp32 true m d
  | .mask => let v := d % 2 ^ n; let k := d / 2 ^ n; (m &&& (2 ^ n - 1 - k)) ||| (v &&& k)

/-- What an atomic stores for a value held; `none` when a compare-and-swap fails (R342). -/
def AtomReq.new (a : AtomReq) (m : Nat) : Option Nat :=
  match a.op with
  | some op => some (atomNew op (8 * nBytes a.size) m a.data)
  | none => if m = a.cmp then some a.data else none

/-- The registers of the data of an operation: `.MASK` carries the mask above the value (R338). -/
def atomRegs (op : AtomOp) (sz : Size) : Nat := if op = .mask then 2 * Use.regsOf sz else Use.regsOf sz

def Thread.opReq (t : Thread) (s : State) (op : AtomOp) (w : AtW) (red : Bool) (v : Field) : AtomReq :=
  { op := some op, size := w.size, data := t.wide v (atomRegs op w.size), cmp := 0, red := red, orig := s.origin }

def Thread.casReq (t : Thread) (s : State) (w : AtW) (new cmp : Field) : AtomReq :=
  { op := none, size := w.size, data := t.wide new (Use.regsOf w.size), cmp := t.wide cmp (Use.regsOf w.size), red := false,
    orig := s.origin }

/-! ### One line's request at its place (R341, R342) -/

/-- How a request for one line ends: the values held before; a wait for a page; not yet, drains being ordered; its record refused, the
core drained; a tier miss; PAGE; UE; a home out of service; ALIGN of a 16-byte lane. -/
inductive AtomAns
  | done (s : State) (olds : List Nat)
  | wait (s : State) (page : Nat)
  | later (s : State)
  | refused (s : State)
  | tier (s : State)
  | page
  | ue
  | dead
  | align
deriving DecidableEq, Repr

/-- Apply the lanes' operations to the bytes of a line in order: the line, the bytes written, and the values held. -/
def applyLanes (line : NMap Byte) : List (Nat × AtomReq) → NMap Byte × List Nat
  | [] => ([], [])
  | (off, a) :: l =>
    let n := nBytes a.size
    let m := ofBytes ((List.range n).map fun i => line.getD (off + i) 0)
    let new := match a.new m with
      | some v => (List.range n).map fun i => (off + i, (bytesOf v n).getD i 0)
      | none => []
    let put := fun (d : NMap Byte) => new.foldl (fun d e => d.set e.1 e.2) d
    let (w, olds) := applyLanes (put line) l
    (new.foldl (fun d e => if d.has e.1 then d else d.set e.1 e.2) w, m :: olds)

/-- Drains that a request has ordered are not complete yet: the request is named by workgroup, thread and producer. -/
def State.draining (s : State) (who : Nat × Nat × Option Nat) : Bool := s.cores.any fun e => e.2.drains.any fun d => d.who == some who

/-- The drains that an acquire at `.CLU` or wider orders first at the home slice, for itself alone, and waits for (R327, R329); `none` when
nothing covers it. -/
def State.orderCover (s : State) (n gl c : Nat) (o : Ord) (remote : Bool) (who : Nat × Nat × Option Nat) : Option State :=
  let cover := if o.acq && coreWide o.scope then covering ((s.slice n).records.getD gl []) c remote else []
  if s.draining who then some s
  else if cover = [] then none
  else some (cover.foldl (fun s k => s.orderDrain n k.core (some who)) s)

/-- One request at the line's place, with its release record. -/
def State.atomLine (s : State) (c ctx va : Nat) (near : Bool) (o : Ord) (remote recd : Bool) (ops : List (Nat × AtomReq))
    (who : Nat × Nat × Option Nat) : AtomAns :=
  match (s.ctx ctx).resolve .wr va with
  | none => .page
  | some a =>
    let gl := lineOf a.gia
    let n := s.home a
    match s.orderCover n gl c o remote who with
    | some s1 => .later s1
    | none =>
      let slow := match s.translate ctx a .wr near true with
        | .ok _ t => t == 1 || t == 2
        | _ => false
      if slow && ops.any fun e => e.2.size == .b128 then .align
      else match s.ask ctx c a .wr near true false false with
        | .fail => .page
        | .dead => .dead
        | .wait s1 pg => .wait s1 pg
        | .tier s1 => .tier s1
        | .go s1 =>
          if s1.isPoison gl then .ue
          else
            let rec_ := if o.rel && o.scope != .sys && !recd then s1.register n gl c o.scope else some s1
            match rec_ with
            | none => .refused (s1.drainCore c)
            | some s2 =>
              let s3 := (if o.rel && o.scope != .sys && !recd then s2.watchDrain n gl c else s2).flushLine c gl |>.writeHome a
              let (w, olds) := applyLanes (lineMap (s3.homeLine gl)) (ops.map fun e => (e.1 % 128, e.2))
              let s4 := if w = [] then s3 else s3.putHome gl (some ctx) w
              .done s4 olds

/-- A lane that fails at the memory side: a report once the group has settled; nothing for a thread that has exited, but for the PAGE of a
`RED`, which ends the kernel (R343, R456). -/
def State.atomFails (s : State) (w t : Nat) (p : Prod) (a : AtomReq) (va cause : Nat) : State :=
  let g := s.wg w
  if a.red && cause = Cause.page then
    (s.storeFails w t g.kernel va p.bank).setThread w t fun x => x.endProd p false
  else if !(g.thread t).live then s.setThread w t fun x => x.endProd p false
  else s.setThread w t fun x => x.setWork p.seq (.trap ⟨cause, 0, va, a.orig⟩)

/-- An atomic whose result nobody takes is over when it is performed. -/
def State.atomDone (s : State) (w : Nat) (e : Nat × Prod) (work : Work) : State :=
  if e.2.tgt.isNone && e.2.stat.isNone then s.setThread w e.1 fun x => x.endProd e.2 true
  else s.setThread w e.1 fun x => x.setWork e.2.seq work

/-- A `RED` that a page keeps waiting is retired into the siding, where it waits, behind the thread's earlier stores; while the siding is
full it waits as it is, and holds its thread (R336, R343, R456). -/
def State.redWaits (s : State) (w : Nat) (e : Nat × Prod) (r : Req) (a : AtomReq) (page : Nat) : State :=
  let m : Writer := ⟨w, e.1, e.2.born, e.2.bank, r.near, r.svc, if r.order = .rel ∧ r.scope ≠ .sys then some r.scope else none⟩
  let stays := s.setThread w e.1 fun x => { x with prods := listSet x.prods (fun q => q.seq == e.2.seq) fun q => { q with wait := some page } }
  match (s.ctx (s.wg w).ctx).resolve .wr r.va with
  | none => stays
  | some ga =>
    if (s.thread w e.1).olderStores e.2.born then stays
    else match s.sideIn { s.sideOf m r.va ga ((List.range r.size).map fun i => (ga.gia % 128 + i, 0)) (some a) with state := .pager } with
    | .ok s1 => s1.setThread w e.1 fun x => { x with prods := x.prods.filter fun q => q.seq != e.2.seq }
    | _ => stays.sideStuck w e.1

/-- The acquire of an atomic follows the last of its requests (R342). -/
def State.atomAcquire (s : State) (w : Nat) (born : Nat) (r : Req) : State :=
  if Use.hasAcq r.order && (s.together w born fun q => match q with
    | .atom _ _ _ => true
    | _ => false).isEmpty then s.acquire (s.wg w).core r.scope else s

/-- A lane's atomic or reduction stays behind the thread's earlier accesses and ticket fetches, and behind what the siding holds of its bytes for
the thread, or for a lower lane of the instruction. -/
def State.atomBlocked (s : State) (w : Nat) (e : Nat × Prod) : Bool :=
  let g := s.wg w
  match e.2.work with
  | .atom r _ _ => (g.thread e.1).earlier (s.ctx g.ctx) e.2.seq r.va r.size ||
      (match (s.ctx g.ctx).resolve .wr r.va with
       | some a => s.sidedAt w e.1 a.gia r.size || s.sidedBelow w e.1 a.gia r.size e.2.born || s.fetching w e.1 (lineOf a.gia) e.2.born
       | none => false)
  | _ => true

/-- Serve the request of a gang for one line: the lanes of one issue group in it, in ascending order, after those of lower gangs (R342); of a
`RED`, the lanes below the first that cannot go yet. -/
def State.serveAtom (s : State) (w t : Nat) (p : Prod) (r : Req) (red recd : Bool) : State :=
  let g := s.wg w
  let all := s.together w p.born fun q => match q with
    | .atom r' _ _ => r'.va / 128 == r.va / 128
    | _ => false
  let mine := all.filter fun e => g.gangOf e.1 == g.gangOf t
  let ls := if red then mine.takeWhile fun e => !s.atomBlocked w e else mine
  if (all.any fun e => g.gangOf e.1 < g.gangOf t) || ls.any (s.atomBlocked w) then s
  else match ls with
  | [] => s
  | lead :: _ =>
    let ops := ls.filterMap fun e => match e.2.work with
      | .atom r' a _ => some (r'.va, a)
      | _ => none
    let each := fun (s : State) (f : State → Nat × Prod → Req → AtomReq → State) => ls.foldl (fun s e => match e.2.work with
      | .atom r' a _ => f s e r' a
      | _ => s) s
    let s' := match s.atomLine g.core g.ctx r.va r.near ⟨r.order, r.scope⟩ r.remote recd ops (w, lead.1, some lead.2.seq) with
      | .done s1 olds =>
        (ls.zip olds).foldl (fun (s : State) (e : (Nat × Prod) × Nat) => match e.1.2.work with
          | .atom r' _ _ => s.atomDone w e.1 (.done (wordList e.2 (r'.size / 4)) full true)
          | _ => s) (s1.late g.core g.kernel p.born r.svc)
      | .wait s1 pg => each s1 fun s e r' a => if a.red then s.redWaits w e r' a pg else s.setThread w e.1 fun x =>
          { x with prods := listSet x.prods (fun q => q.seq == e.2.seq) fun q => { q with wait := some pg } }
      | .later s1 => s1
      | .refused s1 => each s1 fun s e r' a => s.setThread w e.1 fun x => x.setWork e.2.seq (.atom r' a true)
      | .tier s1 => each s1 fun s e _ _ => s.atomDone w e (.done [] full false)
      | .page => each s fun s e r' a => s.atomFails w e.1 e.2 a r'.va Cause.page
      | .ue => each s fun s e r' a => s.atomFails w e.1 e.2 a (r'.va / 128 * 128) Cause.ue
      | .dead => each s fun s e r' a =>
          if a.red then s.atomDone w e (.done [] full false) else s.atomFails w e.1 e.2 a (r'.va / 128 * 128) Cause.ue
      | .align => each s fun s e r' a => if a.size = Size.b128 then s.atomFails w e.1 e.2 a r'.va Cause.align else s
    (s'.atomAcquire w p.born r).wgRelease w

def execAtomicPerform (wid t seq : Nat) (s : State) : Host.Outcome State Fault Refusal :=
  .next (match (s.thread wid t).prod? seq with
    | some p => match p.work with
      | .atom r a recd => s.serveAtom wid t p r a.red recd
      | _ => s
    | none => s)

/-! ### Issue -/

def atOrd (w : AtW) : Ord := ⟨w.order, w.scope⟩

/-- An atomic of one lane on scratchpad is performed as it issues; `none` while an earlier granule load covers its bytes. -/
def State.atomScratch (s : State) (i : Instr) (t : Nat) (sp : Spot) (a : AtomReq) : Option State :=
  let n := nBytes a.size
  if s.spotBusy t sp n then none
  else match s.spotRead sp n with
    | none =>
      if a.red then some (s.reportLane s.issue.wid t ⟨Cause.ue, 0, 0, a.orig⟩)
      else some (s.produce i t (.trap ⟨Cause.ue, 0, 0, a.orig⟩))
    | some b =>
      let m := ofBytes b
      let s1 := match a.new m with
        | some v => s.spotWrite sp (bytesOf v n)
        | none => s
      some (if a.red then s1 else s1.produce i t (.done (wordList m (n / 4)) full true))

/-- A reduction of one lane on global memory: sent under a grant, else sided, once the thread's pending accesses to its bytes are performed (R317,
R455, R456). -/
def State.redLane (s : State) (t : Nat) (req : Req) (a : AtomReq) : Took :=
  let g := s.iwg
  let w := s.issue.wid
  let x := s.ithread t
  match (s.ctx g.ctx).resolve .wr req.va with
  | none => .ok (s.storeFails w t g.kernel req.va x.handler)
  | some ga =>
    if s.fetching w t (lineOf ga.gia) s.clk then .later
    else match (if s.sidedAt w t ga.gia req.size || s.sidedBelow w t ga.gia req.size s.clk then none else s.grantOf g.core g.ctx ga.gia) with
    | some gr =>
      if req.near && gr.far then .ok (s.postTier ga g.ctx g.core true false false)
      else .ok ((s.touchGrant g.core gr).iset t fun x => x.start none none (.atom req a false) s.clk)
    | none =>
      if x.busyAt s.ictx req.va req.size || x.olderStores s.clk then .later
      else s.sideIn (s.sideOf ⟨w, t, s.clk, x.handler, req.near, req.svc, if req.order = .rel ∧ req.scope ≠ .sys then some req.scope else none⟩
        req.va ga ((List.range req.size).map fun i => (ga.gia % 128 + i, 0)) (some a))

/-- The good lanes of an atomic, in ascending order. -/
def State.atomAll (s : State) (i : Instr) (good : List Good) (bad : List Nat) (w : AtW) (mk : Thread → AtomReq) : Res :=
  let glob := good.any fun e => e.spot.isGlob
  let other := good.any fun e => !e.spot.isGlob
  let s1 := bad.foldl (fun s t => s.iset t fun x => x.giveNow i (.done [] full false)) (s.eager (atOrd w) glob other)
  let one := fun (s : State) (e : Good) =>
    let a := mk (s.ithread e.t)
    match e.spot with
    | .glob va =>
      let req : Req := { va := va, size := nBytes w.size, sgn := false, xs := false, near := e.a.near, svc := e.a.svc, order := w.order,
                         scope := w.scope, remote := w.remote }
      if a.red then s.redLane e.t req a else .ok (s.produce i e.t (.atom req a false))
    | sp => match s.atomScratch i e.t sp a with
      | some s' => .ok s'
      | none => .later
  match good.foldl (fun (r : Took) e => r.bind fun s => one s e) (.ok s1) with
  | .ok s2 => .ok (if other && (atOrd w).acq then s2.acquire s2.iwg.core w.scope else s2)
  | .later => .hold
  | .full => .full

/-- `ATOM`, `RED` and `CAS`: ILL in the accumulator space, ALIGN, then the course of R268. -/
def atomCourse (i : Instr) (k : Nat) (x : Field) (off : Int) (w : AtW) (mk : State → Thread → AtomReq) (s : State) :
    Host.Outcome State Fault Refusal :=
  issue i 1 (fun act s =>
    let v : Via := ⟨k, x, off, nBytes w.size, false⟩
    let at_ := fun t => ((s.parts v act).find? fun p => p.lanes.contains t).elim 0 fun p => s.elemAddr v p t
    if s.orderHolds act (atOrd w) then .hold
    else if act.any fun t => (s.iwg.array t k).space == 3 then trapAll act Cause.ill
    else (failing act (fun t => at_ t % nBytes w.size != 0) Cause.align fun t => trunc (at_ t) 64).getD
      (s.viaArray act v true false fun good bad s => s.atomAll i good bad w (mk s))) s

def execAtom (g : Guard) (op : AtomOp) (d : Field) (m : ArrOp AtW) (v : Field) (s : State) : Host.Outcome State Fault Refusal :=
  match Use.wordOf m with
  | some w => atomCourse (.atom g op d m v) m.k m.x (arrOff m) w (fun s t => t.opReq s op w false v) s
  | none => issue (.atom g op d m v) 1 (fun act _ => trapAll act Cause.ill) s

def execRed (g : Guard) (op : AtomOp) (m : ArrOp AtW) (v : Field) (s : State) : Host.Outcome State Fault Refusal :=
  match Use.wordOf m with
  | some w => atomCourse (.red g op m v) m.k m.x (arrOff m) w (fun s t => t.opReq s op w true v) s
  | none => issue (.red g op m v) 1 (fun act _ => trapAll act Cause.ill) s

def execCas (g : Guard) (d : Field) (k : Nat) (x : Field) (off : BitVec 32) (w : AtW) (new cmp : Field) (s : State) :
    Host.Outcome State Fault Refusal :=
  atomCourse (.cas g d k x off w new cmp) k x off.toInt w (fun s t => t.casReq s w new cmp) s

/-- `ATOMS` and `CASS`: the checks of R277 on the workgroup's scratchpad, or on that of a peer (R255). -/
def scratchCourse (i : Instr) (x : Field) (off : Int) (w : AtW) (mk : State → Thread → AtomReq) (s : State) : Host.Outcome State Fault Refusal :=
  issue i 1 (fun act s =>
    let wid := match w.peer with
      | some c => s.peerWg c
      | none => some s.issue.wid
    let n := nBytes w.size
    if s.orderHolds act (atOrd w) then .hold
    else s.viaScratch act x off n n wid (some true) fun l s =>
      s.atomAll i (l.map fun e => ⟨e.1, arrOf 0, .scr (wid.getD 0) e.2⟩) [] w (mk s)) s

def scratchOff : SForm → Int
  | .s96 o => o.toInt
  | .s128 o => o.toInt

def execAtoms (g : Guard) (op : AtomOp) (d x : Field) (f : SForm) (w : AtW) (v : Field) (s : State) : Host.Outcome State Fault Refusal :=
  scratchCourse (.atoms g op d x f w v) x (scratchOff f) w (fun s t => t.opReq s op w false v) s

def execCass (g : Guard) (d x : Field) (off : BitVec 32) (w : AtW) (new cmp : Field) (s : State) : Host.Outcome State Fault Refusal :=
  scratchCourse (.cass g d x off w new cmp) x off.toInt w (fun s t => t.casReq s w new cmp) s

/-! ### FENCE (R344, R323) -/

/-- `FENCE` holds each active lane until its release part and then its acquire part are complete. -/
def execFence (g : Guard) (o : Order) (sc : Scope) (remote : Bool) (s : State) : Host.Outcome State Fault Refusal :=
  issue (.fence g o sc remote) 1 (fun act s =>
    .ok (s.setThreads s.issue.wid act fun _ t => t.waitAt s.issue.pc (.fence o sc remote 0))) s

/-- The eager drain of a release fence at `.CLU` or wider, once R321 holds (R326, R331). -/
def execEagerDrainComplete (wid t : Nat) (s : State) : Host.Outcome State Fault Refusal :=
  .next (match (s.thread wid t).hold with
    | .fence o sc remote 0 =>
      if (o == .rel || o == .acqrel) && coreWide sc && s.releaseReady wid t true then
        (s.drainCore (s.wg wid).core).setThread wid t fun x => { x with hold := .fence o sc remote 1 }
      else s
    | _ => s)

/-- The promotion of a `FENCE` with `.REMOTE`: every slice orders a drain of every core in its table, and answers when they are done
(R329). The stages are 0 before the release part, 1 after it, 2 while the slices drain, 3 when all have answered. -/
def execRemotePromotion (wid t : Nat) (s : State) : Host.Outcome State Fault Refusal :=
  let who : Nat × Nat × Option Nat := (wid, t, none)
  .next (match (s.thread wid t).hold with
    | .fence o sc true stage =>
      if stage = 1 && !((s.thread wid t).prods.any fun p => p.work.isAccess) && !s.ticketsOut wid t then
        let s1 := s.slices.keys.foldl (fun s n =>
          if s.sliceUp n then
            (dedup ((s.slice n).records.map fun e => e.2.map RecSlot.core).flatten).foldl (fun s c => s.orderDrain n c (some who)) s
          else s) s
        s1.setThread wid t fun x => { x with hold := .fence o sc true (if s1.draining who then 2 else 3) }
      else if stage = 2 && !s.draining who then
        s.setThread wid t fun x => { x with hold := .fence o sc true 3 }
      else s
    | _ => s)

/-! ### WAITA (R345 to R347) -/

/-- The condition of a wait on an n-byte value. -/
def waitHolds (c : WCond) (n v b : Nat) : Bool :=
  match c with
  | .eq => v == b
  | .ne => v != b
  | .ge => decide (sext b (8 * n) ≤ sext v (8 * n))
  | .geu => decide (b ≤ v)

def execWaita (g : Guard) (d : Field) (k : Nat) (x b : Field) (off : BitVec 32) (w : WaW) (s : State) : Host.Outcome State Fault Refusal :=
  issue (.waita g d k x b off w) 1 (fun act s =>
    let n := nBytes w.size
    let v : Via := ⟨k, x, off.toInt, n, false⟩
    if s.orderHolds act ⟨w.order, w.scope⟩ then .hold
    else if act.any fun t => (s.iwg.array t k).space != 0 then trapAll act Cause.ill
    else s.viaArray act v false false fun good bad s =>
      let till := if w.timeout = 0 then none else some (s.clk + Config.clkPerUs * w.timeout)
      let give := fun (t : Thread) =>
        let t1 := if Use.regsOf w.size = 2 then t.writeN d 2 0 else t.write d 0 full
        match w.stat with
        | some p => t1.setPred p false
        | none => t1
      let s1 := s.setThreads s.issue.wid bad fun _ t => give t
      .ok (good.foldl (fun s e => match e.spot with
        | .glob va =>
          let r : Req := { va := va, size := n, sgn := false, xs := false, near := e.a.near, svc := e.a.svc, order := w.order, scope := w.scope,
                           remote := w.remote }
          s.iset e.t fun t => t.waitAt s.issue.pc
            (.waita r w.cond (t.wide b (Use.regsOf w.size)) d (Use.regsOf w.size) till w.stat false s.clk none s.origin)
        | _ => s) s1)) s

/-- A wait ends: the value, when there is one, and the status predicate. -/
def Thread.waitEnd (t : Thread) (d : Field) (n : Nat) (v : Option Nat) (stat : Option Nat) (ok : Bool) (len : Nat) : Thread :=
  let t1 := match v with
    | none => t
    | some v => if n = 2 then t.writeN d 2 v else t.write d (.ofNat 32 v) full
  let t2 := match stat with
    | some p => t1.setPred p ok
    | none => t1
  t2.resume len

/-- A lane enters the monitor entries of its lines; when a slice has none free it polls (R347). -/
def State.watch (s : State) (w t : Nat) (lines : List (Nat × Nat)) : State × Bool :=
  let enter := fun (s : State) (e : Nat × Nat) =>
    let m := (s.slice e.1).monitors
    if m.has e.2 || m.length < Config.monitors then
      some (s.setSlice e.1 fun x => { x with monitors := x.monitors.update e.2 [] fun l => if l.contains (w, t) then l else l ++ [(w, t)] })
    else none
  match lines.foldl (fun (o : Option State) e => o.bind fun s => enter s e) (some s) with
  | some s1 => (s1, true)
  | none => (s, false)

/-- One read of a wait: a piece of the value at the coherent level (R332); with the last, the end of the wait, a monitor entry, or the next poll. -/
def State.waitRead (s : State) (w t : Nat) : State :=
  let g := s.wg w
  let c := g.core
  let x := g.thread t
  match x.hold with
  | .waita r cond b d n till stat mon next _ o =>
    let ctx := s.ctx g.ctx
    let o' : Ord := ⟨r.order, r.scope⟩
    let lines := (linesOf r).filterMap fun l => (ctx.resolve .rd (128 * l)).map fun a => (s.home a, lineOf a.gia)
    let cover := lines.findSome? fun e => s.orderCover e.1 e.2 c o' r.remote (w, t, none)
    if x.busyAt ctx r.va r.size || s.redBlocks w t r.va r.size then s
    else match cover with
    | some s1 => s1
    | none =>
      let fail := fun (cause va : Nat) =>
        ((s.setThread w t fun x => x.waitEnd d n none stat false o.len).reportLane w t ⟨cause, 0, va, o⟩).unmonitor (· == (w, t))
      let done := fun (s : State) (got : NMap Byte) =>
        let v := ofBytes ((List.range r.size).map fun i => got.getD i 0)
        let due := match till with
          | some q => decide (q ≤ s.clk)
          | none => false
        if waitHolds cond r.size v b then
          let s1 := s.setThread w t fun x => x.waitEnd d n (some v) stat true o.len
          (if o'.acq then s1.acquire c r.scope else s1).unmonitor (· == (w, t))
        else if due then (s.setThread w t fun x => x.waitEnd d n (some v) stat false o.len).unmonitor (· == (w, t))
        else
          let (s1, m) := s.watch w t lines
          s1.setThread w t fun x =>
            { x with hold := .waita { r with got := [] } cond b d n till stat m (if m then s.clk else s.clk + 2200) none o }
      let left := (s.loadLeft g.ctx r r.got)
      let (k, s0) := s.pick left.length
      let pc := left.getD k ⟨r.va, 0, 0⟩
      let give := fun (s : State) (d' : Nat → Byte) =>
        let got := (List.range pc.2.2).foldl (fun m i =>
          m.set (pc.2.1 + i) ((s.ownByte w t (pc.1 + i)).getD (d' ((pc.1 + i) % 128)))) r.got
        if got.length = r.size then done s got
        else s.setThread w t fun x => { x with hold := .waita { r with got := got } cond b d n till stat false next none o }
      match s0.readCoherent c g.ctx pc.1 r.near with
      | .hit e => give s0 e
      | .bytes s1 e => give (s1.late c g.kernel (if mon then s.clk else next) r.svc) e
      | .wait s1 p => s1.setThread w t fun x => { x with hold := .waita r cond b d n till stat mon next (some p) o }
      | .page => fail Cause.page r.va
      | .ue => fail Cause.ue (pc.1 / 128 * 128)
      | .tier s1 => (s1.setThread w t fun x => x.waitEnd d n (some 0) stat false o.len).unmonitor (· == (w, t))
  | _ => s

/-- A read of a waiting lane: after a wake, and every 2,200 clk where no monitor entry holds it. -/
def execWaitaPoll (wid t : Nat) (s : State) : Host.Outcome State Fault Refusal :=
  .next (match (s.thread wid t).hold with
    | .waita _ _ _ _ _ _ _ mon next _ _ => if !mon && next ≤ s.clk then s.waitRead wid t else s
    | _ => s)

/-- The read after the timeout of a wait, which ends it. -/
def execWaitaTimeout (wid t : Nat) (s : State) : Host.Outcome State Fault Refusal :=
  .next (match (s.thread wid t).hold with
    | .waita _ _ _ _ _ (some q) _ _ _ _ _ => if q ≤ s.clk then s.waitRead wid t else s
    | _ => s)

/-! ### LINE.CLR (R362, R363) -/

def execLineClr (g : Guard) (m : ArrOp Unit) (s : State) : Host.Outcome State Fault Refusal :=
  issue (.lineClr g m) 1 (fun act s =>
    let v : Via := ⟨m.k, m.x, arrOff m, 128, false⟩
    let at_ := fun t => ((s.parts v act).find? fun p => p.lanes.contains t).elim 0 fun p => s.elemAddr v p t
    if s.orderHolds act .relaxed then .hold
    else if act.any fun t => (s.iwg.array t m.k).space != 0 then trapAll act Cause.ill
    else (failing act (fun t => at_ t % 128 != 0) Cause.align fun t => trunc (at_ t) 64).getD
      (s.viaArray act v true false fun good _ s =>
        let vas := good.filterMap fun e => match e.spot with
          | .glob va => some (e.t, (⟨va, 128, false, false, e.a.near, e.a.svc, .none, .gang, false, none, false, s.clk, []⟩ : Req))
          | _ => none
        match vas.filter fun e => (s.ictx.resolve .wr e.2.va).isNone with
        | e :: l => .trapIn s { cause := Cause.page, mask := (e :: l).map Prod.fst, addr := e.2.va }
        | [] => .ok (vas.foldl (fun s e => s.iset e.1 fun t => t.waitAt s.issue.pc (.lineClr e.2 none s.origin)) s))) s

/-- The lanes of an issue group that wait to clear one line, near-only or not. -/
def Wg.clearing (g : Wg) (k va : Nat) (near : Bool) (o : Origin) : List Nat :=
  (g.threads.filter fun u => slotOf u.1 == k && (match u.2.hold with
    | .lineClr r _ o' => r.va == va && r.near == near && o' == o
    | _ => false)).map Prod.fst

/-- The clear of a line at its home, once for the lanes of a group that name it, when their earlier accesses to it are performed. -/
def State.clearLine (s : State) (w t : Nat) : State :=
  let g := s.wg w
  match (g.thread t).hold with
  | .lineClr r _ o =>
    let va := r.va
    let near := r.near
    let ls := g.clearing (slotOf t) va near o
    let done := fun (s : State) => s.setThreads w ls fun _ x => x.settle o
    let fail := fun (s : State) (cause : Nat) => ls.foldl (fun s u => s.reportLane w u ⟨cause, 0, va, o⟩) (done s)
    match (s.ctx g.ctx).resolve .wr va with
    | none => fail s Cause.page
    | some a =>
      if ls.any fun u => (g.thread u).busyAt (s.ctx g.ctx) va 128 || s.sidedAt w u a.gia 128 || s.fetching w u (lineOf a.gia) r.start then s
      else match s.ask g.ctx g.core a .wr near true false false with
        | .fail => fail s Cause.page
        | .dead => fail s Cause.ue
        | .wait s1 p => s1.setThreads w ls fun _ x => { x with hold := .lineClr r (some p) o }
        | .tier s1 => done s1
        | .go s1 =>
          let gl := lineOf a.gia
          let s2 := ((s1.late g.core g.kernel r.start r.svc).flushLine g.core gl).writeHome a
          if s2.isPoison gl && s2.owner a.gia != some g.ctx then fail s2 Cause.ue
          else done (s2.putHome gl (some g.ctx) (lineMap []))
  | _ => s

end Sys2Proof.Machine
end

