-- ==== Sys2Proof/Machine/Health.lean ====
section
/-!
DEFINITION. Health events (spec/20_power.md R514), the wake of a device that is in a power state (R511, R512), and the recovery state of the
firmware (R520).
-/
namespace Sys2Proof.Machine
open Sys2Proof

/-- The four health bits. -/
inductive Hlth | unit | thermal | peer | channel
deriving DecidableEq, Repr

def Hlth.get (k : Hlth) (r : Regs0) : Bool :=
  match k with
  | .unit => r.hUnit
  | .thermal => r.hThermal
  | .peer => r.hPeer
  | .channel => r.hChannel

def Hlth.set (k : Hlth) (r : Regs0) (b : Bool) : Regs0 :=
  match k with
  | .unit => { r with hUnit := b }
  | .thermal => { r with hThermal := b }
  | .peer => { r with hPeer := b }
  | .channel => { r with hChannel := b }

/-- Set a health bit; vector 0 is signalled when it was 0. -/
def State.health (s : State) (k : Hlth) : State :=
  let s1 := { s with regs := k.set s.regs true }
  if k.get s.regs then s1 else s1.signal 0

/-- The pseudo-die of a stack that holds frame range L of 16 (R512). -/
def dieFrames (f l : Nat) : Nat × Nat := (l * f / 16, (l + 1) * f / 16 - l * f / 16)

/-- Frames of a range that are not retired. -/
def Pool.live (p : Pool) (lo n : Nat) : Nat :=
  n - (p.table.filter fun e => lo ≤ e.1 && e.1 < lo + n && e.2.getLsbD 17).length

/-- A memory event is reported to the host (R512). -/
def State.cxlEvent (s : State) (add : Bool) (d : Nat) : State :=
  let (lo, n) := dieFrames (s.pool (d / 16)).size (d % 16)
  { s with cxlEvents := s.cxlEvents ++ [⟨add, d / 16, lo, n⟩] }

/-- A DRAM die is powered on again, and its frames return to the free list, which a hot-add event reports. -/
def State.dieOn (s : State) (d : Nat) : State :=
  (s.cxlEvent true d).setPool (d / 16) fun p =>
    let (lo, n) := dieFrames p.size (d % 16)
    let q := { p with free := (lo, n) :: p.free, frames := p.frames + p.live lo n }
    p.table.foldl (fun (q : Pool) e => if lo ≤ e.1 && e.1 < lo + n && e.2.getLsbD 17 then q.remove e.1 1 else q) q

/-- Exit latency of a state in µs (R509). -/
def exitLatency : Nat → Nat
  | 0 => 0 | 1 => 1 | 2 => 50 | 3 => 2000 | _ => 200000

/-- A wake event returns the device to ACTIVE: an entry stops where it stands, the dies are powered on, and the device leaves the state for no
longer than its exit latency. -/
def State.wakeUp (s : State) : State :=
  let n := max s.power.state s.power.goal
  if n = 0 then s
  else
    let s1 := s.power.off.foldl (fun s d => s.dieOn d) s
    { s1 with power := { s1.power with state := 0, moving := true, goal := 0, due := s.clk + exitLatency n * Config.clkPerUs, off := [] } }

/-- The device has left the state. -/
def State.awake (s : State) : State := { s with power := { s.power with moving := false } }

/-- It has at its exit latency's end. -/
def State.awakeDue (s : State) : State := if s.power.moving && s.power.goal == 0 && s.power.due ≤ s.clk then s.awake else s

/-- A host write to BAR0: it wakes the device (R511), and the fixed loader ignores it (R520). -/
def State.hostWrite (s : State) (f : State → State) : State := if s.inRecovery then s else f s.wakeUp

end Sys2Proof.Machine
end

