-- ==== Sys2Proof/Machine/MemEv.lean ====
section
/-!
DEFINITION. Steps of memory: write-backs, release records and drains (spec/12_ordering.md R314, R324 to R328), the service of loads (R327,
spec/17_page.md R451), grants and the siding (R455, R456).
-/
namespace Sys2Proof.Machine
open Sys2Proof

/-! ### L1 and records -/

/-- The L1 writes a line back, or evicts a clean line that nothing reserves; a line held for its record stays. -/
def execL1WriteBack (core line : Nat) (s : State) : Host.Outcome State Fault Refusal :=
  .next (let l := s.l1 core line
    if l.held.isSome then s
    else if l.dirty = [] then (if l.resv = [] then s.dropClean core line else s)
    else s.writeBack core line)

/-- The record of a release store arrives at the slice: registered, or refused, so that the core drains (R325, R328, R330). -/
def execRecordRegister (core line : Nat) (s : State) : Host.Outcome State Fault Refusal :=
  .next (if (s.l1 core line).held.isSome then s.endHold core line else s)

def execDrainComplete (slice core : Nat) (s : State) : Host.Outcome State Fault Refusal :=
  .next (match (s.core core).drains.find? fun d => d.slice == slice with
    | some d => s.finishDrain d core
    | none => s)

/-! ### Loads -/

/-- An acquire that is performed at the home slice: global, and `.CLU` or wider (R323). -/
def Req.atHome (r : Req) : Bool := Use.hasAcq r.order && coreWide r.scope

/-- The covering drains of an acquire are ordered first, for the lanes of the issue group that ask for the same lines together; then the line is
read at the coherent level, and the core drops its clean bytes (R316, R322, R327). -/
def State.acquireLoad (s : State) (w t : Nat) (p : Prod) (r : Req) (got : NMap Byte) : State :=
  let g := s.wg w
  let lead := (s.together w p.born fun q => match q with
    | .load r' _ => r'.va / 128 == r.va / 128
    | _ => false).headD (t, p)
  let cover := (linesOf r).findSome? fun l => ((s.ctx g.ctx).resolve .rd (128 * l)).bind fun a =>
    s.orderCover (s.home a) (lineOf a.gia) g.core ⟨r.order, r.scope⟩ r.remote (w, lead.1, some lead.2.seq)
  match cover with
  | some s1 => s1
  | none => s.serveLoad w t p r got (fun s l _ => s.readCoherent g.core g.ctx (128 * l) r.near) fun s => s.acquire g.core r.scope

def execAcquireAtHome (wid t seq : Nat) (s : State) : Host.Outcome State Fault Refusal :=
  .next (match (s.thread wid t).prod? seq with
    | none => s
    | some p => match p.work with
      | .load r got => if r.atHome then s.acquireLoad wid t p r got else s
      | _ => s)

/-- The request of a load: the L1 answers for the bytes that it holds, and the home slice for the others. -/
def State.plainLoad (s : State) (w t : Nat) (p : Prod) (r : Req) (got : NMap Byte) : State :=
  let g := s.wg w
  s.serveLoad w t p r got (fun s l need => s.readLine g.core g.ctx (128 * l) need r.near) id

def execTranslateRequest (wid t seq : Nat) (s : State) : Host.Outcome State Fault Refusal :=
  .next (match (s.thread wid t).prod? seq with
    | none => s
    | some p => match p.work with
      | .load r got => if r.atHome then s else s.plainLoad wid t p r got
      | _ => s)

/-! ### Grants and the siding -/

def Side.addr (e : Side) : GAddr := ⟨e.gia, e.ilv, e.set⟩

def State.dropSide (s : State) (core id : Nat) : State :=
  s.setCore core fun x => { x with siding := x.siding.filter fun e => e.id != id }

def State.sideTo (s : State) (core id : Nat) (st : SState) : State :=
  s.setCore core fun x => { x with siding := listSet x.siding (fun e => e.id == id) fun e => { e with state := st } }

def State.failSide (s : State) (core : Nat) (e : Side) : State := (s.dropSide core e.id).storeFails e.wid e.t e.kernel e.va e.handler

/-- The page of an IA lies in the far tier. -/
def State.isFar (s : State) (gia : Nat) : Bool :=
  match s.pteAt (iaOf gia) with
  | some (pa, _) => peerOf gia = 0 && Pte.tier (s.pte pa) == 1
  | none => false

/-- The home slice answers the request for a grant; an entry that waits for the pager without one in the miss table asks again (R457). -/
def execGrantRequest (core id : Nat) (s : State) : Host.Outcome State Fault Refusal :=
  .next (match (s.core core).siding.find? fun e => e.id == id with
    | none => s
    | some e =>
      if e.state = .replay || (e.state = .pager && s.entered e.addr) then s
      else match s.ask e.ctx core e.addr .wr e.near true false false with
        | .go s1 => (s1.addGrant core ⟨(s1.pageOf e.gia).1, e.ctx, s1.isFar e.gia⟩).sideTo core id .replay
        | .wait s1 _ => s1.sideTo core id .pager
        | .fail => s.failSide core e
        | .tier s1 => s1.dropSide core id
        | .dead => s.dropSide core id)

/-- A reduction replays at its line's home. -/
def State.replayRed (s : State) (core : Nat) (e : Side) (a : AtomReq) : State :=
  let o : Ord := ⟨if e.rel.isSome then .rel else .none, e.rel.getD .gang⟩
  let report := fun (cause va : Nat) => let s1 := s.dropSide core e.id
    if (s.thread e.wid e.t).live then s1.reportFrom e.wid e.t e.handler ⟨cause, 0, va, a.orig⟩ else s1
  match s.atomLine core e.ctx e.va e.near o false false [(e.va, a)] (e.wid, e.t, none) with
  | .done s1 _ => (s1.late core e.kernel e.born e.svc).dropSide core e.id
  | .wait s1 _ => s1.sideTo core e.id .pager
  | .later s1 => s1
  | .refused s1 => s1.setCore core fun x => { x with siding := listSet x.siding (fun f => f.id == e.id) fun f => { f with rel := none } }
  | .tier s1 => s1.dropSide core e.id
  | .dead => s.dropSide core e.id
  | .page => s.failSide core e
  | .ue => report Cause.ue (e.va / 128 * 128)
  | .align => report Cause.align e.va

/-- Bytes of an entry that lower lanes of the same instruction wrote are performed before it (R265, R342). -/
def State.sideBlocked (s : State) (core : Nat) (e : Side) : Bool :=
  ((s.core core).siding.any fun f => f.wid == e.wid && f.t < e.t && lineOf f.gia == lineOf e.gia && f.marks.any e.marks.contains &&
    f.bytes.any fun b => e.bytes.has b.1) ||
  e.marks.any fun m => e.bytes.any fun b => (s.wg e.wid).pendingBelow (s.ctx e.ctx) e.t (e.va / 128 * 128 + b.1) 1 m

/-- The oldest entry of a thread replays: a store in the L1 under a grant, a reduction at its home (R456). -/
def execSidingReplay (core id : Nat) (s : State) : Host.Outcome State Fault Refusal :=
  .next (match (s.core core).siding.find? fun e => e.id == id with
    | none => s
    | some e =>
      let oldest := ((s.core core).siding.find? fun f => f.wid == e.wid && f.t == e.t).map Side.id == some id
      if e.state ≠ .replay || !oldest || s.sideBlocked core e || s.fetching e.wid e.t (lineOf e.gia) (e.marks.headD 0) then s
      else match s.grantOf core e.ctx e.gia with
        | none => s.sideTo core id .grant
        | some gr =>
          if e.near && gr.far then (s.postTier e.addr e.ctx core true false false).dropSide core id
          else match e.red with
            | some a => (s.touchGrant core gr).replayRed core e a
            | none =>
              ((((s.touchGrant core gr).l1Store core e.ctx e.addr e.bytes).holdLine core (lineOf e.gia) e.rel).late core e.kernel e.born
                e.svc).dropSide core id)

end Sys2Proof.Machine
end

