-- ==== Sys2Proof/Machine/Books.lean ====
section
/-!
DEFINITION. Codebooks that a core holds for a kernel (spec/03_numbers.md R86, spec/09_vector.md R250).
-/
namespace Sys2Proof.Machine
open Sys2Proof

/-- The VA of the codebook of a format slot (R82). -/
def Krec.codebook (r : BitVec 2048) (k : Nat) : Nat := Krec.fslot r k / 2 ^ 64 % 2 ^ 57
/-- The tensor scale of a format slot. -/
def Krec.tensor (r : BitVec 2048) (k : Nat) : Word := .ofNat 32 (Krec.fslot r k / 2 ^ 32)

def Core.book (c : Core) (h k : Nat) : Option (List Byte) := (c.books.find? fun b => b.1 == h && b.2.1 == k).map fun b => b.2.2

/-- How the read of a codebook stands: its bytes; a wait on the pager for a page; PAGE; UE at a line. -/
inductive BookAns
  | bytes (s : State) (l : List Byte)
  | miss (s : State) (page : Nat)
  | page (s : State)
  | ue (va : Nat)
deriving DecidableEq, Repr

/-- Read the eight lines of a codebook for a core. -/
def State.readBook (s : State) (c ctx va : Nat) : BookAns :=
  (List.range 8).foldl (fun r i => match r with
    | .bytes s l =>
      let v := va + 128 * i
      match (s.ctx ctx).resolve .rd v with
      | none => .page s
      | some a => match s.ask ctx c a .rd false false false false with
        | .go s1 =>
          if s1.isPoison (lineOf a.gia) then .ue v
          else let (s2, d) := s1.cohRead c a; .bytes s2 (l ++ d)
        | .wait s1 pg => .miss s1 pg
        | .fail => .page s
        | .tier s1 => .page s1
        | .dead => .ue v
    | r => r) (.bytes s [])

/-- The byte that the coherent level holds at an IA, without an access. -/
def State.peek (s : State) (gia : Nat) : Byte :=
  match s.ownerCopy (lineOf gia) with
  | some (_, v) => if v.dirty then v.data.getD (gia % 128) 0 else (s.homeLine (lineOf gia)).getD (gia % 128) 0
  | none => (s.homeLine (lineOf gia)).getD (gia % 128) 0

/-- An entry of a held codebook.  Where memory has changed since the read, the entry used is the old or the new one, by a free choice; memory
that cannot be read holds no new one (R86, notes/assumptions/3.md). -/
def State.bookEntry (s : State) (ctx va : Nat) (book : List Byte) (idx : Nat) : Nat :=
  let old := ofBytes ((book.drop (4 * idx)).take 4)
  let new := match (s.ctx ctx).resolve .rd (va + 4 * idx) with
    | some a => if s.sliceUp (s.home a) && s.reachable a.gia && !s.isPoison (lineOf a.gia) then ofBytes ((List.range 4).map fun i => s.peek (a.gia + i)) else old
    | none => old
  if new = old then old else if Config.freeChoice (s.freeCtr + idx) then new else old

/-- The free choices of one use of a codebook are spent. -/
def State.spendBook (s : State) : State := { s with freeCtr := s.freeCtr + 256 }

end Sys2Proof.Machine
end

