-- ==== Sys2Proof/Machine/Flags.lean ====
section
/-!
DEFINITION. Conditions and intervals.  The manual has no status flags: what takes their place are the predicates that compares write
(spec/08_thread.md R200, R216) and the interval that each X destination receives (R192 to R195, R211, R213, R214, R219).
-/
namespace Sys2Proof.Machine
open Sys2Proof

/-! ### Conditions -/

/-- The truth of a condition of `BRC`, `ICMP` (signed) on two patterns. -/
def condHolds (c : Cond) (a b : Word) : Bool :=
  match c with
  | .eq => a == b
  | .ne => a != b
  | .lt => a.toInt < b.toInt
  | .le => a.toInt ≤ b.toInt
  | .gt => b.toInt < a.toInt
  | .ge => b.toInt ≤ a.toInt
  | .ltu => a.toNat < b.toNat
  | .geu => b.toNat ≤ a.toNat

/-- The unsigned comparison of `ICMPU` (R216). -/
def condHoldsU (c : Cond) (a b : Word) : Bool :=
  match c with
  | .eq => a == b
  | .ne => a != b
  | .lt | .ltu => a.toNat < b.toNat
  | .le => a.toNat ≤ b.toNat
  | .gt => b.toNat < a.toNat
  | .ge | .geu => b.toNat ≤ a.toNat

def condOpp : Cond → Cond
  | .eq => .ne | .ne => .eq | .lt => .ge | .ge => .lt | .le => .gt | .gt => .le | .ltu => .geu | .geu => .ltu

/-! ### Intervals -/

/-- R192: an interval that does not lie inside the signed 32-bit range becomes FULL. -/
def clip (e : Intv) : Intv := if e.lo < -2147483648 ∨ 2147483647 < e.hi then full else e

def minOf (l : List Int) : Int := match l with
  | [] => 0
  | a :: l => l.foldl min a
def maxOf (l : List Int) : Int := match l with
  | [] => 0
  | a :: l => l.foldl max a

/-- The corner products P of R211. -/
def corners (a b : Intv) : List Int := [a.lo * b.lo, a.lo * b.hi, a.hi * b.lo, a.hi * b.hi]

def absIv (e : Intv) : Intv :=
  if 0 ≤ e.lo then e else if e.hi ≤ 0 then ⟨-e.hi, -e.lo⟩ else ⟨0, max (-e.lo) e.hi⟩

def addIv (a b : Intv) : Intv := ⟨a.lo + b.lo, a.hi + b.hi⟩
def subIv (a b : Intv) : Intv := ⟨a.lo - b.hi, a.hi - b.lo⟩
def mulIv (a b : Intv) : Intv := ⟨minOf (corners a b), maxOf (corners a b)⟩
def mulhIv (a b : Intv) : Intv := ⟨minOf (corners a b) / 2 ^ 32, maxOf (corners a b) / 2 ^ 32⟩
def minIv (a b : Intv) : Intv := ⟨min a.lo b.lo, min a.hi b.hi⟩
def maxIv (a b : Intv) : Intv := ⟨max a.lo b.lo, max a.hi b.hi⟩

/-- Interval of `IMINU` and `IMAXU` (R211). -/
def minuIv (a b : Intv) : Intv :=
  if 0 ≤ a.lo ∧ 0 ≤ b.lo then minIv a b else if 0 ≤ a.lo then ⟨0, a.hi⟩ else if 0 ≤ b.lo then ⟨0, b.hi⟩ else full
def maxuIv (a b : Intv) : Intv := if 0 ≤ a.lo ∧ 0 ≤ b.lo then maxIv a b else full

/-- Interval of `AND` (R213). -/
def andIv (a b : Opd) : Intv :=
  let ka := a.known ∧ 0 ≤ a.val.toInt
  let kb := b.known ∧ 0 ≤ b.val.toInt
  if ka ∧ kb then ⟨0, min a.val.toInt b.val.toInt⟩
  else if ka then ⟨0, a.val.toInt⟩
  else if kb then ⟨0, b.val.toInt⟩
  else full

/-- The count interval S of R213. -/
def countIv (b : Opd) : Option Intv :=
  if b.known then some (point (b.val.toNat % 32 : Nat))
  else if 0 ≤ b.iv.lo ∧ b.iv.hi ≤ 31 then some b.iv else none

/-- The corners of a shift: each end of a with each end of S. -/
def shiftIv (f : Int → Nat → Int) (a s : Intv) : Intv :=
  let l := [f a.lo s.lo.toNat, f a.lo s.hi.toNat, f a.hi s.lo.toNat, f a.hi s.hi.toNat]
  ⟨minOf l, maxOf l⟩

def shlIv (a b : Opd) : Intv :=
  match countIv b with
  | some s => shiftIv (fun x y => x * 2 ^ y) a.iv s
  | none => full
def shrIv (a b : Opd) : Intv :=
  match countIv b with
  | some s =>
    if 0 ≤ a.iv.lo then shiftIv (fun x y => x / 2 ^ y) a.iv s
    else if 1 ≤ s.lo then ⟨0, 2 ^ (32 - s.lo.toNat) - 1⟩ else full
  | none => full
def sarIv (a b : Opd) : Intv :=
  match countIv b with
  | some s => shiftIv (fun x y => x / 2 ^ y) a.iv s
  | none => full

/-- The width field of `BFE` and `BFI` (R214). -/
def fieldW (b : Word) : Nat := min (b.toNat / 256 % 64) 32

/-- Interval of `BFE` (R214). -/
def bfeIv (sgn : Bool) (b : Opd) : Intv :=
  let m := fieldW b.val
  if !b.known then full
  else if sgn then (if 1 ≤ m then ⟨-(2 ^ (m - 1)), 2 ^ (m - 1) - 1⟩ else full)
  else if m ≤ 31 then ⟨0, 2 ^ m - 1⟩ else full

def clampIv (a b c : Intv) : Intv := ⟨min (max a.lo b.lo) c.lo, min (max a.hi b.hi) c.hi⟩

/-- The union of intervals (R73, R221). -/
def unionIv (l : List Intv) : Intv := ⟨minOf (l.map Intv.lo), maxOf (l.map Intv.hi)⟩

/-- The refined intervals of a and b when a relation holds (R194). -/
def refine (c : Cond) (a b : Intv) : Intv × Intv :=
  match c with
  | .eq => let e : Intv := ⟨max a.lo b.lo, min a.hi b.hi⟩; (e, e)
  | .ne =>
    let cut := fun (e : Intv) (k : Int) => (⟨if e.lo = k then k + 1 else e.lo, if e.hi = k then k - 1 else e.hi⟩ : Intv)
    (if b.lo = b.hi then cut a b.lo else a, if a.lo = a.hi then cut b a.lo else b)
  | .lt => (⟨a.lo, min a.hi (b.hi - 1)⟩, ⟨max b.lo (a.lo + 1), b.hi⟩)
  | .le => (⟨a.lo, min a.hi b.hi⟩, ⟨max b.lo a.lo, b.hi⟩)
  | .gt => (⟨max a.lo (b.lo + 1), a.hi⟩, ⟨b.lo, min b.hi (a.hi - 1)⟩)
  | .ge => (⟨max a.lo b.lo, a.hi⟩, ⟨b.lo, min b.hi a.hi⟩)
  | .ltu =>
    if 0 ≤ b.lo then (⟨max a.lo 0, min a.hi (b.hi - 1)⟩, if 0 ≤ a.lo then ⟨max b.lo (a.lo + 1), b.hi⟩ else b) else (a, b)
  | .geu => if 0 ≤ a.lo ∧ 0 ≤ b.lo then (⟨max a.lo b.lo, a.hi⟩, ⟨b.lo, min b.hi a.hi⟩) else (a, b)

/-- Refinement writes the interval of a main-tier X register, and nothing else (R195). -/
def Thread.setIv (t : Thread) (f : Field) (iv : Intv) : Thread :=
  match f.tier, f.cls with
  | .main, .x => t.setCur fun r => r.setX f.idx { r.getX f.idx with iv := iv }
  | _, _ => t

def meet (a b : Intv) : Intv := ⟨max a.lo b.lo, min a.hi b.hi⟩

/-- Refine both operands of `BRC`; one register named twice receives the intersection (R195). -/
def Thread.refineBoth (t : Thread) (c : Cond) (a : Field) (ia : Intv) (b : Option Field) (ib : Intv) : Thread :=
  let (na, nb) := refine c ia ib
  match b with
  | none => t.setIv a na
  | some f =>
    if f.tier = .main ∧ a.tier = .main ∧ f.cls = .x ∧ a.cls = .x ∧ f.idx = a.idx then t.setIv a (meet na nb)
    else (t.setIv a na).setIv f nb

end Sys2Proof.Machine
end

