-- ==== Sys2Proof/Machine/Control.lean ====
section
/-!
DEFINITION. Group 0x0, control (spec/08_thread.md R200 to R209).
-/
namespace Sys2Proof.Machine
open Sys2Proof

def State.issued (s : State) : Nat := s.issue.wid

/-- Each active lane goes to a PC of its own. -/
def State.goEach (s : State) (act : List Nat) (f : Thread → Nat) : State :=
  s.setThreads s.issue.wid act fun _ t => { t with pc := f t }

/-- `BLOCK_END` sends every thread to the following fetch block (R32). -/
def execBlockEnd (s : State) : Host.Outcome State Fault Refusal :=
  issue .blockEnd 1 (fun act s => .ok (s.goEach act fun _ => pcMask ((s.issue.pc / 32 + 1) * 32))) s

def execNop (g : Guard) (s : State) : Host.Outcome State Fault Refusal :=
  issue (.nop g) 1 (fun _ s => .ok s) s

def execBra (g : Guard) (off : Off) (s : State) : Host.Outcome State Fault Refusal :=
  issue (.bra g off) 1 (fun act s => .ok (s.goEach act fun _ => s.target (Off.val off))) s

/-- One lane of `BRC` (R202): compare, move, refine. -/
def Thread.brc (t : Thread) (c : Cond) (a : Field) (b : BrcB) (target : Int → Nat) : Thread :=
  let (va, ia) := t.read a
  let (vb, ib, f, off) := match b with
    | .reg f o => let (v, iv) := t.read f; (v, iv, some f, Off.val o)
    | .imm v o => (v, point v.toInt, none, o.toInt)
  let taken := condHolds c va vb
  let t1 := if taken then { t with pc := target off } else t
  t1.refineBoth (if taken then c else condOpp c) a ia f ib

def execBrc (g : Guard) (c : Cond) (a : Field) (b : BrcB) (s : State) : Host.Outcome State Fault Refusal :=
  issue (.brc g c a b) 1 (fun act s => .ok (s.setThreads s.issue.wid act fun _ t => t.brc c a b s.target)) s

def execBrp (g : Guard) (all : Bool) (p : Nat) (off : Off) (s : State) : Host.Outcome State Fault Refusal :=
  issue (.brp g all p off) 1 (fun act s =>
    let taken := if all then act.all fun t => (s.ithread t).pred p else act.any fun t => (s.ithread t).pred p
    .ok (if taken then s.goEach act fun _ => s.target (Off.val off) else s)) s

def execBrx (g : Guard) (a : Field) (off : BitVec 16) (s : State) : Host.Outcome State Fault Refusal :=
  issue (.brx g a off) 1 (fun act s => .ok (s.goEach act fun t => s.target ((t.val a).toInt + off.toInt))) s

/-- The checks of an absolute target (R34, R201), in the order of R478. -/
def targetTrap (s : State) (act : List Nat) (f : Field) : Option Res :=
  let v := fun t => (s.ithread t).pair f
  match failing act (fun t => v t % 4 != 0) Cause.align v with
  | some r => some r
  | none => failing act (fun t => v t ≥ 2 ^ 57) Cause.page v

def execBrxAbs (g : Guard) (a : Field) (s : State) : Host.Outcome State Fault Refusal :=
  issue (.brxAbs g a) 1 (fun act s => (targetTrap s act a).getD (.ok (s.goEach act fun t => t.pair a))) s

def execCall (g : Guard) (d : Field) (off : Off) (s : State) : Host.Outcome State Fault Refusal :=
  issue (.call g d off) 1 (fun act s => .ok (s.setThreads s.issue.wid act fun _ t =>
    { t.writeN d 2 s.nextPc with pc := s.target (Off.val off) })) s

def execCallx (g : Guard) (d a : Field) (s : State) : Host.Outcome State Fault Refusal :=
  issue (.callx g d a) 1 (fun act s => (targetTrap s act a).getD
    (.ok (s.setThreads s.issue.wid act fun _ t => { t.writeN d 2 s.nextPc with pc := t.pair a }))) s

def execRet (g : Guard) (a : Field) (s : State) : Host.Outcome State Fault Refusal :=
  issue (.ret g a) 1 (fun act s => (targetTrap s act a).getD (.ok (s.goEach act fun t => t.pair a))) s

/-- `JOIN` waits at the instruction that follows it (R161). -/
def execJoin (g : Guard) (s : State) : Host.Outcome State Fault Refusal :=
  issue (.join g) 1 (fun act s =>
    let at_ := s.issue.pc
    let start := fun (t : Nat) =>
      ((s.iwg.gangLive (s.iwg.gangOf t)).filterMap fun u => match (s.ithread u).hold with
        | .join _ b => some b
        | _ => none).foldl min s.clk
    let s1 := s.setThreads s.issue.wid act fun n t => { t with hold := .join at_ (start n) }
    .ok ((s.gangsOf act).foldl (fun s g => s.joinCheck s.issue.wid g false) s1)) s

def execExit (g : Guard) (s : State) : Host.Outcome State Fault Refusal :=
  issue (.exit g) 1 (fun act s =>
    .ok (act.foldl (fun s t => (s.exitThread s.issue.wid t).joinCheck s.issue.wid (s.iwg.gangOf t) false) s)) s

/-- `YIELD`: the slot leaves its window entry when the eligible set holds a slot (R208). -/
def execYield (g : Guard) (s : State) : Host.Outcome State Fault Refusal :=
  issue (.yield g) 1 (fun act s =>
    let b := s.issue.slot % 4
    let others := s.wgs.any fun e => e.2.core == s.issue.core && !e.2.ended &&
      e.2.slots.any fun k => k.1 % 4 == b && k.2.place == .eligible
    if act ≠ [] ∧ others = true then
      .ok (s.setWg s.issue.wid fun w => w.setSlot s.issue.slot fun x => { x with place := .eligible, since := s.clk })
    else .ok s) s

/-- `SLEEP` holds each active lane for n × 16 clk (R209); the thread stands at the instruction while it sleeps (R174). -/
def execSleep (g : Guard) (n : SleepN) (s : State) : Host.Outcome State Fault Refusal :=
  issue (.sleep g n) 1 (fun act s =>
    .ok (s.setThreads s.issue.wid act fun _ t =>
      let k := match n with
        | .imm v => v.toNat
        | .reg a => (t.val a).toNat % 2 ^ 16
      if k = 0 then t else t.waitAt s.issue.pc (.sleep (s.clk + 16 * k)))) s

end Sys2Proof.Machine
end

