-- ==== Sys2Proof/Machine/Integer.lean ====
section
/-!
DEFINITION. Group 0x1, integer arithmetic (spec/08_thread.md R210, R211).
-/
namespace Sys2Proof.Machine
open Sys2Proof

/-- Write a result: the value narrowed, the interval by R192. -/
def Thread.result (t : Thread) (d : Field) (v : Int) (e : Intv) : Thread := t.write d (toWord v) (clip e)

/-- Binary, unary and three-source operations. -/
def Thread.bin (t : Thread) (o : Alu2) (f : Opd → Opd → Int × Intv) : Thread :=
  let (v, e) := f (t.opd o.a) (t.opdB o.b)
  t.result o.d v e
def Thread.un (t : Thread) (o : Alu1) (f : Opd → Int × Intv) : Thread :=
  let (v, e) := f (t.opd o.a)
  t.result o.d v e
def Thread.tri (t : Thread) (o : Alu3) (f : Opd → Opd → Opd → Int × Intv) : Thread :=
  let (v, e) := f (t.opd o.a) (t.opdB o.b) (t.opd o.c)
  t.result o.d v e

def Opd.i (o : Opd) : Int := o.val.toInt
def Opd.u (o : Opd) : Nat := o.val.toNat

def execIadd (g : Guard) (o : Alu2) (s : State) : Host.Outcome State Fault Refusal :=
  perLane (.iadd g o) 1 (fun t => t.bin o fun a b => (a.i + b.i, addIv a.iv b.iv)) s

def execIsub (g : Guard) (o : Alu2) (s : State) : Host.Outcome State Fault Refusal :=
  perLane (.isub g o) 1 (fun t => t.bin o fun a b => (a.i - b.i, subIv a.iv b.iv)) s

def execImul (g : Guard) (o : Alu2) (s : State) : Host.Outcome State Fault Refusal :=
  perLane (.imul g o) 1 (fun t => t.bin o fun a b => (a.i * b.i, mulIv a.iv b.iv)) s

def execImulh (g : Guard) (u : Bool) (o : Alu2) (s : State) : Host.Outcome State Fault Refusal :=
  perLane (.imulh g u o) 1 (fun t => t.bin o fun a b =>
    if u then ((a.u * b.u / 2 ^ 32 : Nat), if 0 ≤ a.iv.lo ∧ 0 ≤ b.iv.lo then mulhIv a.iv b.iv else full)
    else (a.i * b.i / 2 ^ 32, mulhIv a.iv b.iv)) s

def execImad (g : Guard) (o : Alu3) (s : State) : Host.Outcome State Fault Refusal :=
  perLane (.imad g o) 1 (fun t => t.tri o fun a b c => (a.i * b.i + c.i, addIv (mulIv a.iv b.iv) c.iv)) s

def execIneg (g : Guard) (o : Alu1) (s : State) : Host.Outcome State Fault Refusal :=
  perLane (.ineg g o) 1 (fun t => t.un o fun a => (-a.i, ⟨-a.iv.hi, -a.iv.lo⟩)) s

def execIabs (g : Guard) (o : Alu1) (s : State) : Host.Outcome State Fault Refusal :=
  perLane (.iabs g o) 1 (fun t => t.un o fun a => ((a.i.natAbs : Nat), absIv a.iv)) s

def execImin (g : Guard) (o : Alu2) (s : State) : Host.Outcome State Fault Refusal :=
  perLane (.imin g o) 1 (fun t => t.bin o fun a b => (min a.i b.i, minIv a.iv b.iv)) s

def execImax (g : Guard) (o : Alu2) (s : State) : Host.Outcome State Fault Refusal :=
  perLane (.imax g o) 1 (fun t => t.bin o fun a b => (max a.i b.i, maxIv a.iv b.iv)) s

def execIminu (g : Guard) (o : Alu2) (s : State) : Host.Outcome State Fault Refusal :=
  perLane (.iminu g o) 1 (fun t => t.bin o fun a b => ((min a.u b.u : Nat), minuIv a.iv b.iv)) s

def execImaxu (g : Guard) (o : Alu2) (s : State) : Host.Outcome State Fault Refusal :=
  perLane (.imaxu g o) 1 (fun t => t.bin o fun a b => ((max a.u b.u : Nat), maxuIv a.iv b.iv)) s

def execIsad (g : Guard) (o : Alu3) (s : State) : Host.Outcome State Fault Refusal :=
  perLane (.isad g o) 1 (fun t => t.tri o fun a b c =>
    (((a.i - b.i).natAbs : Nat) + c.i, addIv (absIv (subIv a.iv b.iv)) c.iv)) s

end Sys2Proof.Machine
end

