-- ==== Sys2Proof/Machine/Vector.lean ====
section
/-!
DEFINITION. Group 0x4: moves, special values, conversion and the cross-lane instructions (spec/09_vector.md R226 to R240).
-/
namespace Sys2Proof.Machine
open Sys2Proof

/-! ### Moves -/

def execMov (g : Guard) (w : MovW) (d a : Field) (s : State) : Host.Outcome State Fault Refusal :=
  perLane (.mov g w d a) 1 (fun t => match w with
    | .w1 => let (v, e) := t.read a; t.write d v e
    | .w2 => t.writeN d 2 (t.wide a 2)
    | .w4 => t.writeN d 4 (t.wide a 4)) s

def execMovi (g : Guard) (d : Field) (v : MovImm) (s : State) : Host.Outcome State Fault Refusal :=
  perLane (.movi g d v) 1 (fun t => match v with
    | .s16 v => t.write d (v.signExtend 32) (point v.toInt)
    | .hi16 v => let w : Word := v.zeroExtend 32 <<< 16; t.write d w (point w.toInt)
    | .w32 v => t.write d v (point v.toInt)
    | .d64 v => t.writeN d 2 v.toNat) s

/-- Source B of `SEL`: an immediate is taken as it stands (R226). -/
def Thread.selB (t : Thread) : SrcB → Word × Intv
  | .reg f => t.read f
  | .wide f => t.read f
  | .imm16 v => (v.signExtend 32, point v.toInt)
  | .imm32 v => (v, point v.toInt)

def execSel (g : Guard) (o : Alu2) (p : Nat) (s : State) : Host.Outcome State Fault Refusal :=
  perLane (.sel g o p) 1 (fun t => let (v, e) := if t.pred p then t.read o.a else t.selB o.b; t.write o.d v e) s

/-- The value of a selector for thread t (R228). -/
def State.special (s : State) (t sel : Nat) : Nat :=
  let g := s.iwg
  let r := s.ikrec
  let c := g.core
  match sel with
  | 0x00 => t
  | 0x01 => g.laneOf t
  | 0x02 => g.gangOf t
  | 0x03 => Krec.width r
  | 0x04 => Krec.gangs r
  | 0x05 => slotLane t
  | 0x08 => g.lin % Krec.gridX r
  | 0x09 => g.lin / Krec.gridX r % Krec.gridY r
  | 0x0A => g.lin / (Krec.gridX r * Krec.gridY r)
  | 0x0B => g.lin
  | 0x0C => Krec.gridX r
  | 0x0D => Krec.gridY r
  | 0x0E => Krec.gridZ r
  | 0x10 => c
  | 0x11 => sliceOfCore c
  | 0x12 => stackOfCore c
  | 0x13 => dieOfCore c
  | 0x14 => c % 4
  | 0x15 => slotOf t % 4
  | 0x16 => (g.slot (slotOf t)).num
  | 0x18 => g.ctx
  | 0x19 => g.kernel
  | 0x20 => s.clk
  | 0x21 => Krec.argVa r
  | 0x22 => Krec.codeVa r
  | n => if 0x40 ≤ n then s.modcap (n - 0x40) else 0

def execSread (g : Guard) (d : Field) (sel : Nat) (s : State) : Host.Outcome State Fault Refusal :=
  issue (.sread g d sel) 1 (fun act s => .ok (s.setThreads s.issue.wid act fun n t =>
    let v := s.special n sel
    if Use.sreadRegs sel = 2 then t.writeN d 2 v else let w : Word := .ofNat 32 v; t.write d w (point w.toInt))) s

def execGetf (g : Guard) (d : Field) (slot word : Nat) (s : State) : Host.Outcome State Fault Refusal :=
  issue (.getf g d slot word) 1 (fun act s => .ok (s.setThreads s.issue.wid act fun _ t =>
    let w : Word := .ofNat 32 (Krec.fslot s.ikrec slot / 2 ^ (32 * word))
    t.write d w (point w.toInt))) s

/-! ### Conversion (R230, R231) -/

/-- Element j of a source pattern, laid out as R79. -/
def elemOf (f : Fmt) (src j : Nat) : Nat := src / 2 ^ (fmtWidth f * j) % 2 ^ fmtWidth f

/-- The result of `CVT` as a register pattern, or an FP64 pattern. -/
def cvtCode (tgt src : Fmt) (r : Rnd) (sat : Bool) (elem pat : Nat) : Nat :=
  let y := convert tgt r (sat && !holdsInf tgt src) (!Use.fmtFloat src) (decodeFmt src (elemOf src pat elem))
  trunc y (if tgt = .f64 then 64 else 32)

def execCvt (g : Guard) (tgt src : Fmt) (r : Rnd) (sat : Bool) (elem : Nat) (d a : Field) (s : State) : Host.Outcome State Fault Refusal :=
  perLane (.cvt g tgt src r sat elem d a) 1 (fun t =>
    let y := cvtCode tgt src r sat elem (if src = .f64 then t.wide a 2 else (t.val a).toNat)
    if tgt = .f64 then t.writeN d 2 y else t.write d (.ofNat 32 y) full) s

/-! ### Cross-lane instructions (R162, R163, R232, R233) -/

/-- Threads of the issue group's slot that stand at the running instruction: those of the group and those held there at a rendezvous. -/
def State.meeting (s : State) : List Nat :=
  let g := s.iwg
  let h := (s.issue.lanes.head?.map fun t => (g.thread t).handler).getD false
  g.live.filter fun u => s.issue.lanes.contains u ||
    (slotOf u == s.issue.slot && (g.thread u).pc == s.issue.pc && (g.thread u).handler == h && (match (g.thread u).hold with
      | .lane _ _ => true
      | _ => false))

/-- Run a cross-lane instruction: sets that are complete execute, at once; the threads of a complete set whose members disagree take BAR of
kind 5 (R163, R440); the other threads wait, and have not issued (R158).  `f` gets the active members of a thread's set, the thread's number and the thread. -/
def crossLane (i : Instr) (cost : Nat) (mask : Nat → Thread → BitVec 64) (f : State → List Nat → Nat → Thread → Thread) (s : State) :
    Host.Outcome State Fault Refusal :=
  issue i cost (fun _ s1 =>
    let g := s.iwg
    let all := s.meeting
    let set := fun t => g.crossSet t (mask t (g.thread t))
    let whole := all.filter fun t => (set t).all all.contains
    let split := whole.filter fun t => (set t).any fun u => set u != set t
    let bad := all.filter fun u => split.any fun t => (set t).contains u
    if bad ≠ [] then .trap { cause := Cause.bar, mask := bad, detail := 5, lanes := some bad }
    else
      let guard := fun t => match i.guard? with
        | some gd => (g.thread t).guard gd
        | none => true
      let late := s.issue.lanes.filter fun t => !whole.contains t
      let s2 := s1.setThreads s.issue.wid whole fun _ t => { t with pc := s.nextPc, hold := .none, last := s.clk }
      let s3 := s2.setThreads s.issue.wid (whole.filter guard) fun n t => f s ((set n).filter guard) n t
      let s4 := s3.setThreads s.issue.wid late fun n t => { t.waitAt s.issue.pc (.lane (mask n t) s.clk) with last := (g.thread n).last }
      if whole = [] then .wait s4 else .ok s4) s

/-- The mask of a thread (R232). -/
def laneMaskOf (m : LMask) (_ : Nat) (t : Thread) : BitVec 64 :=
  match m with
  | .imm v => v
  | .pair f => .ofNat 64 (t.wide f 2)

/-- The source lane of `XLANE` (R235). -/
def xlaneSrc (m : XMode) (l k w : Nat) : Nat :=
  match m with
  | .from => k
  | .rot => (l + k) % w
  | .swap => l ^^^ (k % 64)
  | .seg => l - l % 2 ^ min (k % 8) 6

def execXlane (g : Guard) (m : XMode) (d a b : Field) (mask : LMask) (s : State) : Host.Outcome State Fault Refusal :=
  crossLane (.xlane g m d a b mask) 2 (laneMaskOf mask) (fun s mem n t =>
    let w := s.iwg
    let l := xlaneSrc m (w.laneOf n) (t.val b).toNat w.width
    let src := match mem.find? fun u => w.laneOf u == l with
      | some u => w.thread u
      | none => w.thread n
    let (v, e) := src.read a
    t.write d v e) s

def execPcoll (g : Guard) (m : PMode) (pd : Nat) (d : Field) (pa : Nat) (mask : LMask) (s : State) : Host.Outcome State Fault Refusal :=
  crossLane (.pcoll g m pd d pa mask) 2 (laneMaskOf mask) (fun s mem _ t =>
    let w := s.iwg
    let on := mem.filter fun u => (w.thread u).pred pa
    match m with
    | .some => t.setPred pd (!on.isEmpty)
    | .every => t.setPred pd (on.length == mem.length)
    | .same => t.setPred pd (on.isEmpty || on.length == mem.length)
    | .mask => t.writeN d 2 (maskOf (on.map w.laneOf)).toNat
    | .count => t.write d (.ofNat 32 on.length) full) s

/-- One combination of `LREDUCE` and `LSCAN`. -/
def laneComb (op : LaneOp) (a b : Word) : Word :=
  match op with
  | .iadd => a + b
  | .imin => if a.toInt ≤ b.toInt then a else b
  | .imax => if a.toInt ≤ b.toInt then b else a
  | .iminu => if a.toNat ≤ b.toNat then a else b
  | .imaxu => if a.toNat ≤ b.toNat then b else a
  | .fadd => w32 (addRnd fp32 .rn (f32 a) (f32 b))
  | .fmin => .ofNat 32 (minMax fp32 false a.toNat b.toNat)
  | .fmax => .ofNat 32 (minMax fp32 true a.toNat b.toNat)

def laneId : LaneOp → Word
  | .iadd => 0
  | .imin => 0x7FFFFFFF
  | .imax => 0x80000000
  | .iminu => 0xFFFFFFFF
  | .imaxu => 0
  | .fadd => 0x80000000
  | .fmin => 0x7F800000
  | .fmax => 0xFF800000

/-- The combination over a list in ascending lane order (R237). -/
def laneFold (op : LaneOp) : List Word → Word
  | [] => laneId op
  | a :: l => l.foldl (laneComb op) a

def execLreduce (g : Guard) (op : LaneOp) (d a : Field) (mask : LMask) (s : State) : Host.Outcome State Fault Refusal :=
  crossLane (.lreduce g op d a mask) 2 (laneMaskOf mask) (fun s mem _ t =>
    t.write d (laneFold op (mem.map fun u => (s.ithread u).val a)) full) s

def execLscan (g : Guard) (op : LaneOp) (excl : Bool) (d a : Field) (mask : LMask) (s : State) : Host.Outcome State Fault Refusal :=
  crossLane (.lscan g op excl d a mask) 2 (laneMaskOf mask) (fun s mem n t =>
    let below := mem.filter fun u => u < n || (!excl && u == n)
    t.write d (laneFold op (below.map fun u => (s.ithread u).val a)) full) s

def execXeq (g : Guard) (b64 : Bool) (d a : Field) (mask : LMask) (s : State) : Host.Outcome State Fault Refusal :=
  crossLane (.xeq g b64 d a mask) 2 (laneMaskOf mask) (fun s mem n t =>
    let v := fun u => (s.ithread u).wide a (if b64 then 2 else 1)
    t.writeN d 2 (maskOf ((mem.filter fun u => v u == v n).map s.iwg.laneOf)).toNat) s

/-- The mask of an octet (R239). -/
def octet (s : State) (n : Nat) : BitVec 64 := maskOf ((List.range 8).map fun i => s.iwg.laneOf n / 8 * 8 + i)

/-- The format of a code of a slot (R75). -/
def fmtOfCode (n : Nat) : Fmt :=
  match n with
  | 0 => .f32 | 1 => .bf16 | 2 => .f16 | 3 => .e4m3 | 4 => .e5m2 | 5 => .e3m2 | 6 => .e2m3 | 7 => .e2m1 | 8 => .i8 | 9 => .i4
  | 10 => .vq2 | 11 => .f64 | 12 => .i32 | _ => .u32

def execCvtq (g : Guard) (d a : Field) (slot : Nat) (s : State) : Host.Outcome State Fault Refusal :=
  crossLane (.cvtq g d a slot) 4 (fun n _ => octet s n) (fun s mem n t =>
    let w := s.iwg
    let f := fmtOfCode (Krec.fslot s.ikrec slot % 16)
    let scale := f32 (.ofNat 32 (Krec.fslot s.ikrec slot / 2 ^ 32))
    let base := w.laneOf n / 8 * 8
    let xs := (List.range 32).map fun i =>
      match mem.find? fun u => w.laneOf u == base + i / 4 with
      | some u => f32 (((w.thread u).readN a 4).getD (i % 4) 0)
      | none => Num.zero
    let (sc, codes) := quantiseBlock xs f scale
    let own := (codes.drop (4 * (w.laneOf n % 8))).take 4
    t.writeN d 2 (packCodes (fmtWidth f) own + 2 ^ 32 * sc)) s

end Sys2Proof.Machine
end

