-- ==== Sys2Proof/Machine/Barrier.lean ====
section
/-!
DEFINITION. Group 0xC, barriers (spec/16_barrier.md R429 to R445).
-/
namespace Sys2Proof.Machine
open Sys2Proof

/-- The detail word of a BAR trap (R440). -/
def barDetail (kind : Nat) (level num : Nat) : Nat := kind + 2 ^ 4 * level + 2 ^ 8 * num

/-- The count of the current phase, and the live members, of a barrier for a thread. -/
def State.barArrived (s : State) (w t : Nat) (b : Bar) : Nat :=
  match b.lvl with
  | .gang => let g := s.wg w; ((List.range 64).filter fun i => (g.gangBar (g.gangOf t) b.num).getLsbD i).length
  | _ => (s.phaseOf w b).count
def State.barMembers (s : State) (w t : Nat) (b : Bar) : Nat :=
  match b.lvl with
  | .gang => let g := s.wg w; (g.gangLive (g.gangOf t)).length
  | l => s.liveMembers w l

/-- The token of an arrival (R435, R436). -/
def State.barToken (s : State) (w : Nat) (b : Bar) : Word :=
  .ofNat 32 ((s.phaseOf w b).phase.toNat + 2 * lvlCode b.lvl + 16 * b.num)

def Wg.setGangBar (w : Wg) (g n : Nat) (f : BitVec 64 → BitVec 64) : Wg := w.setGang g fun y => { y with bars := y.bars.update n 0 f }

/-- Count the arrivals of threads of a workgroup, and complete the phase when its condition holds (R432). -/
def State.arrive (s : State) (w : Nat) (b : Bar) (l : List Nat) : State :=
  let g := s.wg w
  match b.lvl with
  | .gang =>
    let gs := dedup (l.map g.gangOf)
    let s1 := s.setWg w fun x => l.foldl (fun x t => x.setGangBar (g.gangOf t) b.num fun m => m ||| (1#64 <<< g.laneOf t)) x
    gs.foldl (fun s k => s.gangCheck w k b.num) s1
  | lv =>
    let p := s.phaseOf w b
    let s1 := s.setPhase w b { p with count := p.count + l.length }
    let s2 := if lv = .wg then s1 else s1.setWg w fun x => { x with upper := x.upper.update (upperIdx b) 0 (· + l.length) }
    s2.barCheck w b

/-- The common course of an arrival (R436); `f` continues with the token. -/
def barCourse (i : Instr) (b : Bar) (f : List Nat → Word → State → Res) (s : State) : Host.Outcome State Fault Refusal :=
  issue i 1 (fun act s =>
    let w := s.issue.wid
    let g := s.iwg
    let lv := lvlCode b.lvl
    let twice := act.filter fun t => b.lvl == .gang && (g.gangBar (g.gangOf t) b.num).getLsbD (g.laneOf t)
    if act = [] then .ok s
    else if Krec.bars s.ikrec b.lvl ≤ b.num then trapAll act Cause.bar (barDetail 1 lv b.num)
    else if twice ≠ [] then .trap { cause := Cause.bar, mask := twice, detail := barDetail 3 lv b.num }
    else if act.any fun t => !s.releaseReady w t true then .hold
    else
      let s1 := if coreWide (barScope b.lvl) then s.drainCore g.core else s
      f act (s1.barToken w b) (s1.arrive w b act)) s

def execBarArr (g : Guard) (d : Field) (b : Bar) (s : State) : Host.Outcome State Fault Refusal :=
  barCourse (.barArr g d b) b (fun act tok s => .ok (s.setThreads s.issue.wid act fun _ t => t.write d tok (point tok.toInt))) s

/-- `BAR.SYNC` stands at the instruction until the phase of its arrival completes. -/
def execBarSync (g : Guard) (b : Bar) (s : State) : Host.Outcome State Fault Refusal :=
  barCourse (.barSync g b) b (fun act tok s => .ok (s.setThreads s.issue.wid act fun _ t => t.waitAt s.issue.pc (.barSync tok))) s

/-- The check of the tokens of R437; `f` gets the barrier of each active lane. -/
def tokenCourse (i : Instr) (a : Field) (f : List (Nat × Word × Bar) → State → Res) (s : State) : Host.Outcome State Fault Refusal :=
  issue i 1 (fun act s =>
    let tok := fun t => (s.ithread t).val a
    match act.filter fun t => (tokenBar s.ikrec (tok t)).isNone with
    | t :: l => .trap { cause := Cause.bar, mask := t :: l, detail := barDetail 2 ((tok t).toNat / 2 % 8) ((tok t).toNat / 16 % 16) }
    | [] => f (act.filterMap fun t => (tokenBar s.ikrec (tok t)).map fun b => (t, tok t, b)) s) s

def execBarWait (g : Guard) (a : Field) (s : State) : Host.Outcome State Fault Refusal :=
  tokenCourse (.barWait g a) a (fun l s => .ok (l.foldl (fun s e => s.iset e.1 fun t => t.waitAt s.issue.pc (.barWait e.2.1)) s)) s

def execBarTry (g : Guard) (pd : Nat) (a : Field) (s : State) : Host.Outcome State Fault Refusal :=
  tokenCourse (.barTry g pd a) a (fun l s =>
    .ok (l.foldl (fun s e =>
      let ok := s.waitDone s.issue.wid e.1 e.2.2 e.2.1
      let s1 := s.iset e.1 fun t => t.setPred pd ok
      if ok then s1.acquire s.iwg.core (barScope e.2.2.lvl) else s1) s)) s

def execBarCnt (g : Guard) (d : Field) (b : Bar) (s : State) : Host.Outcome State Fault Refusal :=
  issue (.barCnt g d b) 1 (fun act s =>
    let w := s.issue.wid
    if act ≠ [] ∧ Krec.bars s.ikrec b.lvl ≤ b.num then trapAll act Cause.bar (barDetail 1 (lvlCode b.lvl) b.num)
    else .ok (s.setThreads w act fun n t => t.writeN d 2 (s.barArrived w n b + 2 ^ 32 * s.barMembers w n b))) s

/-- `ELECT`: the lowest active lane of the issue group, or the lowest active member of the gang's set (R439). -/
def execElect (g : Guard) (pd : Nat) (gang : Option LMask) (s : State) : Host.Outcome State Fault Refusal :=
  match gang with
  | none => issue (.elect g pd none) 1 (fun act s =>
      .ok (s.setThreads s.issue.wid act fun n t => t.setPred pd (some n == act.head?))) s
  | some m => crossLane (.elect g pd (some m)) 1 (laneMaskOf m) (fun _ mem n t => t.setPred pd (some n == mem.head?)) s

/-! ### Leaving a wait without its phase (R442) -/

/-- The arrival of a thread held at `BAR.SYNC` is withdrawn. -/
def State.withdrawBar (s : State) (w t : Nat) : State :=
  match (s.thread w t).hold with
  | .barSync tok =>
    match tokenBar (s.krecOf w) tok with
    | none => s
    | some b =>
      if s.waitDone w t b tok then s
      else match b.lvl with
        | .gang => s.setWg w fun x => x.setGangBar (x.gangOf t) b.num fun m => m &&& ~~~(1#64 <<< x.laneOf t)
        | lv =>
          let p := s.phaseOf w b
          let s1 := s.setPhase w b { p with count := p.count - 1 }
          if lv = .wg then s1 else s1.setWg w fun x => { x with upper := x.upper.update (upperIdx b) 0 (· - 1) }
  | _ => s

/-! ### Deadlocks (R164, R441) -/

/-- The words of the instruction at a PC that a thread waits at: the core's copy of its block, else memory. -/
def State.wordsAt (s : State) (w pc : Nat) : List Word :=
  let g := s.wg w
  let va := pc / 32 * 32
  let ws := match (s.core g.core).icache.find? fun e => e.1 == g.ctx && e.2.1 == va with
    | some e => e.2.2
    | none => match (s.ctx g.ctx).resolve .ex va with
      | some a => wordList (ofBytes ((List.range 32).map fun i => s.peek (a.gia + i))) 8
      | none => []
  match ws.drop (pc % 32 / 4) with
  | [] => []
  | a :: l => (a :: l).take (if a.toNat % 4 = 3 then 1 else a.toNat % 4 + 2)

/-- A thread waits at a barrier wait of level up to `top`, at a rendezvous, or at a `JOIN` that is not due (R161). -/
def Thread.meets (t : Thread) (clk top : Nat) : Bool :=
  match t.hold with
  | .barWait tok | .barSync tok => tok.toNat / 2 % 8 ≤ top
  | .lane _ _ => true
  | .join _ start => clk < start + 256
  | _ => false

def Thread.atBarrier (t : Thread) : Bool :=
  match t.hold with
  | .barWait _ | .barSync _ => true
  | _ => false

def Thread.atLane (t : Thread) : Bool :=
  match t.hold with
  | .lane _ _ => true
  | _ => false

/-- The wait of a thread would end as things stand. -/
def State.wouldEnd (s : State) (w t : Nat) : Bool :=
  let x := s.thread w t
  match x.hold with
  | .barWait tok | .barSync tok =>
    match tokenBar (s.krecOf w) tok with
    | none => false
    | some b => s.waitDone w t b tok
  | .lane m _ => ((s.wg w).crossSet t m).all fun u => (s.thread w u).pc == x.pc && (s.thread w u).atLane
  | _ => false

/-- Take BAR for threads of a workgroup, one trap for those of a slot at one instruction in one mode; arrivals of `BAR.SYNC` are
withdrawn.  While the frame is busy the trap is a pending report of its threads, which stand at the instruction (R480; DESIGN CHOICE,
notes/assumptions/67.md). -/
def State.barTrap (s : State) (w : Nat) (ls : List Nat) (kind : Nat) : State :=
  let g := s.wg w
  let key := fun t => (slotOf t, (g.thread t).pc, (g.thread t).handler)
  let keys := ls.foldl (fun (r : List (Nat × Nat × Bool)) t => if r.contains (key t) then r else r ++ [key t]) []
  keys.foldl (fun s k =>
    let mine := ls.filter fun t => key t == k
    let tok := match mine.head?.map fun t => (g.thread t).hold with
      | some (.barWait x) | some (.barSync x) => x.toNat
      | _ => 0
    let det := if tok = 0 then kind else barDetail kind (tok / 2 % 8) (tok / 16 % 16)
    let s1 := mine.foldl (fun s t => s.withdrawBar w t) s
    let insn := s.wordsAt w k.2.1
    if ((s.wg w).slot k.1).busy && !k.2.2 then
      s1.setThreads w mine fun _ x => { x with hold := .none, report := x.report ++ [⟨Cause.bar, det, 0, ⟨k.2.1, insn, laneMask mine⟩⟩] }
    else s1.takeTrap w mine k.2.1 insn { cause := Cause.bar, mask := mine, detail := det }) s

/-- When a set of threads last issued: a deadlock among them has held since. -/
def lastOf (l : List Thread) : Nat := (l.map Thread.last).foldl max 0

/-- A gang deadlock that has held for 256 clk. -/
def execGangDeadlock (wid gang : Nat) (s : State) : Host.Outcome State Fault Refusal :=
  .next (let g := s.wg wid
    let live := g.gangLive gang
    let since := lastOf ((g.threads.filter fun e => g.gangOf e.1 == gang).map Prod.snd)
    let waits := fun t => match (g.thread t).hold with
      | .barWait tok | .barSync tok => tok.toNat / 2 % 8 == 0
      | .lane _ _ => true
      | .join _ start => decide (since ≤ start)
      | _ => false
    let hit := live.filter fun t => (g.thread t).atBarrier || (g.thread t).atLane
    if g.stopped || hit = [] || !live.all waits || live.any (s.wouldEnd wid) || s.clk < since + 256 then s
    else (s.barTrap wid hit 6).joinCheck wid gang true)

/-- Threads of workgroups that stand in a barrier deadlock, which has held for a time and began no earlier than `moved`: none when there is no
deadlock, or while the save or flush of one of them is under way, whose threads no longer stand there. -/
def State.barDead (s : State) (ws : List Nat) (top time moved : Nat) : List (Nat × List Nat) :=
  let live := (ws.map fun w => (s.wg w).live.map fun t => (w, t)).flatten
  let since := max moved (lastOf ((ws.map fun w => (s.wg w).threads.map Prod.snd).flatten))
  if live = [] || ws.any (fun w => (s.wg w).stopped) || !(live.all fun e => (s.thread e.1 e.2).meets s.clk top) || live.any (fun e => s.wouldEnd e.1 e.2) ||
      s.clk < since + time then []
  else ws.map fun w => (w, (s.wg w).live.filter fun t => (s.thread w t).atBarrier)

/-- When a workgroup of a kernel was last placed, restored, saved or ended in the unit of a barrier. -/
def stirredIn (k : Kern) (l : Lvl) (unit : Nat) : Nat :=
  ((k.moved.filter fun e => l == .grid || unitOf l e.1 == unit).map Prod.snd).foldl max 0

def execBarrierDeadlockWg (wid : Nat) (s : State) : Host.Outcome State Fault Refusal :=
  .next ((s.barDead [wid] 1 1024 0).foldl (fun s e => s.barTrap e.1 e.2 4) s)

/-- An upper-level deadlock: a member whose state is saved does not wait, and one that came, left or ended did so before it (R441). -/
def execBarrierDeadlockUpper (h : Nat) (b : Bar) (unit : Nat) (s : State) : Host.Outcome State Fault Refusal :=
  .next (match b.lvl with
    | .gang | .wg => s
    | l =>
      let away := s.saved.any fun v => v.kernel == h && (l == .grid || unitOf l v.core == unit)
      if Krec.bars (s.kern h).krec l ≤ b.num || away then s
      else (s.barDead (s.memberWgs h l unit) 4 65536 (stirredIn (s.kern h) l unit)).foldl (fun s e => s.barTrap e.1 e.2 4) s)

/-! ### Meeting points that are due (R161, R209) -/

def execJoinTimeout (wid gang : Nat) (s : State) : Host.Outcome State Fault Refusal :=
  .next (let g := s.wg wid
    let due := (g.gangLive gang).any fun t => match (g.thread t).hold with
      | .join _ start => decide (start + 256 ≤ s.clk)
      | _ => false
    if due then s.joinCheck wid gang true else s)

def execSleepExpiry (wid t : Nat) (s : State) : Host.Outcome State Fault Refusal :=
  .next (match (s.thread wid t).hold with
    | .sleep till => if till ≤ s.clk then s.setThread wid t fun x => x.resume 8 else s
    | _ => s)

end Sys2Proof.Machine
end

