-- ==== Sys2Proof/Machine/Ticket.lean ====
section
/-!
DEFINITION. Group 0x8 and the ticket tables: check codes, validation, the life of an entry, and the ticket instructions but for
`TKT.RDS` (spec/11_ticket.md R285 to R311).
-/
namespace Sys2Proof.Machine
open Sys2Proof

/-! ### The ticket and its check code (R285 to R288) -/

structure SipV where
  v0 : Dword
  v1 : Dword
  v2 : Dword
  v3 : Dword
deriving DecidableEq, Repr

/-- One SipHash round. -/
def sipRound (s : SipV) : SipV :=
  let a0 := s.v0 + s.v1
  let a1 := s.v1.rotateLeft 13 ^^^ a0
  let a0 := a0.rotateLeft 32
  let a2 := s.v2 + s.v3
  let a3 := s.v3.rotateLeft 16 ^^^ a2
  let b0 := a0 + a3
  let b3 := a3.rotateLeft 21 ^^^ b0
  let b2 := a2 + a1
  let b1 := a1.rotateLeft 17 ^^^ b2
  ⟨b0, b1, b2.rotateLeft 32, b3⟩

/-- SipHash-2-4 of a message of 6 bytes. -/
def sip6 (k0 k1 : Dword) (msg : Nat) : Dword :=
  let m : Dword := .ofNat 64 (msg % 2 ^ 48 + 6 * 2 ^ 56)
  let s : SipV := ⟨k0 ^^^ 0x736f6d6570736575, k1 ^^^ 0x646f72616e646f6d, k0 ^^^ 0x6c7967656e657261, k1 ^^^ 0x7465646279746573⟩
  let s := { s with v3 := s.v3 ^^^ m }
  let s := sipRound (sipRound s)
  let s := { s with v0 := s.v0 ^^^ m, v2 := s.v2 ^^^ 0xff }
  let s := sipRound (sipRound (sipRound (sipRound s)))
  s.v0 ^^^ s.v1 ^^^ s.v2 ^^^ s.v3

/-- The check code of bits [47:0] under a context's secret. -/
def checkCode (secret : Dword) (ctx low : Nat) : Nat := (sip6 secret (.ofNat 64 ctx) low).toNat % 65536

namespace Tkt
variable (t : Dword)
def slice := t.toNat % 256
def entry := t.toNat / 2 ^ 8 % 4096
def gen := t.toNat / 2 ^ 20 % 256
def ctx := t.toNat / 2 ^ 28 % 4096
def lines := t.toNat / 2 ^ 40 % 256
def check := t.toNat / 2 ^ 48
end Tkt

def makeTicket (secret : Dword) (slice entry gen ctx lines : Nat) : Dword :=
  let low := slice + 2 ^ 8 * entry + 2 ^ 20 * gen + 2 ^ 28 * ctx + 2 ^ 40 * lines
  .ofNat 64 (low + 2 ^ 48 * checkCode secret ctx low)

/-! ### Validation (R300): 0 passes, 1 STALE, 2 FORGED, 4 ORPHANED, 5 LOST -/

/-- Steps 1 to 3, at the issuing core. -/
def State.ticketLocal (s : State) (ctx : Nat) (t : Dword) : Nat :=
  if t = 0 then 1
  else if Tkt.ctx t ≠ ctx ∨ 63 < Tkt.slice t ∨ Tkt.lines t = 0 ∨ 16 < Tkt.lines t ∨
      Tkt.check t ≠ checkCode (s.ctx ctx).secret ctx (t.toNat % 2 ^ 48) then 2
  else if s.sliceUp (Tkt.slice t) then 0 else 5

def State.ticket (s : State) (n e : Nat) : Ticket := (s.slice n).tickets.getD e .zero
def State.setTicket (s : State) (n e : Nat) (f : Ticket → Ticket) : State :=
  s.setSlice n fun x => { x with tickets := x.tickets.update e .zero f }

/-- Steps 4 to 6, at the slice. -/
def ticketMatch (k : Ticket) (t : Dword) : Nat :=
  if k.rekeyed then 2
  else if k.ctx ≠ Tkt.ctx t ∨ k.lines ≠ Tkt.lines t then 2
  else if k.gen.toNat ≠ Tkt.gen t then 1
  else 0

/-- Step 7. -/
def ticketState (k : Ticket) : Nat :=
  match k.state with
  | .pending | .ready => 0
  | .free | .redeeming => 1
  | .orphaned => if k.dropped then 1 else 4

/-- All steps. -/
def State.ticketCode (s : State) (ctx : Nat) (t : Dword) : Nat :=
  let l := s.ticketLocal ctx t
  if l ≠ 0 then l
  else
    let k := s.ticket (Tkt.slice t) (Tkt.entry t)
    let m := ticketMatch k t
    if m ≠ 0 then m else ticketState k

/-! ### The table (R289 to R294) -/

/-- Pinned lines in use. -/
def Slice.pinned (x : Slice) : Nat :=
  (x.tickets.map fun e => match e.2.state with
    | .pending | .ready | .redeeming => e.2.lines
    | .orphaned => if e.2.inflight then e.2.lines else 0
    | .free => 0).foldl (· + ·) 0

/-- The FREE entry that became FREE earliest; entries never used come first, in ascending number (notes/assumptions/17.md). -/
def Slice.freeEntry (x : Slice) : Option Nat :=
  match (List.range (min Config.tickets (x.tickets.length + 1))).find? fun n => !x.tickets.has n with
  | some n => some n
  | none =>
    ((x.tickets.filter fun e => e.2.state == .free).foldl (fun (b : Option (Nat × Nat)) e => match b with
      | some (f, n) => if e.2.freedAt < f then some (e.2.freedAt, e.1) else some (f, n)
      | none => some (e.2.freedAt, e.1)) none).map Prod.snd

/-- The ORPHANED entry with the oldest allocation and no read outstanding. -/
def Slice.reuseEntry (x : Slice) : Option Nat :=
  ((x.tickets.filter fun e => e.2.state == .orphaned && !e.2.inflight).foldl (fun (b : Option (Nat × Nat)) e => match b with
    | some (f, n) => if e.2.alloc < f then some (e.2.alloc, e.1) else some (f, n)
    | none => some (e.2.alloc, e.1)) none).map Prod.snd

/-- Free an entry: its lines go, and its generation moves on (R292, R294). -/
def State.freeTicket (s : State) (n e : Nat) : State :=
  let k := (s.slice n).freeNo + 1
  (s.setTicket n e fun t =>
    { t with state := .free, rekeyed := false, dropped := false, inflight := false, gen := t.gen + 1, data := [], wait := none, left := [], got := [],
             freedAt := k, redeemer := none, byCmd := none }).setSlice n fun x => { x with freeNo := k }

/-- An allocation: the entry and its state; `none` when the table is full for it.  The status and the poison bits are those of the entry's last use
until SERVICED sets them (R294).  REUSE clears `tte.rekeyed` too (DESIGN CHOICE, notes/assumptions/66.md). -/
def State.allocTicket (s : State) (n ctx lines : Nat) (a : GAddr) (near : Bool) (cls core kernel wid t born : Nat) : Option (Nat × State) :=
  let x := s.slice n
  if x.pinned + lines > Config.ticketLines then none
  else
    let fill := fun (k : Ticket) (gen : BitVec 8) =>
      { k with state := .pending, gen := gen, ctx := ctx, lines := lines, svcNew := 0, poisonNew := 0, rekeyed := false, dropped := false,
               inflight := true, ia := a.gia, ilv := a.ilv, set := a.set, near := near, cls := cls, core := core, kernel := kernel, wait := none,
               left := List.range lines, got := [], born := born, alloc := s.clk, ready := 0, data := [], issuer := (wid, t), redeemer := none, byCmd := none }
    match x.freeEntry with
    | some e => some (e, s.setTicket n e fun k => fill k k.gen)
    | none => match x.reuseEntry with
      | some e => some (e, s.setTicket n e fun k => fill k (k.gen + 1))
      | none => none

/-! ### TKT.LD (R304) -/

/-- The thread's own earlier accesses to a block keep its fetch back: outstanding atomics, pieces of stores and siding entries (R297). -/
def State.blockBusy (s : State) (w t seq va n : Nat) (a : GAddr) : Bool :=
  let c := s.ctx (s.wg w).ctx
  ((s.thread w t).prods.any fun p => p.seq < seq && (match p.work with
    | .atom r _ _ => c.share r.va r.size va n
    | .store l _ _ _ => l.any fun q => c.share q.va q.bytes.length va n
    | _ => false)) ||
  (s.core (s.wg w).core).siding.any fun e => e.wid == w && e.t == t && lineOf a.gia ≤ lineOf e.gia && lineOf e.gia < lineOf a.gia + n / 128

/-- The answer to an allocation request. -/
def State.ticketAnswer (s : State) (w t seq : Nat) (v : Dword) (ok : Bool) : State :=
  s.setThread w t fun x => match x.prod? seq with
    | some p => if p.tgt.isNone && p.stat.isNone then x.endProd p ok else x.setWork seq (.done (wordList v.toNat 2) full ok)
    | none => x

/-- An allocation joins the queue of its slice. -/
def Prod.queue (p : Prod) : Prod :=
  match p.work with
  | .ticket r lines try_ o => { p with work := .ticket { r with queued := true } lines try_ o }
  | _ => p

/-- An allocation request reaches its slice (R293, R304): the core's dirty bytes of the block go first (R297).  One that finds the table full waits
in the order of arrival (R291). -/
def State.ticketAlloc (s : State) (w t seq : Nat) (r : Req) (lines : Nat) (try_ : Bool) : State :=
  let g := s.wg w
  match (s.ctx g.ctx).resolve .rd r.va with
  | none => s.ticketAnswer w t seq 0 false
  | some a =>
    let n := s.home a
    let me := (w, t, seq)
    let q := (s.slice n).waiting
    if s.blockBusy w t seq r.va (128 * lines) a then s
    else if !s.sliceUp n then s.ticketAnswer w t seq 0 false
    else
      let s1 := (List.range lines).foldl (fun s i => s.writeBack g.core (lineOf a.gia + i)) s
      let turn := !q.contains me || q.head? == some me
      let got := if turn then s1.allocTicket n g.ctx lines a r.near r.svc g.core g.kernel w t (match (s.thread w t).prod? seq with
        | some p => p.born
        | none => s.clk) else none
      match got with
      | some (e, s2) =>
        let k := s2.ticket n e
        (s2.ticketAnswer w t seq (makeTicket (s.ctx g.ctx).secret n e k.gen.toNat g.ctx lines) true).setSlice n fun x =>
          { x with waiting := x.waiting.filter (· != me) }
      | none =>
        if try_ then s1.ticketAnswer w t seq 0 false
        else (s1.setThread w t fun x => { x with prods := listSet x.prods (fun p => p.seq == seq) Prod.queue }).setSlice n fun x =>
          { x with waiting := if x.waiting.contains me then x.waiting else x.waiting ++ [me] }

/-- `TKT.LD` sends the requests of its lanes in ascending order as it issues; a lane is answered then unless it has to wait. -/
def execTktLd (g : Guard) (try_ : Bool) (d : Field) (m : ArrOp TkW) (s : State) : Host.Outcome State Fault Refusal :=
  let i : Instr := .tktLd g try_ d m
  let lines := ((Use.wordOf m).map TkW.lines).getD 1
  issue i 1 (fun act s =>
    let v : Via := ⟨m.k, m.x, arrOff m, 128 * lines, false⟩
    let ps := s.parts v act
    let at_ := fun t => (ps.find? fun p => p.lanes.contains t).elim 0 fun p => s.elemAddr v p t
    let bad := (ps.map Part.bad).flatten
    let trapped := ps.any fun p => p.a.trap && p.bad != []
    let spans := fun t => !bad.contains t && at_ t / 4096 != (at_ t + 128 * lines - 1) / 4096
    if s.orderHolds act .relaxed then .hold
    else if act.any fun t => (s.iwg.array t m.k).space != 0 then trapAll act Cause.ill
    else match failing act (fun t => at_ t % 128 != 0) Cause.align fun t => trunc (at_ t) 64 with
      | some r => r
      | none => match (if trapped then [] else act.filter spans) with
        | t :: l => .trapIn (s.boundsNoted ps) { cause := Cause.tkt, mask := t :: l, detail := 3, addr := trunc (at_ t) 64 }
        | [] => s.viaArray act v false true fun good bad s =>
          let vas := good.filterMap fun e => match e.spot with
            | .glob va => some (e, va)
            | _ => none
          match vas.filter fun e => (s.ictx.resolve .rd e.2).isNone with
          | e :: l => .trapIn s { cause := Cause.page, mask := (e :: l).map fun x => x.1.t, addr := e.2 }
          | [] =>
            let s1 := bad.foldl (fun s t => s.iset t fun x => x.giveNow i (.done [] full false)) s
            .ok (vas.foldl (fun s e =>
              let seq := (s.ithread e.1.t).seq
              let r : Req := { va := e.2, size := 128 * lines, sgn := false, xs := false, near := e.1.a.near, svc := e.1.a.svc, order := .none,
                               scope := .gang, remote := false }
              (s.produce i e.1.t (.ticket r lines try_ { s.origin with lanes := laneMask act })).ticketAlloc s.issue.wid e.1.t seq r lines try_)
              s1)) s

def execTicketAlloc (wid t seq : Nat) (s : State) : Host.Outcome State Fault Refusal :=
  .next (match (s.thread wid t).prod? seq with
    | some p => match p.work with
      | .ticket r lines try_ _ => (s.ticketAlloc wid t seq r lines try_).wgRelease wid
      | _ => s
    | none => s)

/-! ### Service (R296, R299) -/

def Ticket.addr (k : Ticket) (j : Nat) : GAddr := ⟨k.ia + 128 * j, k.ilv, k.set⟩

/-- The single-copy atomic pieces of a line of a block, by their first byte in the block (R26, R296). -/
def State.linePieces (s : State) (k : Ticket) (j : Nat) : List Nat :=
  let u := atomUnit (s.tierOf (k.addr j).gia)
  (List.range (128 / u)).map fun i => 128 * j + u * i

/-- A piece of a line of a fetch is read, or the line is settled without a read; it may wait for the pager. -/
def State.serveLine (s : State) (n e j : Nat) : State :=
  let k := s.ticket n e
  let a := k.addr j
  let fin := fun (s : State) (f : Ticket → Ticket) => s.setTicket n e fun k =>
    { f k with left := k.left.filter (· != j), got := k.got.filter (· / 128 != j), wait := none }
  match s.ask k.ctx k.core a .rd k.near false false true with
  | .fail => fin s fun k => { k with svcNew := if k.svcNew = 1 then 1 else 2 }
  | .tier s1 => fin s1 fun k => { k with svcNew := 1 }
  | .dead => fin s fun k => { k with poisonNew := k.poisonNew ||| (1 <<< j : BitVec 16) }
  | .wait s1 pg => s1.setTicket n e fun k => { k with wait := some pg }
  | .go s1 =>
    if s1.isPoison (lineOf a.gia) then fin s1 fun k => { k with poisonNew := k.poisonNew ||| (1 <<< j : BitVec 16) }
    else
      let u := atomUnit (s.tierOf a.gia)
      let rest := (s1.linePieces k j).filter fun o => !k.got.contains o
      let (i, s2) := s1.pick rest.length
      let o := rest.getD i 0
      let s3 := s2.readHome a
      let read := fun (k : Ticket) => { k with
        data := (List.range u).foldl (fun d x => d.set (o + x) ((s3.homeLine (lineOf a.gia)).getD ((o + x) % 128) 0)) k.data }
      if rest.length ≤ 1 then fin (s3.late k.core k.kernel k.born k.cls) read
      else s3.setTicket n e fun k => { read k with got := k.got ++ [o], wait := none }

/-- SERVICED of R294. -/
def State.ticketServiced (s : State) (n e : Nat) : State :=
  s.setTicket n e fun k => match k.state with
    | .pending => { k with state := .ready, inflight := false, svc := k.svcNew, poison := k.poisonNew, ready := s.clk }
    | .redeeming => { k with inflight := false, svc := k.svcNew, poison := k.poisonNew }
    | .orphaned => { k with inflight := false, data := [] }
    | _ => k

/-- A read event of a fetch, of a piece of any line that is left (R296); with the last one the entry is SERVICED. -/
def execTicketServiced (slice entry : Nat) (s : State) : Host.Outcome State Fault Refusal :=
  .next (let k := s.ticket slice entry
    if !k.inflight then s
    else
      let s1 := match k.left with
        | [] => s
        | l => let (j, s0) := s.pick l.length; s0.serveLine slice entry (l.getD j 0)
      if (s1.ticket slice entry).left = [] then s1.ticketServiced slice entry else s1)

/-! ### TKT.RDV (R305) -/

/-- The outcome of a redeem for one lane. -/
structure RdvOut where
  val   : Nat
  ok    : Bool
  cause : Option (Nat × Nat × Nat)
deriving DecidableEq, Repr

/-- A lane of `TKT.RDV` settles: destination, predicate, and the report with its cause, detail and address. -/
def State.rdvEnd (s : State) (w t : Nat) (r : Redeem) (o : RdvOut) : State :=
  if !(s.thread w t).live then s.dropHold w t
  else
  let s1 := s.setThread w t fun x =>
    let n := Use.regsOf r.size
    let x1 := if n = 1 then x.write r.d (.ofNat 32 o.val) full else x.writeN r.d n o.val
    let x2 := match r.nf with
      | some p => x1.setPred p o.ok
      | none => x1
    x2.settle r.orig
  match o.cause with
  | none => s1
  | some (c, d, a) => if c = Cause.tkt ∧ r.nf.isSome = true then s1 else s1.reportLane w t ⟨c, d, a, r.orig⟩

def execTktRdv (g : Guard) (sz : Size) (nf : Option Nat) (d t xo : Field) (s : State) : Host.Outcome State Fault Refusal :=
  issue (.tktRdv g sz nf d t xo) 1 (fun act s =>
    let tk := fun l => (.ofNat 64 ((s.ithread l).pair t) : Dword)
    let pass := fun l => s.ticketLocal s.iwg.ctx (tk l) == 0
    let off := fun l => ((s.ithread l).val xo).toNat
    match failing act (fun l => pass l && off l % nBytes sz != 0) Cause.align off with
    | some r => r
    | none => match failing act (fun l => pass l && 128 * Tkt.lines (tk l) < off l + nBytes sz) Cause.bounds off with
      | some r => r
      | none => .ok (act.foldl (fun s l =>
          let rd : Redeem := ⟨tk l, off l, sz, d, nf, false, s.origin, none⟩
          let s1 := s.iset l fun x => x.waitAt s.issue.pc (.redeem rd)
          let c := s.ticketLocal s.iwg.ctx (tk l)
          if c ≠ 0 then s1.rdvEnd s.issue.wid l rd ⟨0, false, some (Cause.tkt, c, (tk l).toNat)⟩ else s1) s)) s

/-- The lanes of a thread's group that present the same ticket. -/
def State.redeemers (s : State) (w t : Nat) (r : Redeem) : List (Nat × Redeem) :=
  (s.wg w).live.filterMap fun u => match (s.thread w u).hold with
    | .redeem q => if slotOf u = slotOf t ∧ q.tkt = r.tkt ∧ q.orig = r.orig ∧ q.rds = r.rds ∧ q.acc = r.acc then some (u, q) else none
    | _ => none

/-- The VA of a byte of the block, as a range of the context reaches it; its IA where none does (notes/assumptions/50.md). -/
def State.ticketVa (s : State) (k : Ticket) (off : Nat) : Nat := ((s.ctx k.ctx).vaOf (k.ia + off)).getD (iaOf k.ia + off)

/-- What an accepted redeem gives one lane. -/
def State.rdvOut (s : State) (k : Ticket) (r : Redeem) : RdvOut :=
  let n := nBytes r.size
  if k.svc = 1 then ⟨0, false, none⟩
  else if k.svc = 2 then ⟨0, false, some (Cause.page, 0, iaOf k.ia)⟩
  else if k.poison.getLsbD (r.off / 128) then ⟨0, false, some (Cause.ue, 0, s.ticketVa k (r.off / 128 * 128))⟩
  else ⟨ofBytes ((List.range n).map fun i => k.data.getD (r.off + i) 0), true, none⟩

/-- The lanes that wait for the delivery of an entry: those whose redeem was accepted. -/
def State.awaiting (s : State) (n e : Nat) : List (Nat × Nat × Redeem) :=
  match (s.ticket n e).redeemer with
  | none => []
  | some (_, w, _) => (s.wg w).threads.filterMap fun u => match u.2.hold with
      | .redeem q => if q.acc ∧ q.rds = none ∧ Tkt.slice q.tkt = n ∧ Tkt.entry q.tkt = e then some (w, u.1, q) else none
      | _ => none

/-- The delivery of `TKT.RDV`: each lane gets its bytes, and the entry is freed. A redeem whose threads are gone is delivered to nobody. -/
def State.deliver (s : State) (n e : Nat) : State :=
  let k := s.ticket n e
  ((s.awaiting n e).foldl (fun s x => s.rdvEnd x.1 x.2.1 x.2.2 (s.rdvOut k x.2.2)) s).freeTicket n e

/-! ### TKT.POLL, TKT.STAT, TKT.DROP (R308 to R310) -/

def execTktPoll (g : Guard) (pd : Nat) (t : Field) (s : State) : Host.Outcome State Fault Refusal :=
  issue (.tktPoll g pd t) 1 (fun act s => .ok (act.foldl (fun s l =>
    let tk : Dword := .ofNat 64 ((s.ithread l).pair t)
    let ready := s.ticketCode s.iwg.ctx tk == 0 && (s.ticket (Tkt.slice tk) (Tkt.entry tk)).state == .ready
    s.produce (.tktPoll g pd t) l (.done [] full ready)) s)) s

/-- The word of `TKT.STAT`. -/
def State.ticketStat (s : State) (ctx : Nat) (t : Dword) : Nat :=
  let l := s.ticketLocal ctx t
  let k := s.ticket (Tkt.slice t) (Tkt.entry t)
  let m := ticketMatch k t
  let res :=
    if t = 0 then 0
    else if l ≠ 0 then l
    else if m ≠ 0 then m
    else match k.state with
      | .pending => 8
      | .ready => 9
      | .redeeming => 10
      | .free => 1
      | .orphaned => if k.dropped then 1 else 4
  let age := min ((s.clk - k.alloc) / Config.clkPerUs) (2 ^ 32 - 1)
  res + (if res = 9 ∨ res = 10 then 2 ^ 4 * k.svc + 2 ^ 6 * (if k.poison = 0 then 0 else 1) else 0) +
    (if res = 4 ∨ 8 ≤ res then 2 ^ 8 * age else 0)

def execTktStat (g : Guard) (d t : Field) (s : State) : Host.Outcome State Fault Refusal :=
  issue (.tktStat g d t) 1 (fun act s => .ok (act.foldl (fun s l =>
    s.produce (.tktStat g d t) l (.done (wordList (s.ticketStat s.iwg.ctx (.ofNat 64 ((s.ithread l).pair t))) 2) full true)) s)) s

def execTktDrop (g : Guard) (stat : Option Nat) (t : Field) (s : State) : Host.Outcome State Fault Refusal :=
  issue (.tktDrop g stat t) 1 (fun act s => .ok (act.foldl (fun s l =>
    let tk : Dword := .ofNat 64 ((s.ithread l).pair t)
    if s.ticketLocal s.iwg.ctx tk = 0 then s.produce (.tktDrop g stat t) l (.drop tk)
    else if stat.isSome then s.produce (.tktDrop g stat t) l (.done [] full false)
    else s) s)) s

/-- DROP of R294. -/
def State.dropTicket (s : State) (n e : Nat) : State :=
  match (s.ticket n e).state with
  | .pending => s.setTicket n e fun k => { k with state := .orphaned, dropped := true }
  | .ready => s.freeTicket n e
  | _ => s

/-- A drop reaches its slice. -/
def State.dropStep (s : State) (w t : Nat) (p : Prod) (tk : Dword) : State :=
  let ok := s.ticketCode (s.wg w).ctx tk == 0
  let s1 := if ok then s.dropTicket (Tkt.slice tk) (Tkt.entry tk) else s
  (s1.setThread w t fun x => if p.stat.isNone then x.endProd p ok else x.setWork p.seq (.done [] full ok)).wgRelease w

def execTicketDropEvent (wid t seq : Nat) (s : State) : Host.Outcome State Fault Refusal :=
  .next (match (s.thread wid t).prod? seq with
    | some p => match p.work with
      | .drop tk => s.dropStep wid t p tk
      | _ => s
    | none => s)

/-- AGED of R294 for the entries of a slice whose age has reached its limit. -/
def State.ageEntries (s : State) (slice : Nat) : State :=
  ((s.slice slice).tickets.foldl (fun s (x : Nat × Ticket) =>
    let k := x.2
    let limit := (s.ctx k.ctx).ageLimit * Config.clkPerUs
    let age := s.clk - k.alloc
    let lost := fun (s : State) => s.setCtx k.ctx fun c => c.setFld 10 0 32 (c.orphans + 1)
    if age < limit then s
    else match k.state with
      | .pending => lost (s.setTicket slice x.1 fun k => { k with state := .orphaned })
      | .ready => lost (s.setTicket slice x.1 fun k => { k with state := .orphaned, data := [] })
      | .orphaned => if !k.inflight && 2 * limit ≤ age then s.freeTicket slice x.1 else s
      | _ => s) s).setSlice slice fun x => { x with lastScan := s.clk }

/-! ### TKT.WAITANY (R311) -/

def execTktWaitany (g : Guard) (d xa : Field) (count ps : Nat) (s : State) : Host.Outcome State Fault Refusal :=
  issue (.tktWaitany g d xa count ps) 1 (fun act s =>
    if s.orderHolds act .relaxed then .hold
    else s.viaScratch act xa 0 (8 * count) 8 (some s.issue.wid) (some false) fun l s =>
      if l.any fun e => s.spotBusy e.1 (.scr s.issue.wid e.2) (8 * count) then .hold
      else match l.filter fun e => (s.spotRead (.scr s.issue.wid e.2) (8 * count)).isNone with
        | e :: r => .trapIn s { cause := Cause.ue, mask := (e :: r).map Prod.fst, addr := e.2 }
        | [] => .ok (l.foldl (fun s e =>
          let b := (s.spotRead (.scr s.issue.wid e.2) (8 * count)).getD []
          let list := (List.range count).map fun i => (.ofNat 64 (ofBytes ((b.drop (8 * i)).take 8)) : Dword)
          s.iset e.1 fun t => t.waitAt s.issue.pc (.waitany list d ps)) s)) s

/-- A wait on a list ends when an entry is eligible, or when none can become so. -/
def State.waitAny (s : State) (w t : Nat) : State :=
  let ctx := (s.wg w).ctx
  match (s.thread w t).hold with
  | .waitany tkts d ps =>
    let c := tkts.length
    let st := (List.range c).map fun i =>
      let tk := tkts.getD i 0
      (i, s.ticketCode ctx tk, s.ticket (Tkt.slice tk) (Tkt.entry tk))
    let live := st.filter fun e => e.2.1 == 0
    let ready := live.filter fun e => e.2.2.state == .ready
    let pick := ready.foldl (fun (b : Option (Nat × Nat)) e => match b with
      | some (k, i) => if e.2.2.ready < k then some (e.2.2.ready, e.1) else some (k, i)
      | none => some (e.2.2.ready, e.1)) none
    let done := fun (k : Nat) (ok : Bool) => s.setThread w t fun x =>
      ((x.write d (.ofNat 32 k) ⟨0, (c : Int) - 1⟩).setPred ps ok).resume 8
    match pick with
    | some (_, i) => done i true
    | none => if live = [] then done 0 false else s
  | _ => s

end Sys2Proof.Machine
end

