-- ==== Sys2Proof/Machine/Engine.lean ====
section
/-!
DEFINITION. What the transfer engine, the matrix engine and `TKT.RDS` share: registration in the interlocking table, granules, acceptance,
the rules that let a command start, and its end (spec/14_tile.md R372 to R375, spec/15_transfer.md R391 to R395 and R413 to R422,
spec/12_ordering.md R335).
-/
namespace Sys2Proof.Machine
open Sys2Proof

/-! ### Ranges (R416 to R422) -/

/-- A range that a command registers: the core whose table holds it, its space, its bytes [lo, hi). -/
structure Rng where
  core  : Nat
  space : Space
  dest  : Bool
  lo    : Nat
  hi    : Nat
deriving DecidableEq, Repr

def Rng.meets (a b : Rng) : Bool := a.space == b.space && a.lo < b.hi && b.lo < a.hi

/-- A destination meets another range of the same command (R419). -/
def selfMeets : List Rng → Bool
  | [] => false
  | a :: l => (l.any fun b => (a.dest || b.dest) && a.meets b) || selfMeets l

/-- Entries needed in each core's table (R418). -/
def entriesOf (rs : List Rng) : List (Nat × Nat) :=
  (dedup (rs.map Rng.core)).map fun c => (c, (rs.filter fun r => r.core == c).length)

def State.entriesFit (s : State) (need : List (Nat × Nat)) : Bool :=
  need.all fun e => (s.core e.1).locks.length + e.2 ≤ Config.interlock

/-- The engine's command queue has room (R374, R391). -/
def State.engineRoom (s : State) (c : Nat) (mat : Bool) : Bool :=
  if mat then (s.core c).mq.length + (s.core c).pend.length < Config.mmaQueue else (s.core c).xq.length < Config.xferQueue

/-- Register ranges for a command (R417). -/
def State.addLocks (s : State) (id : Nat) (rs : List Rng) : State :=
  rs.foldl (fun s r => s.setCore r.core fun c => { c with locks := c.locks ++ [⟨id, r.space, r.dest, r.lo, r.hi⟩] }) s

/-- Take a command's ranges out of every table. -/
def State.unlock (s : State) (id : Nat) : State :=
  { s with cores := s.cores.mapVals fun _ c => { c with locks := c.locks.filter fun l => l.cmd != id } }

/-- In one table, an entry of a command that `p` picks meets an entry registered earlier by another command, and one of the two writes
(R375, R422). -/
def tableBlocks (id : Nat) (p : Lock → Bool) (before : List Lock) : List Lock → Bool
  | [] => false
  | l :: rest =>
    (l.cmd == id && p l && before.any fun m => m.cmd != id && m.space == l.space && (m.dest || l.dest) && m.lo < l.hi && l.lo < m.hi) ||
    tableBlocks id p (before ++ [l]) rest

def State.blocked (s : State) (id : Nat) (p : Lock → Bool) : Bool := s.cores.any fun e => tableBlocks id p [] e.2.locks

/-! ### Granules (R413, R414) -/

/-- Granules that the bytes [lo, hi) cover. -/
def granules (lo hi : Nat) : List Nat := (List.range ((hi + 15) / 16 - lo / 16)).map fun i => lo / 16 + i

def Wg.emptyGran (g : Wg) (lo hi : Nat) : Wg :=
  { g with empty := (g.empty.filter fun k => !(lo / 16 ≤ k && k < (hi + 15) / 16)) ++ granules lo hi }
def Wg.fillGran (g : Wg) (lo hi : Nat) : Wg := { g with empty := g.empty.filter fun k => !(lo / 16 ≤ k && k < (hi + 15) / 16) }

/-- Write whole granules of a workgroup's scratchpad and set them full (R335 item 4). -/
def State.writeGran (s : State) (w off : Nat) (bytes : List Byte) : State :=
  (s.spotWrite (.scr w off) bytes).setWg w fun g => g.fillGran off (off + bytes.length)

/-! ### Acceptance (R372, R392) -/

/-- A status word (R387, R393). -/
def statusWord (cause units : Nat) : Word := .ofNat 32 (2 ^ 31 + cause * 2 ^ 24 + units % 2 ^ 24)

/-- What steps 3 to 8 find for one lane's command: a trap; a refusal; the read of a codebook to wait for; or the ranges to register,
the granules (workgroup, first byte, end) to empty, and what the command captures. -/
inductive Exam
  | trap (s : State) (cause addr : Nat)
  | refuse (cause : Nat)
  | book (slot : Nat)
  | take (rs : List Rng) (empty : List (Nat × Nat × Nat)) (record : List Dword) (args : List Nat)

/-- What the metadata check of step 11 finds (R380). -/
inductive Meta
  | wait
  | bad (addr detail : Nat)
  | good

/-- The command that a lane hands over. -/
def State.newCmd (s : State) (i : Instr) (t : Nat) (record : List Dword) (args : List Nat) : Cmd :=
  let w := s.iwg
  { id := w.core + 256 * (s.core w.core).cmdId, instr := i, wid := s.issue.wid, t := t, ctx := w.ctx, kernel := w.kernel, gang := w.gangOf t,
    seq := (s.ithread t).seq, record := record, args := args, started := false, moved := false, at_ := s.clk, begun := 0, cause := 0,
    info := 0, vals := [], wait := none, bad := [] }

/-- Step 10: the ranges are registered, the granules emptied, and the identifier spent. -/
def State.enlist (s : State) (id : Nat) (rs : List Rng) (empty : List (Nat × Nat × Nat)) : State :=
  let s1 := (s.addLocks id rs).setCore s.iwg.core fun c => { c with cmdId := c.cmdId + 1 }
  empty.foldl (fun s e => s.setWg e.1 fun g => g.emptyGran e.2.1 e.2.2) s1

/-- Step 12: the command enters its queue, and its status word is to come. -/
def State.enqueue (s : State) (i : Instr) (t : Nat) (mat : Bool) (c : Cmd) : State :=
  (s.setCore s.iwg.core fun x =>
    if mat then { x with mq := x.mq ++ [c], pend := x.pend.filter fun d => d.id != c.id } else x.setXq s.clk (x.xq ++ [c])).produce i t .engine

/-- A refused command writes its status word at once; what `ACC.AMAX` leaves beside it is a free value (notes/assumptions/3.md). -/
def State.refuse (s : State) (i : Instr) (t cause : Nat) : State :=
  { s.iset t fun x => x.giveNow i (.done [statusWord cause 0, Config.freeWord s.freeCtr] full true) with freeCtr := s.freeCtr + 1 }

/-- The command of a lane that is registered and waits for step 11. -/
def State.pending? (s : State) (t : Nat) : Option Cmd :=
  (s.core s.iwg.core).pend.find? fun c => c.wid == s.issue.wid && c.t == t

/-- Withdraw a registered command. -/
def State.withdraw (s : State) (c : Cmd) : State :=
  (s.unlock c.id).setCore s.iwg.core fun x => { x with pend := x.pend.filter fun d => d.id != c.id }

/-- Lanes in ascending order: each lane's command is accepted or refused before the next lane's is examined; the first that cannot go on
decides for the rest. -/
def acceptLoop (i : Instr) (mat : Bool) (exam : State → Nat → Exam) (check : State → Cmd → Meta) : List Nat → List Nat → State → Res
  | [], _, s => .ok s
  | t :: rest, done, s =>
    let trap := fun (s1 : State) (cause detail addr : Nat) =>
      Res.trapIn s1 { cause := cause, mask := t :: rest, detail := detail, addr := addr, done := done }
    let park := fun (s1 : State) (h : Hold) =>
      let s2 := s1.setThreads s.issue.wid (t :: rest) fun _ x => x.waitAt s.issue.pc h
      if (t :: rest).length = s.issue.lanes.length then .wait s2 else .ok s2
    let tested := fun (s1 : State) (c : Cmd) =>
      match check s1 c with
      | .good => acceptLoop i mat exam check rest (done ++ [t]) (s1.enqueue i t mat c)
      | .bad addr detail => trap (s1.withdraw c) Cause.sparse detail addr
      | .wait => park s1 (.sparse c.id)
    match s.pending? t with
    | some c => tested s c
    | none => match exam s t with
      | .trap s1 cause addr => trap s1 cause 0 addr
      | .refuse cause => acceptLoop i mat exam check rest (done ++ [t]) (s.refuse i t cause)
      | .book k => park s (.codebook k mat s.clk none s.origin)
      | .take rs empty record args =>
        let c := s.newCmd i t record args
        if !s.engineRoom s.iwg.core mat then park s (.engine mat [] s.origin)
        else if selfMeets rs then acceptLoop i mat exam check rest (done ++ [t]) (s.refuse i t (if mat then 0x48 else 0x68))
        else if !s.entriesFit (entriesOf rs) then park s (.engine mat (entriesOf rs) s.origin)
        else
          let s1 := s.enlist c.id rs empty
          tested (if mat then s1.setCore s.iwg.core fun x => { x with pend := x.pend ++ [c] } else s1) c

/-- Steps 3 to 5 for a block of n bytes at a lane's offset: its words, or the trap. -/
def State.examBlock (s : State) (t : Nat) (x : Field) (n : Nat) (f : List Dword → Exam) (bad : Nat) : Exam :=
  let p := ((s.ithread t).val x).toNat
  if p % n ≠ 0 then .trap s Cause.align p
  else if Krec.scratch s.ikrec < p + n then .trap s Cause.bounds p
  else if s.meets (.scr s.issue.wid p) n false then .trap s Cause.lock p
  else match s.spotRead (.scr s.issue.wid p) n with
    | none => .refuse bad
    | some b => f ((List.range (n / 8)).map fun i => .ofNat 64 (ofBytes ((b.drop (8 * i)).take 8)))

/-- Bits [lo+n-1 : lo] of a block of words. -/
def blockFld (l : List Dword) (lo n : Nat) : Nat := (l.foldr (fun w a => w.toNat + 2 ^ 64 * a) 0) / 2 ^ lo % 2 ^ n

/-- The lowest-numbered cause of a list, when there is one. -/
def lowest (l : List Nat) : Option Nat := match l with
  | [] => none
  | a :: l => some (l.foldl min a)

/-- Earlier scratchpad accesses of the thread that are not performed keep an acceptance back: its granule loads. -/
def Thread.granPending (t : Thread) : Bool := t.prods.any fun p => p.work.isGranule

/-! ### Starting and ending a command -/

/-- The command's accesses follow every earlier access of its thread (R335 items 1 and 2). -/
def State.ordered (s : State) (c : Cmd) : Bool :=
  !((s.thread c.wid c.t).prods.any fun p => p.seq < c.seq && (p.work.isAccess || (match p.work with
    | .ticket _ _ _ _ => true
    | _ => false))) &&
  !((s.core (s.wg c.wid).core).siding.any fun e => e.wid == c.wid && e.t == c.t && e.born ≤ c.at_) &&
  !(s.slices.any fun e => e.2.tickets.any fun k =>
      k.2.issuer == (c.wid, c.t) && k.2.inflight && (k.2.state == .pending || k.2.state == .redeeming) && k.2.born ≤ c.at_)

/-- Change a command where it stands. -/
def State.setCmd (s : State) (core id : Nat) (f : Cmd → Cmd) : State :=
  s.setCore core fun x => { x with xq := listSet x.xq (fun c => c.id == id) f, mq := listSet x.mq (fun c => c.id == id) f }

/-- The status word of a command that is over is written, unless its thread has ended (R190). -/
def State.giveStatus (s : State) (c : Cmd) (vals : List Word) (ok : Bool) : State :=
  match (s.thread c.wid c.t).prod? c.seq with
  | some p => if p.work = .engine ∧ c.isPrefetch = false then s.setThread c.wid c.t fun x => x.land p vals full ok else s
  | none => s

/-- The end of a command (R335 item 5): it leaves the table and its queue, and then its status word is written. -/
def State.finishCmd (s : State) (core : Nat) (c : Cmd) (vals : List Word) (ok : Bool) : State :=
  let s1 := (s.unlock c.id).setCore core fun x =>
    { x.setXq s.clk (x.xq.filter fun d => d.id != c.id) with mq := x.mq.filter fun d => d.id != c.id }
  (s1.giveStatus c vals ok).wgRelease c.wid

/-! ### LOCK.Q and the granule instructions (R415, R424) -/

/-- The snapshot word for a range. -/
def State.lockWord (s : State) (sp : Spot) (n : Nat) : Word :=
  let (space, lo, _) := s.lockSpace sp
  let c := s.core s.iwg.core
  let hit := fun (d : Bool) => c.locks.any fun l => l.space == space && l.dest == d && l.lo < lo + n && lo < l.hi
  .ofNat 32 ((hit true).toNat + 2 * (hit false).toNat + 2 ^ 8 * (Config.interlock - c.locks.length) + 2 ^ 16 * c.xq.length)

def execLockQ (g : Guard) (d : Field) (r : LockR) (n : Nat) (s : State) : Host.Outcome State Fault Refusal :=
  issue (.lockQ g d r n) 1 (fun act s => match r with
    | .scratch x => s.viaScratch act x 0 n 1 (some s.issue.wid) none fun l s =>
      .ok (l.foldl (fun s e => s.iset e.1 fun t => t.write d (s.lockWord (.scr s.issue.wid e.2) n) full) s)
    | .global va => .ok (s.setThreads s.issue.wid act fun _ t => t.write d (s.lockWord (.glob (t.pair va)) n) full)) s

/-- `GRAN.FILL` and `GRAN.EMPTY`: after the thread's granule loads, the other scratchpad accesses being performed as they issue. -/
def granBody (act : List Nat) (x : Field) (n : Nat) (fill : Bool) (s : State) : Res :=
  if act.any fun t => (s.ithread t).granPending then .hold
  else s.viaScratch act x 0 (16 * n) 16 (some s.issue.wid) (if fill then some false else none) fun l s =>
    .ok (l.foldl (fun s e => s.setWg s.issue.wid fun g =>
      if fill then g.fillGran e.2 (e.2 + 16 * n) else g.emptyGran e.2 (e.2 + 16 * n)) s)

def execGranFill (g : Guard) (x : Field) (n : Nat) (s : State) : Host.Outcome State Fault Refusal :=
  issue (.granFill g x n) 1 (fun act s => granBody act x n true s) s

def execGranEmpty (g : Guard) (x : Field) (n : Nat) (s : State) : Host.Outcome State Fault Refusal :=
  issue (.granEmpty g x n) 1 (fun act s => granBody act x n false s) s

end Sys2Proof.Machine
end

