-- ==== Sys2Proof/Machine/Matrix.lean ====
section
/-!
DEFINITION. Group 0xA, the matrix engine and the accumulator store (spec/14_tile.md R365 to R390).
-/
namespace Sys2Proof.Machine
open Sys2Proof

/-! ### Parameter blocks and operands (R366 to R371, R379) -/

/-- Some bit of the listed fields is set. -/
def anySet (l : List Dword) (fs : List (Nat × Nat)) : Bool := fs.any fun f => blockFld l f.1 f.2 != 0

/-- Reserved bits of the parameter block (R370), as first bit and length. -/
def mpReserved : List (Nat × Nat) :=
  [(22, 2), (44, 20), (87, 1), (108, 20), (141, 3), (163, 1), (182, 10), (211, 1), (228, 28), (275, 1), (292, 28), (339, 1), (356, 28),
   (403, 1), (420, 28), (452, 4), (466, 46)]

/-- Reserved bits of the accumulator descriptor (R384); `ACC.ZERO` and `ACC.AMAX` ignore bits [127:64]. -/
def adReserved (all : Bool) : List (Nat × Nat) := [(18, 2), (54, 10), (147, 1), (164, 92)] ++ (if all then [(83, 1), (104, 24)] else [])

namespace Mp
variable (l : List Dword)
def m := 16 * (blockFld l 128 4 + 1)
def n := 16 * (blockFld l 132 4 + 1)
def k := 32 * (blockFld l 136 5 + 1)
def accOff := blockFld l 144 18
def accum := blockFld l 162 1 == 1
def accStride := blockFld l 164 18
def mask := blockFld l 448 4
def tag := blockFld l 456 8
def src := blockFld l 464 2
end Mp

/-- An operand of a matrix operation (R368). -/
structure Opnd where
  fmt   : Fmt
  kind  : SpKind
  nm    : Bool
  slot  : Nat
  rows  : Nat
  off   : Nat
  st    : Nat
  peer  : Option Nat
  moff  : Nat
  mst   : Nat
  scaled : Bool
  soff  : Nat
  sst   : Nat
deriving DecidableEq, Repr

/-- Operand A, or B, of a parameter block. -/
def opndOf (r : BitVec 2048) (l : List Dword) (b : Bool) (kind : SpKind) (slot : Nat) : Opnd :=
  let o := if b then 64 else 0
  { fmt := fmtOfCode (Krec.fslot r slot % 16), kind := kind, nm := b && blockFld l 86 1 == 1, slot := slot, rows := if b then Mp.n l else Mp.m l,
    off := blockFld l o 19, st := blockFld l (o + 24) 20, peer := if blockFld l (o + 19) 1 = 1 then some (blockFld l (o + 20) 2) else none,
    moff := blockFld l (192 + o) 19, mst := blockFld l (212 + o) 16, scaled := Krec.fslot r slot / 16 % 4 == 1,
    soff := blockFld l (320 + o) 19, sst := blockFld l (340 + o) 16 }

/-- Rows of data, and the bytes of a row of data, of metadata and of scales. -/
def Opnd.dataRows (o : Opnd) (k : Nat) : Nat := if o.nm then k else o.rows
def Opnd.rowBytes (o : Opnd) (k : Nat) : Nat :=
  let w := fmtWidth o.fmt
  if o.nm then o.rows * w / 8
  else match o.fmt, o.kind with
    | .vq2, _ => k / 4
    | _, .dense => k * w / 8
    | _, .s24 => k * w / 16
    | _, .s14 => k * w / 32
def Opnd.metaBytes (o : Opnd) (k : Nat) : Nat :=
  match o.kind with
  | .dense => 0
  | .s24 => k / 8
  | .s14 => k / 16

/-- The causes of R369 and of a range outside its allocation, for rows at an offset and stride. -/
def strided (off st rows rb lim : Nat) : List Nat :=
  (if off % 16 ≠ 0 ∨ st % 16 ≠ 0 ∨ st < rb then [0x44] else []) ++ (if lim < off + (rows - 1) * st + rb then [0x43] else [])

/-- The hull of such rows (R373). -/
def hullOf (c : Nat) (sp : Space) (dest : Bool) (off st rows rb : Nat) : Rng := ⟨c, sp, dest, off, off + (rows - 1) * st + rb⟩

/-- Kinds of the operands, and what multicast the instruction asks for. -/
def matKinds : Instr → SpKind × SpKind
  | .mmaSp _ _ _ ka kb _ _ _ | .mmaMcr _ _ _ ka kb _ _ => (ka, kb)
  | _ => (.dense, .dense)
def matSlots : Instr → Nat × Nat
  | .mma _ _ _ a b _ | .mmaSp _ _ _ _ _ a b _ | .mmaMcr _ _ _ _ _ a b => (a, b)
  | _ => (0, 0)
def isSender : Instr → Bool
  | .mma _ _ _ _ _ mc | .mmaSp _ _ _ _ _ _ _ mc => mc
  | _ => false
def isReceiver : Instr → Bool
  | .mmaMcr _ _ _ _ _ _ _ => true
  | _ => false

def Cmd.opnd (c : Cmd) (r : BitVec 2048) (b : Bool) : Opnd :=
  opndOf r c.record b (if b then (matKinds c.instr).2 else (matKinds c.instr).1) (if b then (matSlots c.instr).2 else (matSlots c.instr).1)

/-- Causes that one operand's fields give. -/
def Opnd.causes (o : Opnd) (k lim : Nat) : List Nat :=
  (if o.nm && (o.kind != .dense || o.fmt == .vq2) then [0x42] else []) ++
  strided o.off o.st (o.dataRows k) (o.rowBytes k) lim ++
  (if o.kind = .dense then [] else strided o.moff o.mst o.rows (o.metaBytes k) lim) ++
  (if o.scaled then strided o.soff o.sst o.rows (k / 32) lim else [])

/-- Causes that the output tile gives (R366). -/
def tileCauses (off st rows cols accBytes : Nat) : List Nat :=
  (if st < cols then [0x44] else []) ++ (if accBytes / 4 < off + (rows - 1) * st + cols then [0x43] else [])

/-- Source ranges of an operand: data in the scratchpad of `wd`, the rest in the issuing workgroup's. -/
def State.opndRngs (s : State) (o : Opnd) (k wd : Nat) : List Rng :=
  let c := s.iwg.core
  let me := s.issue.wid
  [hullOf (s.wg wd).core (.scratch wd) false o.off o.st (o.dataRows k) (o.rowBytes k)] ++
  (if o.kind = .dense then [] else [hullOf c (.scratch me) false o.moff o.mst o.rows (o.metaBytes k)]) ++
  (if o.scaled then [hullOf c (.scratch me) false o.soff o.sst o.rows (k / 32)] else [])

/-- Step 8: the codebooks of the VQ2 slots named; `none` when the core holds them. -/
def State.needBook (s : State) (slots : List Nat) : Option Exam :=
  let w := s.iwg
  match slots.find? fun k => fmtOfCode (Krec.fslot s.ikrec k % 16) == .vq2 && ((s.core w.core).book w.kernel k).isNone with
  | none => none
  | some k =>
    let va := Krec.codebook s.ikrec k
    some (match s.readBook w.core w.ctx va with
      | .bytes _ _ | .miss _ _ => .book k
      | .page s1 => .trap s1 Cause.page va
      | .ue _ => .trap s Cause.ue va)

/-- Steps 6 to 8 for a matrix operation, and its ranges (R373). -/
def State.examMma (s : State) (i : Instr) (l : List Dword) : Exam :=
  let r := s.ikrec
  let k := Mp.k l
  let a := opndOf r l false (matKinds i).1 (matSlots i).1
  let b := opndOf r l true (matKinds i).2 (matSlots i).2
  let own := s.iwg.core % 4
  let bad := (if anySet l mpReserved || ((isSender i) && (Mp.mask l = 0 || Mp.mask l / 2 ^ own % 2 = 1)) then [0x41] else []) ++
    a.causes k (Krec.scratch r) ++ (if (isReceiver i) then [] else b.causes k (Krec.scratch r)) ++
    tileCauses (Mp.accOff l) (Mp.accStride l) (Mp.m l) (Mp.n l) (Krec.acc r)
  let at_ := fun (o : Opnd) => match o.peer with
    | none => some s.issue.wid
    | some p => s.peerWg p
  match lowest bad, at_ a, (if (isReceiver i) then some s.issue.wid else at_ b) with
  | some c, _, _ => .refuse c
  | none, some wa, some wb =>
    (s.needBook [(matSlots i).1, (matSlots i).2]).getD
      (.take ([(⟨s.iwg.core, .acc s.issue.wid, true, 4 * Mp.accOff l, 4 * (Mp.accOff l + (Mp.m l - 1) * Mp.accStride l + Mp.n l)⟩ : Rng)] ++
        s.opndRngs a k wa ++ (if (isReceiver i) then [] else s.opndRngs b k wb)) [] l [wa, wb])
  | none, _, _ => .refuse 0x45

/-! ### Metadata (R379, R380) -/

def byteAt (m : NMap Byte) (a : Nat) : Nat := (Memory.read m a).toNat

/-- Element e of w bits of a row (R79). -/
def elemAt (m : NMap Byte) (row w e : Nat) : Nat := Memory.readLE m (row + w * e / 8) 3 / 2 ^ (w * e % 8) % 2 ^ w

/-- The 2:4 entry of group j, and the 1:4 entry. -/
def meta4 (m : NMap Byte) (row j : Nat) : Nat := byteAt m (row + j / 2) / 2 ^ (4 * (j % 2)) % 16
def meta2 (m : NMap Byte) (row j : Nat) : Nat := byteAt m (row + j / 4) / 2 ^ (2 * (j % 4)) % 4

/-- The first 2:4 entry with i0 ≥ i1: its byte and the detail of the frame. -/
def Opnd.badMeta (o : Opnd) (m : NMap Byte) (k code : Nat) : Option (Nat × Nat) :=
  if o.kind ≠ .s24 then none
  else (List.range o.rows).findSome? fun i => (List.range (k / 4)).findSome? fun j =>
    let q := meta4 m (o.moff + i * o.mst) j
    if q / 4 ≤ q % 4 then some (o.moff + i * o.mst + j / 2, code + 2 ^ 8 * i + 2 ^ 16 * j) else none

/-- Step 11 of R372: only `MMA.SP`; the metadata is read once no earlier command writes it. -/
def State.metaCheck (s : State) (c : Cmd) : Meta :=
  match c.instr with
  | .mmaSp _ _ _ _ _ _ _ _ =>
    let r := (s.kern c.kernel).krec
    let a := c.opnd r false
    let b := c.opnd r true
    let mine := fun (l : Lock) => !l.dest && l.space == .scratch c.wid &&
      ((a.kind == .s24 && l.lo == a.moff) || (b.kind == .s24 && l.lo == b.moff))
    if s.blocked c.id mine then .wait
    else
      let m := (s.wg c.wid).scratch
      let k := Mp.k c.record
      match a.badMeta m k 1, b.badMeta m k 2 with
      | some (x, d), _ => .bad x d
      | none, some (x, d) => .bad x d
      | none, none => .good
  | _ => .good

/-! ### The operations (R376, R378) -/

/-- The stored element that position k of a row has, if it is present; where both indices of an entry name it, a free choice by the entry. -/
def storedAt (kind : SpKind) (m : NMap Byte) (row k : Nat) : Option Nat :=
  match kind with
  | .dense => some k
  | .s14 => if k % 4 = meta2 m row (k / 4) then some (k / 4) else none
  | .s24 =>
    let q := meta4 m row (k / 4)
    if k % 4 = q % 4 ∧ k % 4 = q / 4 then some (2 * (k / 4) + (Config.sparsePick q).toNat)
    else if k % 4 = q % 4 then some (2 * (k / 4))
    else if k % 4 = q / 4 then some (2 * (k / 4) + 1)
    else none

/-- The values of row i of an operand at positions 0 to K − 1: data from the scratchpad of `wd`, the rest from that of `wo`. -/
def State.opndRow (s : State) (c : Cmd) (o : Opnd) (wd wo k i : Nat) : List (Option Num) :=
  let data := (s.wg wd).scratch
  let own := (s.wg wo).scratch
  let r := (s.kern c.kernel).krec
  let w := fmtWidth o.fmt
  let row := o.off + i * o.st
  let tensor := f32 (Krec.tensor r o.slot)
  let va := Krec.codebook r o.slot
  let book := ((s.core (s.wg c.wid).core).book c.kernel o.slot).getD []
  (List.range k).map fun p =>
    let x : Option Num :=
      if o.nm then some (decodeFmt o.fmt (elemAt data (o.off + p * o.st) w i))
      else match o.fmt with
        | .vq2 =>
          let code := elemAt data row 16 (p / 8)
          (decodeVq2 code (s.bookEntry c.ctx va book (code / 256)))[p % 8]?
        | f => (storedAt o.kind own (o.moff + i * o.mst) p).map fun e =>
            decodeFmt f (elemAt data row w e)
    x.map fun v => scaled v (if o.scaled then some (byteAt own (o.soff + i * o.sst + p / 32)) else none) tensor

/-- An uncorrectable byte lies in a range. -/
def Wg.spoiled (g : Wg) (lo n : Nat) : Bool := g.badScratch.any fun b => lo ≤ b && b < lo + n

/-- Block n of 16 rows (or columns) of an operand reads an uncorrectable byte. -/
def State.opndBad (s : State) (o : Opnd) (wd wo k n : Nat) : Bool :=
  let d := s.wg wd
  let own := s.wg wo
  let rows := (List.range 16).map fun i => 16 * n + i
  (if o.nm then (List.range k).any fun p => d.spoiled (o.off + p * o.st + 2 * fmtWidth o.fmt * n) (2 * fmtWidth o.fmt)
   else rows.any fun i => d.spoiled (o.off + i * o.st) (o.rowBytes k)) ||
  (rows.any fun i => o.kind != .dense && own.spoiled (o.moff + i * o.mst) (o.metaBytes k)) ||
  (rows.any fun i => o.scaled && own.spoiled (o.soff + i * o.sst) (k / 32))

/-- Write words of the accumulator store. -/
def State.putAcc (s : State) (w : Nat) (l : List (Nat × Word)) : State :=
  s.setWg w fun g => { g with acc := l.foldl (fun m e => m.set e.1 e.2) g.acc, badAcc := g.badAcc.filter fun b => !(l.any fun e => e.1 == b) }

/-- Groups of terms of one output element (R92). -/
def termGroups (g k : Nat) (a b : List (Option Num)) : List (List Num) :=
  let t := a.zip b
  (List.range (k / g)).map fun j => ((t.drop (g * j)).take g).filterMap fun e =>
    match e.1, e.2 with
    | some x, some y => some (x.mul y)
    | _, _ => none

/-- Run a matrix operation; B comes from command `cb` (the command itself, or the sender of a multicast).  The result is the state, the
blocks written and whether an uncorrectable byte was read. -/
def State.runMma (s : State) (c cb : Cmd) : State × Nat × Bool :=
  let r := (s.kern c.kernel).krec
  let l := c.record
  let k := Mp.k l
  let a := c.opnd r false
  let b := cb.opnd r true
  let wa := c.args.getD 0 c.wid
  let wb := cb.args.getD 1 cb.wid
  let narrow := fun (f : Fmt) => f == .bf16 || f == .f16
  let g := if narrow a.fmt || narrow b.fmt then 16 else 32
  let as := (List.range (Mp.m l)).map (s.opndRow c a wa c.wid k)
  let bs := (List.range (Mp.n l)).map (s.opndRow c b wb cb.wid k)
  let blocks := ((List.range (Mp.m l / 16)).map fun x => (List.range (Mp.n l / 16)).map fun y => (x, y)).flatten
  let word := fun (m n : Nat) => Mp.accOff l + m * Mp.accStride l + n
  blocks.foldl (fun (z : State × Nat × Bool) (e : Nat × Nat) =>
    let w := z.1.wg c.wid
    let cells := ((List.range 16).map fun i => (List.range 16).map fun j => (16 * e.1 + i, 16 * e.2 + j)).flatten
    let bad := s.opndBad a wa c.wid k e.1 || s.opndBad b wb cb.wid k e.2 ||
      (Mp.accum l && cells.any fun q => w.badAcc.contains (word q.1 q.2))
    let out := cells.map fun q =>
      (word q.1 q.2,
       if bad then w32 .nan
       else accumulate (if Mp.accum l then w.acc.getD (word q.1 q.2) 0 else 0) (termGroups g k (as.getD q.1 []) (bs.getD q.2 [])))
    (z.1.putAcc c.wid out, z.2.1 + 1, z.2.2 || bad)) (s, 0, false)

/-! ### The accumulator commands (R384 to R386) -/

namespace Ad
variable (l : List Dword)
def off := blockFld l 0 18
def rows := blockFld l 20 8 + 1
def cols := blockFld l 28 8 + 1
def stride := blockFld l 36 18
def spOff := blockFld l 64 19
def spStride := blockFld l 84 20
def scOff := blockFld l 128 19
def scStride := blockFld l 148 16
end Ad

/-- The scratchpad rows of an accumulator command: offset, stride and row bytes of the data and of the scales. -/
def adRows (r : BitVec 2048) (i : Instr) (l : List Dword) : List (Nat × Nat × Nat) :=
  match i with
  | .accLd _ _ _ => [(Ad.spOff l, Ad.spStride l, 4 * Ad.cols l)]
  | .accSt _ _ _ => [(Ad.spOff l, Ad.spStride l, roundUp (4 * Ad.cols l) 16)]
  | .accCvt _ _ _ k _ _ =>
    let data := (Ad.spOff l, Ad.spStride l, roundUp (ceilDiv (Ad.cols l * fmtWidth (fmtOfCode (Krec.fslot r k % 16))) 8) 16)
    if Krec.fslot r k / 16 % 4 = 1 then [data, (Ad.scOff l, Ad.scStride l, roundUp (Ad.cols l / 32) 16)] else [data]
  | _ => []

def toTile : Instr → Bool
  | .accZero _ _ _ | .accLd _ _ _ => true
  | _ => false

/-- Step 6 for an accumulator command, and its ranges (R385). -/
def State.examAcc (s : State) (i : Instr) (l : List Dword) : Exam :=
  let r := s.ikrec
  let c := s.iwg.core
  let me := s.issue.wid
  let rows := adRows r i l
  let all := match i with
    | .accZero _ _ _ | .accAmax _ _ _ => false
    | _ => true
  let conflict := match i with
    | .accCvt _ _ _ k _ _ => Krec.fslot r k / 16 % 4 == 1 && Ad.cols l % 32 != 0
    | _ => false
  let bad := (if anySet l (adReserved all) then [0x41] else []) ++ (if conflict then [0x42] else []) ++
    tileCauses (Ad.off l) (Ad.stride l) (Ad.rows l) (Ad.cols l) (Krec.acc r) ++
    (rows.map fun e => strided e.1 e.2.1 (Ad.rows l) e.2.2 (Krec.scratch r)).flatten
  match lowest bad with
  | some x => .refuse x
  | none =>
    let out := !(toTile i)
    .take (⟨c, .acc me, (toTile i), 4 * Ad.off l, 4 * (Ad.off l + (Ad.rows l - 1) * Ad.stride l + Ad.cols l)⟩ ::
        rows.map fun e => hullOf c (.scratch me) out e.1 e.2.1 (Ad.rows l) e.2.2)
      (if out then (rows.map fun e => (List.range (Ad.rows l)).map fun j => (me, e.1 + j * e.2.1, e.1 + j * e.2.1 + e.2.2)).flatten else [])
      l []

/-- The exact quotient, with IEEE rules for a zero divisor (R386). -/
def divIeee (x t : Num) : Num :=
  match x, t with
  | .fin s n d, .fin u m e => if m = 0 then (if n = 0 then .nan else .inf (s != u)) else (Num.fin s n d).div (.fin u m e)
  | .inf s, .fin u _ _ => .inf (s != u)
  | _, _ => .nan

/-- The tile's words by row, an uncorrectable one as the canonical NaN, and whether there is one. -/
def Wg.tile (g : Wg) (l : List Dword) : List (List Word) × Bool :=
  let at_ := fun r c => Ad.off l + r * Ad.stride l + c
  ((List.range (Ad.rows l)).map fun r => (List.range (Ad.cols l)).map fun c =>
      if g.badAcc.contains (at_ r c) then w32 .nan else g.acc.getD (at_ r c) 0,
   (List.range (Ad.rows l)).any fun r => (List.range (Ad.cols l)).any fun c => g.badAcc.contains (at_ r c))

/-- The data bytes and the scale bytes of one row of `ACC.CVT`. -/
def cvtRow (f : Fmt) (scaledBy : Bool) (t : Num) (rnd : Rnd) (sat : Bool) (row : List Word) (rb : Nat) : List Byte × List Byte :=
  let w := fmtWidth f
  if scaledBy then
    let bs := (List.range (row.length / 32)).map fun j => quantiseBlock (((row.drop (32 * j)).take 32).map f32) f t
    (bytesOf (packCodes w (bs.map Prod.snd).flatten) rb,
     bytesOf (packCodes 8 (bs.map Prod.fst)) (roundUp (row.length / 32) 16))
  else (bytesOf (packCodes w (row.map fun x => trunc (convert f rnd sat false (divIeee (f32 x) t)) w)) rb, [])

/-- Run an accumulator command: the state, the second word of `ACC.AMAX`, and whether an uncorrectable byte was read. -/
def State.runAcc (s : State) (c : Cmd) : State × List Word × Bool :=
  let r := (s.kern c.kernel).krec
  let l := c.record
  let g := s.wg c.wid
  let (tile, bad) := g.tile l
  let rs := List.range (Ad.rows l)
  let at_ := fun x y => Ad.off l + x * Ad.stride l + y
  match c.instr with
  | .accZero _ _ _ => (s.putAcc c.wid (rs.map fun x => (List.range (Ad.cols l)).map fun y => (at_ x y, (0 : Word))).flatten, [], false)
  | .accLd _ _ _ =>
    let a := fun x y => Ad.spOff l + x * Ad.spStride l + 4 * y
    (s.putAcc c.wid (rs.map fun x => (List.range (Ad.cols l)).map fun y =>
        (at_ x y, if g.spoiled (a x y) 4 then w32 .nan else .ofNat 32 (Memory.readLE g.scratch (a x y) 4))).flatten, [],
      rs.any fun x => g.spoiled (a x 0) (4 * Ad.cols l))
  | .accSt _ _ _ =>
    (rs.foldl (fun s x => s.writeGran c.wid (Ad.spOff l + x * Ad.spStride l) (bytesOf (ofWords (tile.getD x [])) (roundUp (4 * Ad.cols l) 16))) s,
     [], bad)
  | .accCvt _ _ _ k rnd sat =>
    let f := fmtOfCode (Krec.fslot r k % 16)
    let rb := roundUp (ceilDiv (Ad.cols l * fmtWidth f) 8) 16
    (rs.foldl (fun s x =>
      let (d, sc) := cvtRow f (Krec.fslot r k / 16 % 4 == 1) (f32 (Krec.tensor r k)) rnd sat (tile.getD x []) rb
      let s1 := s.writeGran c.wid (Ad.spOff l + x * Ad.spStride l) d
      if sc = [] then s1 else s1.writeGran c.wid (Ad.scOff l + x * Ad.scStride l) sc) s, [], bad)
  | .accAmax _ _ _ => (s, [amaxWord (tile.flatten.map f32) 0], bad)
  | _ => (s, [], false)

/-! ### The instructions -/

/-- The course of a matrix command. -/
def matIssue (i : Instr) (x : Field) (n : Nat) (f : State → Instr → List Dword → Exam) (s : State) : Host.Outcome State Fault Refusal :=
  issue i 1 (fun act s => if s.orderHolds act .relaxed then .hold
    else acceptLoop i true (fun s t => s.examBlock t x n (f s i) 0x4A) State.metaCheck act [] s) s

def execMma (g : Guard) (d x : Field) (fa fb : Nat) (mc : Bool) (s : State) : Host.Outcome State Fault Refusal :=
  matIssue (.mma g d x fa fb mc) x 64 State.examMma s
def execMmaSp (g : Guard) (d x : Field) (ka kb : SpKind) (fa fb : Nat) (mc : Bool) (s : State) : Host.Outcome State Fault Refusal :=
  matIssue (.mmaSp g d x ka kb fa fb mc) x 64 State.examMma s
def execMmaMcr (g : Guard) (d x : Field) (ka kb : SpKind) (fa fb : Nat) (s : State) : Host.Outcome State Fault Refusal :=
  matIssue (.mmaMcr g d x ka kb fa fb) x 64 State.examMma s
def execAccZero (g : Guard) (d x : Field) (s : State) : Host.Outcome State Fault Refusal :=
  matIssue (.accZero g d x) x 32 State.examAcc s
def execAccLd (g : Guard) (d x : Field) (s : State) : Host.Outcome State Fault Refusal :=
  matIssue (.accLd g d x) x 32 State.examAcc s
def execAccSt (g : Guard) (d x : Field) (s : State) : Host.Outcome State Fault Refusal :=
  matIssue (.accSt g d x) x 32 State.examAcc s
def execAccCvt (g : Guard) (d x : Field) (slot : Nat) (r : Rnd) (sat : Bool) (s : State) : Host.Outcome State Fault Refusal :=
  matIssue (.accCvt g d x slot r sat) x 32 State.examAcc s
def execAccAmax (g : Guard) (d x : Field) (s : State) : Host.Outcome State Fault Refusal :=
  matIssue (.accAmax g d x) x 32 State.examAcc s

/-! ### The engine (R374, R376, R381 to R383) -/

/-- A command starts with its outcome settled. -/
def State.settleCmd (s : State) (core : Nat) (c : Cmd) (cause units : Nat) (vals : List Word) : State :=
  s.setCmd core c.id fun d => { d with started := true, moved := true, begun := s.clk, cause := cause, info := units, vals := vals }

/-- Run one command of the matrix engine. -/
def State.runMat (s : State) (core : Nat) (c cb : Cmd) : State :=
  match c.instr with
  | .mma _ _ _ _ _ _ | .mmaSp _ _ _ _ _ _ _ _ | .mmaMcr _ _ _ _ _ _ _ =>
    let (s1, n, bad) := s.runMma c cb
    ({ s1 with freeCtr := s1.freeCtr + 256 } : State).settleCmd core c (if bad then 0x4A else 0) n []
  | _ =>
    let (s1, vals, bad) := s.runAcc c
    s1.settleCmd core c (if bad then 0x4A else 0) (Ad.rows c.record * Ad.cols c.record) vals

/-- The command at the head of a core's matrix engine that could run, and has not started. -/
def State.matHead (s : State) (core : Nat) : Option Cmd :=
  match (s.core core).mq with
  | c :: _ => if !c.started && s.ordered c && !s.blocked c.id (fun _ => true) then some c else none
  | [] => none

/-- The wait of a core's head command for the other parties of its multicast has lasted 65,536 clk (R383). -/
def State.mcExpired (s : State) (core : Nat) : Bool := (s.core core).mcast.any fun t => t + 65536 ≤ s.clk

/-- A party of a multicast that has reached the head of its engine, and whose wait has not expired. -/
def State.mcHead (s : State) (core : Nat) : Option Cmd :=
  if (s.core core).mcast.isSome && !s.mcExpired core then s.matHead core else none

/-- The receivers that match a sender, by core, for each position that its mask names; `none` where there is none yet (R382). -/
def State.receivers (s : State) (core : Nat) (c : Cmd) : List (Option (Nat × Cmd)) :=
  ((List.range 4).filter fun p => Mp.mask c.record / 2 ^ p % 2 = 1).map fun p =>
    let k := core / 4 * 4 + p
    (s.mcHead k).bind fun d =>
      if (isReceiver d.instr) && d.kernel == c.kernel && Mp.tag d.record == Mp.tag c.record && Mp.src d.record == core % 4 then some (k, d) else none

/-- A matched pair agrees on N, K, the format slot of B and its sparsity. -/
def agree (c d : Cmd) : Bool :=
  Mp.n c.record == Mp.n d.record && Mp.k c.record == Mp.k d.record && (matSlots c.instr).2 == (matSlots d.instr).2 &&
    (matKinds c.instr).2 == (matKinds d.instr).2

/-- Match a sender with its receivers, when that can be done. -/
def State.matchSender (s : State) (core : Nat) (c : Cmd) : State :=
  let rs := s.receivers core c
  let got := rs.filterMap id
  if got.any fun e => !agree c e.2 then
    got.foldl (fun s e => s.settleCmd e.1 e.2 0x46 0 []) (s.settleCmd core c 0x46 0 [])
  else if rs.all Option.isSome then got.foldl (fun s e => s.runMat e.1 e.2 c) (s.runMat core c c)
  else s

/-- The end of a matrix command; its engine waits for no multicast any more. -/
def State.endMat (s : State) (core : Nat) (c : Cmd) (cause : Nat) : State :=
  (s.finishCmd core c (statusWord cause c.info :: c.vals) true).setCore core fun x => { x with mcast := none }

/-- A party that has waited 65,536 clk completes with cause 0x47; with a sender, the receivers that it has matched (R383). -/
def State.mcExpire (s : State) (core : Nat) (c : Cmd) : State :=
  let others := if (isSender c.instr) then (s.receivers core c).filterMap id else []
  others.foldl (fun s e => s.endMat e.1 e.2 0x47) (s.endMat core c 0x47)

/-- The matrix engine starts the command at the head of its queue; a party of a multicast waits there for the others, for so long. -/
def execMmaStart (core : Nat) (s : State) : Host.Outcome State Fault Refusal :=
  .next (match s.matHead core with
    | none => s
    | some c =>
      if s.mcExpired core then s.mcExpire core c
      else
        let s1 := s.setCore core fun x => { x with mcast := some (x.mcast.getD s.clk) }
        if (isSender c.instr) then s1.matchSender core c
        else if (isReceiver c.instr) then
          let k := core / 4 * 4 + Mp.src c.record
          match s1.mcHead k with
          | some d => if (isSender d.instr) then s1.matchSender k d else s1
          | none => s1
        else s.runMat core c c)

def execMmaComplete (core : Nat) (s : State) : Host.Outcome State Fault Refusal :=
  .next (match (s.core core).mq with
    | c :: _ => if c.started then s.endMat core c c.cause else s
    | [] => s)

def execMulticastTimeout (core : Nat) (s : State) : Host.Outcome State Fault Refusal :=
  .next (match s.matHead core with
    | some c => if s.mcExpired core then s.mcExpire core c else s
    | none => s)

end Sys2Proof.Machine
end

