-- ==== Sys2Proof/Machine/Pages.lean ====
section
/-!
DEFINITION. Frames of pages: taking and freeing them, and the change of a page's frame (spec/17_page.md R452, R453, R463).  A PTE of a
large page names the 32 frames of its run, each with a count of its own (notes/assumptions/24.md).
-/
namespace Sys2Proof.Machine
open Sys2Proof

/-- Frames of a page, and its bytes. -/
def pageSpan (large : Bool) : Nat := if large then 32 else 1

/-- A page still waits for the pager. -/
def State.missing (s : State) (pg : Nat) : Bool := s.slices.any fun e => e.2.misses.any fun m => m.page == pg

/-- Change the count of the frames of a page by d; a frame whose count reaches 0 is freed.  A count of 0 goes no lower. -/
def State.adjFrames (s : State) (pool f n : Nat) (d : Int) : State :=
  (List.range n).foldl (fun s i =>
    let c := ((s.pool pool).count (f + i) : Int) + d
    if c < 0 then s else s.setCount pool (f + i) c.toNat) s

/-- Take the frame, or the run, of a page from a pool: the first frame, with counts of 1. -/
def State.takeFrames (s : State) (pool : Nat) (large : Bool) : Option (Nat × State) :=
  if !(s.pool pool).up then none
  else (if large then s.popRun pool else s.popFrame pool).map fun e =>
    (e.1, (List.range (pageSpan large)).foldl (fun s i => s.setPool pool fun p => p.setEntry (e.1 + i) 1 false false) e.2)

/-- Copy a range of frames with its poison marks (R463 step 3). -/
def State.copyFrames (s : State) (src dst n : Nat) : State :=
  let inside := fun (a l : Nat) => a / 128 ≤ l && l < (a + n) / 128
  { s with mem := Memory.move s.mem src dst n,
           poison := (s.poison.filter fun l => !inside dst l) ++ (s.poison.filter (inside src)).map fun l => l - src / 128 + dst / 128 }

/-- The page of a PTE moves to the frame f of a pool (R463): the copy, the entry, and the tier that grants remember. -/
def State.repage (s : State) (ia ptea : Nat) (large : Bool) (pool f : Nat) : State :=
  let p := s.pte ptea
  let old := poolOf (Pte.tier p) (Pte.frame p)
  let n := 65536 * pageSpan large
  let s1 := s.copyFrames (framePa old (frameNo (Pte.tier p) (Pte.frame p))) (framePa pool f) n
  let s2 := s1.setPte ptea (Pte.put (Pte.put p 1 2 (if pool < 32 then 0 else 1)) 32 40 (frameRef pool f))
  let pg := ia / n * n
  { s2 with cores := s2.cores.mapVals fun _ c =>
      { c with grants := c.grants.map fun g => if g.page = pg then { g with far := decide (32 ≤ pool) } else g } }

end Sys2Proof.Machine
end

