-- ==== Sys2Proof/Machine/Transfer.lean ====
section
/-!
DEFINITION. Group 0xB and `TKT.RDS`: the transfer engine (spec/15_transfer.md R391 to R428, spec/11_ticket.md R306, spec/10_array.md R261,
spec/17_page.md R464).
-/
namespace Sys2Proof.Machine
open Sys2Proof

/-! ### Tensor layout records (R396 to R398) -/

namespace Tl
variable (l : List Dword)
def base := blockFld l 0 57
def dir := blockFld l 57 1
def near := blockFld l 58 1 == 1
def svc := blockFld l 59 2
def esize := blockFld l 61 3
def rank := blockFld l 64 2 + 1
def dim (d : Nat) := blockFld l (96 + 32 * d) 32
def stride (d : Nat) := if d = 0 then 0 else blockFld l (184 + 40 * d) 40
def box (d : Nat) := blockFld l (344 + 8 * d) 8 + 1
def spOff := blockFld l 376 19
def spStride := blockFld l 396 20
def auxOff := blockFld l 416 19
def aux := blockFld l 448 64
def half := esize l == 5
/-- ⌈s⌉, and the bytes of n elements. -/
def unit := if esize l = 5 then 1 else 2 ^ esize l
def bytes (n : Nat) := if esize l = 5 then (n + 1) / 2 else n * 2 ^ esize l
/-- floor(g × s). -/
def floor (g : Nat) := if esize l = 5 then g / 2 else g * 2 ^ esize l
/-- The address of an element in range. -/
def addr (g : List Nat) := base l + floor l (g.getD 0 0) + ((List.range (rank l)).map fun d => if d = 0 then 0 else g.getD d 0 * stride l d).foldl (· + ·) 0
end Tl

def tlReserved : List (Nat × Nat) := [(66, 30), (395, 1), (435, 13)]

namespace Im
variable (l : List Dword)
def fld (lo n : Nat) := Tl.aux l / 2 ^ lo % 2 ^ n
def kh := fld l 0 4 + 1
def kw := fld l 4 4 + 1
def sh := fld l 8 4 + 1
def sw := fld l 12 4 + 1
def ph := fld l 16 4
def pw := fld l 20 4
def dh := fld l 24 4 + 1
def dw := fld l 28 4 + 1
def set := fld l 32 2
end Im

/-- What the engine does for an instruction. -/
inductive Move | copy | im2c | gath | scat | unpk | pack | mcast | pref | pagein | rds | page
deriving DecidableEq, Repr

def moveOf : Instr → Move
  | .xferIm2c _ _ _ _ _ _ => .im2c
  | .xferGath _ _ _ _ _ => .gath
  | .xferScat _ _ _ _ => .scat
  | .xferUnpk _ _ _ _ _ => .unpk
  | .xferPack _ _ _ _ => .pack
  | .xferMcast _ _ _ _ _ _ => .mcast
  | .xferPref _ _ _ _ _ | .pref _ _ _ => .pref
  | .xferPagein _ _ _ _ => .pagein
  | .tktRds _ _ _ _ _ => .rds
  | .pageCopy _ _ _ _ => .page
  | _ => .copy

/-- The instruction carries `.WAITEMPTY`. -/
def waitsEmpty : Instr → Bool
  | .xfer _ _ _ _ we | .xferGath _ _ _ _ we | .xferUnpk _ _ _ _ we | .xferMcast _ _ _ _ we _ | .xferIm2c _ _ _ _ we _ => we
  | _ => false

/-- The mask of `XFER.MCAST`, and the placement of a command. -/
def mcastMask : Instr → BitVec 4
  | .xferMcast _ _ _ _ _ m => m
  | _ => 0
def placeOf : Instr → Place
  | .xferPref _ _ _ _ p | .xferPagein _ _ _ p => p
  | _ => .home
def isFresh : Instr → Bool
  | .xferIm2c _ _ _ _ _ f => f
  | _ => false

/-- Rows of the tile, and the bytes of a row. -/
def tileRows (m : Move) (l : List Dword) : Nat :=
  match m with
  | .im2c | .gath | .scat => Tl.box l 1
  | .unpk | .pack => Tl.box l 0
  | _ => Tl.box l 1 * Tl.box l 2 * Tl.box l 3
def tileRow (m : Move) (l : List Dword) : Nat :=
  match m with
  | .im2c => Im.kh l * Im.kw l * Tl.bytes l (Tl.box l 0)
  | .unpk | .pack => 128 * Tl.unit l
  | _ => Tl.bytes l (Tl.box l 0)
def tilePad (m : Move) (l : List Dword) : Nat := roundUp (tileRow m l) 16
/-- The end of the tile. -/
def tileEnd (m : Move) (l : List Dword) : Nat := Tl.spOff l + (tileRows m l - 1) * Tl.spStride l + tilePad m l

/-- In-range coordinates of a dimension from c over n: the first and the last. -/
def clipDim (dim : Nat) (c : Int) (n : Nat) : Option (Nat × Nat) :=
  let lo := max c 0
  let hi := min (c + n) dim - 1
  if lo ≤ hi then some (lo.toNat, hi.toNat) else none

/-- Positions that `XFER.IM2C` reads along a dimension. -/
def imSpan (dim : Nat) (pos : List Int) : List Nat := dedup ((pos.filter fun (x : Int) => 0 ≤ x && x < dim).map Int.toNat)
def imWs (l : List Dword) (c : List Int) : List Nat :=
  imSpan (Tl.dim l 1) (((List.range (Tl.box l 1)).map fun (p : Nat) => (List.range (Im.kw l)).map fun (v : Nat) =>
    (c.getD 1 0 + p) * Im.sw l - Im.pw l + (v : Int) * Im.dw l).flatten)
def imHs (l : List Dword) (c : List Int) : List Nat :=
  imSpan (Tl.dim l 2) ((List.range (Im.kh l)).map fun (u : Nat) => c.getD 2 0 * Im.sh l - Im.ph l + (u : Int) * Im.dh l)

/-- The extremes of each dimension's in-range coordinates; `none` when no element is in range. -/
def boxLimits (m : Move) (l : List Dword) (c : List Int) : Option (List (Nat × Nat)) :=
  let ends := fun (x : List Nat) => match x with
    | [] => none
    | a :: b => some (b.foldl min a, b.foldl max a)
  let dims := (List.range (Tl.rank l)).map fun d =>
    match m, d with
    | .im2c, 1 => ends (imWs l c)
    | .im2c, 2 => ends (imHs l c)
    | .im2c, 3 => clipDim (Tl.dim l 3) (c.getD 3 0) 1
    | .gath, 1 | .scat, 1 => if Tl.dim l 1 = 0 then none else some (0, Tl.dim l 1 - 1)
    | _, _ => clipDim (Tl.dim l d) (c.getD d 0) (Tl.box l d)
  if dims.all Option.isSome then some (dims.filterMap id) else none

/-- The global hull [first, end) (R398, R403). -/
def hullBytes (m : Move) (l : List Dword) (c : List Int) : Option (Nat × Nat) :=
  (boxLimits m l c).map fun b => (Tl.addr l (b.map Prod.fst), Tl.addr l (b.map Prod.snd) + Tl.unit l)

/-- Chunks of the tensor (R404). -/
def chunks (l : List Dword) : Nat := ceilDiv (Tl.dim l 0) 128

/-- Causes of R397 and of the command's own rules; `XFER.UNPK` and `XFER.PACK` use no field of the dimensions above 0. -/
def recordCauses (m : Move) (we : Bool) (mask : BitVec 4) (l : List Dword) (c : List Int) (c1 scratch : Nat) : List Nat :=
  let B := Tl.box l
  let pick := fun (b : Bool) (k : Nat) => if b then [k] else []
  let tile := m != .pref
  let idx := m == .gath || m == .scat
  let packed := m == .unpk || m == .pack
  let dims := if packed then 1 else Tl.rank l
  let wrongDir := match m with
    | .copy => Tl.dir l == 1 && we
    | .scat | .pack => Tl.dir l == 0
    | .pref => false
    | _ => Tl.dir l == 1
  pick (anyTl l) 0x61 ++
  pick (6 ≤ Tl.esize l || (List.range dims).any (fun d => Tl.dim l d == 0) ||
    (!packed && (List.range 4).any (fun d => Tl.rank l ≤ d && 1 < B d))) 0x61 ++
  pick (m == .im2c && (Tl.aux l / 2 ^ 34 != 0 || 1 < B 2 || 1 < B 3)) 0x61 ++
  pick (packed && Tl.aux l / 2 ^ 57 != 0) 0x61 ++ pick (m == .mcast && mask == 0) 0x61 ++
  pick wrongDir 0x62 ++ pick (Tl.esize l == 5 && m != .copy && m != .pref) 0x62 ++ pick (m == .im2c && Tl.rank l < 3) 0x62 ++
  pick (idx && (Tl.rank l != 2 || 1 < B 2 || 1 < B 3)) 0x62 ++
  pick (packed && (Tl.rank l != 1 || 2 < Tl.esize l || Tl.aux l % 4 != 0)) 0x62 ++
  pick (tile && scratch < tileEnd m l) 0x63 ++ pick (idx && scratch < Tl.auxOff l + 4 * B 1) 0x63 ++
  pick (!packed && (match hullBytes m l c with
    | some h => 2 ^ 57 < h.2
    | none => false)) 0x63 ++
  pick (m == .pack && (c.getD 0 0 < 0 || (chunks l : Int) < c.getD 0 0 + B 0 || 2 ^ 32 < c1 + B 0 * (16 + 128 * Tl.unit l))) 0x63 ++
  pick (tile && (Tl.spOff l % 16 != 0 || Tl.spStride l % 16 != 0 || (1 < tileRows m l && Tl.spStride l < tilePad m l))) 0x64 ++
  pick (idx && Tl.auxOff l % 16 != 0) 0x64 ++ pick ((List.range dims).any fun d => Tl.stride l d % Tl.unit l != 0) 0x64 ++
  pick (m == .pack && c1 % 16 != 0) 0x64
where
  anyTl (l : List Dword) : Bool := tlReserved.any fun f => blockFld l f.1 f.2 != 0

/-- Table words that `XFER.UNPK` uses: chunks j in range. -/
def unpkTable (l : List Dword) (c : List Int) : Option (Nat × Nat) := clipDim (chunks l) (c.getD 0 0) (Tl.box l 0)

/-- Ranges of a command (R417); `ws` are the workgroups of the tiles. -/
def State.xferRngs (s : State) (m : Move) (l : List Dword) (c : List Int) (c1 : Nat) (ws : List Nat) : List Rng :=
  let k := s.iwg.core
  let sp := Space.scratch s.issue.wid
  let gl := Space.global s.iwg.ctx
  let hull := fun (d : Bool) => match hullBytes m l c with
    | some h => [(⟨k, gl, d, h.1, h.2⟩ : Rng)]
    | none => []
  let tile := fun (d : Bool) => ws.map fun w => (⟨(s.wg w).core, .scratch w, d, Tl.spOff l, tileEnd m l⟩ : Rng)
  let list : Rng := ⟨k, sp, false, Tl.auxOff l, Tl.auxOff l + 4 * Tl.box l 1⟩
  let c0 := (c.getD 0 0).toNat
  match m with
  | .copy => if Tl.dir l = 0 then hull false ++ tile true else tile false ++ hull true
  | .im2c | .mcast => hull false ++ tile true
  | .gath => hull false ++ [list] ++ tile true
  | .scat => tile false ++ [list] ++ hull true
  | .unpk => [(⟨k, gl, false, Tl.base l, Tl.base l + 2 ^ 32 + 528⟩ : Rng)] ++ (match unpkTable l c with
      | some t => [(⟨k, gl, false, Tl.aux l + 4 * t.1, Tl.aux l + 4 * (t.2 + 1)⟩ : Rng)]
      | none => []) ++ tile true
  | .pack => tile false ++ [⟨k, gl, true, Tl.base l + c1, Tl.base l + c1 + Tl.box l 0 * (16 + 128 * Tl.unit l)⟩,
      ⟨k, gl, true, Tl.aux l + 4 * c0, Tl.aux l + 4 * (c0 + Tl.box l 0 + 1)⟩]
  | .pref => hull false
  | .pagein | .rds | .page => []

/-- The tile is a destination. -/
def tileIsDest (m : Move) (l : List Dword) : Bool :=
  match m with
  | .copy => Tl.dir l == 0
  | .im2c | .mcast | .gath | .unpk => true
  | _ => false

/-- A placement unit is out of service (R410). -/
def State.placeDown (s : State) (p : Place) : Bool :=
  match p with
  | .slice n => !s.sliceUp n
  | .stack n => !s.regs.stacksUp.getLsbD n
  | _ => false

/-- Steps 6 and 7 for a transfer command, with its ranges. -/
def State.examXfer (s : State) (i : Instr) (q : List Nat) (l : List Dword) : Exam :=
  let m := moveOf i
  let c := q.map fun (x : Nat) => sext x 32
  let c1 := q.getD 1 0
  let bad := recordCauses m (waitsEmpty i) (mcastMask i) l c c1 (Krec.scratch s.ikrec) ++ (if s.placeDown (placeOf i) then [0x6A] else [])
  let pos := (List.range 4).filter fun p => (mcastMask i).getLsbD p
  let found := pos.filterMap s.peerWg
  let ws := if m = .mcast then found else [s.issue.wid]
  match lowest bad with
  | some x => .refuse x
  | none =>
    if m = .mcast && found.length != pos.length then .refuse 0x65
    else .take (s.xferRngs m l c c1 ws)
      (if tileIsDest m l && !waitsEmpty i then ws.map fun w => (w, Tl.spOff l, tileEnd m l) else []) l (q ++ ws)

/-- Step 6 for `XFER.PAGEIN` (R409). -/
def State.examPagein (s : State) (i : Instr) (l : List Dword) : Exam :=
  let bad := (if tlReserved.any fun f => blockFld l f.1 f.2 != 0 then [0x61] else []) ++
    (if 2 ^ 57 < Tl.base l + 65536 * Tl.dim l 0 then [0x63] else []) ++ (if Tl.base l % 65536 ≠ 0 then [0x64] else []) ++
    (if s.placeDown (placeOf i) then [0x6A] else [])
  match lowest bad with
  | some x => .refuse x
  | none => .take [] [] l [Tl.base l]

/-! ### The instructions -/

/-- The course of a transfer command with coordinates in a V quad. -/
def xferIssue (i : Instr) (x c : Field) (s : State) : Host.Outcome State Fault Refusal :=
  issue i 1 (fun act s => if s.orderHolds act .relaxed then .hold
    else acceptLoop i false (fun s t => s.examBlock t x 64 (s.examXfer i (((s.ithread t).readN c 4).map BitVec.toNat)) 0x69)
      (fun _ _ => .good) act [] s) s

def execXfer (g : Guard) (d x c : Field) (we : Bool) (s : State) : Host.Outcome State Fault Refusal := xferIssue (.xfer g d x c we) x c s
def execXferIm2c (g : Guard) (d x c : Field) (we fresh : Bool) (s : State) : Host.Outcome State Fault Refusal :=
  xferIssue (.xferIm2c g d x c we fresh) x c s
def execXferGath (g : Guard) (d x c : Field) (we : Bool) (s : State) : Host.Outcome State Fault Refusal :=
  xferIssue (.xferGath g d x c we) x c s
def execXferScat (g : Guard) (d x c : Field) (s : State) : Host.Outcome State Fault Refusal := xferIssue (.xferScat g d x c) x c s
def execXferUnpk (g : Guard) (d x c : Field) (we : Bool) (s : State) : Host.Outcome State Fault Refusal :=
  xferIssue (.xferUnpk g d x c we) x c s
def execXferPack (g : Guard) (d x c : Field) (s : State) : Host.Outcome State Fault Refusal := xferIssue (.xferPack g d x c) x c s
def execXferMcast (g : Guard) (d x c : Field) (we : Bool) (mask : BitVec 4) (s : State) : Host.Outcome State Fault Refusal :=
  xferIssue (.xferMcast g d x c we mask) x c s
def execXferPref (g : Guard) (d x c : Field) (pl : Place) (s : State) : Host.Outcome State Fault Refusal :=
  xferIssue (.xferPref g d x c pl) x c s

/-- `XFER.PAGEIN` needs `ctx.cap_pager` (R392). -/
def execXferPagein (g : Guard) (d x : Field) (pl : Place) (s : State) : Host.Outcome State Fault Refusal :=
  let i : Instr := .xferPagein g d x pl
  issue i 1 (fun act s =>
    if act ≠ [] ∧ s.ictx.capPager = false then trapAll act Cause.priv
    else if s.orderHolds act .relaxed then .hold
    else acceptLoop i false (fun s t => s.examBlock t x 64 (s.examPagein i) 0x69) (fun _ _ => .good) act [] s) s

/-! ### The movement (R400, R403 to R408, R411) -/

/-- A movement under way: the state, the causes met, the units done, and the access that has to wait for the pager. -/
structure Mov where
  s      : State
  causes : List Nat
  units  : Nat
  miss   : Option (GAddr × Need)

def Mov.cause (m : Mov) (k : Nat) : Mov := { m with causes := m.causes ++ [k] }

/-- A deadline of the transfer engine that has passed is counted (R466, R467). -/
def State.lateX (s : State) (c : Cmd) (core : Nat) : State :=
  let b := Krec.budget (s.kern c.kernel).krec (Tl.svc c.record)
  if b ≠ 0 ∧ c.begun + 16 * b < s.clk then
    { s.setCore core fun x => { x with dlmX := if x.dlmX = 0xFFFFFFFF then x.dlmX else x.dlmX + 1 } with
      arch := { s.arch with dlmX := min (s.arch.dlmX + 1) (2 ^ 64 - 1) } }
  else s

/-- One access of the engine: the line's home performs it (`go`), or the outcome of R411. -/
def Mov.access (m : Mov) (core : Nat) (c : Cmd) (n : Need) (va : Nat) : Mov × Option GAddr :=
  if m.miss.isSome then (m, none)
  else match (m.s.ctx c.ctx).resolve n va with
    | none => (m.cause 0x66, none)
    | some a => match m.s.ask c.ctx core a n (Tl.near c.record) (n == .wr) true false with
      | .go s1 => ({ m with s := s1.lateX c core }, some a)
      | .wait _ pg => if c.bad.contains pg then (m.cause 0x66, none) else ({ m with miss := some (a, n) }, none)
      | .fail => (m.cause 0x66, none)
      | .tier s1 => (({ m with s := s1 } : Mov).cause 0x67, none)
      | .dead => (m.cause 0x69, none)

/-- A byte read, and whether it is unusable. -/
abbrev Got1 := Byte × Bool

/-- Read n bytes from a VA, line by line: zeros where an access is not performed, marked bytes of poisoned lines. -/
def Mov.read (m : Mov) (core : Nat) (c : Cmd) (va n : Nat) : Mov × List Got1 :=
  (pieces va n).foldl (fun (r : Mov × List Got1) p =>
    let dead := r.1.causes.length
    match r.1.access core c .rd p.1 with
    | (m1, none) =>
      let bad := m1.causes.length != dead && m1.causes.getLast? == some 0x69
      (m1, r.2 ++ List.replicate p.2.2 ((0 : Byte), bad))
    | (m1, some a) =>
      if m1.s.isPoison (lineOf a.gia) then (m1.cause 0x69, r.2 ++ List.replicate p.2.2 ((0 : Byte), true))
      else
        let s1 := m1.s.readHome a
        ({ m1 with s := s1 }, r.2 ++ (((s1.homeLine (lineOf a.gia)).drop (a.gia % 128)).take p.2.2).map fun b => (b, false))) (m, [])

/-- A byte to write: which of its bits, and its value.  A mask of 0 writes nothing. -/
abbrev Put1 := Nat × Nat

/-- Write bytes from a VA, line by line; a byte of which only a nibble is written is read first (R334).  The flags say which bytes were
written. -/
def Mov.write (m : Mov) (core : Nat) (c : Cmd) (va : Nat) (bytes : List Put1) : Mov × List Bool :=
  (pieces va bytes.length).foldl (fun (r : Mov × List Bool) p =>
    let part := (bytes.drop p.2.1).take p.2.2
    let (m1, old) := (List.range part.length).foldl (fun (q : Mov × List Got1) j =>
      let e := part.getD j (0, 0)
      if e.1 = 0 || e.1 = 255 then (q.1, q.2 ++ [((0 : Byte), false)])
      else let (m2, b) := q.1.read core c (p.1 + j) 1; (m2, q.2 ++ [b.getD 0 (0, true)])) (r.1, [])
    let cells := (List.range part.length).filterMap fun j =>
      let e := part.getD j (0, 0)
      let o := old.getD j (0, false)
      if e.1 = 0 || o.2 then none else some (j, (.ofNat 8 ((o.1.toNat &&& (255 - e.1)) + (e.2 &&& e.1)) : Byte))
    if cells = [] then (m1, r.2 ++ part.map fun _ => false)
    else match m1.access core c .wr p.1 with
      | (m2, none) => (m2, r.2 ++ part.map fun _ => false)
      | (m2, some a) =>
        ({ m2 with s := (m2.s.writeHome a).putHome (lineOf a.gia) (some c.ctx) (cells.map fun e => (a.gia % 128 + e.1, e.2)) },
         r.2 ++ (List.range part.length).map fun j => cells.any fun e => e.1 == j)) (m, [])

/-- Write a tile row in whole granules into each receiver; a granule that an unusable byte feeds stays as it is. -/
def Mov.putRow (m : Mov) (ws : List Nat) (at_ : Nat) (row : List Got1) : Mov :=
  ws.foldl (fun m w => (List.range (row.length / 16)).foldl (fun (m : Mov) k =>
    let g := (row.drop (16 * k)).take 16
    if g.any Prod.snd then m else { m with s := m.s.writeGran w (at_ + 16 * k) (g.map Prod.fst), units := m.units + 1 }) m) m

/-- Scratchpad bytes, with the uncorrectable ones marked. -/
def State.tileBytes (s : State) (w at_ n : Nat) : List Got1 :=
  (List.range n).map fun i => (Memory.read (s.wg w).scratch (at_ + i), (s.wg w).badScratch.contains (at_ + i))

/-- Where element coordinate g0 of a row from c0 stands: the value of tile byte k from the row's global bytes. -/
def rowByte (l : List Dword) (c0 : Int) (lo hi : Nat) (data : List Got1) (k : Nat) : Got1 :=
  let u := Tl.unit l
  let inR := fun (g : Int) => (lo : Int) ≤ g && g ≤ hi
  if Tl.half l then
    let nib := fun (i : Nat) =>
      let g := c0 + i
      if i < Tl.box l 0 && inR g then
        let b := data.getD (g.toNat / 2 - lo / 2) (0, false)
        (b.1.toNat / 2 ^ (4 * (g.toNat % 2)) % 16, b.2)
      else (0, false)
    (.ofNat 8 ((nib (2 * k)).1 + 16 * (nib (2 * k + 1)).1), (nib (2 * k)).2 || (nib (2 * k + 1)).2)
  else
    let g := c0 + (k / u : Nat)
    if k / u < Tl.box l 0 && inR g then data.getD ((g.toNat - lo) * u + k % u) (0, false) else (0, false)

/-- Copy one row from global memory to a tile row: `g` are the coordinates above dimension 0, `none` when one is out of range. -/
def Mov.rowIn (m : Mov) (core : Nat) (c : Cmd) (c0 : Int) (g : Option (List Nat)) (ws : List Nat) (at_ pad : Nat) : Mov :=
  let l := c.record
  match g, clipDim (Tl.dim l 0) c0 (Tl.box l 0) with
  | some h, some (lo, hi) =>
    let (m1, data) := m.read core c (Tl.addr l (lo :: h)) (Tl.floor l hi - Tl.floor l lo + Tl.unit l)
    m1.putRow ws at_ ((List.range pad).map (rowByte l c0 lo hi data))
  | _, _ => m.putRow ws at_ (List.replicate pad ((0 : Byte), false))

/-- Copy one tile row to global memory: only elements in range. -/
def Mov.rowOut (m : Mov) (core : Nat) (c : Cmd) (c0 : Int) (g : Option (List Nat)) (at_ : Nat) : Mov :=
  let l := c.record
  let u := Tl.unit l
  match g, clipDim (Tl.dim l 0) c0 (Tl.box l 0) with
  | some h, some (lo, hi) =>
    let n := Tl.floor l hi - Tl.floor l lo + u
    let src := m.s.tileBytes c.wid at_ (Tl.bytes l (Tl.box l 0))
    let els := (List.range (hi + 1 - lo)).map fun e => (lo + e, (((lo + e : Nat) : Int) - c0).toNat)
    let elBad := fun (i : Nat) => (List.range u).any fun b => (src.getD (Tl.floor l i + b) (0, false)).2
    let cell := fun (k : Nat) =>
      if Tl.half l then els.foldl (fun (p : Put1) e =>
          if e.1 / 2 - lo / 2 ≠ k || elBad e.2 then p
          else
            let v := (src.getD (e.2 / 2) (0, false)).1.toNat / 2 ^ (4 * (e.2 % 2)) % 16
            (p.1 + 15 * 2 ^ (4 * (e.1 % 2)), p.2 + v * 2 ^ (4 * (e.1 % 2)))) (0, 0)
      else
        let i := (((lo + k / u : Nat) : Int) - c0).toNat
        if elBad i then (0, 0) else (255, (src.getD (i * u + k % u) (0, false)).1.toNat)
    let m1 := if els.any fun e => elBad e.2 then m.cause 0x69 else m
    let (m2, ok) := m1.write core c (Tl.addr l (lo :: h)) ((List.range n).map cell)
    let done := els.filter fun e => !elBad e.2 && (List.range u).all fun b => ok.getD (Tl.floor l e.1 - Tl.floor l lo + b) false
    { m2 with units := m2.units + done.length }
  | _, _ => m

/-- Rows of a box: the row number and its coordinates above dimension 0, when in range. -/
def boxRows (l : List Dword) (c : List Int) : List (Nat × Option (List Nat)) :=
  (List.range (Tl.box l 1 * Tl.box l 2 * Tl.box l 3)).map fun r =>
    let i := [r % Tl.box l 1, r / Tl.box l 1 % Tl.box l 2, r / Tl.box l 1 / Tl.box l 2]
    let g := (List.range (Tl.rank l - 1)).map fun d => c.getD (d + 1) 0 + (i.getD d 0 : Nat)
    let ok := (List.range (Tl.rank l - 1)).all fun d => 0 ≤ g.getD d 0 && g.getD d 0 < Tl.dim l (d + 1)
    (r, if ok then some (g.map Int.toNat) else none)

/-- `XFER` and `XFER.MCAST`. -/
def Mov.copy (m : Mov) (core : Nat) (c : Cmd) (co : List Int) (ws : List Nat) : Mov :=
  let l := c.record
  let pad := tilePad .copy l
  (boxRows l co).foldl (fun m r =>
    let at_ := Tl.spOff l + r.1 * Tl.spStride l
    if Tl.dir l = 0 then m.rowIn core c (co.getD 0 0) r.2 ws at_ pad else m.rowOut core c (co.getD 0 0) r.2 at_) m

/-- `XFER.GATH` and `XFER.SCAT`: the index list, then the rows in ascending order. -/
def Mov.byIndex (m : Mov) (core : Nat) (c : Cmd) (co : List Int) (out : Bool) : Mov :=
  let l := c.record
  let list := m.s.tileBytes c.wid (Tl.auxOff l) (4 * Tl.box l 1)
  (List.range (Tl.box l 1)).foldl (fun m j =>
    let w := (list.drop (4 * j)).take 4
    let x := sext (ofBytes (w.map Prod.fst) : Nat) 32
    let g := if 0 ≤ x ∧ x < Tl.dim l 1 then some [x.toNat] else none
    let at_ := Tl.spOff l + j * Tl.spStride l
    if w.any Prod.snd then m.cause 0x69
    else if out then m.rowOut core c (co.getD 0 0) g at_ else m.rowIn core c (co.getD 0 0) g [c.wid] at_ (tilePad .gath l)) m

/-- The stored elements of a chunk before element i. -/
def stored (bitmap i : Nat) : Nat := ((List.range i).filter fun j => bitAt' bitmap j).length
where
  bitAt' (n i : Nat) : Bool := n / 2 ^ i % 2 == 1

/-- `XFER.UNPK` (R405). -/
def Mov.unpack (m : Mov) (core : Nat) (c : Cmd) (co : List Int) : Mov :=
  let l := c.record
  let u := Tl.unit l
  (List.range (Tl.box l 0)).foldl (fun m k =>
    let j := co.getD 0 0 + (k : Nat)
    let at_ := Tl.spOff l + k * Tl.spStride l
    let zero := List.replicate (128 * u) ((0 : Byte), false)
    let lost := List.replicate (128 * u) ((0 : Byte), true)
    if j < 0 ∨ (chunks l : Int) ≤ j then m.putRow [c.wid] at_ zero
    else
      let (m1, tw) := m.read core c (Tl.aux l + 4 * j.toNat) 4
      let o := ofBytes (tw.map Prod.fst)
      if tw.any Prod.snd then m1.putRow [c.wid] at_ lost
      else if o % 16 ≠ 0 then (m1.cause 0x6C).putRow [c.wid] at_ zero
      else
        let (m2, bm) := m1.read core c (Tl.base l + o) 16
        let bits := ofBytes (bm.map Prod.fst)
        if bm.any Prod.snd then m2.putRow [c.wid] at_ lost
        else
          let (m3, data) := m2.read core c (Tl.base l + o + 16) (stored bits 128 * u)
          m3.putRow [c.wid] at_ ((List.range (128 * u)).map fun b =>
            if bits / 2 ^ (b / u) % 2 = 1 ∧ 128 * j.toNat + b / u < Tl.dim l 0 then data.getD (stored bits (b / u) * u + b % u) (0, false)
            else (0, false))) m

/-- `XFER.PACK` (R406). A chunk with an uncorrectable byte is not written (notes/assumptions/15.md). -/
def Mov.pack (m : Mov) (core : Nat) (c : Cmd) (co : List Int) (c1 : Nat) : Mov :=
  let l := c.record
  let u := Tl.unit l
  let full := fun (n v : Nat) => (bytesOf v n).map fun b => ((255, b.toNat) : Put1)
  let table := fun (m : Mov) (j o : Nat) => (m.write core c (Tl.aux l + 4 * j) (full 4 o)).1
  let j0 := (co.getD 0 0).toNat
  let (mm, o) := (List.range (Tl.box l 0)).foldl (fun (q : Mov × Nat) k =>
    let (m, o) := q
    let j := j0 + k
    let row := m.s.tileBytes c.wid (Tl.spOff l + k * Tl.spStride l) (128 * u)
    let el := fun (i : Nat) => ((row.drop (i * u)).take u).map Prod.fst
    let kept := (List.range 128).filter fun i => 128 * j + i < Tl.dim l 0 && (el i).any (· != 0)
    let body := bytesOf ((kept.map fun i => 2 ^ i).foldl (· + ·) 0) 16 ++ (kept.map el).flatten
    let len := 16 + roundUp (kept.length * u) 16
    let out := body ++ List.replicate (len - body.length) 0
    if row.any Prod.snd then (m.cause 0x69, o + len)
    else
      let (m1, ok) := m.write core c (Tl.base l + o) (out.map fun b => ((255, b.toNat) : Put1))
      let m2 := table m1 j o
      ({ m2 with units := m2.units + (if ok.all id then 1 else 0) }, o + len)) (m, c1)
  table mm (j0 + Tl.box l 0) o

/-- The channels of one input position of `XFER.IM2C` that are in range. -/
def imChan (l : List Dword) (co : List Int) : Option (Nat × Nat) := clipDim (Tl.dim l 0) (co.getD 0 0) (Tl.box l 0)

/-- The batch coordinate, in range or not. -/
def imBatch (l : List Dword) (co : List Int) : Option (List Nat) :=
  if Tl.rank l < 4 then some []
  else if 0 ≤ co.getD 3 0 ∧ co.getD 3 0 < Tl.dim l 3 then some [(co.getD 3 0).toNat] else none

/-- Bytes of an input row (R402): B0 channels over the span of w positions that the command's outputs cover. -/
def imRow (l : List Dword) : Nat := Tl.box l 0 * Tl.unit l * ((Tl.box l 1 - 1) * Im.sw l + (Im.kw l - 1) * Im.dw l + 1)

/-- `XFER.IM2C` (R401, R402): the input rows, from the line buffer or from memory, then the patches. -/
def Mov.im2c (m : Mov) (core : Nat) (c : Cmd) (co : List Int) : Mov :=
  let l := c.record
  let u := Tl.unit l
  let ws := imWs l co
  let key := [co.getD 0 0, co.getD 1 0, co.getD 3 0].map fun (x : Int) => trunc x 32
  let buf := ((m.s.core core).lbufs.find? fun b => b.set == Im.set l && b.wid == c.wid && b.record == l && b.coords == key && !isFresh c.instr)
  match imChan l co, imBatch l co with
  | some (lo, hi), some nb =>
    let n := (hi + 1 - lo) * u
    let hs := if ws = [] then [] else imHs l co
    let (m1, rows) := hs.foldl (fun (q : Mov × List (Nat × List (Nat × Got1))) h =>
      match buf.bind fun b => b.rows.get? h with
      | some d =>
        let row := fun w => (List.range n).map fun i => let a := Tl.addr l (lo :: w :: h :: nb) + i; (a, (d.getD a 0, false))
        (q.1, q.2 ++ [(h, (ws.map row).flatten)])
      | none =>
        let (m1, r) := ws.foldl (fun (p : Mov × List (Nat × Got1)) w =>
          let a := Tl.addr l (lo :: w :: h :: nb)
          let (m1, b) := p.1.read core c a n
          (m1, p.2 ++ (List.range n).map fun i => (a + i, b.getD i (0, false)))) (q.1, [])
        (m1, q.2 ++ [(h, r)])) (m, [])
    let m2 := (List.range (Tl.box l 1)).foldl (fun (m : Mov) p =>
      m.putRow [c.wid] (Tl.spOff l + p * Tl.spStride l) ((List.range (tilePad .im2c l)).map fun b =>
        let e := b / u
        let ch := co.getD 0 0 + (e % Tl.box l 0 : Nat)
        let w := (co.getD 1 0 + p) * Im.sw l - Im.pw l + (e / Tl.box l 0 % Im.kw l : Nat) * Im.dw l
        let h := co.getD 2 0 * Im.sh l - Im.ph l + (e / (Tl.box l 0 * Im.kw l) : Nat) * Im.dh l
        if e < Tl.box l 0 * Im.kw l * Im.kh l ∧ (lo : Int) ≤ ch ∧ ch ≤ hi ∧ 0 ≤ w ∧ w < Tl.dim l 1 ∧ 0 ≤ h ∧ h < Tl.dim l 2 then
          match rows.find? fun r => r.1 == h.toNat with
          | some r => ((r.2.find? fun x => x.1 == Tl.addr l (ch.toNat :: w.toNat :: h.toNat :: nb) + b % u).map Prod.snd).getD (0, false)
          | none => (0, false)
        else (0, false))) m1
    let good := rows.filter fun r => r.2.all fun x => !x.2.2
    let kept := (sortDown (good.map Prod.fst)).take (32768 / imRow l)
    keep m2 ⟨Im.set l, c.wid, l, key, (good.filter fun r => kept.contains r.1).map fun r => (r.1, r.2.map fun x => (x.1, x.2.1))⟩
  | _, _ =>
    keep ((List.range (Tl.box l 1)).foldl (fun (m : Mov) p =>
      m.putRow [c.wid] (Tl.spOff l + p * Tl.spStride l) (List.replicate (tilePad .im2c l) ((0 : Byte), false))) m)
      ⟨Im.set l, c.wid, l, key, []⟩
where
  keep (m : Mov) (b : LineBuf) : Mov :=
    { m with s := m.s.setCore core fun x => { x with lbufs := (x.lbufs.filter fun d => d.set != b.set) ++ [b] } }
  ins (x : Nat) : List Nat → List Nat
    | [] => [x]
    | y :: l => if y < x then x :: y :: l else y :: ins x l
  sortDown (l : List Nat) : List Nat := l.foldl (fun r x => ins x r) []

/-- Fetch a line for `XFER.PREF`, `PREF` or a footprint: nothing where it would fault or go far against the near mark (R408). -/
def State.prefLine (s : State) (ctx va : Nat) (near : Bool) (into : Option Nat) : State :=
  match (s.ctx ctx).resolve .rd va with
  | none => s
  | some a => match s.translate ctx a .rd near false with
    | .ok _ _ =>
      let s1 := s.countPte a.gia 80
      match into with
      | some n =>
        let gl := lineOf a.gia
        if !s.sliceUp n then s
        else if peerOf a.gia = 0 && s.home a = n then s1.homeR gl
        else if ((s1.slice n).visitors.get? gl).isSome then s1
        else ((s1.dirTurn gl).dirRoom gl).dirRdOp n gl
      | none => s1.homeR (lineOf a.gia)
    | _ => s

/-- Lines of a box (R408). -/
def boxLines (l : List Dword) (c : List Int) : List Nat :=
  match clipDim (Tl.dim l 0) (c.getD 0 0) (Tl.box l 0) with
  | none => []
  | some (lo, hi) => dedup (((boxRows l c).filterMap Prod.snd).map fun g =>
      (pieces (Tl.addr l (lo :: g)) (Tl.floor l hi - Tl.floor l lo + Tl.unit l)).map fun p => p.1 / 128).flatten

def Mov.prefetch (m : Mov) (c : Cmd) (co : List Int) : Mov :=
  let lines := if c.isPrefetch then
      (List.range (c.args.getD 1 0 / 128 + 1 - c.args.getD 0 0 / 128)).map fun i => c.args.getD 0 0 / 128 + i
    else boxLines c.record co
  let near := if c.isPrefetch then c.args.getD 2 0 == 1 else Tl.near c.record
  let into := match placeOf c.instr with
    | .slice n => some n
    | _ => none
  { m with s := lines.foldl (fun s a => s.prefLine c.ctx (128 * a) near into) m.s, units := lines.length }

/-- The whole movement of a command. -/
def Mov.run (m : Mov) (core : Nat) (c : Cmd) : Mov :=
  let co := (c.args.take 4).map fun (x : Nat) => sext x 32
  let ws := c.args.drop 4
  match moveOf c.instr with
  | .copy | .mcast => m.copy core c co ws
  | .im2c => m.im2c core c co
  | .gath => m.byIndex core c co false
  | .scat => m.byIndex core c co true
  | .unpk => m.unpack core c co
  | .pack => m.pack core c co (c.args.getD 1 0)
  | .pref => m.prefetch c co
  | .pagein | .rds | .page => m

/-! ### The engine (R394, R335) -/

/-- Ranges of a command in the core's table, of global memory. -/
def State.globalOf (s : State) (core id : Nat) : List Lock :=
  (s.core core).locks.filter fun l => l.cmd == id && (match l.space with
    | .global _ => true
    | _ => false)

/-- Try a command's movement: all of it, or none of it when an access has to wait for the pager.  The core's dirty bytes of its global
ranges go first (R335 item 2). -/
def State.tryMove (s : State) (core : Nat) (c : Cmd) : State :=
  let lines := ((s.globalOf core c.id).map fun l => s.l1Lines core c.ctx l.lo l.hi).flatten
  let s0 := lines.foldl (fun s gl => s.writeBack core gl) s
  let m := ({ s := s0, causes := [], units := 0, miss := none } : Mov).run core c
  match m.miss with
  | none => m.s.setCmd core c.id fun d => { d with moved := true, cause := (lowest m.causes).getD 0, info := m.units, wait := none }
  | some (a, n) => match s.ask c.ctx core a n (Tl.near c.record) (n == .wr) true false with
    | .wait s1 pg => s1.setCmd core c.id fun d => { d with wait := some pg }
    | _ => s

/-- Every granule of the command's scratchpad destinations is empty (R413). -/
def State.granulesEmpty (s : State) (id : Nat) : Bool :=
  s.cores.all fun e => e.2.locks.all fun l =>
    l.cmd != id || !l.dest || (match l.space with
      | .scratch w => (granules l.lo l.hi).all fun k => (s.wg w).empty.contains k
      | _ => true)

/-- The command at the front of those that have not started: footprint prefetches only when no other waits (R394). -/
def Core.nextCmd (c : Core) : Option Cmd :=
  match c.xq.find? fun d => !d.started && !d.isPrefetch with
  | some d => some d
  | none => c.xq.find? fun d => !d.started

/-- The range of a command's first access: the indexes of `XFER.GATH` and `XFER.SCAT`, the table words of `XFER.UNPK`, else its source, else its
destination. -/
def State.firstRange (s : State) (c : Cmd) : Option Lock :=
  let ls := (s.cores.map fun e => e.2.locks.filter fun l => l.cmd == c.id).flatten
  let src := ls.filter fun l => !l.dest
  match moveOf c.instr with
  | .gath | .scat | .unpk => src.getLast?.or ls.head?
  | _ => src.head?.or ls.head?

/-- The range rule keeps back the first access of a command (R394, R422). -/
def State.firstBlocked (s : State) (c : Cmd) : Bool := s.blocked c.id fun l => s.firstRange c == some l

/-- The accesses of a command wait: for its ranges, or for the earlier accesses of its thread (R422, R335). -/
def State.cmdWaits (s : State) (c : Cmd) : Bool := s.blocked c.id (fun _ => true) || !s.ordered c

def execXferStart (core : Nat) (s : State) : Host.Outcome State Fault Refusal :=
  .next (match (s.core core).nextCmd with
    | none => s
    | some c =>
      let running := ((s.core core).xq.filter fun d => d.started && !d.isPrefetch).length
      if Config.xferRunning ≤ running || s.firstBlocked c || (waitsEmpty c.instr && !s.granulesEmpty c.id) then s
      else
        let s1 := (s.setCmd core c.id fun d => { d with started := true, begun := s.clk }).setWg c.wid fun g => { g with engStuck := none }
        match moveOf c.instr with
        | .pagein | .rds | .page => s1
        | _ => if s.cmdWaits c then s1 else s1.tryMove core { c with started := true, begun := s.clk })

/-- The pages of `XFER.PAGEIN` that are still to be looked at begin at its first argument. -/
def Cmd.pagesDone (c : Cmd) : Bool := Tl.base c.record + 65536 * Tl.dim c.record 0 ≤ c.args.getD 0 0

/-- The end of a transfer command (R335 item 5): the clean bytes of its global destination lines go from the L1, then it leaves the table. -/
def State.endXfer (s : State) (core : Nat) (c : Cmd) : State :=
  let lines := (((s.globalOf core c.id).filter fun l => l.dest).map fun l => s.l1Lines core c.ctx l.lo l.hi).flatten
  (lines.foldl (fun s gl => s.dropClean core gl) s).finishCmd core c [statusWord c.cause c.info] (c.cause == 0)

def execXferComplete (core id : Nat) (s : State) : Host.Outcome State Fault Refusal :=
  .next (match (s.core core).xq.find? fun d => d.id == id with
    | none => s
    | some c =>
      if !c.started then s
      else match moveOf c.instr with
        | .pagein => if c.pagesDone then s.endXfer core c else s
        | .rds => if c.moved then s.endXfer core c else s
        | .page => s
        | _ =>
          if c.moved then s.endXfer core c
          else if (c.wait.map s.missing).getD false || s.cmdWaits c then s
          else
            let s1 := s.tryMove core c
            match (s1.core core).xq.find? fun d => d.id == id with
            | some d => if d.moved then s1.endXfer core d else s1
            | none => s1)

/-! ### Page-in (R409, R464) -/

/-- The page at a VA moves to the stack that the placement names: pinned pages, shared frames and pages that are not far are left. -/
def State.pageIn (s : State) (c : Cmd) (va : Nat) : State × Nat × List Nat :=
  match (s.ctx c.ctx).gia va with
  | none => (s, 65536, [])
  | some a =>
    if peerOf a.gia ≠ 0 then (s, 65536, [])
    else match s.pteAt a.gia with
      | none => (s, 65536, [])
      | some (pa, large) =>
        let p := s.pte pa
        let span := if large then 2 ^ 21 - a.gia % 2 ^ 21 else 65536
        let old := poolOf (Pte.tier p) (Pte.frame p)
        let f := frameNo (Pte.tier p) (Pte.frame p)
        let pool := match placeOf c.instr with
          | .stack n => n
          | _ => s.agent a.gia / 2
        if !Pte.valid p || Pte.tier p ≠ 1 || Pte.pin p || 1 < (s.pool old).count f then (s, span, [])
        else match s.takeFrames pool large with
          | none => (s, span, [0x66])
          | some (g, s1) => ((s1.repage a.gia pa large pool g).adjFrames old f (pageSpan large) (-1), span, [])

def execPageMigrate (core id : Nat) (s : State) : Host.Outcome State Fault Refusal :=
  .next (match (s.core core).xq.find? fun d => d.id == id with
    | none => s
    | some c =>
      if !c.started || moveOf c.instr != .pagein || c.pagesDone || !s.ordered c then s
      else
        let va := c.args.getD 0 0
        let (s1, span, bad) := s.pageIn c va
        s1.setCmd core id fun d =>
          { d with args := [va + span], cause := if bad = [] then d.cause else 0x66, info := d.info + (if s1 = s then 0 else 1) })

/-! ### TKT.RDS (R306) -/

/-- Lanes of `TKT.RDS` in ascending order: a null, forged or lost ticket, or one that a lower lane presents, fails at once; the others wait
for the answer of their slice.  A ticket that a lower lane presents is STALE before it is FORGED or LOST (DESIGN CHOICE, notes/assumptions/66.md). -/
def rdsLoop (i : Instr) (nf : Option Nat) (d : Field) (tk : Nat → Dword) (off : Nat → Int) (dup : Nat → Bool) (s : State) (t : Nat) : State :=
  let code := if dup t then 1 else s.ticketLocal s.iwg.ctx (tk t)
  let r : Redeem := ⟨tk t, (off t).toNat, .b128, d, nf, code != 0, s.origin, some (i, (s.ithread t).seq)⟩
  if code ≠ 0 then
    let s1 := s.iset t fun x => (x.giveNow i (.done [statusWord (0x20 + code) 0] full false)).waitAt s.issue.pc (.redeem r)
    if nf.isSome then s1 else s1.reportLane s.issue.wid t ⟨Cause.tkt, code, (tk t).toNat, s.origin⟩
  else (s.produce i t .engine).iset t fun x => x.waitAt s.issue.pc (.redeem r)

def execTktRds (g : Guard) (nf : Option Nat) (d t xs : Field) (s : State) : Host.Outcome State Fault Refusal :=
  let i : Instr := .tktRds g nf d t xs
  issue i 1 (fun act s =>
    let tk := fun l => (.ofNat 64 ((s.ithread l).pair t) : Dword)
    let off := fun l => ((s.ithread l).val xs).toInt
    let dup := fun l => act.any fun u => u < l && tk u == tk l
    let live := act.filter fun l => s.ticketLocal s.iwg.ctx (tk l) == 0
    let addr := fun l => trunc (off l) 64
    let clash := fun l => (live.filter (· < l)).any fun u =>
      off l < off u + 128 * Tkt.lines (tk u) && off u < off l + 128 * Tkt.lines (tk l)
    match failing live (fun l => off l % 16 != 0) Cause.align addr with
    | some r => r
    | none => match failing live (fun l => off l < 0 || (Krec.scratch s.ikrec : Int) < off l + 128 * Tkt.lines (tk l)) Cause.bounds addr with
      | some r => r
      | none => match failing live clash Cause.lock addr with
        | some r => r
        | none => .ok (act.foldl (rdsLoop i nf d tk off dup) s)) s

/-- The landing range of a `TKT.RDS` lane. -/
def State.rdsRngs (s : State) (w : Nat) (r : Redeem) : List Rng :=
  [⟨(s.wg w).core, .scratch w, true, r.off, r.off + 128 * Tkt.lines r.tkt⟩]

/-- A lane whose ticket is good has a place in the queue and in the table (R306, R418). -/
def State.rdsRoom (s : State) (w : Nat) (r : Redeem) : Bool :=
  s.engineRoom (s.wg w).core false && s.entriesFit (entriesOf (s.rdsRngs w r))

/-- The answer to the redeem of a `TKT.RDS` lane: the lane registers and its entry is taken for its command, or it fails, registering
nothing.  A full queue or table parks it. -/
def State.rdsAnswer (s : State) (w t : Nat) (r : Redeem) (i : Instr) (seq : Nat) : State :=
  let g := s.wg w
  let c := s.ticketCode g.ctx r.tkt
  let s1 := s.setThread w t fun x => { x with hold := .redeem { r with acc := true } }
  let lower := g.live.any fun u => u < t && slotOf u == slotOf t && (match (g.thread u).hold with
    | .redeem q => q.orig == r.orig && !q.acc
    | _ => false)
  if c ≠ 0 then
    let s2 := s1.setThread w t fun x => match x.prod? seq with
      | some p => x.land p [statusWord (0x20 + c) 0] full false
      | none => x
    if r.nf.isSome then s2 else s2.reportLane w t ⟨Cause.tkt, c, r.tkt.toNat, r.orig⟩
  else if lower || !s.rdsRoom w r then s
  else
    let id := g.core + 256 * (s.core g.core).cmdId
    let cmd : Cmd :=
      { id := id, instr := i, wid := w, t := t, ctx := g.ctx, kernel := g.kernel, gang := g.gangOf t, seq := seq, record := [],
        args := [r.tkt.toNat, r.off], started := false, moved := false, at_ := s.clk, begun := 0, cause := 0, info := 0,
        vals := [], wait := none, bad := [] }
    let s2 := (s1.addLocks id (s.rdsRngs w r)).setCore g.core fun x => { x.setXq s.clk (x.xq ++ [cmd]) with cmdId := x.cmdId + 1 }
    (s2.setWg w fun x => x.emptyGran r.off (r.off + 128 * Tkt.lines r.tkt)).setTicket (Tkt.slice r.tkt) (Tkt.entry r.tkt) fun k =>
      { k with state := .redeeming, redeemer := some (g.core, w, t), byCmd := some (g.core, id) }

/-- A redeem reaches its slice (R300): the entry is taken, or the lanes fail. -/
def State.redeemStep (s : State) (wid t : Nat) : State :=
  match (s.thread wid t).hold with
  | .redeem r =>
    if r.acc then s
    else match r.rds with
    | some (i, seq) => s.rdsAnswer wid t r i seq
    | none =>
      let ls := s.redeemers wid t r
      let g := s.wg wid
      let c := s.ticketCode g.ctx r.tkt
      if c ≠ 0 then ls.foldl (fun s e => s.rdvEnd wid e.1 e.2 ⟨0, false, some (Cause.tkt, c, r.tkt.toNat)⟩) s
      else
        let s1 := s.setTicket (Tkt.slice r.tkt) (Tkt.entry r.tkt) fun k => { k with state := .redeeming, redeemer := some (g.core, wid, t) }
        ls.foldl (fun s e => s.setThread wid e.1 fun x => { x with hold := .redeem { e.2 with acc := true } }) s1
  | _ => s

def execTicketRedeem (wid t : Nat) (s : State) : Host.Outcome State Fault Refusal := .next (s.redeemStep wid t)

/-- The age scan of a slice (R295); redeems that are on their way to it are taken first (R294). -/
def State.ageScan (s : State) (slice : Nat) : State :=
  (s.wgs.foldl (fun s w => w.2.live.foldl (fun s t => match (s.thread w.1 t).hold with
    | .redeem r => if !r.acc && Tkt.slice r.tkt = slice then s.redeemStep w.1 t else s
    | _ => s) s) s).ageEntries slice

def execTicketAgeScan (slice : Nat) (s : State) : Host.Outcome State Fault Refusal := .next (s.ageScan slice)

/-- The scans that are due: each slice scans its table at least once every 10 µs (R295).  A scan that comes late goes through the table twice. -/
def State.ageDue (s : State) : State :=
  (s.slices.filter fun e => (e.2.tickets.any fun k => k.2.state != .free) && e.2.lastScan + 10 * Config.clkPerUs ≤ s.clk).foldl
    (fun s e => (s.ageScan e.1).ageScan e.1) s

/-- The lanes of a `TKT.RDS` go on once every lane has its answer. -/
def State.rdsSettle (s : State) (w t : Nat) : State :=
  match (s.thread w t).hold with
  | .redeem r =>
    if r.rds.isNone then s else
    let mates := (s.wg w).live.filter fun u => slotOf u == slotOf t && (s.thread w u).hold.origin? == some r.orig
    if mates.all fun u => (match (s.thread w u).hold with
      | .redeem q => q.acc
      | _ => false) then s.setThreads w mates fun _ x => x.resume r.orig.len else s
  | _ => s

/-- The delivery of an entry into scratchpad: every line but the poisoned ones, nothing of a block that was tier-missed or not
resolved. -/
def State.deliverRds (s : State) (core id n e : Nat) : State :=
  let k := s.ticket n e
  match (s.core core).xq.find? fun d => d.id == id with
  | none => s.freeTicket n e
  | some c =>
    if !c.started || !s.ordered c then s
    else
      let cause := if k.svc = 1 then 0x26 else if k.svc = 2 then 0x27 else if k.poison ≠ 0 then 0x28 else 0
      let lines := if k.svc ≠ 0 then [] else (List.range k.lines).filter fun j => !k.poison.getLsbD j
      let s1 := lines.foldl (fun s j =>
        s.writeGran c.wid (c.args.getD 1 0 + 128 * j) ((List.range 128).map fun i => k.data.getD (128 * j + i) 0)) s
      (s1.setCmd core id fun d => { d with moved := true, cause := cause, info := 128 * lines.length }).freeTicket n e

/-- A redeem's data is delivered (R294, R298). -/
def execTicketDelivered (slice entry : Nat) (s : State) : Host.Outcome State Fault Refusal :=
  .next (let k := s.ticket slice entry
    if k.state ≠ .redeeming || k.inflight then s
    else match k.byCmd with
      | some (core, id) => s.deliverRds core id slice entry
      | none => s.deliver slice entry)

end Sys2Proof.Machine
end

