-- ==== Sys2Proof/Machine/EngineEv.lean ====
section
/-!
DEFINITION. Steps of the engines beside their commands: the deadlock of R425 and the read of a codebook (R86).
-/
namespace Sys2Proof.Machine
open Sys2Proof

/-- Workgroups whose granules a command waits for. -/
def State.granuleWgs (s : State) (id : Nat) : List Nat :=
  dedup ((s.cores.map fun e => e.2.locks.filterMap fun l => match l.space with
    | .scratch w => if l.cmd == id && l.dest && !((granules l.lo l.hi).all fun k => (s.wg w).empty.contains k) then some w else none
    | _ => none).flatten)

/-- A thread is parked on the full transfer queue or on the interlocking table (R418). -/
def State.parked (s : State) (w t : Nat) : Bool :=
  match (s.thread w t).hold with
  | .engine mat need _ => !mat || need != []
  | .redeem r => r.rds.isSome && !r.acc && s.ticketCode (s.wg w).ctx r.tkt == 0 && !s.rdsRoom w r
  | _ => false

/-- A lane of `TKT.RDS` that has its answer, beside lanes that are parked. -/
def Thread.answered (t : Thread) : Bool :=
  match t.hold with
  | .redeem r => r.rds.isSome && r.acc
  | _ => false

/-- A producer whose instruction was not accepted after all: its registers and predicate are as before. -/
def Thread.unproduce (t : Thread) (seq : Nat) : Thread :=
  match t.prod? seq with
  | none => t
  | some p =>
    let t1 := match p.tgt with
      | some g => t.onBank p.bank fun r => r.setFull g true
      | none => t
    { t1.setPend p.bank p.stat false with prods := t1.prods.filter fun q => q.seq != seq }

/-- Every parked thread of a workgroup takes ENGDL at its instruction; lanes of the same instruction that have been answered go on. -/
def State.engTrap (s : State) (w : Nat) : State :=
  let g := s.wg w
  let ls := g.live.filter (s.parked w)
  let orig := fun t => ((g.thread t).hold.origin?).getD ⟨0, [], 0⟩
  let keys := ls.foldl (fun (r : List (Nat × Origin)) t => let k := (slotOf t, orig t); if r.contains k then r else r ++ [k]) []
  let s1 := keys.foldl (fun s k =>
    let mine := ls.filter fun t => (slotOf t, orig t) == k
    let s1 := s.setThreads w mine fun _ x => match x.hold with
      | .redeem r => (match r.rds with
        | some (_, seq) => x.unproduce seq
        | none => x)
      | _ => x
    s1.takeTrap w mine k.2.ipc k.2.insn { cause := Cause.engdl, mask := mine }) s
  let on := g.live.filter fun t => (g.thread t).answered
  (s1.setThreads w on fun n x => x.resume (orig n).len).setWg w fun g => { g with engStuck := none }

/-- Workgroups, of any core, on whose granules a core's oldest command that has not started waits (R425). -/
def State.headWgs (s : State) (core : Nat) : List Nat :=
  match (s.core core).xq.find? fun d => !d.started && !d.isPrefetch with
  | some c => if waitsEmpty c.instr then s.granuleWgs c.id else []
  | none => []

/-- The deadlock of R425: it is watched from the first firing that finds it, and taken once it has lasted 1,024 clk. -/
def execEngineDeadlock (core : Nat) (s : State) : Host.Outcome State Fault Refusal :=
  .next (let ws := s.headWgs core
    let other := (s.cores.keys.map s.headWgs).flatten
    let dead := fun (w : Nat) =>
      let live := (s.wg w).live
      live.any (s.parked w) && live.all fun t => s.parked w t || (s.thread w t).answered
    s.wgs.keys.foldl (fun s w =>
      if !(ws.contains w) && ((s.wg w).core ≠ core || other.contains w) then s
      else if !(ws.contains w && dead w) then s.setWg w fun g => { g with engStuck := none }
      else match (s.wg w).engStuck with
        | none => s.setWg w fun g => { g with engStuck := some s.clk }
        | some t =>
          if (s.wg w).live.any fun u => t ≤ (s.thread w u).last then s.setWg w fun g => { g with engStuck := some s.clk }
          else if t + 1024 ≤ s.clk then s.engTrap w else s) s)

/-! ### Codebooks (R86) -/

/-- The threads of a core that wait for a codebook of a kernel. -/
def State.bookWaiters (s : State) (core h slot : Nat) : List (Nat × Nat) :=
  ((s.wgs.filter fun e => e.2.core == core && e.2.kernel == h).map fun e =>
    (e.2.live.filter fun t => match (e.2.thread t).hold with
      | .codebook k _ _ _ _ => k == slot
      | _ => false).map fun t => (e.1, t)).flatten

/-- The reads of a codebook have returned to the matrix engine, or to a thread. -/
def State.bookLate (s : State) (core h start : Nat) (mat : Bool) : State :=
  let r := (s.kern h).krec
  let b := Krec.budget r (Krec.svc r)
  if b = 0 ∨ s.clk ≤ start + 16 * b then s
  else if mat then
    { s.setCore core fun c => { c with dlmM := .ofNat 32 (min (c.dlmM.toNat + 8) (2 ^ 32 - 1)) } with
      arch := { s.arch with dlmM := min (s.arch.dlmM + 8) (2 ^ 64 - 1) } }
  else
    { s.setCore core fun c => { c with dlmT := .ofNat 32 (min (c.dlmT.toNat + 8) (2 ^ 32 - 1)) } with
      arch := { s.arch with dlmT := min (s.arch.dlmT + 8) (2 ^ 64 - 1) } }

/-- A core reads the codebook of a slot for the threads that wait for it; where the read fails they go back to their instruction, which
finds the failure. -/
def execCodebookRead (core h slot : Nat) (s : State) : Host.Outcome State Fault Refusal :=
  .next (let ls := s.bookWaiters core h slot
    let pages := ls.filterMap fun e => match (s.thread e.1 e.2).hold with
      | .codebook _ _ _ p _ => p
      | _ => none
    let first := ls.head?.map fun e => (s.thread e.1 e.2).hold
    let free := fun (s : State) => ls.foldl (fun s e => s.setThread e.1 e.2 fun x => { x with hold := .none }) s
    if ls = [] || pages.any s.missing then s
    else match s.readBook core (s.kern h).ctx (Krec.codebook (s.kern h).krec slot) with
      | .bytes s1 l =>
        let s2 := s1.setCore core fun c => { c with books := c.books ++ [(h, slot, l)] }
        free (match first with
          | some (.codebook _ mat start _ _) => s2.bookLate core h start mat
          | _ => s2)
      | .miss s1 pg => ls.foldl (fun s e => s.setThread e.1 e.2 fun x => match x.hold with
          | .codebook k m st _ o => { x with hold := .codebook k m st (some pg) o }
          | _ => x) s1
      | .page _ | .ue _ => free s)

end Sys2Proof.Machine
end

