-- ==== Sys2Proof/Machine/Handler.lean ====
section
/-!
DEFINITION. Group 0xE but for `GETEV`, and the two slots of group 0xF that mnemonics name (spec/18_trap.md R481, R488 to R493, spec/02_encoding.md
R35, R55).
-/
namespace Sys2Proof.Machine
open Sys2Proof

/-- The frame as the 2,048 bits of its layout (R481). -/
def Frame.num (f : Frame) : Nat :=
  f.cause + 2 ^ 8 * f.kind + 2 ^ 32 * f.detail + 2 ^ 64 * f.lanes.toNat + 2 ^ 128 * f.mask.toNat + 2 ^ 192 * f.done.toNat + 2 ^ 256 * f.pc +
  2 ^ 320 * f.ipc + 2 ^ 384 * ofWords f.insn + 2 ^ 512 * f.addr + 2 ^ 576 * f.next + 2 ^ 640 * f.npMask.toNat + 2 ^ 704 * f.npAddr +
  2 ^ 768 * f.nuMask.toNat + 2 ^ 832 * f.nuAddr

/-! ### TRAP, BKPT, ERET (R490, R491) -/

def execTrap (g : Guard) (code : BitVec 16) (s : State) : Host.Outcome State Fault Refusal :=
  issue (.trap g code) 1 (fun act s1 =>
    if act = [] then .ok s1
    else .trap { cause := Cause.swtrap, mask := act, detail := code.toNat, pc := some s.nextPc }) s

def execBkpt (g : Guard) (code : BitVec 16) (s : State) : Host.Outcome State Fault Refusal :=
  issue (.bkpt g code) 1 (fun act s => if act = [] then .ok s else trapAll act Cause.bkpt code.toNat) s

def execEret (g : Guard) (s : State) : Host.Outcome State Fault Refusal :=
  issue (.eret g) 1 (fun act s =>
    if act = [] then .ok s else .ok (s.returnFrom s.issue.wid s.issue.slot act s.issue.pc)) s

/-- `ERET.FAULT` ends the kernel with the cause of the frame. -/
def execEretFault (g : Guard) (s : State) : Host.Outcome State Fault Refusal :=
  issue (.eretFault g) 1 (fun act s =>
    if act = [] then .ok s else let f := (s.iwg.slot s.issue.slot).frame; .ok (s.kernelFault s.iwg.kernel f.cause f.pc)) s

/-! ### HRD, HWR (R488, R489) -/

/-- The selected value of a trapped thread. -/
def Thread.selected (t : Thread) (f : Frame) (kind idx : Nat) : Word :=
  match kind with
  | 0 => (t.regs.getX idx).val
  | 1 => toWord (t.regs.getX idx).iv.lo
  | 2 => toWord (t.regs.getX idx).iv.hi
  | 3 => (t.regs.getV idx).val
  | 4 => t.regs.p.setWidth 32
  | 5 => (t.getO idx).val
  | 6 => (if idx = 0 then t.l0 else t.l1).val
  | 7 => .ofNat 32 ((List.range 32).foldl (fun (n : Nat) i =>
      let k := 32 * (idx % 2) + i
      n + 2 ^ i * (if idx < 2 then (t.regs.getX k).ful else (t.regs.getV k).ful).toNat) 0)
  | 8 => .ofNat 32 ((if idx < 2 then t.errs.x ||| t.later.x else t.errs.v ||| t.later.v).toNat / 2 ^ (32 * (idx % 2)))
  | _ => .ofNat 32 (f.num / 2 ^ (32 * idx))

def execHrd (g : Guard) (d : Field) (kind idx : Nat) (s : State) : Host.Outcome State Fault Refusal :=
  perLane (.hrd g d kind idx) 1 (fun t => t.write d (t.selected (s.iwg.slot s.issue.slot).frame kind idx) full) s

/-- Producers of the thread's own registers no longer write register k. -/
def Thread.discard (t : Thread) (c : Cls) (k : Nat) : Thread :=
  { t with prods := t.prods.map fun p => { p with tgt := p.tgt.map fun g =>
      if g.cls = c ∧ g.bank = false then { g with skip := k :: g.skip } else g } }

/-- A register leaves an error set. -/
def Errs.clear (e : Errs) (c : Cls) (k : Nat) : Errs :=
  match c with
  | .x => { e with x := setBit e.x k false }
  | .v => { e with v := setBit e.v k false }

/-- What `HWR` writes in a trapped thread. -/
def Thread.select (t : Thread) (kind idx : Nat) (v : Word) : Thread :=
  match kind with
  | 0 => { t with regs := t.regs.setX idx ⟨v, full, true⟩, errs := t.errs.clear .x idx, later := t.later.clear .x idx }.discard .x idx
  | 3 => { t with regs := t.regs.setV idx ⟨v, true⟩, errs := t.errs.clear .v idx, later := t.later.clear .v idx }.discard .v idx
  | 4 => { t with regs := { t.regs with p := v.setWidth 7 } }
  | 5 => { t with o := t.o.set idx ⟨v, full⟩ }
  | 6 => if idx = 0 then { t with l0 := ⟨v, full⟩ } else { t with l1 := ⟨v, full⟩ }
  | _ => t

/-- What it writes in the frame: words 8 and 9. -/
def Frame.select (f : Frame) (idx : Nat) (v : Word) : Frame :=
  if idx = 8 then { f with pc := f.pc / 2 ^ 32 * 2 ^ 32 + v.toNat }
  else if idx = 9 then { f with pc := f.pc % 2 ^ 32 + v.toNat % 2 ^ 25 * 2 ^ 32 }
  else f

def execHwr (g : Guard) (kind idx : Nat) (a : Field) (s : State) : Host.Outcome State Fault Refusal :=
  issue (.hwr g kind idx a) 1 (fun act s => .ok (act.foldl (fun s n =>
    let v := (s.ithread n).val a
    if kind = 9 then s.setWg s.issue.wid fun w => w.setSlot s.issue.slot fun x => { x with frame := x.frame.select idx v }
    else s.iset n fun t => t.select kind idx v) s)) s

/-! ### CLK, PERF, PREEMPT.CHK (R493) -/

def execClk (g : Guard) (ord : Bool) (d : Field) (s : State) : Host.Outcome State Fault Refusal :=
  issue (.clk g ord d) 1 (fun act s =>
    if ord && act.any fun t => !s.settledAll s.issue.wid t then .hold
    else .ok (s.setThreads s.issue.wid act fun _ t => t.writeN d 2 (s.clk % 2 ^ 64))) s

/-- Counter n of a core for a workgroup. -/
def State.perf (s : State) (w n : Nat) : Nat :=
  let c := s.core (s.wg w).core
  match n with
  | 5 => (c.perf.getD 5 0).toNat + (c.fullAt.map fun t => s.clk - t).getD 0
  | 6 => c.dlmT.toNat
  | 7 => (s.wg w).progress
  | n => (c.perf.getD n 0).toNat

def execPerf (g : Guard) (d : Field) (n : Nat) (s : State) : Host.Outcome State Fault Refusal :=
  perLane (.perf g d n) 1 (fun t => t.writeN d 2 (s.perf s.issue.wid n)) s

def execPreemptChk (g : Guard) (pd : Nat) (s : State) : Host.Outcome State Fault Refusal :=
  perLane (.preemptChk g pd) 1 (fun t => t.setPred pd s.iwg.preempt.isSome) s

/-! ### Group 0xF -/

/-- The active lanes take UNIMPL; with none, the group passes over the instruction. -/
def unimplCourse (i : Instr) (s : State) : Host.Outcome State Fault Refusal :=
  issue i 1 (fun act s => if act = [] then .ok s else trapAll act Cause.unimpl) s

def execIdiv (g : Guard) (words : Nat) (rest : BitVec 128) (s : State) : Host.Outcome State Fault Refusal :=
  unimplCourse (.idiv g words rest) s

def execIrem (g : Guard) (words : Nat) (rest : BitVec 128) (s : State) : Host.Outcome State Fault Refusal :=
  unimplCourse (.irem g words rest) s

end Sys2Proof.Machine
end

