-- ==== Sys2Proof/Machine/Launch.lean ====
section
/-!
DEFINITION. Admission of kernels and their entry into the kernel table (spec/06_kernel.md R132 to R143, spec/03_numbers.md R83), and the
size of a save region (spec/07_group.md R178).
-/
namespace Sys2Proof.Machine
open Sys2Proof

/-! ### Save regions (R178) -/

namespace Region
variable (r : BitVec 2048)
/-- Bytes of a thread block. -/
def perThread := roundUp (192 + 16 * Krec.xregs r + 4 * Krec.vregs r) 16
/-- Sizes of the parts, in order: header, gang blocks, thread blocks, handler areas, scratchpad, granule bits, accumulator store. -/
def parts : List Nat :=
  [1024, Krec.gangs r * 512, Krec.threads r * perThread r, Krec.slots r * 12544, Krec.scratch r, roundUp (ceilDiv (Krec.scratch r) 128) 16,
   roundUp (Krec.acc r) 16]
/-- The offset of part n: each part begins at a 256-byte boundary. -/
def partAt (n : Nat) : Nat := ((parts r).take n).foldl (fun a p => roundUp (a + p) 256) 0
/-- The size Y of the region. -/
def size : Nat := roundUp ((parts r).foldl (fun a p => roundUp a 256 + p) 0) 4096
end Region

/-! ### The checks of admission (R139, R142) -/

/-- Cause 0x81: reserved bits, and fields out of range. -/
def krecBad (r : BitVec 2048) : Bool :=
  let res := [(57, 7), (121, 7), (178, 2), (190, 2), (247, 9), (282, 6), (377, 7), (1536, 496)]
  (res.any fun f => kfld r f.1 f.2 != 0) ||
  Krec.gridX r == 0 || Krec.gridY r == 0 || Krec.gridZ r == 0 ||
  Krec.gangs r == 0 || 512 < Krec.gangs r || 4096 < Krec.threads r ||
  524288 < Krec.scratch r || Krec.scratch r % 16 != 0 || 1048576 < Krec.acc r || Krec.acc r % 4 != 0 ||
  Krec.vregs r == 0 || 64 < Krec.vregs r || Krec.xregs r == 0 || 64 < Krec.xregs r ||
  4 < Krec.barGang r || 16 < Krec.barWg r || 8 < Krec.barClu r || 4 < Krec.barStk r || 4 < Krec.barGrid r ||
  Krec.codeVa r % 32 != 0 || Krec.argVa r % 16 != 0 || Krec.doneVa r % 8 != 0

/-- A format slot passes R83. -/
def slotFits (f : Nat) : Bool :=
  let fmt := f % 16
  let kind := f / 2 ^ 4 % 4
  let book := f / 2 ^ 64 % 2 ^ 57
  (fmt ≤ 10 || fmt == 15) && kind ≤ 1 && f / 2 ^ 6 % 4 == 0 && f / 2 ^ 16 % 2 ^ 16 == 0 && f / 2 ^ 121 == 0 &&
  (2 < fmt || kind == 0) && (fmt != 10 || kind == 1) && f / 2 ^ 8 % 256 == (if kind = 1 then 5 else 0) &&
  (if fmt = 10 then book % 1024 == 0 else book == 0) && f / 2 ^ 55 % 256 != 255 && (fmt != 15 || f == 15)

/-- Slots of bay i that a workgroup of S slots takes, and their register bytes. -/
def bayShare (slots bay : Nat) : Nat := (slots + 3 - bay) / 4
def slotBytes (r : BitVec 2048) : Nat := (Krec.vregs r + Krec.xregs r) * 256

/-- Workgroups of a kernel that fit one empty core. -/
def perCore (r : BitVec 2048) : Nat :=
  let bay := fun i =>
    let n := bayShare (Krec.slots r) i
    if n = 0 then none else some (min (Config.baySlots / n) (Config.partition / (n * slotBytes r)))
  let sc := if Krec.scratch r = 0 then [] else [Config.scratchBytes / Krec.scratch r]
  let ac := if Krec.acc r = 0 then [] else [Config.accBytes / Krec.acc r]
  ((List.range 4).filterMap bay ++ sc ++ ac).foldl min Config.baySlots

/-- Cores of the dies in service. -/
def State.coresUp (s : State) : Nat := ((List.range Config.cores).filter s.coreUp).length

/-- The first check of 0x81 to 0x86 that fails, or 0. -/
def State.admitCause (s : State) (ctx : Nat) (r : BitVec 2048) : Nat :=
  let c := s.ctx ctx
  let y := Region.size r * (if Krec.coresident r then Krec.wgCount r else 1)
  if krecBad r then 0x81
  else if !(List.range 8).all fun n => slotFits (Krec.fslot r n) then 0x82
  else if (c.resolve .ex (Krec.codeVa r)).isNone then 0x83
  else if perCore r = 0 then 0x84
  else if Krec.coresident r && s.coresUp * perCore r < Krec.wgCount r then 0x85
  else if c.saveLen < y then 0x86
  else 0

/-! ### Room of a core (R142) -/

/-- Workgroups that occupy a core: those that have not ended hold slots and registers, all of them scratchpad and accumulator store. -/
def State.onCore (s : State) (c : Nat) : List (Nat × Wg) := s.wgs.filter fun e => e.2.core == c

/-- Slot numbers of a bay that are in use. -/
def State.bayNums (s : State) (c b : Nat) : List Nat :=
  ((s.onCore c).map fun e => (e.2.slots.filter fun k => k.1 % 4 == b).map fun k => k.2.num).flatten

/-- Register bytes of a bay in use. -/
def State.bayBytes (s : State) (c b : Nat) : Nat :=
  ((s.onCore c).map fun e => (e.2.slots.filter fun k => k.1 % 4 == b).length * slotBytes (s.kern e.2.kernel).krec).foldl (· + ·) 0

/-- Bytes of scratchpad or accumulator store in use: those of a workgroup that has ended go once its engine commands have completed (R165). -/
def State.storeUsed (s : State) (c : Nat) (f : BitVec 2048 → Nat) : Nat :=
  (((s.onCore c).filter fun e => !e.2.ended || !(s.cmdsOf e.1).isEmpty).map fun e => f (s.kern e.2.kernel).krec).foldl (· + ·) 0

/-- A core has room for a workgroup of a record. -/
def State.hasRoom (s : State) (c : Nat) (r : BitVec 2048) : Bool :=
  s.coreUp c &&
  (List.range 4).all (fun b =>
    let n := bayShare (Krec.slots r) b
    (s.bayNums c b).length + n ≤ Config.baySlots && s.bayBytes c b + n * slotBytes r ≤ Config.partition) &&
  s.storeUsed c Krec.scratch + Krec.scratch r ≤ Config.scratchBytes && s.storeUsed c Krec.acc + Krec.acc r ≤ Config.accBytes

/-- Workgroups of a record that a core takes as it stands. -/
def State.fitOn (s : State) (c : Nat) (r : BitVec 2048) : Nat :=
  let bay := fun b =>
    let n := bayShare (Krec.slots r) b
    if n = 0 then none
    else some (min ((Config.baySlots - (s.bayNums c b).length) / n) ((Config.partition - s.bayBytes c b) / (n * slotBytes r)))
  let sc := if Krec.scratch r = 0 then [] else [(Config.scratchBytes - s.storeUsed c Krec.scratch) / Krec.scratch r]
  let ac := if Krec.acc r = 0 then [] else [(Config.accBytes - s.storeUsed c Krec.acc) / Krec.acc r]
  if s.coreUp c then ((List.range 4).filterMap bay ++ sc ++ ac).foldl min Config.baySlots else 0

/-- Workgroups that the next SELECT of a kernel places together (R143). -/
def placeCount (k : Kern) : Nat := if Krec.coresident k.krec then Krec.wgCount k.krec else 1

/-- The cores have room for the next SELECT of a kernel. -/
def State.coreRoom (s : State) (k : Kern) : Bool :=
  placeCount k ≤ ((List.range Config.cores).map fun c => s.fitOn c k.krec).foldl (· + ·) 0

/-! ### Entry into the table (R134, R141) -/

def State.tableFull (s : State) : Bool := Config.kernels ≤ s.kernels.length

/-- A number is an entry's own, or one that an entry still names as its parent or among those it waits for. -/
def State.kidTaken (s : State) (k : Nat) : Bool := s.kernels.has k || s.kernels.any fun e => e.2.parent == some k || e.2.deps.contains k

/-- The entry of a new kernel with a handle: the handle, or the first number 2^32 apart that is free (notes/assumptions/62.md). -/
def State.newKid (s : State) (h : Nat) : Nat :=
  let names := 2 * s.kernels.length + (s.kernels.map fun e => e.2.deps.length).sum
  ((List.range (names + 1)).find? fun g => !s.kidTaken (h + 2 ^ 32 * g)).elim h fun g => h + 2 ^ 32 * g

/-- The entries that a record's dependence handles name when it is parsed (R127). -/
def State.depsOf (s : State) (k : Kern) : List Nat :=
  ([Krec.dep0 k.krec, Krec.dep1 k.krec].filter (· != 0)).filterMap (s.kidOf? k.ctx)

/-- A kernel enters QUEUED under a number of the table, and then DEP_FAILED or DEP_OPEN applies. -/
def State.enterKernel (s : State) (kid : Nat) (k : Kern) : State :=
  let deps := s.depsOf k
  let wait := deps.filter s.depOpen
  let s1 := { s with kernels := s.kernels.set kid { k with state := .queued, order := s.kernOrder, deps := wait }, kernOrder := s.kernOrder + 1 }
  if deps.any s.depFailed then s1.kernelEnd kid .killed 0x90 0 false
  else if wait = [] then s1
  else s1.setKern kid fun k => { k with state := .waiting }

/-- The state code that `KKILL` answers (R148). -/
def KState.killCode : KState → Nat
  | .queued => 1 | .waiting => 2 | .dispatching => 3 | .running => 4 | .draining => 5
  | .complete | .faulted | .killed => 6

/-- A kernel of a context by its handle. -/
def State.kernOf? (s : State) (ctx h : Nat) : Option Kern := (s.kidOf? ctx h).bind s.kernels.get?

end Sys2Proof.Machine
end

