-- ==== Sys2Proof/Machine/Kernel.lean ====
section
/-!
DEFINITION. Kernel, queue and context instructions of group 0xD, and what their requests do when they are performed
(spec/06_kernel.md R144 to R148, spec/05_queue.md R129 to R131, spec/04_context.md R114 to R116), with `GETEV` (spec/18_trap.md R492).
-/
namespace Sys2Proof.Machine
open Sys2Proof

/-! ### Issue -/

/-- A release at `.DEV` scope before a request of each active lane (R321, R323): the group waits for its earlier accesses, and the core
drains. -/
def State.releaseDev (s : State) (act : List Nat) (siding : Bool) : Option State :=
  if act.any fun t => s.iwg.acquiring t || !s.releaseReady s.issue.wid t siding then none else some (s.drainCore s.iwg.core)

/-- The checks of a record VA (R130, R146). -/
def recordVa (act : List Nat) (va : Nat → Nat) : Option Res :=
  match failing act (fun t => va t % 256 != 0) Cause.align va with
  | some r => some r
  | none => failing act (fun t => 2 ^ 57 ≤ va t) Cause.page va

/-- `KLAUNCH` and `QPOST`: PRIV, the record's VA, the release, then one request per lane. -/
def recordCourse (i : Instr) (a : Field) (w : State → Nat → Nat → Work) (s : State) : Host.Outcome State Fault Refusal :=
  issue i 1 (fun act s =>
    let va := fun t => (s.ithread t).pair a
    if act = [] then .ok s
    else if s.ictx.capLauncher = false then trapAll act Cause.priv
    else match recordVa act va with
      | some r => r
      | none => match s.releaseDev act true with
        | none => .hold
        | some s1 => .ok (act.foldl (fun s t => s.produce i t (w s t (va t))) s1)) s

def execKlaunch (g : Guard) (d a : Field) (s : State) : Host.Outcome State Fault Refusal :=
  recordCourse (.klaunch g d a) a (fun _ _ va => .launch va) s

def execQpost (g : Guard) (d q a : Field) (s : State) : Host.Outcome State Fault Refusal :=
  recordCourse (.qpost g d q a) a (fun s t va => .post ((s.ithread t).val q).toNat va) s

/-- `KJOIN` without `.POLL` holds its thread until the kernel has ended. -/
def execKjoin (g : Guard) (poll : Bool) (d a : Field) (s : State) : Host.Outcome State Fault Refusal :=
  let i : Instr := .kjoin g poll d a
  issue i 1 (fun act s => .ok (act.foldl (fun s t =>
    let x := s.ithread t
    let s1 := s.produce i t (.kjoin (x.val a).toNat poll)
    if poll then s1 else s1.iset t fun y => y.waitAt s.issue.pc (.kjoin x.seq)) s)) s

def execKkill (g : Guard) (d a : Field) (s : State) : Host.Outcome State Fault Refusal :=
  let i : Instr := .kkill g d a
  issue i 1 (fun act s =>
    let h := fun t => ((s.ithread t).val a).toNat
    if act ≠ [] ∧ s.ictx.capLauncher = false then trapAll act Cause.priv
    else .ok (act.foldl (fun s t => s.produce i t (.kkill (h t) (act.any fun u => s.kidOf? s.iwg.ctx (h u) == some s.iwg.kernel) none)) s)) s

/-- The word of `QSTS` (R118). -/
def QState.code : QState → Nat
  | .free => 0 | .stopped => 1 | .running => 2 | .halted => 3
def Queue.word (q : Queue) : Nat :=
  q.state.code + 2 ^ 2 * q.armed.toNat + 2 ^ 4 * q.err + 2 ^ 8 * q.tag + 2 ^ 16 * q.posted.length + 2 ^ 23 * q.src.toNat +
    2 ^ 24 * q.prio.toNat + 2 ^ 32 * q.parsed.toNat

/-- A queue that a context may name. -/
def State.queueOf? (s : State) (ctx q : Nat) : Option Queue :=
  (s.queues.get? q).filter fun x => q ≤ 255 && x.state != .free && x.cfgCtx.toNat == ctx

def execQstat (g : Guard) (d q : Field) (s : State) : Host.Outcome State Fault Refusal :=
  perLane (.qstat g d q) 1 (fun t =>
    t.writeN d 2 (match s.queueOf? s.iwg.ctx (t.val q).toNat with
      | some x => x.word
      | none => 0)) s

def execCtxRd (g : Guard) (d : Field) (sel : Nat) (s : State) : Host.Outcome State Fault Refusal :=
  perLane (.ctxRd g d sel) 1 (fun t =>
    t.writeN d 2 (s.ctxWord s.iwg.ctx sel).toNat) s

/-- The effect of a write to a selector of a context record (R115, R116); `none` for a handler address that is misaligned. -/
def State.ctxWrite (s : State) (id sel : Nat) (v : Dword) : Option State :=
  let n := v.toNat
  if sel = 1 then
    let a := if n % 2 ^ 20 = 0 then 1000 else n % 2 ^ 20
    some (s.setCtx id fun c => c.setFld 1 0 20 (min (max a 10) 1000000))
  else if sel = 2 then
    some { s.setCtx id fun c => c.setWord 2 v with
      slices := s.slices.mapVals fun _ x =>
        { x with tickets := x.tickets.mapVals fun _ k => if k.ctx = id ∧ k.state ≠ .free then { k with rekeyed := true } else k } }
  else if sel = 3 then if n % 4 ≠ 0 then none else some (s.setCtx id fun c => c.setFld 3 0 57 n)
  else if sel = 6 then some (s.setCtx id fun c => c.setFld 6 0 32 n)
  else some s

/-- `CTX.WR` writes the value of the highest active lane. -/
def execCtxWr (g : Guard) (sel : Nat) (a : Field) (s : State) : Host.Outcome State Fault Refusal :=
  issue (.ctxWr g sel a) 1 (fun act s =>
    match act.getLast? with
    | none => .ok s
    | some t =>
      let v := (s.ithread t).pair a
      if s.ictx.capHandler = false then trapAll act Cause.priv
      else match s.ctxWrite s.iwg.ctx sel (.ofNat 64 v) with
        | some s1 => .ok s1
        | none => .trap { cause := Cause.align, mask := [t], addr := v }) s

/-- `GETEV` (R492). -/
def execGetev (g : Guard) (d : Field) (ps : Nat) (s : State) : Host.Outcome State Fault Refusal :=
  let i : Instr := .getev g d ps
  issue i 1 (fun act s =>
    if act ≠ [] ∧ s.ictx.capPager = false ∧ s.ictx.capHandler = false then trapAll act Cause.priv
    else .ok (act.foldl (fun s t => s.produce i t .getev) s)) s

/-! ### Performing the requests -/

/-- A lower lane of the same issue group still has work of the same kind. -/
def State.lowerLane (s : State) (w t born : Nat) (k : Work → Bool) : Bool :=
  (s.wg w).threads.any fun e => e.1 < t && e.2.prods.any fun p => p.born == born && k p.work

/-- A request's result is written; a thread held at `KJOIN` for it goes on. -/
def State.landProd (s : State) (w t : Nat) (p : Prod) (vals : List Word) (iv : Intv) (ok : Bool) : State :=
  (s.setThread w t fun x =>
    let y := x.land p vals iv ok
    if y.hold = .kjoin p.seq then y.resume 8 else y).wgRelease w

/-- A request fails as R479 says; one whose thread has ended is over. -/
def State.prodFails (s : State) (w t : Nat) (p : Prod) (ue : Bool) : State :=
  if (s.thread w t).live then s.failProducer w t p ue else (s.setThread w t fun x => x.endProd p false).wgRelease w

/-- A request waits for a page. -/
def State.prodWaits (s : State) (w t seq page : Nat) : State :=
  s.setThread w t fun x => { x with prods := listSet x.prods (fun q => q.seq == seq) fun q => { q with wait := some page } }

/-- How the read of a record ends. -/
inductive RecAns
  | ok (s : State) (bytes : List Byte)
  | wait (s : State) (page : Nat)
  | fail (s : State) (ue : Bool)
deriving DecidableEq, Repr

/-- Read the 256 bytes of a record under the rules for loads; a request that the L1 does not answer has the deadline of its kernel's class (R466). -/
def State.readRecord (s : State) (c ctx h born va : Nat) : RecAns :=
  [va, va + 128].foldl (fun r v => match r with
    | .ok s l => (match s.readLine c ctx v (List.range 128) false with
      | .hit d => .ok s (l ++ (List.range 128).map d)
      | .bytes s1 d => .ok (s1.late c h born (Krec.svc (s.kern h).krec)) (l ++ (List.range 128).map d)
      | .wait s1 pg => .wait s1 pg
      | .page => .fail s false
      | .tier s1 => .fail s1 false
      | .ue => .fail s true)
    | r => r) (.ok s [])

/-- The handle of the next child. -/
def State.childHandle (s : State) : Nat := 2 ^ 31 + s.regs.childSerial
def State.nextChild (s : State) : State :=
  { s with regs := { s.regs with childSerial := if s.regs.childSerial = 2 ^ 31 - 1 then 1 else s.regs.childSerial + 1 } }

/-- One lane of `KLAUNCH`. -/
def State.doLaunch (s : State) (w t : Nat) (p : Prod) (va : Nat) : State :=
  let g := s.wg w
  match s.readRecord g.core g.ctx g.kernel p.born va with
  | .wait s1 pg => s1.prodWaits w t p.seq pg
  | .fail s1 ue => s1.prodFails w t p ue
  | .ok s1 bytes =>
    let r : BitVec 2048 := .ofNat 2048 (ofBytes bytes)
    let c := s1.admitCause g.ctx r
    let give := fun (s : State) (a b : Nat) => s.landProd w t p [.ofNat 32 a, .ofNat 32 b] full true
    if s1.tableFull then give s1 0 1
    else if c ≠ 0 then give s1 0 (2 + c * 2 ^ 8)
    else
      let h := s1.childHandle
      let s2 := s1.nextChild.enterKernel (s1.newKid h)
        { Kern.zero with krec := r, ctx := g.ctx, parent := some g.kernel, prio := min (Krec.prio r) (s1.kern g.kernel).prio }
      give s2 h 0

/-- One lane of `QPOST`. -/
def State.doPost (s : State) (w t : Nat) (p : Prod) (q va : Nat) : State :=
  let g := s.wg w
  let give := fun (s : State) (a : Nat) => s.landProd w t p [.ofNat 32 a] ⟨0, 2⟩ true
  match s.queueOf? g.ctx q with
  | none => give s 2
  | some x =>
    if x.src = false then give s 2
    else if Config.queueSlots ≤ x.posted.length then give s 1
    else match s.readRecord g.core g.ctx g.kernel p.born va with
      | .wait s1 pg => s1.prodWaits w t p.seq pg
      | .fail s1 ue => s1.prodFails w t p ue
      | .ok s1 bytes =>
        let rec_ : BitVec 2048 := .ofNat 2048 (ofBytes (bytes.take 254) + 2 ^ 2032 * x.tag)
        give (s1.setQueue q fun x => { x with posted := x.posted ++ [rec_], tag := x.tag % 255 + 1 }) 0

/-- The status word of `KJOIN` for a kernel, or 4 while it has not ended (R147). -/
def State.joinWord (s : State) (ctx own h : Nat) : Nat :=
  match s.kidOf? ctx h with
  | none => 0
  | some e => let k := s.kern e; if e = own ∨ k.state.final = false then 4 else k.state.doneCode + 2 ^ 8 * k.cause

/-- `KJOIN`: a status of 1 to 3 is an acquire, and frees a child's entry (R135). -/
def State.doJoin (s : State) (w t : Nat) (p : Prod) (h : Nat) (poll : Bool) : State :=
  let g := s.wg w
  let v := s.joinWord g.ctx g.kernel h
  if v = 4 ∧ poll = false ∧ s.kidOf? g.ctx h ≠ some g.kernel then s
  else
    let s1 := s.landProd w t p [.ofNat 32 v] full true
    if v % 8 = 0 ∨ v % 8 = 4 then s1
    else
      let s2 := s1.acquire g.core .dev
      (s2.setKern ((s.kidOf? g.ctx h).getD h) fun k => if k.parent.isSome then { k with parent := none, joined := true } else k).sweepKernels

def isKill : Work → Bool
  | .kkill _ _ _ => true
  | _ => false

/-- A kernel of the context with this handle is being stopped. -/
def State.stopping (s : State) (ctx h : Nat) : Bool :=
  s.kernels.any fun e => handleOf e.1 == h && e.2.ctx == ctx && e.2.stop.isSome

/-- The lane's result is written; the kill of the thread's own kernel follows the group's last lane. -/
def State.killAnswer (s : State) (w t : Nat) (p : Prod) (own : Bool) (code : Nat) : State :=
  let g := s.wg w
  let s1 := s.landProd w t p [.ofNat 32 code] full true
  let last := !(g.threads.any fun e => e.1 != t && e.2.prods.any fun q => q.born == p.born && isKill q.work)
  if own && last then s1.kernelKill g.kernel else s1

/-- The kill is under way: its lane answers what it found once the kernel has ended, and later lanes that name it answer 6. -/
def Thread.killFound (x : Thread) (born h : Nat) (mine : Option Nat) (code : Nat) : Thread :=
  { x with prods := x.prods.map fun q => match q.work with
      | .kkill h' own none => if q.born = born ∧ h' = h then { q with work := .kkill h own (some (if mine = some q.seq then code else 6)) } else q
      | _ => q }

/-- One lane of `KKILL` (R148). -/
def State.doKill (s : State) (w t : Nat) (p : Prod) (h : Nat) (own : Bool) (found : Option Nat) : State :=
  let g := s.wg w
  match found with
  | some code => if s.stopping g.ctx h then s else s.killAnswer w t p own code
  | none =>
    match s.kidOf? g.ctx h with
    | none => s.killAnswer w t p own 0
    | some k =>
      let code := (s.kern k).state.killCode
      if k = g.kernel ∨ 5 ≤ code then s.killAnswer w t p own code
      else
        let mark := fun (u : Nat) (x : Thread) => x.killFound p.born h (if u = t then some p.seq else none) code
        let s1 := (s.setWg w fun g => { g with threads := g.threads.mapVals mark }).kernelKill k
        if s1.stopping g.ctx h then s1 else s1.killAnswer w t p own code

/-- One lane of `GETEV`: the read of the tail is an acquire, whatever follows. -/
def State.doGetev (s : State) (w t : Nat) (p : Prod) : State :=
  let g := s.wg w
  let c := s.ctx g.ctx
  let n := (c.evqTail + 2 ^ 32 - c.evqHead) % 2 ^ 32
  let s := s.acquire g.core .sys
  let va := c.evqVa + 16 * (c.evqHead % 2 ^ c.evqLog2)
  if n = 0 ∨ 2 ^ c.evqLog2 < n then s.landProd w t p [] full false
  else
    let done := fun (s : State) (d : Nat → Byte) =>
      let v := ofBytes ((List.range 16).map fun i => d (va % 128 + i))
      (s.setCtx g.ctx fun c => c.setFld 6 0 32 (c.evqHead + 1)).landProd w t p (wordList v 4) full true
    match s.readCoherent g.core g.ctx va false with
    | .hit d => done s d
    | .bytes s1 d => done (s1.late g.core g.kernel p.born (Krec.svc (s.krecOf w))) d
    | .wait s1 pg => s1.prodWaits w t p.seq pg
    | .page => s.prodFails w t p false
    | .tier s1 => s1.prodFails w t p false
    | .ue => s.prodFails w t p true

end Sys2Proof.Machine
end

