-- ==== Sys2Proof/WellFormed.lean ====
section
/-!
DEFINITION. When an instruction is well formed: its guarding predicate, its register fields (R41 to R48) and the remaining
checks of its form hold.  A step of the device has no encoding and nothing to check here.
-/
namespace Sys2Proof

/-- The predicate field is not 0b1111 (R41); the index is a predicate. -/
def Guard.wf (g : Guard) : Bool := g.p < 8 && !(g.p == 7 && g.neg)

/-- An index is legal for its tier and class (R44). -/
def Field.idxOk (f : Field) : Bool :=
  match f.tier, f.cls with
  | .main, _ => f.idx < 64
  | .opnd, _ => f.idx < 8
  | .last, _ => f.idx < 2
  | .const, .x => f.idx < 64
  | .const, .v => f.idx < 16

/-- The position accepts the field's class (R46). -/
def Field.clsOk (f : Field) : Acc → Bool
  | .x => f.cls == .x
  | .v => f.cls == .v
  | .any => true

/-- A pair's index is even and a quad's is a multiple of 4, in the main tier of class V (R48). -/
def Field.groupOk (f : Field) (n : Nat) : Bool := n == 1 || (f.tier == .main && f.cls == .v && f.idx % n == 0)

def Tiers.ok (t : Tiers) (f : Field) : Bool :=
  match t with
  | .all => true
  | .mainOpnd => f.tier == .main || f.tier == .opnd
  | .mainOnly => f.tier == .main

/-- A source field is legal (R44 to R48): `fe` only in the main tier, a constant in any 32-bit position of either class. -/
def Src.wf (s : Src) : Bool :=
  s.f.idxOk && (!s.f.fe || s.f.tier == .main) && s.t.ok s.f && s.f.groupOk s.n &&
  (s.f.tier == .const || s.f.clsOk s.acc)

/-- A destination field is legal (R45, R47, R48). -/
def Dst.wf (d : Dst) : Bool :=
  d.f.idxOk && !d.f.fe && (d.f.tier == .main || d.f.tier == .opnd) && d.t.ok d.f && d.f.groupOk d.n && d.f.clsOk d.acc

def Uses.wf (u : Uses) : Bool := u.srcs.all Src.wf && u.dsts.all Dst.wf && u.side

/-- In group 0xF only the length and the predicate field are interpreted (R41): the other bits are any. -/
def wfRest (words : Nat) (rest : BitVec 128) : Bool :=
  2 ≤ words && words ≤ 4 && rest.toNat % 1024 == 0 && rest.toNat / 2 ^ 14 % 16 == 0 && rest.toNat < 2 ^ (32 * words)

/-- The instruction is well formed. -/
def Instr.wf (i : Instr) : Bool :=
  (match i.guard? with
   | some g => (match i with
      | .idiv _ n r => g.p < 8 && wfRest n r
      | .irem _ n r => g.p < 8 && wfRest n r
      | _ => g.wf)
   | none => true) &&
  (match i.uses with
   | some u => u.wf
   | none => true)

end Sys2Proof
end

