-- ==== Sys2Proof/Decode.lean ====
section
/-!
DEFINITION. The decoder of Gelras instructions, in the order of R35, and after it the encoder, both from the encoding tables
of spec/02_encoding.md and of each group's chapter.

An instruction's words are one number, first word lowest, cut into the fields of the base layout (R38, R39).  For every
major opcode a candidate is read from the fields; it stands only when it is well formed and when encoding it gives the
fields back, so that a reserved or unused bit that is not zero refuses the word (R40).
-/
namespace Sys2Proof

/-- Bits [lo+n-1 : lo] of a number. -/
def bits (w lo n : Nat) : Nat := w / 2 ^ lo % 2 ^ n

/-- Position of an entry in a code table, and the entry at a code. -/
def codeOf {α : Type} [BEq α] (l : List α) (x : α) : Nat := l.idxOf x
def atCode {α : Type} (l : List α) (x : α) (n : Nat) : α := l.getD n x

/-- The fields of the base layout (R38) and the extension (R39); `len` is the length code, `hi` bits [63:48]. -/
structure Raw where
  len   : Nat
  major : Nat
  mod   : Nat
  pidx  : Nat
  pneg  : Bool
  dst   : Nat
  srca  : Nat
  srcb  : Nat
  hi    : Nat
  ext   : Nat
deriving DecidableEq, Repr

def Raw.toNat (r : Raw) : Nat :=
  r.len + 2 ^ 2 * r.major + 2 ^ 10 * r.mod + 2 ^ 14 * r.pidx + 2 ^ 17 * r.pneg.toNat + 2 ^ 18 * r.dst + 2 ^ 28 * r.srca +
  2 ^ 38 * r.srcb + 2 ^ 48 * r.hi + 2 ^ 64 * r.ext

def Raw.ofNat (w : Nat) : Raw :=
  { len := bits w 0 2, major := bits w 2 8, mod := bits w 10 4, pidx := bits w 14 3, pneg := bits w 17 1 == 1,
    dst := bits w 18 10, srca := bits w 28 10, srcb := bits w 38 10, hi := bits w 48 16, ext := w / 2 ^ 64 }

/-! ### Code tables -/

def Tier.codes : List Tier := [.main, .opnd, .last, .const]
def Cond.codes : List Cond := [.eq, .ne, .lt, .le, .gt, .ge, .ltu, .geu]
def FCond.codes : List FCond := [.eq, .ne, .lt, .le, .gt, .ge, .ord, .uno]
def Rnd.codes : List Rnd := [.rn, .rz, .rm, .rp]
def Fmt.codes : List Fmt := [.f32, .bf16, .f16, .e4m3, .e5m2, .e3m2, .e2m3, .e2m1, .i8, .i4, .vq2, .f64, .i32, .u32]
def Size.codes : List Size := [.b8, .b16, .b32, .b64, .b128]
def Order.codes : List Order := [.none, .acq, .rel, .acqrel]
def Scope.codes : List Scope := [.gang, .wg, .clu, .dev, .sys]
def XMode.codes : List XMode := [.from, .rot, .swap, .seg]
def PMode.codes : List PMode := [.some, .every, .mask, .same, .count]
def LaneOp.codes : List LaneOp := [.iadd, .imin, .imax, .iminu, .imaxu, .fadd, .fmin, .fmax]
def AmaxFmt.codes : List AmaxFmt := [.f32, .bf16x2, .f16x2]
def FeMode.codes : List FeMode := [.none, .keep, .clr]
def CctlOp.codes : List CctlOp := [.wb, .inv, .wbinv, .iinv]
def AtomOp.codes : List AtomOp := [.add, .min, .max, .minu, .maxu, .and, .or, .xor, .xchg, .fadd, .fmin, .fmax, .mask]
def WCond.codes : List WCond := [.eq, .ne, .ge, .geu]
def SpKind.codes : List SpKind := [.dense, .s24, .s14]
def Lvl.codes : List Lvl := [.gang, .wg, .clu, .stk, .grid]

/-! ### Fields -/

/-- A register field (R43). -/
def Field.enc (f : Field) : Nat :=
  256 * codeOf Tier.codes f.tier + 128 * f.fe.toNat + (if f.cls == .v then 64 else 0) + f.idx
def Field.dec (n : Nat) : Field :=
  { tier := atCode Tier.codes .main (bits n 8 2), fe := bits n 7 1 == 1, cls := if bits n 6 1 == 1 then .v else .x,
    idx := bits n 0 6 }

def optEnc (p : Option Nat) (bit lo : Nat) : Nat :=
  match p with
  | none => 0
  | some k => 2 ^ bit + 2 ^ lo * k
def optDec (n bit lo : Nat) : Option Nat := if bits n bit 1 == 1 then some (bits n lo 3) else none

/-- The memory form (R270). -/
def MemW.enc (w : MemW) : Nat := codeOf Order.codes w.order + 4 * codeOf Scope.codes w.scope + optEnc w.stat 5 6
def MemW.dec (n : Nat) : MemW :=
  { order := atCode Order.codes .none (bits n 0 2), scope := atCode Scope.codes .gang (bits n 2 3), stat := optDec n 5 6 }

/-- The scratch form (R271). -/
def ScrW.enc (w : ScrW) : Nat :=
  codeOf Order.codes w.order + 4 * codeOf Scope.codes w.scope + 32 * codeOf FeMode.codes w.fe
def ScrW.dec (n : Nat) : ScrW :=
  { order := atCode Order.codes .none (bits n 0 2), scope := atCode Scope.codes .gang (bits n 2 3),
    fe := atCode FeMode.codes .none (bits n 5 2) }

/-- The peer form (R271): a coordinate of kind cluster-relative core, the order and the scope. -/
def peerEnc (core : Nat) (w : ScrW) : Nat :=
  128 + core + 256 * codeOf Order.codes w.order + 1024 * codeOf Scope.codes w.scope
def peerDec (n : Nat) : ScrW :=
  { order := atCode Order.codes .none (bits n 8 2), scope := atCode Scope.codes .gang (bits n 10 3), fe := .none }

/-- The ticket form (R303). -/
def TkW.enc (w : TkW) : Nat := (w.lines - 1) + optEnc w.stat 4 5
def TkW.dec (n : Nat) : TkW := { lines := bits n 0 4 + 1, stat := optDec n 4 5 }

/-- The atomic form (R339). -/
def AtW.enc (w : AtW) : Nat :=
  codeOf Order.codes w.order + 4 * codeOf Scope.codes w.scope + 32 * w.remote.toNat + 64 * codeOf Size.codes w.size +
  optEnc w.stat 9 10 + (match w.peer with
    | none => 0
    | some c => 2 ^ 13 + 2 ^ 14 * c)
def AtW.dec (n : Nat) : AtW :=
  { order := atCode Order.codes .none (bits n 0 2), scope := atCode Scope.codes .gang (bits n 2 3), remote := bits n 5 1 == 1,
    size := atCode Size.codes .b8 (bits n 6 3), stat := optDec n 9 10,
    peer := if bits n 13 1 == 1 then some (bits n 14 2) else none }

/-- The wait form (R345). -/
def WaW.enc (w : WaW) : Nat :=
  codeOf Order.codes w.order + 4 * codeOf Scope.codes w.scope + 32 * w.remote.toNat + 64 * codeOf Size.codes w.size +
  512 * codeOf WCond.codes w.cond + optEnc w.stat 11 12 + 2 ^ 16 * w.timeout
def WaW.dec (n : Nat) : WaW :=
  { order := atCode Order.codes .none (bits n 0 2), scope := atCode Scope.codes .gang (bits n 2 3), remote := bits n 5 1 == 1,
    size := atCode Size.codes .b8 (bits n 6 3), cond := atCode WCond.codes .eq (bits n 9 2), stat := optDec n 11 12,
    timeout := bits n 16 12 }

/-- A placement coordinate (R57). -/
def Place.enc : Place → Nat
  | .slice n => n
  | .stack n => 64 + n
  | .core n => 128 + n
  | .home => 192
def Place.dec (n : Nat) : Place :=
  match bits n 6 2 with
  | 0 => .slice (bits n 0 6)
  | 1 => .stack (bits n 0 6)
  | 2 => .core (bits n 0 6)
  | _ => .home

/-- A barrier operand (R434). -/
def Bar.enc (b : Bar) : Nat := codeOf Lvl.codes b.lvl + 8 * b.num
def Bar.dec (n : Nat) : Bar := { lvl := atCode Lvl.codes .gang (bits n 0 3), num := bits n 3 4 }

/-! ### Encoding -/

/-- The base layout with its guard, its length code and its extension. -/
def mk (major mod : Nat) (g : Guard) (dst srca srcb : Nat) (hi : Nat := 0) (len : Nat := 0) (ext : Nat := 0) : Raw :=
  { len, major, mod, pidx := g.p, pneg := g.neg, dst, srca, srcb, hi, ext }

/-- Source B of the register and immediate forms (R198, R241); `hi` is what bits [63:48] hold beside it. -/
def mkB (major mod : Nat) (g : Guard) (dst srca : Nat) (b : SrcB) (hi : Nat := 0) : Raw :=
  match b with
  | .reg f => mk major mod g dst srca f.enc hi
  | .wide f => mk major mod g dst srca f.enc hi 1
  | .imm16 v => mk major (mod + 8) g dst srca 0 v.toNat
  | .imm32 v => mk major (mod + 8) g dst srca 0 hi 1 v.toNat

def alu1R (major mod : Nat) (g : Guard) (o : Alu1) : Raw := mk major mod g o.d.enc o.a.enc 0
def alu2R (major mod : Nat) (g : Guard) (o : Alu2) : Raw := mkB major mod g o.d.enc o.a.enc o.b
def alu3R (major mod : Nat) (g : Guard) (o : Alu3) : Raw := mkB major mod g o.d.enc o.a.enc o.b o.c.enc

/-- The array form in its three lengths (R270). -/
def mkA {ω : Type} (major mod : Nat) (g : Guard) (dst srcb : Nat) (enc : ω → Nat) (m : ArrOp ω) : Raw :=
  match m.form with
  | .a64 o => mk major mod g dst m.x.enc srcb (m.k + 16 * o.toNat)
  | .a96 o w => mk major mod g dst m.x.enc srcb (m.k + 16 * o.toNat) 1 (enc w)
  | .a128 o w => mk major mod g dst m.x.enc srcb m.k 2 (enc w + 2 ^ 32 * o.toNat)

/-- The scratch form in its two lengths (R271). -/
def mkS (major mod : Nat) (g : Guard) (dst x srcb off : Nat) (w : Option ScrW) : Raw :=
  match w with
  | none => mk major mod g dst x srcb off
  | some w => mk major mod g dst x srcb off 1 w.enc

/-- A cross-lane instruction with its mask (R232). -/
def mkM (major mod : Nat) (g : Guard) (dst srca srcb : Nat) (m : LMask) : Raw :=
  match m with
  | .imm v => mk major mod g dst srca srcb 0 2 v.toNat
  | .pair f => mk major mod g dst srca srcb f.enc

/-- A branch with a 16- or 32-bit offset (R200). -/
def mkO (major mod : Nat) (g : Guard) (dst srca srcb : Nat) (o : Off) : Raw :=
  match o with
  | .s16 v => mk major mod g dst srca srcb v.toNat
  | .s32 v => mk major mod g dst srca srcb 0 1 v.toNat

def szMod (sz : Size) (sgn : Bool) : Nat := codeOf Size.codes sz + 8 * sgn.toNat
def rn (r : Rnd) : Nat := codeOf Rnd.codes r
def nfMod (p : Option Nat) : Nat := if p.isSome then 8 else 0

/-- The fields of a thread instruction outside group 0xF; `none` for the others. -/
def Instr.toRaw : Instr → Option Raw
  | .nop g => some (mk 0x00 0 g 0 0 0)
  | .bra g o => some (mkO 0x01 0 g 0 0 0 o)
  | .brc g c a (.reg b o) => some (mkO 0x02 (codeOf Cond.codes c) g 0 a.enc b.enc o)
  | .brc g c a (.imm v o) => some (mk 0x02 (codeOf Cond.codes c + 8) g 0 a.enc 0 o.toNat 1 v.toNat)
  | .brp g all p o => some (mkO 0x03 all.toNat g 0 p 0 o)
  | .brx g a o => some (mk 0x04 0 g 0 a.enc 0 o.toNat)
  | .brxAbs g a => some (mk 0x04 1 g 0 a.enc 0)
  | .call g d o => some (mkO 0x05 0 g d.enc 0 0 o)
  | .callx g d a => some (mk 0x06 0 g d.enc a.enc 0)
  | .ret g a => some (mk 0x07 0 g 0 a.enc 0)
  | .join g => some (mk 0x08 0 g 0 0 0)
  | .exit g => some (mk 0x09 0 g 0 0 0)
  | .yield g => some (mk 0x0A 0 g 0 0 0)
  | .sleep g (.imm n) => some (mk 0x0B 0 g 0 0 0 n.toNat)
  | .sleep g (.reg a) => some (mk 0x0B 1 g 0 a.enc 0)
  | .iadd g o => some (alu2R 0x10 0 g o)
  | .isub g o => some (alu2R 0x11 0 g o)
  | .imul g o => some (alu2R 0x12 0 g o)
  | .imulh g u o => some (alu2R 0x13 u.toNat g o)
  | .imad g o => some (alu3R 0x14 0 g o)
  | .ineg g o => some (alu1R 0x15 0 g o)
  | .iabs g o => some (alu1R 0x16 0 g o)
  | .imin g o => some (alu2R 0x17 0 g o)
  | .imax g o => some (alu2R 0x18 0 g o)
  | .iminu g o => some (alu2R 0x19 0 g o)
  | .imaxu g o => some (alu2R 0x1A 0 g o)
  | .isad g o => some (alu3R 0x1B 0 g o)
  | .and g o => some (alu2R 0x20 0 g o)
  | .or g o => some (alu2R 0x21 0 g o)
  | .xor g o => some (alu2R 0x22 0 g o)
  | .andn g o => some (alu2R 0x23 0 g o)
  | .not g o => some (alu1R 0x24 0 g o)
  | .blut g o t => some { alu3R 0x25 0 g o with ext := t.toNat }
  | .shl g o => some (alu2R 0x26 0 g o)
  | .shr g o => some (alu2R 0x27 0 g o)
  | .sar g o => some (alu2R 0x28 0 g o)
  | .rol g o => some (alu2R 0x29 0 g o)
  | .bcnt g o => some (alu1R 0x2A 0 g o)
  | .clz g o => some (alu1R 0x2B 0 g o)
  | .ctz g o => some (alu1R 0x2C 0 g o)
  | .bitrev g o => some (alu1R 0x2D 0 g o)
  | .bfe g s o => some (alu2R 0x2E s.toNat g o)
  | .bfi g o => some (alu3R 0x2F 0 g o)
  | .icmp g c pd a b => some (mkB 0x30 (codeOf Cond.codes c) g pd a.enc b)
  | .icmpu g c pd a b => some (mkB 0x31 (codeOf Cond.codes c) g pd a.enc b)
  | .pset g tt pd pa pb => some (mk 0x32 tt.toNat g pd pa pb)
  | .pmov g d => some (mk 0x33 0 g d.enc 0 0)
  | .pmovW g a m => some (mk 0x33 1 g 0 a.enc 0 m.toNat)
  | .clamp g d a (.regs b c) => some (mk 0x34 0 g d.enc a.enc b.enc c.enc)
  | .clamp g d a (.imms lo hi) => some (mk 0x34 8 g d.enc a.enc 0 0 2 (lo.toNat + 2 ^ 32 * hi.toNat))
  | .widen g d lo hi => some (mk 0x35 0 g d.enc 0 0 0 2 (lo.toNat + 2 ^ 32 * hi.toNat))
  | .intvGet g d a => some (mk 0x36 0 g d.enc a.enc 0)
  | .intvSet g d a b => some (mk 0x37 0 g d.enc a.enc b.enc)
  | .intvChk g d lo hi => some (mk 0x38 0 g d.enc 0 0 0 2 (lo.toNat + 2 ^ 32 * hi.toNat))
  | .intvUn g d a => some (mk 0x39 0 g d.enc a.enc 0)
  | .mov g .w1 d a => some (mk 0x40 0 g d.enc a.enc 0)
  | .mov g .w2 d a => some (mk 0x40 1 g d.enc a.enc 0)
  | .mov g .w4 d a => some (mk 0x40 2 g d.enc a.enc 0)
  | .movi g d (.s16 v) => some (mk 0x41 0 g d.enc 0 0 v.toNat)
  | .movi g d (.hi16 v) => some (mk 0x41 1 g d.enc 0 0 v.toNat)
  | .movi g d (.w32 v) => some (mk 0x41 0 g d.enc 0 0 0 1 v.toNat)
  | .movi g d (.d64 v) => some (mk 0x41 0 g d.enc 0 0 0 2 v.toNat)
  | .sel g o p => some (mkB 0x42 0 g o.d.enc o.a.enc o.b p)
  | .cvt g tgt src r sat e d a =>
      some (mk 0x43 (codeOf Fmt.codes tgt) g d.enc a.enc 0 (codeOf Fmt.codes src + 16 * rn r + 64 * sat.toNat + 128 * e))
  | .cvtq g d a k => some (mk 0x44 0 g d.enc a.enc k)
  | .xlane g m d a b w => some (mkM 0x45 (codeOf XMode.codes m) g d.enc a.enc b.enc w)
  | .pcoll g .mask _ d pa w => some (mkM 0x46 2 g d.enc pa 0 w)
  | .pcoll g .count _ d pa w => some (mkM 0x46 4 g d.enc pa 0 w)
  | .pcoll g m pd _ pa w => some (mkM 0x46 (codeOf PMode.codes m) g pd pa 0 w)
  | .lreduce g op d a w => some (mkM 0x47 (codeOf LaneOp.codes op) g d.enc a.enc 0 w)
  | .lscan g op excl d a w => some (mkM 0x48 (codeOf LaneOp.codes op + 8 * excl.toNat) g d.enc a.enc 0 w)
  | .xeq g b64 d a w => some (mkM 0x49 b64.toNat g d.enc a.enc 0 w)
  | .sread g d s => some (mk 0x4A 0 g d.enc 0 0 s)
  | .getf g d k w => some (mk 0x4B 0 g d.enc k 0 w)
  | .fadd g r o => some (alu2R 0x50 (rn r) g o)
  | .fsub g r o => some (alu2R 0x51 (rn r) g o)
  | .fmul g r o => some (alu2R 0x52 (rn r) g o)
  | .ffma g r o => some (alu3R 0x53 (rn r) g o)
  | .fmin g o => some (alu2R 0x54 0 g o)
  | .fmax g o => some (alu2R 0x55 0 g o)
  | .fcmp g c pd a b => some (mkB 0x56 (codeOf FCond.codes c) g pd a.enc b)
  | .frnd g r o => some (alu1R 0x57 (rn r) g o)
  | .frcp g o => some (alu1R 0x58 0 g o)
  | .frsq g o => some (alu1R 0x58 1 g o)
  | .fsqrt g o => some (alu1R 0x58 2 g o)
  | .fexp2 g o => some (alu1R 0x58 3 g o)
  | .flog2 g o => some (alu1R 0x58 4 g o)
  | .fsin g o => some (alu1R 0x58 5 g o)
  | .fcos g o => some (alu1R 0x58 6 g o)
  | .ftanh g o => some (alu1R 0x58 7 g o)
  | .dadd g r n d a b => some (mk 0x59 (rn r) g d.enc a.enc b.enc (1024 * n.toNat))
  | .dmul g r d a b => some (mk 0x5A (rn r) g d.enc a.enc b.enc)
  | .dfma g r d a b c => some (mk 0x5B (rn r) g d.enc a.enc b.enc c.enc)
  | .dcmp g c pd a b => some (mk 0x5C (codeOf FCond.codes c) g pd a.enc b.enc)
  | .h2add g r d a b => some (mk 0x60 (rn r) g d.enc a.enc b.enc)
  | .h2mul g r d a b => some (mk 0x61 (rn r) g d.enc a.enc b.enc)
  | .h2fma g r d a b c => some (mk 0x62 (rn r) g d.enc a.enc b.enc c.enc)
  | .b2add g r d a b => some (mk 0x63 (rn r) g d.enc a.enc b.enc)
  | .b2mul g r d a b => some (mk 0x64 (rn r) g d.enc a.enc b.enc)
  | .b2fma g r d a b c => some (mk 0x65 (rn r) g d.enc a.enc b.enc c.enc)
  | .pkminmax g mx bf d a b => some (mk 0x66 (mx.toNat + 2 * bf.toNat) g d.enc a.enc b.enc)
  | .f8dot g ae be d a b c => some (mk 0x67 (ae.toNat + 2 * be.toNat) g d.enc a.enc b.enc c.enc)
  | .i8dot g ua ub d a b c => some (mk 0x68 (ua.toNat + 2 * ub.toNat) g d.enc a.enc b.enc c.enc)
  | .vqdec g h f d a b k => some (mk 0x69 (h.toNat + 2 * f.toNat) g d.enc a.enc b.enc k)
  | .amax g f d a b => some (mk 0x6A (codeOf AmaxFmt.codes f) g d.enc a.enc b.enc)
  | .ld g sz s d m => some (mkA 0x70 (szMod sz s) g d.enc 0 MemW.enc m)
  | .st g sz m v => some (mkA 0x71 (szMod sz false) g 0 v.enc MemW.enc m)
  | .ldu g sz s d m => some (mkA 0x72 (szMod sz s) g d.enc 0 MemW.enc m)
  | .lds g sz s d x o w => some (mkS 0x73 (szMod sz s) g d.enc x.enc 0 o.toNat w)
  | .sts g sz x o w v => some (mkS 0x74 (szMod sz false) g 0 x.enc v.enc o.toNat w)
  | .ldp g sz s d x o c w => some (mk 0x75 (szMod sz s) g d.enc x.enc 0 o.toNat 1 (peerEnc c w))
  | .stp g sz x o c w v => some (mk 0x76 (szMod sz false) g 0 x.enc v.enc o.toNat 1 (peerEnc c w))
  | .ldXs g d m => some (mkA 0x77 0 g d.enc 0 MemW.enc m)
  | .stXs g m v => some (mkA 0x78 0 g 0 v.enc MemW.enc m)
  | .lda g sz s d va o w => some (mkS 0x79 (szMod sz s) g d.enc va.enc 0 o.toNat w)
  | .sta g sz va o w v => some (mkS 0x7A (szMod sz false) g 0 va.enc v.enc o.toNat w)
  | .pref g l2 m => some (mkA 0x7B l2.toNat g 0 0 (fun _ => 0) m)
  | .resv g m => some (mkA 0x7C 0 g 0 0 (fun _ => 0) m)
  | .resvClr g m => some (mkA 0x7C 1 g 0 0 (fun _ => 0) m)
  | .cctl g op va n => some (mk 0x7D (codeOf CctlOp.codes op) g 0 va.enc 0 n)
  | .arraySet g k a => some (mk 0x7E 0 g k a.enc 0)
  | .arrayGet g d k => some (mk 0x7E 1 g d.enc k 0)
  | .arrayChk g keep d => some (mk 0x7E 2 g d.enc 0 0 keep.toNat)
  | .tktLd g t d m => some (mkA 0x80 (8 * t.toNat) g d.enc 0 TkW.enc m)
  | .tktRdv g sz nf d t x => some (mk 0x81 (codeOf Size.codes sz + nfMod nf) g d.enc t.enc x.enc (nf.getD 0))
  | .tktRds g nf d t x => some (mk 0x82 (nfMod nf) g d.enc t.enc x.enc (nf.getD 0))
  | .tktPoll g pd t => some (mk 0x83 0 g pd t.enc 0)
  | .tktWaitany g d x n p => some (mk 0x84 0 g d.enc x.enc 0 ((n - 1) + 32 * p))
  | .tktDrop g p t => some (mk 0x85 (nfMod p) g 0 t.enc 0 (p.getD 0))
  | .tktStat g d t => some (mk 0x86 0 g d.enc t.enc 0)
  | .atom g op d m v => some (mkA 0x90 (codeOf AtomOp.codes op) g d.enc v.enc AtW.enc m)
  | .red g op m v => some (mkA 0x91 (codeOf AtomOp.codes op) g 0 v.enc AtW.enc m)
  | .cas g d k x o w new cmp =>
      some (mk 0x92 0 g d.enc x.enc new.enc (cmp.enc + 1024 * k) 2 (w.enc + 2 ^ 32 * o.toNat))
  | .atoms g op d x (.s96 o) w v => some (mk 0x93 (codeOf AtomOp.codes op) g d.enc x.enc v.enc o.toNat 1 w.enc)
  | .atoms g op d x (.s128 o) w v =>
      some (mk 0x93 (codeOf AtomOp.codes op) g d.enc x.enc v.enc 0 2 (w.enc + 2 ^ 32 * o.toNat))
  | .cass g d x o w new cmp => some (mk 0x94 0 g d.enc x.enc new.enc cmp.enc 2 (w.enc + 2 ^ 32 * o.toNat))
  | .fence g o sc r => some (mk 0x95 (codeOf Order.codes o) g 0 0 0 (codeOf Scope.codes sc + 8 * r.toNat))
  | .waita g d k x b o w => some (mk 0x96 0 g d.enc x.enc b.enc k 2 (w.enc + 2 ^ 32 * o.toNat))
  | .lineClr g m => some (mkA 0x97 0 g 0 0 (fun _ => 0) m)
  | .mma g d x a b mc => some (mk 0xA0 0 g d.enc x.enc 0 (a + 8 * b + 64 * mc.toNat))
  | .mmaSp g d x ka kb a b mc =>
      some (mk 0xA1 (codeOf SpKind.codes ka + 4 * codeOf SpKind.codes kb) g d.enc x.enc 0 (a + 8 * b + 64 * mc.toNat))
  | .mmaMcr g d x ka kb a b =>
      some (mk 0xA2 (codeOf SpKind.codes ka + 4 * codeOf SpKind.codes kb) g d.enc x.enc 0 (a + 8 * b))
  | .accZero g d x => some (mk 0xA3 0 g d.enc x.enc 0)
  | .accLd g d x => some (mk 0xA4 0 g d.enc x.enc 0)
  | .accSt g d x => some (mk 0xA5 0 g d.enc x.enc 0)
  | .accCvt g d x k r sat => some (mk 0xA6 (rn r + 4 * sat.toNat) g d.enc x.enc 0 k)
  | .accAmax g d x => some (mk 0xA7 0 g d.enc x.enc 0)
  | .xfer g d x c we => some (mk 0xB0 0 g d.enc x.enc c.enc (1024 * we.toNat))
  | .xferIm2c g d x c we f => some (mk 0xB1 0 g d.enc x.enc c.enc (1024 * we.toNat + 2048 * f.toNat))
  | .xferGath g d x c we => some (mk 0xB2 0 g d.enc x.enc c.enc (1024 * we.toNat))
  | .xferScat g d x c => some (mk 0xB3 0 g d.enc x.enc c.enc)
  | .xferUnpk g d x c we => some (mk 0xB4 0 g d.enc x.enc c.enc (1024 * we.toNat))
  | .xferPack g d x c => some (mk 0xB5 0 g d.enc x.enc c.enc)
  | .xferMcast g d x c we m => some (mk 0xB6 0 g d.enc x.enc c.enc (1024 * we.toNat + 4096 * m.toNat))
  | .xferPref g d x c pl => some (mk 0xB7 0 g d.enc x.enc c.enc 0 2 pl.enc)
  | .xferPagein g d x pl => some (mk 0xB8 0 g d.enc x.enc 0 0 2 pl.enc)
  | .lockQ g d (.scratch x) n => some (mk 0xB9 0 g d.enc x.enc 0 n)
  | .lockQ g d (.global x) n => some (mk 0xB9 1 g d.enc x.enc 0 n)
  | .granFill g x n => some (mk 0xBA 0 g 0 x.enc 0 n)
  | .granEmpty g x n => some (mk 0xBB 0 g 0 x.enc 0 n)
  | .barArr g d b => some (mk 0xC0 0 g d.enc 0 0 b.enc)
  | .barWait g a => some (mk 0xC1 0 g 0 a.enc 0)
  | .barSync g b => some (mk 0xC2 0 g 0 0 0 b.enc)
  | .barTry g pd a => some (mk 0xC3 0 g pd a.enc 0)
  | .barCnt g d b => some (mk 0xC4 0 g d.enc 0 0 b.enc)
  | .elect g pd none => some (mk 0xC5 0 g pd 0 0)
  | .elect g pd (some m) => some (mkM 0xC5 1 g pd 0 0 m)
  | .klaunch g d a => some (mk 0xD0 0 g d.enc a.enc 0)
  | .kjoin g p d a => some (mk 0xD1 p.toNat g d.enc a.enc 0)
  | .kkill g d a => some (mk 0xD2 0 g d.enc a.enc 0)
  | .qpost g d q a => some (mk 0xD3 0 g d.enc q.enc a.enc)
  | .qstat g d q => some (mk 0xD4 0 g d.enc q.enc 0)
  | .ctxRd g d n => some (mk 0xD5 0 g d.enc 0 0 n)
  | .ctxWr g n a => some (mk 0xD6 0 g 0 a.enc 0 n)
  | .pageMap g d a b => some (mk 0xD7 0 g d.enc a.enc b.enc)
  | .pageMapAlloc g d a b => some (mk 0xD7 1 g d.enc a.enc b.enc)
  | .pageMapUpd g d a b => some (mk 0xD7 2 g d.enc a.enc b.enc)
  | .pageMapRgn g d a l => some (mk 0xD7 3 g d.enc a.enc 0 l.toNat)
  | .pageUnmap g d a => some (mk 0xD8 0 g d.enc a.enc 0)
  | .pageUnmapRgn g d a => some (mk 0xD8 1 g d.enc a.enc 0)
  | .pageRef g d a => some (mk 0xD9 0 g d.enc a.enc 0)
  | .pageUnref g d a => some (mk 0xDA 0 g d.enc a.enc 0)
  | .pageCopy g d a p => some (mk 0xDB 0 g d.enc a.enc 0 p)
  | .pageProbe g d a => some (mk 0xDC 0 g d.enc a.enc 0)
  | .pageProbeClr g d a => some (mk 0xDC 1 g d.enc a.enc 0)
  | .pageProbeFrame g d a => some (mk 0xDC 2 g d.enc a.enc 0)
  | .pageInv g d a => some (mk 0xDD 0 g d.enc a.enc 0)
  | .pageInvFail g d a => some (mk 0xDD 1 g d.enc a.enc 0)
  | .pagePin g d a => some (mk 0xDE 0 g d.enc a.enc 0)
  | .pagePinClr g d a => some (mk 0xDE 1 g d.enc a.enc 0)
  | .trap g c => some (mk 0xE0 0 g 0 0 0 c.toNat)
  | .eret g => some (mk 0xE1 0 g 0 0 0)
  | .eretFault g => some (mk 0xE1 1 g 0 0 0)
  | .hrd g d k i => some (mk 0xE2 0 g d.enc 0 0 (4096 * k + i))
  | .hwr g k i a => some (mk 0xE3 0 g 0 a.enc 0 (4096 * k + i))
  | .getev g d p => some (mk 0xE4 0 g d.enc 0 0 p)
  | .bkpt g c => some (mk 0xE5 0 g 0 0 0 c.toNat)
  | .clk g o d => some (mk 0xE6 o.toNat g d.enc 0 0)
  | .perf g d n => some (mk 0xE7 0 g d.enc 0 0 n)
  | .preemptChk g pd => some (mk 0xE8 0 g pd 0 0)
  | _ => none

/-- The number of an instruction of group 0xF (R41, R55): its length, major opcode and predicate, and the other bits. -/
def unimplNat (major : Nat) (g : Guard) (words : Nat) (rest : BitVec 128) : Nat :=
  (words - 2) + 4 * major + 2 ^ 14 * g.p + 2 ^ 17 * g.neg.toNat + rest.toNat

/-- The words of a thread instruction as one number and their count; `none` for a step of the device. -/
def Instr.toNum : Instr → Option (Nat × Nat)
  | .blockEnd => some (3, 1)
  | .idiv g n r => some (unimplNat 0xF1 g n r, n)
  | .irem g n r => some (unimplNat 0xF2 g n r, n)
  | i => i.toRaw.map fun r => (r.toNat, r.len + 2)

/-! ### Decoding -/

/-- Why a word is no instruction (R35).  Each takes ILL but `straddle`, which takes STRADDLE. -/
inductive DecErr
  | badBlockEnd | straddle | unassigned | badLength | badModifier | badPredicate | badField
deriving DecidableEq, Repr

/-- What the decoder answers.  `unimpl` is a slot of group 0xF that no mnemonic names; it takes UNIMPL for the lanes of its
guard, and the number of its words is what a skip would advance by (R35, R53). -/
inductive Decoded
  | ok (i : Instr) (words : Nat)
  | unimpl (g : Guard) (words : Nat)
  | bad (e : DecErr)
deriving DecidableEq, Repr

/-- Length codes that a major opcode permits (R200 to R487); the empty list where the map assigns nothing (R53). -/
def lensOf (major : Nat) : List Nat :=
  match major with
  | 0x01 | 0x02 | 0x03 | 0x05 => [0, 1]
  | 0x00 | 0x04 | 0x06 | 0x07 | 0x08 | 0x09 | 0x0A | 0x0B => [0]
  | 0x10 | 0x11 | 0x12 | 0x13 | 0x14 | 0x17 | 0x18 | 0x19 | 0x1A | 0x1B => [0, 1]
  | 0x15 | 0x16 => [0]
  | 0x20 | 0x21 | 0x22 | 0x23 | 0x26 | 0x27 | 0x28 | 0x29 | 0x2E | 0x2F => [0, 1]
  | 0x24 | 0x2A | 0x2B | 0x2C | 0x2D => [0]
  | 0x25 => [1]
  | 0x30 | 0x31 => [0, 1]
  | 0x32 | 0x33 | 0x36 | 0x37 | 0x39 => [0]
  | 0x34 => [0, 2]
  | 0x35 | 0x38 => [2]
  | 0x40 | 0x43 | 0x44 | 0x4A | 0x4B => [0]
  | 0x41 => [0, 1, 2]
  | 0x42 => [0, 1]
  | 0x45 | 0x46 | 0x47 | 0x48 | 0x49 => [0, 2]
  | 0x50 | 0x51 | 0x52 | 0x53 | 0x54 | 0x55 | 0x56 => [0, 1]
  | 0x57 | 0x58 | 0x59 | 0x5A | 0x5B | 0x5C => [0]
  | 0x60 | 0x61 | 0x62 | 0x63 | 0x64 | 0x65 | 0x66 | 0x67 | 0x68 | 0x69 | 0x6A => [0]
  | 0x70 | 0x71 | 0x72 | 0x77 | 0x78 | 0x7B | 0x7C => [0, 1, 2]
  | 0x73 | 0x74 | 0x79 | 0x7A => [0, 1]
  | 0x75 | 0x76 => [1]
  | 0x7D | 0x7E => [0]
  | 0x80 => [1, 2]
  | 0x81 | 0x82 | 0x83 | 0x84 | 0x85 | 0x86 => [0]
  | 0x90 | 0x91 | 0x93 => [1, 2]
  | 0x92 | 0x94 | 0x96 => [2]
  | 0x95 => [0]
  | 0x97 => [0, 2]
  | 0xA0 | 0xA1 | 0xA2 | 0xA3 | 0xA4 | 0xA5 | 0xA6 | 0xA7 => [0]
  | 0xB0 | 0xB1 | 0xB2 | 0xB3 | 0xB4 | 0xB5 | 0xB6 | 0xB9 | 0xBA | 0xBB => [0]
  | 0xB7 | 0xB8 => [2]
  | 0xC0 | 0xC1 | 0xC2 | 0xC3 | 0xC4 => [0]
  | 0xC5 => [0, 2]
  | 0xD0 | 0xD1 | 0xD2 | 0xD3 | 0xD4 | 0xD5 | 0xD6 | 0xD7 | 0xD8 | 0xD9 | 0xDA | 0xDB | 0xDC | 0xDD | 0xDE => [0]
  | 0xE0 | 0xE1 | 0xE2 | 0xE3 | 0xE4 | 0xE5 | 0xE6 | 0xE7 | 0xE8 => [0]
  | _ => []

/-- Modifier values that a major opcode defines in some length (R40). -/
def modOk (major mod : Nat) : Bool :=
  match major with
  | 0x02 => true
  | 0x03 | 0x04 | 0x0B => mod ≤ 1
  | 0x10 | 0x11 | 0x12 | 0x14 | 0x17 | 0x18 | 0x19 | 0x1A | 0x1B => mod % 8 == 0
  | 0x13 | 0x2E => mod % 8 ≤ 1
  | 0x20 | 0x21 | 0x22 | 0x23 | 0x26 | 0x27 | 0x28 | 0x29 | 0x2F => mod % 8 == 0
  | 0x30 | 0x31 => mod % 8 ≤ 5
  | 0x32 => true
  | 0x33 | 0x41 | 0x49 => mod ≤ 1
  | 0x34 | 0x42 => mod % 8 == 0
  | 0x40 => mod ≤ 2
  | 0x43 => mod ≤ 13 && mod != 10
  | 0x45 => mod ≤ 3
  | 0x46 => mod ≤ 4
  | 0x47 => mod ≤ 7
  | 0x48 => true
  | 0x50 | 0x51 | 0x52 | 0x53 => mod % 8 ≤ 3
  | 0x54 | 0x55 => mod % 8 == 0
  | 0x56 => true
  | 0x57 | 0x59 | 0x5A | 0x5B => mod ≤ 3
  | 0x58 | 0x5C => mod ≤ 7
  | 0x60 | 0x61 | 0x62 | 0x63 | 0x64 | 0x65 | 0x66 | 0x67 | 0x68 | 0x69 => mod ≤ 3
  | 0x6A => mod ≤ 2
  | 0x70 | 0x72 | 0x73 | 0x75 | 0x79 => mod ≤ 4 || mod == 8 || mod == 9
  | 0x71 | 0x74 | 0x76 | 0x7A => mod ≤ 4
  | 0x7B | 0x7C => mod ≤ 1
  | 0x7D => mod ≤ 3
  | 0x7E => mod ≤ 2
  | 0x80 | 0x82 | 0x85 => mod == 0 || mod == 8
  | 0x81 => (2 ≤ mod && mod ≤ 4) || (10 ≤ mod && mod ≤ 12)
  | 0x90 | 0x93 => mod ≤ 12
  | 0x91 => mod ≤ 12 && mod != 8
  | 0x95 => 1 ≤ mod && mod ≤ 3
  | 0xA1 => mod % 4 ≤ 2 && mod / 4 ≤ 2 && mod != 0
  | 0xA2 => mod % 4 ≤ 2 && mod / 4 ≤ 2
  | 0xA6 => mod ≤ 7
  | 0xB9 | 0xC5 => mod ≤ 1
  | 0xD1 | 0xD8 | 0xDD | 0xDE => mod ≤ 1
  | 0xD7 => mod ≤ 3
  | 0xDC => mod ≤ 2
  | 0xE1 | 0xE6 => mod ≤ 1
  | _ => mod == 0

namespace Dec

variable (r : Raw)

def g : Guard := { p := r.pidx, neg := r.pneg }
def d : Field := .dec r.dst
def a : Field := .dec r.srca
def b : Field := .dec r.srcb
def c : Field := .dec (bits r.hi 0 10)
def hi16 : BitVec 16 := .ofNat 16 r.hi
def ext32 : BitVec 32 := .ofNat 32 r.ext
def extHi : BitVec 32 := .ofNat 32 (r.ext / 2 ^ 32)
def rnd : Rnd := atCode Rnd.codes .rn (bits r.mod 0 2)
def size : Size := atCode Size.codes .b8 (bits r.mod 0 3)
def sgn : Bool := bits r.mod 3 1 == 1
def nf : Option Nat := if bits r.mod 3 1 == 1 then some (bits r.hi 0 10) else none

/-- Source B (R198, R241). -/
def srcB : SrcB :=
  if bits r.mod 3 1 == 1 then (if r.len == 0 then .imm16 (hi16 r) else .imm32 (ext32 r))
  else if r.len == 0 then .reg (b r) else .wide (b r)

def off : Off := if r.len == 0 then .s16 (hi16 r) else .s32 (ext32 r)
def alu1 : Alu1 := { d := d r, a := a r }
def alu2 : Alu2 := { d := d r, a := a r, b := srcB r }
def alu3 : Alu3 := { d := d r, a := a r, b := srcB r, c := c r }
def mask : LMask := if r.len == 2 then .imm (.ofNat 64 r.ext) else .pair (c r)
def cond : Cond := atCode Cond.codes .eq (bits r.mod 0 3)
def fcond : FCond := atCode FCond.codes .eq (bits r.mod 0 3)

/-- The array operand (R270). -/
def arr {ω : Type} (dec : Nat → ω) : ArrOp ω :=
  { k := bits r.hi 0 4, x := a r,
    form := match r.len with
      | 0 => .a64 (.ofNat 12 (r.hi / 16))
      | 1 => .a96 (.ofNat 12 (r.hi / 16)) (dec r.ext)
      | _ => .a128 (extHi r) (dec (bits r.ext 0 32)) }

def scr : Option ScrW := if r.len == 0 then none else some (.dec r.ext)

/-- Groups 0x0 to 0x3. -/
def low : Option Instr :=
  match r.major with
  | 0x00 => some (.nop (g r))
  | 0x01 => some (.bra (g r) (off r))
  | 0x02 => some (if bits r.mod 3 1 == 1 then .brc (g r) (cond r) (a r) (.imm (ext32 r) (hi16 r))
                  else .brc (g r) (cond r) (a r) (.reg (b r) (off r)))
  | 0x03 => some (.brp (g r) (r.mod == 1) r.srca (off r))
  | 0x04 => some (if r.mod == 0 then .brx (g r) (a r) (hi16 r) else .brxAbs (g r) (a r))
  | 0x05 => some (.call (g r) (d r) (off r))
  | 0x06 => some (.callx (g r) (d r) (a r))
  | 0x07 => some (.ret (g r) (a r))
  | 0x08 => some (.join (g r))
  | 0x09 => some (.exit (g r))
  | 0x0A => some (.yield (g r))
  | 0x0B => some (.sleep (g r) (if r.mod == 0 then .imm (hi16 r) else .reg (a r)))
  | 0x10 => some (.iadd (g r) (alu2 r))
  | 0x11 => some (.isub (g r) (alu2 r))
  | 0x12 => some (.imul (g r) (alu2 r))
  | 0x13 => some (.imulh (g r) (bits r.mod 0 3 == 1) (alu2 r))
  | 0x14 => some (.imad (g r) (alu3 r))
  | 0x15 => some (.ineg (g r) (alu1 r))
  | 0x16 => some (.iabs (g r) (alu1 r))
  | 0x17 => some (.imin (g r) (alu2 r))
  | 0x18 => some (.imax (g r) (alu2 r))
  | 0x19 => some (.iminu (g r) (alu2 r))
  | 0x1A => some (.imaxu (g r) (alu2 r))
  | 0x1B => some (.isad (g r) (alu3 r))
  | 0x20 => some (.and (g r) (alu2 r))
  | 0x21 => some (.or (g r) (alu2 r))
  | 0x22 => some (.xor (g r) (alu2 r))
  | 0x23 => some (.andn (g r) (alu2 r))
  | 0x24 => some (.not (g r) (alu1 r))
  | 0x25 => some (.blut (g r) (alu3 r) (.ofNat 8 r.ext))
  | 0x26 => some (.shl (g r) (alu2 r))
  | 0x27 => some (.shr (g r) (alu2 r))
  | 0x28 => some (.sar (g r) (alu2 r))
  | 0x29 => some (.rol (g r) (alu2 r))
  | 0x2A => some (.bcnt (g r) (alu1 r))
  | 0x2B => some (.clz (g r) (alu1 r))
  | 0x2C => some (.ctz (g r) (alu1 r))
  | 0x2D => some (.bitrev (g r) (alu1 r))
  | 0x2E => some (.bfe (g r) (bits r.mod 0 3 == 1) (alu2 r))
  | 0x2F => some (.bfi (g r) (alu3 r))
  | 0x30 => some (.icmp (g r) (cond r) r.dst (a r) (srcB r))
  | 0x31 => some (.icmpu (g r) (cond r) r.dst (a r) (srcB r))
  | 0x32 => some (.pset (g r) (.ofNat 4 r.mod) r.dst r.srca r.srcb)
  | 0x33 => some (if r.mod == 0 then .pmov (g r) (d r) else .pmovW (g r) (a r) (.ofNat 7 r.hi))
  | 0x34 => some (.clamp (g r) (d r) (a r) (if r.mod == 0 then .regs (b r) (c r) else .imms (ext32 r) (extHi r)))
  | 0x35 => some (.widen (g r) (d r) (ext32 r) (extHi r))
  | 0x36 => some (.intvGet (g r) (d r) (a r))
  | 0x37 => some (.intvSet (g r) (d r) (a r) (b r))
  | 0x38 => some (.intvChk (g r) (d r) (ext32 r) (extHi r))
  | 0x39 => some (.intvUn (g r) (d r) (a r))
  | _ => none

/-- Groups 0x4 to 0x6. -/
def vec : Option Instr :=
  match r.major with
  | 0x40 => some (.mov (g r) (match r.mod with
      | 0 => .w1
      | 1 => .w2
      | _ => .w4) (d r) (a r))
  | 0x41 => some (.movi (g r) (d r) (match r.len with
      | 0 => if r.mod == 0 then .s16 (hi16 r) else .hi16 (hi16 r)
      | 1 => .w32 (ext32 r)
      | _ => .d64 (.ofNat 64 r.ext)))
  | 0x42 => some (.sel (g r) (alu2 r) r.hi)
  | 0x43 => some (.cvt (g r) (atCode Fmt.codes .vq2 r.mod) (atCode Fmt.codes .vq2 (bits r.hi 0 4))
      (atCode Rnd.codes .rn (bits r.hi 4 2)) (bits r.hi 6 1 == 1) (bits r.hi 7 3) (d r) (a r))
  | 0x44 => some (.cvtq (g r) (d r) (a r) r.srcb)
  | 0x45 => some (.xlane (g r) (atCode XMode.codes .from r.mod) (d r) (a r) (b r) (mask r))
  | 0x46 => some (match r.mod with
      | 2 => .pcoll (g r) .mask 0 (d r) r.srca (mask r)
      | 4 => .pcoll (g r) .count 0 (d r) r.srca (mask r)
      | n => .pcoll (g r) (atCode PMode.codes .some n) r.dst Use.zeroField r.srca (mask r))
  | 0x47 => some (.lreduce (g r) (atCode LaneOp.codes .iadd r.mod) (d r) (a r) (mask r))
  | 0x48 => some (.lscan (g r) (atCode LaneOp.codes .iadd (bits r.mod 0 3)) (bits r.mod 3 1 == 1) (d r) (a r) (mask r))
  | 0x49 => some (.xeq (g r) (r.mod == 1) (d r) (a r) (mask r))
  | 0x4A => some (.sread (g r) (d r) r.hi)
  | 0x4B => some (.getf (g r) (d r) r.srca r.hi)
  | 0x50 => some (.fadd (g r) (rnd r) (alu2 r))
  | 0x51 => some (.fsub (g r) (rnd r) (alu2 r))
  | 0x52 => some (.fmul (g r) (rnd r) (alu2 r))
  | 0x53 => some (.ffma (g r) (rnd r) (alu3 r))
  | 0x54 => some (.fmin (g r) (alu2 r))
  | 0x55 => some (.fmax (g r) (alu2 r))
  | 0x56 => some (.fcmp (g r) (fcond r) r.dst (a r) (srcB r))
  | 0x57 => some (.frnd (g r) (rnd r) (alu1 r))
  | 0x58 => some (match r.mod with
      | 0 => .frcp (g r) (alu1 r)
      | 1 => .frsq (g r) (alu1 r)
      | 2 => .fsqrt (g r) (alu1 r)
      | 3 => .fexp2 (g r) (alu1 r)
      | 4 => .flog2 (g r) (alu1 r)
      | 5 => .fsin (g r) (alu1 r)
      | 6 => .fcos (g r) (alu1 r)
      | _ => .ftanh (g r) (alu1 r))
  | 0x59 => some (.dadd (g r) (rnd r) (bits r.hi 10 1 == 1) (d r) (a r) (b r))
  | 0x5A => some (.dmul (g r) (rnd r) (d r) (a r) (b r))
  | 0x5B => some (.dfma (g r) (rnd r) (d r) (a r) (b r) (c r))
  | 0x5C => some (.dcmp (g r) (fcond r) r.dst (a r) (b r))
  | 0x60 => some (.h2add (g r) (rnd r) (d r) (a r) (b r))
  | 0x61 => some (.h2mul (g r) (rnd r) (d r) (a r) (b r))
  | 0x62 => some (.h2fma (g r) (rnd r) (d r) (a r) (b r) (c r))
  | 0x63 => some (.b2add (g r) (rnd r) (d r) (a r) (b r))
  | 0x64 => some (.b2mul (g r) (rnd r) (d r) (a r) (b r))
  | 0x65 => some (.b2fma (g r) (rnd r) (d r) (a r) (b r) (c r))
  | 0x66 => some (.pkminmax (g r) (bits r.mod 0 1 == 1) (bits r.mod 1 1 == 1) (d r) (a r) (b r))
  | 0x67 => some (.f8dot (g r) (bits r.mod 0 1 == 1) (bits r.mod 1 1 == 1) (d r) (a r) (b r) (c r))
  | 0x68 => some (.i8dot (g r) (bits r.mod 0 1 == 1) (bits r.mod 1 1 == 1) (d r) (a r) (b r) (c r))
  | 0x69 => some (.vqdec (g r) (bits r.mod 0 1 == 1) (bits r.mod 1 1 == 1) (d r) (a r) (b r) r.hi)
  | 0x6A => some (.amax (g r) (atCode AmaxFmt.codes .f32 r.mod) (d r) (a r) (b r))
  | _ => none

/-- Groups 0x7 to 0x9. -/
def mem : Option Instr :=
  match r.major with
  | 0x70 => some (.ld (g r) (size r) (sgn r) (d r) (arr r MemW.dec))
  | 0x71 => some (.st (g r) (size r) (arr r MemW.dec) (b r))
  | 0x72 => some (.ldu (g r) (size r) (sgn r) (d r) (arr r MemW.dec))
  | 0x73 => some (.lds (g r) (size r) (sgn r) (d r) (a r) (hi16 r) (scr r))
  | 0x74 => some (.sts (g r) (size r) (a r) (hi16 r) (scr r) (b r))
  | 0x75 => some (.ldp (g r) (size r) (sgn r) (d r) (a r) (hi16 r) (bits r.ext 0 6) (peerDec r.ext))
  | 0x76 => some (.stp (g r) (size r) (a r) (hi16 r) (bits r.ext 0 6) (peerDec r.ext) (b r))
  | 0x77 => some (.ldXs (g r) (d r) (arr r MemW.dec))
  | 0x78 => some (.stXs (g r) (arr r MemW.dec) (b r))
  | 0x79 => some (.lda (g r) (size r) (sgn r) (d r) (a r) (hi16 r) (scr r))
  | 0x7A => some (.sta (g r) (size r) (a r) (hi16 r) (scr r) (b r))
  | 0x7B => some (.pref (g r) (r.mod == 1) (arr r fun _ => ()))
  | 0x7C => some (if r.mod == 0 then .resv (g r) (arr r fun _ => ()) else .resvClr (g r) (arr r fun _ => ()))
  | 0x7D => some (.cctl (g r) (atCode CctlOp.codes .wb r.mod) (a r) r.hi)
  | 0x7E => some (match r.mod with
      | 0 => .arraySet (g r) r.dst (a r)
      | 1 => .arrayGet (g r) (d r) r.srca
      | _ => .arrayChk (g r) (bits r.hi 0 1 == 1) (d r))
  | 0x80 => some (.tktLd (g r) (r.mod == 8) (d r) (arr r TkW.dec))
  | 0x81 => some (.tktRdv (g r) (size r) (nf r) (d r) (a r) (b r))
  | 0x82 => some (.tktRds (g r) (nf r) (d r) (a r) (b r))
  | 0x83 => some (.tktPoll (g r) r.dst (a r))
  | 0x84 => some (.tktWaitany (g r) (d r) (a r) (bits r.hi 0 5 + 1) (bits r.hi 5 3))
  | 0x85 => some (.tktDrop (g r) (nf r) (a r))
  | 0x86 => some (.tktStat (g r) (d r) (a r))
  | 0x90 => some (.atom (g r) (atCode AtomOp.codes .add r.mod) (d r) (arr r AtW.dec) (b r))
  | 0x91 => some (.red (g r) (atCode AtomOp.codes .add r.mod) (arr r AtW.dec) (b r))
  | 0x92 => some (.cas (g r) (d r) (bits r.hi 10 4) (a r) (extHi r) (.dec (bits r.ext 0 32)) (b r) (c r))
  | 0x93 => some (.atoms (g r) (atCode AtomOp.codes .add r.mod) (d r) (a r)
      (if r.len == 1 then .s96 (hi16 r) else .s128 (extHi r)) (.dec (bits r.ext 0 32)) (b r))
  | 0x94 => some (.cass (g r) (d r) (a r) (extHi r) (.dec (bits r.ext 0 32)) (b r) (c r))
  | 0x95 => some (.fence (g r) (atCode Order.codes .none r.mod) (atCode Scope.codes .gang (bits r.hi 0 3))
      (bits r.hi 3 1 == 1))
  | 0x96 => some (.waita (g r) (d r) (bits r.hi 0 4) (a r) (b r) (extHi r) (.dec (bits r.ext 0 32)))
  | 0x97 => some (.lineClr (g r) (arr r fun _ => ()))
  | _ => none

/-- Groups 0xA to 0xE. -/
def sys : Option Instr :=
  match r.major with
  | 0xA0 => some (.mma (g r) (d r) (a r) (bits r.hi 0 3) (bits r.hi 3 3) (bits r.hi 6 1 == 1))
  | 0xA1 => some (.mmaSp (g r) (d r) (a r) (atCode SpKind.codes .dense (bits r.mod 0 2))
      (atCode SpKind.codes .dense (bits r.mod 2 2)) (bits r.hi 0 3) (bits r.hi 3 3) (bits r.hi 6 1 == 1))
  | 0xA2 => some (.mmaMcr (g r) (d r) (a r) (atCode SpKind.codes .dense (bits r.mod 0 2))
      (atCode SpKind.codes .dense (bits r.mod 2 2)) (bits r.hi 0 3) (bits r.hi 3 3))
  | 0xA3 => some (.accZero (g r) (d r) (a r))
  | 0xA4 => some (.accLd (g r) (d r) (a r))
  | 0xA5 => some (.accSt (g r) (d r) (a r))
  | 0xA6 => some (.accCvt (g r) (d r) (a r) r.hi (rnd r) (bits r.mod 2 1 == 1))
  | 0xA7 => some (.accAmax (g r) (d r) (a r))
  | 0xB0 => some (.xfer (g r) (d r) (a r) (b r) (bits r.hi 10 1 == 1))
  | 0xB1 => some (.xferIm2c (g r) (d r) (a r) (b r) (bits r.hi 10 1 == 1) (bits r.hi 11 1 == 1))
  | 0xB2 => some (.xferGath (g r) (d r) (a r) (b r) (bits r.hi 10 1 == 1))
  | 0xB3 => some (.xferScat (g r) (d r) (a r) (b r))
  | 0xB4 => some (.xferUnpk (g r) (d r) (a r) (b r) (bits r.hi 10 1 == 1))
  | 0xB5 => some (.xferPack (g r) (d r) (a r) (b r))
  | 0xB6 => some (.xferMcast (g r) (d r) (a r) (b r) (bits r.hi 10 1 == 1) (.ofNat 4 (bits r.hi 12 4)))
  | 0xB7 => some (.xferPref (g r) (d r) (a r) (b r) (.dec r.ext))
  | 0xB8 => some (.xferPagein (g r) (d r) (a r) (.dec r.ext))
  | 0xB9 => some (.lockQ (g r) (d r) (if r.mod == 0 then .scratch (a r) else .global (a r)) r.hi)
  | 0xBA => some (.granFill (g r) (a r) r.hi)
  | 0xBB => some (.granEmpty (g r) (a r) r.hi)
  | 0xC0 => some (.barArr (g r) (d r) (.dec r.hi))
  | 0xC1 => some (.barWait (g r) (a r))
  | 0xC2 => some (.barSync (g r) (.dec r.hi))
  | 0xC3 => some (.barTry (g r) r.dst (a r))
  | 0xC4 => some (.barCnt (g r) (d r) (.dec r.hi))
  | 0xC5 => some (.elect (g r) r.dst (if r.mod == 0 then none else some (mask r)))
  | 0xD0 => some (.klaunch (g r) (d r) (a r))
  | 0xD1 => some (.kjoin (g r) (r.mod == 1) (d r) (a r))
  | 0xD2 => some (.kkill (g r) (d r) (a r))
  | 0xD3 => some (.qpost (g r) (d r) (a r) (b r))
  | 0xD4 => some (.qstat (g r) (d r) (a r))
  | 0xD5 => some (.ctxRd (g r) (d r) r.hi)
  | 0xD6 => some (.ctxWr (g r) r.hi (a r))
  | 0xD7 => some (match r.mod with
      | 0 => .pageMap (g r) (d r) (a r) (b r)
      | 1 => .pageMapAlloc (g r) (d r) (a r) (b r)
      | 2 => .pageMapUpd (g r) (d r) (a r) (b r)
      | _ => .pageMapRgn (g r) (d r) (a r) (bits r.hi 0 1 == 1))
  | 0xD8 => some (if r.mod == 0 then .pageUnmap (g r) (d r) (a r) else .pageUnmapRgn (g r) (d r) (a r))
  | 0xD9 => some (.pageRef (g r) (d r) (a r))
  | 0xDA => some (.pageUnref (g r) (d r) (a r))
  | 0xDB => some (.pageCopy (g r) (d r) (a r) r.hi)
  | 0xDC => some (match r.mod with
      | 0 => .pageProbe (g r) (d r) (a r)
      | 1 => .pageProbeClr (g r) (d r) (a r)
      | _ => .pageProbeFrame (g r) (d r) (a r))
  | 0xDD => some (if r.mod == 0 then .pageInv (g r) (d r) (a r) else .pageInvFail (g r) (d r) (a r))
  | 0xDE => some (if r.mod == 0 then .pagePin (g r) (d r) (a r) else .pagePinClr (g r) (d r) (a r))
  | 0xE0 => some (.trap (g r) (hi16 r))
  | 0xE1 => some (if r.mod == 0 then .eret (g r) else .eretFault (g r))
  | 0xE2 => some (.hrd (g r) (d r) (bits r.hi 12 4) (bits r.hi 0 12))
  | 0xE3 => some (.hwr (g r) (bits r.hi 12 4) (bits r.hi 0 12) (a r))
  | 0xE4 => some (.getev (g r) (d r) r.hi)
  | 0xE5 => some (.bkpt (g r) (hi16 r))
  | 0xE6 => some (.clk (g r) (r.mod == 1) (d r))
  | 0xE7 => some (.perf (g r) (d r) r.hi)
  | 0xE8 => some (.preemptChk (g r) r.dst)
  | _ => none

end Dec

/-- The candidate instruction of the fields, by group (R53, R54). -/
def candidate (r : Raw) : Option Instr :=
  if r.major < 0x40 then Dec.low r
  else if r.major < 0x70 then Dec.vec r
  else if r.major < 0xA0 then Dec.mem r
  else Dec.sys r

/-- Steps 4 to 8 of R35. -/
def decodeRaw (r : Raw) : Decoded :=
  if lensOf r.major = [] then .bad .unassigned
  else if !(lensOf r.major).contains r.len then .bad .badLength
  else if !modOk r.major r.mod then .bad .badModifier
  else if r.pidx = 7 ∧ r.pneg = true then .bad .badPredicate
  else match candidate r with
    | some i => if i.wf ∧ i.toRaw = some r then .ok i (r.len + 2) else .bad .badField
    | none => .bad .badField

/-- Group 0xF: only the length and the predicate field are interpreted (R35, R41). -/
def decodeUnimpl (num words : Nat) : Decoded :=
  let g : Guard := { p := bits num 14 3, neg := bits num 17 1 == 1 }
  let rest : BitVec 128 := .ofNat 128 (num - (bits num 0 10 + 2 ^ 14 * bits num 14 4))
  match bits num 2 8 with
  | 0xF1 => .ok (.idiv g words rest) words
  | 0xF2 => .ok (.irem g words rest) words
  | _ => .unimpl g words

/-- A list of words as one number, first word lowest. -/
def numOf : List Word → Nat
  | [] => 0
  | w :: ws => w.toNat + 2 ^ 32 * numOf ws

/-- Decode from the words that are left of the fetch block, in the order of R35. -/
def decode (ws : List Word) : Decoded :=
  match ws with
  | [] => .bad .straddle
  | w0 :: _ =>
    let code := w0.toNat % 4
    if code = 3 then (if w0.toNat = 3 then .ok .blockEnd 1 else .bad .badBlockEnd)
    else if ws.length < code + 2 then .bad .straddle
    else
      let num := numOf (ws.take (code + 2))
      if bits num 6 4 = 15 then decodeUnimpl num (code + 2) else decodeRaw (.ofNat num)

/-- The number cut into `n` words. -/
def wordsOf : Nat → Nat → List Word
  | 0, _ => []
  | n + 1, w => .ofNat 32 w :: wordsOf n (w / 2 ^ 32)

/-- The words of a well-formed thread instruction; a step of the device has none. -/
def encode (i : Instr) : List Word :=
  match i.toNum with
  | some (num, n) => wordsOf n num
  | none => []

/-- The instruction that the decoder reads from the bits of `w` laid out as the opcode table numbers them; the bits above
`nbits` are zero.  The instruction stands alone at the start of a fetch block, with the block's next words zero. -/
def decodeTableWord (nbits w : Nat) : Option Instr :=
  match decode (wordsOf 4 (w % 2 ^ nbits)) with
  | .ok i _ => some i
  | _ => none

end Sys2Proof
end

