-- ==== Sys2Proof/Machine/Sched.lean ====
section
/-!
DEFINITION. How a bay comes to its issue group: the waits it settles, its window, yard and eligible set (spec/07_group.md R154 to R158), the
order in which it tries groups, and instruction fetch and decode (spec/02_encoding.md R35 to R37).  And the placement of one
instruction where the next step fetches it (withFetchWord).
-/
namespace Sys2Proof.Machine
open Sys2Proof

/-! ### Settling waits -/

/-- The workgroup is being flushed: its state is discarded (R175). -/
def Wg.flushing (w : Wg) : Bool :=
  match w.preempt with
  | some p => p.mech == .flush
  | none => false

/-- A thread's wait ends when what it waits for has come about (R344, R437, R457).  The waits that a row of its own ends (sleep, polls,
redeems, timeouts) are not among these. -/
def State.settleThread (s : State) (w t : Nat) : State :=
  let g := s.wg w
  let x := g.thread t
  match x.hold with
  | .barWait tok =>
    match tokenBar (s.krecOf w) tok with
    | none => s
    | some b => if s.waitDone w t b tok then (s.setThread w t fun x => x.resume 8).acquire g.core (barScope b.lvl) else s
  | .barSync tok =>
    match tokenBar (s.krecOf w) tok with
    | none => s
    | some b => if s.waitDone w t b tok then (s.setThread w t fun x => x.resume 8).acquire g.core (barScope b.lvl) else s
  | .fence o sc remote stage =>
    if stage = 0 && (o == .rel || o == .acqrel) && (coreWide sc || !s.releaseReady w t true) then s
    else if s.ticketsOut w t then s
    else if remote && stage < 3 then (if stage = 0 then s.setThread w t fun x => { x with hold := .fence o sc remote 1 } else s)
    else if Use.hasAcq o && (x.prods.any fun p => p.work.isAccess) then s
    else
      let s1 := s.setThread w t fun x => x.resume 8
      if Use.hasAcq o then s1.acquire g.core sc else s1
  | .lane _ _ => s.laneCheck w t
  | .lineClr _ _ _ => s.clearLine w t
  | .waitany _ _ _ => s.waitAny w t
  | .engine mat need _ =>
    if s.engineRoom g.core mat && s.entriesFit need then
      (s.setThread w t fun x => { x with hold := .none }).setWg w fun g => { g with engStuck := none }
    else s
  | .sparse id =>
    match (s.core g.core).pend.find? fun c => c.id == id with
    | none => s.setThread w t fun x => { x with hold := .none }
    | some c => match s.metaCheck c with
      | .wait => s
      | _ => s.setThread w t fun x => { x with hold := .none }
  | .redeem _ => s.rdsSettle w t
  | .settled o => if g.unsettled t o then s else s.setThread w t fun x => { x with hold := .none }
  | .stand frame =>
    if (if frame then (g.slot (slotOf t)).busy else Config.sidingEntries ≤ (s.core g.core).siding.length) then s
    else s.setThread w t fun x => { x with hold := .none }
  | .miss pg failed addr orig start =>
    let mates := g.live.filter fun u => slotOf u == slotOf t && (g.thread u).handler == x.handler && (g.thread u).hold == x.hold
    if failed then
      if g.flushing || ((g.slot (slotOf t)).busy && !x.handler) then s
      else s.takeTrap w mates orig.ipc orig.insn { cause := Cause.page, mask := mates, addr := addr }
    else if s.missing pg then s
    else
      (if mates.head? = some t then s.late g.core g.kernel start (Krec.svc (s.krecOf w)) else s).setThread w t fun x => { x with hold := .none }
  | _ => s

/-- A request that a thread which has ended left at a slice goes on by itself, and its answer is for nobody (R137). -/
def State.settleLeft (s : State) (w t : Nat) : State :=
  match (s.thread w t).hold with
  | .lineClr _ _ _ =>
    let s1 := s.clearLine w t
    (match (s1.thread w t).hold with
    | .lineClr _ _ _ => s1
    | _ => s1.dropHold w t)
  | .waita _ _ _ _ _ _ _ _ _ (some pg) _ | .codebook _ _ _ (some pg) _ | .miss pg false _ _ _ => if s.missing pg then s else s.dropHold w t
  | .redeem _ => s
  | _ => s.dropHold w t

/-- The threads of a kernel that have ended with a request left. -/
def State.settleGone (s : State) (h : Nat) : State :=
  ((s.wgs.filter fun e => e.2.kernel == h && e.2.ended).map fun e => (e.2.threads.filter fun x => x.2.hold != .none).map fun x => (e.1, x.1)).flatten.foldl
    (fun s e => s.settleLeft e.1 e.2) s

def State.settle (s : State) (w : Nat) : State := (s.wg w).live.foldl (fun s t => s.settleThread w t) s

/-! ### Fetch and decode -/

/-- The VA of a fetch block. -/
def blockOf (pc : Nat) : Nat := pc / 32 * 32

/-- What a fetch gives: eight words and whether a free choice was spent; a wait for the pager; PAGE; UE. -/
inductive Fetch
  | words (ws : List Word) (s : State)
  | wait (s : State) (page : Nat)
  | page (s : State)
  | ue
deriving DecidableEq, Repr

/-- Fetch the block at a VA for a core (R36, R37).  Where the core's copy of the block and memory differ, which of the two is executed is a
free value (notes/assumptions/3.md). -/
def State.fetch (s : State) (c ctx va : Nat) : Fetch :=
  match (s.ctx ctx).resolve .ex va with
  | none => .page s
  | some a =>
    match s.ask ctx c a .ex false false false false with
    | .fail => .page s
    | .tier s1 => .page s1
    | .dead => .ue
    | .wait s1 pg => .wait s1 pg
    | .go s1 =>
      if s1.isPoison (lineOf a.gia) then .ue
      else
        let (s2, line) := s1.cohRead c a
        let new := wordList (ofBytes ((line.drop (a.gia % 128)).take 32)) 8
        let cp := (s2.core c).icache.find? fun e => e.1 == ctx && e.2.1 == va
        match cp with
        | none => .words new (s2.setCore c fun x => { x with icache := x.icache ++ [(ctx, va, new)] })
        | some e =>
          if e.2.2 = new then .words new s2
          else .words (if Config.freeChoice s2.freeCtr then new else e.2.2) { s2 with freeCtr := s2.freeCtr + 1 }

/-! ### Issue groups (R154, R158, R479, R480) -/

/-- The threads of a slot that stand outside any wait at one PC in one mode. -/
structure Group where
  pc      : Nat
  handler : Bool
  lanes   : List Nat
deriving DecidableEq, Repr

/-- The groups of a slot. -/
def Wg.groups (w : Wg) (k : Nat) : List Group :=
  let ts := w.live.filter fun t => slotOf t == k && (w.thread t).hold == .none && !w.ticketHeld t
  ts.foldl (fun (l : List Group) t =>
    let x := w.thread t
    if l.any fun g => g.pc == x.pc && g.handler == x.handler then
      l.map fun g => if g.pc = x.pc ∧ g.handler = x.handler then { g with lanes := g.lanes ++ [t] } else g
    else l ++ [⟨x.pc, x.handler, [t]⟩]) []

/-- A thread outside its handler has a trap to take before it issues. -/
def Thread.hurt (t : Thread) : Bool := !t.handler && (t.report ≠ [] || t.errs.any)

/-- What stands at a PC: an instruction with its words; UNIMPL, with its guard and the number of its words; or what the fetch, or a trap of the
decoder, gives (R35, R36). -/
inductive Stands
  | instr (s : State) (ws : List Word) (i : Instr)
  | unimpl (s : State) (ws : List Word) (g : Guard)
  | bad (s : State) (ws : List Word) (cause addr : Nat)
  | wait (s : State) (page : Nat)
deriving DecidableEq, Repr

def State.standsAt (s : State) (c ctx pc : Nat) : Stands :=
  let blk := blockOf pc
  match s.fetch c ctx blk with
  | .page s1 => .bad s1 [] Cause.page blk
  | .ue => .bad s [] Cause.ue blk
  | .wait s1 pg => .wait s1 pg
  | .words ws s1 =>
    let rest := ws.drop (pc % 32 / 4)
    let len := match rest with
      | [] => 1
      | a :: _ => if a.toNat % 4 = 3 then 1 else a.toNat % 4 + 2
    match decode rest with
    | .ok i n => .instr s1 (rest.take n) i
    | .unimpl gd n => .unimpl s1 (rest.take n) gd
    | .bad e => .bad s1 (rest.take len) (if e = .straddle then Cause.straddle else Cause.ill) (if e = .straddle then blk else 0)

/-- Registers keep a thread back from an instruction (R156, R188). -/
def Thread.regWaits (t : Thread) (i : Instr) : Bool :=
  match i.guard? with
  | none => false
  | some g => !t.pending g.p &&
    (if !t.guard g then (match i.laneMask? with
        | some f => !t.fullAt f 2
        | none => false)
     else match i.uses with
      | none => false
      | some u => u.srcs.any (srcWaits t) || !(u.dsts.all fun d => t.fullAt d.f d.n))

/-- The thread's registers are all full and no predicate of its own is pending. -/
def Thread.free (t : Thread) : Bool := t.prods.isEmpty && !t.errs.any

/-- The issue group of a state. -/
def State.withIssue (s : State) (c w k : Nat) (lanes : List Nat) (pc : Nat) (ws : List Word) : State :=
  { s with issue := { core := c, wid := w, slot := k, lanes := lanes, pc := pc, words := ws, held := false } }

/-- A thread that stands outside any wait can issue, or take its trap (R154). -/
def State.canIssue (s : State) (w t : Nat) : Bool :=
  let g := s.wg w
  let x := g.thread t
  x.hold == .none && !g.ticketHeld t &&
  (if x.hurt then !(g.slot (slotOf t)).busy
   else (match s.standsAt g.core g.ctx x.pc with
    | .instr s1 ws i => s.readyAt w t i && !(s1.withIssue g.core w (slotOf t) [t] x.pc ws).cctlHeld t i
    | .unimpl _ _ gd => !x.pending gd.p
    | _ => true))

/-- The waits that make a thread long-waiting (R156, R305, R344, R363, R418, R456, R480). -/
def State.longHold (s : State) (w : Nat) : Hold → Bool
  | .none | .sparse _ => false
  | .fence o sc remote _ => remote || ((o == .rel || o == .acqrel) && coreWide sc)
  | .codebook _ mat _ page _ => !mat || page.isSome
  | .redeem r => r.rds.isNone || !s.rdsRoom w r
  | .sleep _ | .join _ _ | .lane _ _ | .barWait _ | .barSync _ | .waita _ _ _ _ _ _ _ _ _ _ _ | .waitany _ _ _ | .engine _ _ _ | .kjoin _
  | .miss _ _ _ _ _ | .lineClr _ _ _ | .stand _ | .settled _ => true

/-- Something on the core may keep a `CCTL` of the thread back: its stores, or a line held for a release record. -/
def State.cctlMay (s : State) (w t : Nat) : Bool :=
  let c := s.core (s.wg w).core
  (c.siding.any fun e => e.wid == w && e.t == t) || c.l1.any fun e => e.2.held.isSome

/-- The thread is long-waiting (R156): in a wait, on the frame of its slot, on a full ticket table, on a register that is empty, or at a `CCTL` that
does not complete yet (R284). -/
def State.longWaits (s : State) (w t : Nat) : Bool :=
  let g := s.wg w
  let x := g.thread t
  if x.hold ≠ .none then s.longHold w x.hold
  else g.ticketHeld t ||
    (if x.hurt then (g.slot (slotOf t)).busy
     else (!x.free || s.cctlMay w t) && (match s.standsAt g.core g.ctx x.pc with
      | .instr s1 ws i => x.regWaits i || (s1.withIssue g.core w (slotOf t) [t] x.pc ws).cctlHeld t i
      | _ => false))

/-- A step that a bay can take for a slot: an instruction to run with its issue group, or a step already taken; with the slot, the clk at which
the longest waiting of its threads last issued, and the lowest lane that issued then. -/
structure Cand where
  wid  : Nat
  k    : Nat
  last : Nat
  low  : Nat
  /-- The lowest lane of the group (R480). -/
  lane : Nat
  s    : State
  run  : Option Instr
deriving DecidableEq, Repr

/-- A candidate of threads of a slot. -/
def State.cand (s : State) (w k : Nat) (lanes : List Nat) (s' : State) (run : Option Instr) : Option Cand :=
  match lanes with
  | [] => none
  | t0 :: _ =>
    let last := fun t => (s.thread w t).last
    let b := lanes.foldl (fun b t => if last t < last b then t else b) t0
    some ⟨w, k, last b, b, lanes.foldl min t0, s', run⟩

/-- The trap that threads of a group have to take before they issue: their reports, once the reporting group has settled, and then their
deferred errors; none while the frame is busy (R307, R479, R480). -/
def State.hurtCand (s : State) (w k : Nat) (g : Group) : Option Cand :=
  let x := s.wg w
  let ls := g.lanes.filter fun t => (x.thread t).hurt
  match ls with
  | [] => none
  | t :: _ =>
    let early := match (x.thread t).report with
      | r :: _ => x.unsettled t r.orig
      | [] => false
    if (x.slot k).busy || early then none
    else s.cand w k ls (if (x.thread t).report ≠ [] then s.takeSettled w t else s.takeDeferred w t) none

/-- The step that the other threads of a group can take: their decoded instruction with those that are ready, a trap of its fetch or decode, or a
wait for the pager. -/
def State.candidate (s : State) (c w k : Nat) (g : Group) : Option Cand :=
  let x := s.wg w
  let lanes := g.lanes.filter fun t => !(x.thread t).hurt
  if lanes = [] then none
  else match s.standsAt c x.ctx g.pc with
  | .wait s1 pg => s.cand w k lanes
      (s1.setThreads w lanes fun _ t => { t with hold := .miss pg false (blockOf g.pc) ⟨g.pc, [], laneMask lanes⟩ s1.clk }) none
  | .bad s1 ws cause addr => s.cand w k lanes ((s1.withIssue c w k lanes g.pc ws).trapIssue { cause := cause, mask := lanes, addr := addr }) none
  | .instr s1 ws i =>
    let ready := lanes.filter fun t => s.readyAt w t i
    s.cand w k ready (s1.withIssue c w k ready g.pc ws) (some i)
  | .unimpl s1 ws gd =>
    let ready := lanes.filter fun t => !(x.thread t).pending gd.p
    let s2 := s1.withIssue c w k ready g.pc ws
    let act := ready.filter fun t => (x.thread t).guard gd
    s.cand w k ready (if act = [] then s2.advance.counted 1 else s2.trapIssue { cause := Cause.unimpl, mask := act }) none

/-- The candidates of a slot: the group of the thread that has waited longest since it last issued first; ties go to the lowest lane (R158). -/
def State.slotCands (s : State) (c w k : Nat) : List Cand :=
  let rec put (e : Cand) : List Cand → List Cand
    | [] => [e]
    | f :: l => if e.last < f.last || (e.last = f.last && e.low < f.low) then e :: f :: l else f :: put e l
  ((((s.wg w).groups k).map fun g => [s.hurtCand w k g, s.candidate c w k g].filterMap id).flatten).foldl (fun l e => put e l) []

/-! ### Window, yard and eligible set (R155 to R157) -/

/-- A slot of a bay. -/
structure SlotRef where
  wid  : Nat
  k    : Nat
  prio : Nat
  sl   : Slot
deriving DecidableEq, Repr

/-- Slots of the workgroups on a core that lie in a bay (R153). -/
def State.baySlots (s : State) (c b : Nat) : List SlotRef :=
  ((s.wgs.filter fun e => e.2.core == c && !e.2.ended).map fun e =>
    ((e.2.slots.filter fun k => k.1 % 4 == b).map fun k =>
      (⟨e.1, k.1, (s.kern e.2.kernel).prio, k.2⟩ : SlotRef))).flatten

def State.place (s : State) (r : SlotRef) (st : Station) : State :=
  s.setWg r.wid fun g => g.setSlot r.k fun x => { x with place := st, since := s.clk }

/-- Pick the best entry by a strict order. -/
def best (lt : SlotRef → SlotRef → Bool) : List SlotRef → Option SlotRef
  | [] => none
  | r :: l => some (l.foldl (fun b x => if lt x b then x else b) r)

/-- An eligible slot enters the window: highest priority class, then longest waiting (R155). -/
def fillLt (a b : SlotRef) : Bool := b.prio < a.prio || (a.prio == b.prio && a.sl.since < b.sl.since)

def State.fillWindow (s : State) (c b : Nat) : Nat → State
  | 0 => s
  | n + 1 =>
    let l := s.baySlots c b
    if (l.filter fun r => r.sl.place == .window).length ≥ Config.window then s
    else match best fillLt (l.filter fun r => r.sl.place == .eligible) with
      | none => s
      | some r => (s.place r .window).fillWindow c b n

/-- A slot that has stood in the eligible set for 1,024 clk takes the window entry of lowest priority class, and among those the one that
issued most recently (R157). -/
def State.starve (s : State) (c b : Nat) : State :=
  let l := s.baySlots c b
  let old := best (fun x y => x.sl.since < y.sl.since) (l.filter fun r => r.sl.place == .eligible && r.sl.since + 1024 ≤ s.clk)
  let out := best (fun x y => x.prio < y.prio || (x.prio == y.prio && y.sl.last < x.sl.last)) (l.filter fun r => r.sl.place == .window)
  match old, out with
  | some o, some w => if (l.filter fun r => r.sl.place == .window).length ≥ Config.window then (s.place w .eligible).place o .window else s
  | _, _ => s

/-- Slots change place (R155, R156): free when no thread is live, to the yard when every live thread is long-waiting, back when one is ready; then
the window fills. -/
def State.refresh (s : State) (c b : Nat) : State :=
  let s1 := (s.baySlots c b).foldl (fun s r =>
    let g := s.wg r.wid
    let live := g.live.filter fun t => slotOf t == r.k
    if live = [] then (if r.sl.place = .free then s else s.place r .free)
    else match r.sl.place with
      | .window => if live.all (s.longWaits r.wid) then s.place r .yard else s
      | .yard => if live.any (s.canIssue r.wid) then s.place r .eligible else s
      | .free => s.place r .eligible
      | .eligible => s) s
  (s1.starve c b).fillWindow c b Config.window

/-- The window entries in the order of R157: those that have not issued for 1,024 clk, longest first; then by priority class and wait. -/
def turnLt (clk : Nat) (a b : SlotRef) : Bool :=
  let oa := a.sl.last + 1024 ≤ clk
  let ob := b.sl.last + 1024 ≤ clk
  if oa && ob then a.sl.last < b.sl.last
  else if oa != ob then oa
  else b.prio < a.prio || (a.prio == b.prio && a.sl.last < b.sl.last)

def sortSlots (clk : Nat) (l : List SlotRef) : List SlotRef :=
  let rec put (r : SlotRef) : List SlotRef → List SlotRef
    | [] => [r]
    | x :: l => if turnLt clk r x then r :: x :: l else x :: put r l
  l.foldl (fun acc r => put r acc) []

/-- The state in which a bay chooses: pieces of stores are performed, and waits settled. -/
def State.bayReady (s : State) (c b : Nat) : State :=
  let s0 := ((s.wgs.filter fun e => e.2.core == c).map Prod.fst).foldl (fun s w => s.storeSteps w) s
  let ws := (s0.wgs.filter fun e => e.2.core == c && !e.2.ended).map Prod.fst
  (ws.foldl (fun s w => s.settle w) s0).refresh c b

/-- What it can choose from, in order. -/
def State.bayCands (s : State) (c b : Nat) : List Cand :=
  let order := sortSlots s.clk ((s.baySlots c b).filter fun r => r.sl.place == .window && !(s.wg r.wid).stopped)
  (order.map fun r => s.slotCands c r.wid r.k).flatten

/-! ### Turns -/

/-- The next turn: the head of the agenda, or the free turn (notes/assumptions/2.md). -/
def State.popTurn (s : State) : Turn × State :=
  match s.agenda with
  | t :: l => (t, { s with agenda := l })
  | [] => (Config.freeTurn s.turnNo, { s with turnNo := s.turnNo + 1 })

/-- A store by the host to its own memory: the device's copies of the line go first, as the host's coherence asks (R352), and lanes that watch the
line wake (R347). -/
def State.hostStore (s : State) (hpa : Nat) (b : Byte) : State :=
  let pa := hostPa hpa
  let hit := dedup ((s.dir.map Prod.fst ++ (s.slices.map fun e => e.2.monitors.keys).flatten).filter fun gl =>
    (s.lineAddr gl).any fun x => x / 128 == pa / 128)
  let s1 := hit.foldl (fun s gl => s.homeW gl) s
  hit.foldl (fun s gl => s.wake gl) { s1 with mem := Memory.write s1.mem pa b }

/-! ### Placing one instruction (withFetchWord) -/

/-- VA, IA and physical address at which an instruction is placed: page 64 of region 1, frame 200 of stack 0. -/
def placeVa : Nat := 0x800000
def placePa : Nat := 200 * 65536

/-- A context with one range register over 8 MiB, an address space that the tree maps by one small leaf with one page. -/
def placeCtx : Ctx :=
  { state := .active, held := true,
    words := [(0, 0xF), (1, 0), (4, 0), (5, 6), (16, .ofNat 64 placeVa), (17, 0x800000), (18, .ofNat 64 placeVa), (19, 0xF)],
    fault := none }

/-- The launch record of the kernel: one gang of width 8, 64 X and 64 V registers, and some of everything that it can declare. -/
def placeRec : BitVec 2048 :=
  .ofNat 2048 (placeVa + 2 ^ 128 + 2 ^ 144 + 2 ^ 160 + 2 ^ 180 + 2 ^ 192 * 4096 + 2 ^ 212 * 4096 + 2 ^ 233 * 64 + 2 ^ 240 * 64 +
    2 ^ 256 * 4 + 2 ^ 259 * 16)

def placeWg (clk : Nat) : Wg :=
  { Wg.zero with
    kernel := 1, ctx := 1, width := 8, placed := clk
    threads := (List.range 8).map fun t => (t, { Thread.zero with pc := placeVa, live := true })
    slots := [(0, { Slot.zero with place := .eligible })] }

/-- The tree entries that map the page: root, middle, region directory and PTE, in frames 201 to 203 of stack 0. -/
def placeTree (s : State) : List Host.Cell :=
  let m1 := Memory.writeLE s.mem s.rootNode 8 (1 + 201 * 65536)
  let m2 := Memory.writeLE m1 (201 * 65536) 8 (1 + 202 * 65536)
  let m3 := Memory.writeLE m2 (202 * 65536 + 8) 8 (1 + 203 * 65536)
  Memory.writeLE m3 (203 * 65536) 16 (1 + 7 * 2 ^ 3 + 2 ^ 16 + 200 * 2 ^ 32)

def State.placed (s0 : State) (words : List Word) : State :=
  let s := s0.boot
  { s with
    ctxs := s.ctxs.set 1 placeCtx
    kernels := s.kernels.set 1 { Kern.zero with krec := placeRec, state := .running, ctx := 1, next := 1 }
    wgs := [(0, placeWg s.clk)]
    wgSerial := 1
    mem := Memory.writeN (placeTree s) placePa (bytesOf (numOf words) 32)
    cores := s.cores.erase 0
    dir := []
    agenda := [.bay 0 0] }

end Sys2Proof.Machine
end

