-- ==== Sys2Proof/Machine/Save.lean ====
section
/-!
DEFINITION. The save region of a workgroup (spec/07_group.md R178 to R182, spec/16_barrier.md R442, spec/18_trap.md R481 and R482): its bytes,
and the workgroup that they give back.
-/
namespace Sys2Proof.Machine
open Sys2Proof

/-! ### The image -/

/-- The first n bytes of a list, with zeros behind it. -/
def padTo (n : Nat) (l : List Byte) : List Byte := l.take n ++ List.replicate (n - l.length) 0

/-- A value with its interval, in `n` bytes: 16 for an entry (R181), 12 in a lane block (R482). -/
def ivBytes (n : Nat) (v : Word) (iv : Intv) : List Byte := bytesOf (v.toNat + 2 ^ 32 * trunc iv.lo 32 + 2 ^ 64 * trunc iv.hi 32) n

/-- Bits of which registers are full, below a count. -/
def fullX (r : Regs) (n : Nat) : Nat := (maskOf ((List.range n).filter fun k => (r.getX k).ful)).toNat
def fullV (r : Regs) (n : Nat) : Nat := (maskOf ((List.range n).filter fun k => (r.getV k).ful)).toNat

/-- The X and the V registers below a count, with entries of n bytes. -/
def xImage (r : Regs) (k n : Nat) : List Byte := ((List.range k).map fun i => ivBytes n (r.getX i).val (r.getX i).iv).flatten
def vImage (r : Regs) (k : Nat) : List Byte := ((List.range k).map fun i => bytesOf (r.getV i).val.toNat 4).flatten

/-- A thread block (R181); of a thread that has ended only `tsave.exited` is set (notes/assumptions/21.md). -/
def Thread.image (t : Thread) (r : BitVec 2048) : List Byte :=
  padTo (Region.perThread r)
    (if !t.live then bytesOf (2 ^ 71) 16
     else
      bytesOf (t.pc + 2 ^ 64 * t.regs.p.toNat) 16 ++ ivBytes 16 t.l0.val t.l0.iv ++ ivBytes 16 t.l1.val t.l1.iv ++
      ((List.range 8).map fun i => ivBytes 16 (t.getO i).val (t.getO i).iv).flatten ++ bytesOf (fullX t.regs (Krec.xregs r)) 8 ++
      bytesOf (fullV t.regs (Krec.vregs r)) 8 ++ xImage t.regs (Krec.xregs r) 16 ++ vImage t.regs (Krec.vregs r))

/-- A pending report in 48 bytes; the manual does not give its layout (notes/assumptions/21.md). -/
def Report.image (r : Report) : List Byte :=
  padTo 48 (bytesOf (r.cause + 2 ^ 8 * r.orig.insn.length + 2 ^ 32 * r.detail + 2 ^ 64 * r.addr + 2 ^ 128 * r.orig.ipc +
    2 ^ 192 * r.orig.lanes.toNat) 32 ++ bytesOf (ofWords r.orig.insn) 16)

/-- The error set as a lane block and `HRD` show it: with the errors that arrived in the handler (R485). -/
def Thread.allErrs (t : Thread) : Errs :=
  ⟨t.errs.x ||| t.later.x, t.errs.v ||| t.later.v, t.errs.ue || t.later.ue, t.errs.page || t.later.page, t.errs.va⟩

/-- What lane blocks have no place for: a thread in its handler whose block holds the bank, with a pending report or errors for after `ERET`. -/
def Wg.kept (g : Wg) : NMap (List Report × Errs × Errs) :=
  (g.threads.filter fun e => e.2.live && e.2.handler && (e.2.report != [] || e.2.later.any)).map fun e => (e.1, e.2.report, e.2.errs, e.2.later)

/-- A lane block (R482). -/
def Thread.laneImage (t : Thread) : List Byte :=
  if !t.live then List.replicate 192 0
  else
    (if t.handler then
      xImage t.bank 8 12 ++ vImage t.bank 16 ++ bytesOf t.bank.p.toNat 1 ++ bytesOf (fullX t.bank 8) 1 ++ bytesOf (fullV t.bank 16) 2
     else padTo 164 ((t.report.head?.map Report.image).getD [])) ++
    bytesOf (t.allErrs.x.toNat + 2 ^ 64 * t.allErrs.v.toNat) 16 ++
    bytesOf (t.allErrs.ue.toNat + 2 * t.allErrs.page.toNat + 4 * t.handler.toNat + 8 * (decide (t.report ≠ [])).toNat) 4 ++ List.replicate 8 0

/-- The handler area of a slot (R481). -/
def Wg.slotImage (g : Wg) (k : Nat) : List Byte :=
  bytesOf (g.slot k).frame.num 256 ++ ((List.range 64).map fun i => (g.thread (64 * k + i)).laneImage).flatten

/-- A gang block (R180). -/
def Gang.image (g : Gang) : List Byte :=
  padTo 512 (((List.range 16).map fun i => bytesOf (g.arr.getD i 0).toNat 16).flatten ++
    ((List.range 4).map fun i => bytesOf (g.bars.getD i 0).toNat 8).flatten ++ bytesOf g.mask.toNat 8)

/-- The barrier of an entry of `wgsave.barriers` [511:256] (R442). -/
def upperBar (i : Nat) : Bar := if i < 8 then ⟨.clu, i⟩ else if i < 12 then ⟨.stk, i - 8⟩ else ⟨.grid, i - 12⟩

/-- 16 bits of a barrier: a count and the phase. -/
def barBits (count : Nat) (phase : Bool) : List Byte := bytesOf (count % 2 ^ 13 + 2 ^ 13 * phase.toNat) 2

/-- The header (R179). -/
def State.headImage (s : State) (w : Nat) (suspend : Bool) : List Byte :=
  let g := s.wg w
  padTo 1024 (bytesOf (handleOf g.kernel + 2 ^ 32 * g.lin + 2 ^ 64 * g.core + 2 ^ 72 * (if suspend then 1 else 2) + 2 ^ 128 * g.progress) 24 ++
    ((List.range 16).map fun i => let p := g.bars.getD i .zero; barBits p.count p.phase).flatten ++
    ((List.range 16).map fun i => barBits (g.upper.getD i 0) (s.phaseOf w (upperBar i)).phase).flatten)

/-- The bytes of a workgroup's region: its parts in order, each at a 256-byte boundary (R178). -/
def State.regionImage (s : State) (w : Nat) (suspend : Bool) : List Byte :=
  let g := s.wg w
  let r := s.krecOf w
  let n := Krec.scratch r
  let each := fun (k : Nat) (f : Nat → List Byte) => ((List.range k).map f).flatten
  let parts : List (List Byte) :=
    [s.headImage w suspend, each (Krec.gangs r) fun i => (g.gang i).image, each (Krec.threads r) fun i => (g.thread i).image r,
     each (Krec.slots r) g.slotImage, Memory.readN g.scratch 0 n,
     each (ceilDiv n 128) fun i => bytesOf (maskOf ((List.range 8).filter fun j => 8 * i + j < n / 16 ∧ !g.empty.contains (8 * i + j))).toNat 1,
     each (Krec.acc r / 4) fun i => bytesOf (g.acc.getD i 0).toNat 4]
  padTo (Region.size r) ((List.range 7).map fun i => padTo (Region.partAt r (i + 1) - Region.partAt r i) (parts.getD i [])).flatten

/-! ### The reload (R177, R182) -/

/-- An n-byte number at an offset of a region. -/
def bytesAt (l : List Byte) (at_ n : Nat) : Nat := ofBytes ((l.drop at_).take n)

/-- An interval as a restore checks it. -/
def checkedIv (v : Word) (lo hi : Nat) : Intv :=
  let a := sext lo 32
  let b := sext hi 32
  if a ≤ sint v ∧ sint v ≤ b then ⟨a, b⟩ else full

def entAt (l : List Byte) (at_ : Nat) : Ent :=
  let v : Word := .ofNat 32 (bytesAt l at_ 4)
  ⟨v, checkedIv v (bytesAt l (at_ + 4) 4) (bytesAt l (at_ + 8) 4)⟩

/-- Registers from images of X entries of n bytes and of V registers, with their full bits. -/
def regsAt (l : List Byte) (xAt n xs vAt vs fx fv p : Nat) : Regs :=
  { x := (List.range xs).map fun i => let e := entAt l (xAt + n * i); (i, ⟨e.val, e.iv, fx / 2 ^ i % 2 == 1⟩)
    v := (List.range vs).map fun i => (i, ⟨.ofNat 32 (bytesAt l (vAt + 4 * i) 4), fv / 2 ^ i % 2 == 1⟩)
    p := .ofNat 7 p }

def reportAt (l : List Byte) : Report :=
  let n := bytesAt l 1 1
  { cause := bytesAt l 0 1, detail := bytesAt l 4 4, addr := bytesAt l 8 8,
    orig := ⟨bytesAt l 16 8, wordList (bytesAt l 32 16) n, .ofNat 64 (bytesAt l 24 8)⟩ }

/-- A thread from its thread block and its lane block. -/
def threadAt (r : BitVec 2048) (clk : Nat) (l b : List Byte) : Thread :=
  if bytesAt l 8 1 / 128 = 1 then Thread.zero
  else
    let fl := bytesAt b 180 1
    let h := fl / 4 % 2 = 1
    { Thread.zero with
      pc := bytesAt l 0 8 % 2 ^ 57, live := true, last := clk
      regs := regsAt l 192 16 (Krec.xregs r) (192 + 16 * Krec.xregs r) (Krec.vregs r) (bytesAt l 176 8) (bytesAt l 184 8) (bytesAt l 8 1 % 128)
      l0 := entAt l 16, l1 := entAt l 32
      o := (List.range 8).map fun i => (i, entAt l (48 + 16 * i))
      errs := ⟨.ofNat 64 (bytesAt b 164 8), .ofNat 64 (bytesAt b 172 8), fl % 2 = 1, fl / 2 % 2 = 1, 0⟩
      handler := h
      bank := if h then regsAt b 0 12 8 96 16 (bytesAt b 161 1) (bytesAt b 162 2) (bytesAt b 160 1 % 128) else .zero
      report := if fl / 8 % 2 = 1 ∧ ¬h then [reportAt b] else [] }

/-- A frame from its 256 bytes (R481). -/
def frameAt (l : List Byte) : Frame :=
  { cause := bytesAt l 0 1, kind := bytesAt l 1 1 % 4, detail := bytesAt l 4 4, lanes := .ofNat 64 (bytesAt l 8 8),
    mask := .ofNat 64 (bytesAt l 16 8), done := .ofNat 64 (bytesAt l 24 8), pc := bytesAt l 32 8 % 2 ^ 57, ipc := bytesAt l 40 8 % 2 ^ 57,
    insn := (wordList (bytesAt l 48 16) 4).take (let w := bytesAt l 48 1 % 4; if bytesAt l 48 16 = 0 then 0 else if w = 3 then 1 else w + 2),
    addr := bytesAt l 64 8, next := bytesAt l 72 1 % 4, npMask := .ofNat 64 (bytesAt l 80 8), npAddr := bytesAt l 88 8,
    nuMask := .ofNat 64 (bytesAt l 96 8), nuAddr := bytesAt l 104 8 }

def gangAt (l : List Byte) : Gang :=
  { arr := (List.range 16).map fun i => (i, .ofNat 128 (bytesAt l (16 * i) 16)), fp := [],
    bars := (List.range 4).map fun i => (i, .ofNat 64 (bytesAt l (256 + 8 * i) 8)), mask := .ofNat 64 (bytesAt l 288 8) }

/-- Scratchpad bytes that are not zero, and accumulator words that are not. -/
def cellsAt (l : List Byte) (n : Nat) : NMap Byte := ((List.range n).map fun i => (i, l.getD i 0)).filter fun e => e.2 != 0
def accAt (l : List Byte) (n : Nat) : NMap Word :=
  ((List.range n).map fun i => (i, (.ofNat 32 (bytesAt l (4 * i) 4) : Word))).filter fun e => e.2 != 0

/-- The workgroup that a region gives back. -/
def Saved.reload (v : Saved) (r : BitVec 2048) (clk : Nat) (l : List Byte) : Wg :=
  let part := fun (n : Nat) => l.drop (Region.partAt r n)
  let t := Region.perThread r
  let lane := fun (i : Nat) => (part 3).drop (12544 * slotOf i + 256 + 192 * slotLane i)
  let threads := (List.range (Krec.threads r)).map fun i =>
    let x := threadAt r clk ((part 2).drop (t * i)) (lane i)
    (i, match v.kept.get? i with
      | some (rep, e, l) => { x with report := rep, errs := e, later := l }
      | none => x)
  { Wg.zero with
    kernel := v.kernel, ctx := v.ctx, lin := v.lin, core := v.core, width := Krec.width r, placed := clk, saveAt := v.saveAt
    threads := threads
    slots := (List.range (Krec.slots r)).map fun k =>
      (k, { Slot.zero with
            place := .eligible, since := clk, last := clk, num := v.nums.getD k 0, frame := frameAt ((part 3).drop (12544 * k))
            busy := threads.any fun e => slotOf e.1 == k && e.2.live && e.2.handler })
    gangs := (List.range (Krec.gangs r)).map fun i => (i, gangAt ((part 1).drop (512 * i)))
    scratch := cellsAt (part 4) (Krec.scratch r)
    empty := (List.range (Krec.scratch r / 16)).filter fun i => bytesAt (part 5) (i / 8) 1 / 2 ^ (i % 8) % 2 == 0
    acc := accAt (part 6) (Krec.acc r / 4)
    bars := (List.range 16).map fun i => let b := bytesAt l (24 + 2 * i) 2; (i, ⟨b % 2 ^ 13, b / 2 ^ 13 % 2 == 1⟩)
    upper := (List.range 16).map fun i => (i, bytesAt l (56 + 2 * i) 2 % 2 ^ 13)
    progress := bytesAt l 16 4 }

end Sys2Proof.Machine
end

