-- ==== Sys2Proof/Machine/PreemptEv.lean ====
section
/-!
DEFINITION. Pre-emption (spec/07_group.md R166 to R177): the request and its mechanism, drain, save, flush, and the restore.
-/
namespace Sys2Proof.Machine
open Sys2Proof

/-! ### Requests (R170, R171) -/

/-- E of R170: engine commands of the workgroup and siding entries of its threads. -/
def State.engineCost (s : State) (w : Nat) : Nat :=
  32 * (s.cmdsOf w).length + 8 * ((s.core (s.wg w).core).siding.filter fun e => e.wid == w).length

/-- Latency and cost of each mechanism that is eligible, in the order of ties; `extra` is Y′. -/
def State.mechs (s : State) (w extra : Nat) : List (Mech × Nat × Nat) :=
  let r := s.krecOf w
  let p := (s.wg w).progress
  let h := Krec.lenHint r * 256
  let q := min (Krec.slots r) 4
  let e := s.engineCost w
  let d := ceilDiv ((h - p) * 2) q
  let t := ceilDiv (Region.size r + extra) 256 + e
  (if !Krec.coresident r && 0 < h && p < h then [(Mech.drain, d, d)] else []) ++ [(Mech.save, t, 2 * t)] ++
  (if Krec.restartable r && !Krec.coresident r then [(Mech.flush, e, ceilDiv (p * 2) q + e)] else [])

/-- The mechanism of least cost that meets a bound; save when none does (R171). -/
def State.mechFor (s : State) (w bound extra : Nat) : Mech :=
  let fit := (s.mechs w extra).filter fun m => m.2.1 ≤ bound
  match fit with
  | [] => .save
  | m :: l => (l.foldl (fun b x => if x.2.2 < b.2.2 then x else b) m).1

def Mech.code : Mech → Nat
  | .drain => 1 | .save => 2 | .flush => 3

/-- A request for a workgroup; a second one has no effect (R176). -/
def State.requestPreempt (s : State) (w bound extra : Nat) (suspend : Bool) : State :=
  if (s.wg w).preempt.isSome || (s.wg w).ended || !s.wgs.has w then s
  else
    let m := s.mechFor w bound extra
    let s1 := s.setWg w fun g => { g with preempt := some ⟨suspend, m, s.clk, bound, none, false⟩ }
    { s1 with regs := { s1.regs with prRequests := s1.regs.prRequests + 1, prMech := m.code } }

/-- A drain that has not ended at its bound is abandoned for a save, and misses (R172); `prests.last_mech` then shows the save (DESIGN CHOICE,
notes/assumptions/66.md). -/
def execDrainTimeout (wid : Nat) (s : State) : Host.Outcome State Fault Refusal :=
  .next (match (s.wg wid).preempt with
    | some p =>
      if p.mech = .drain ∧ p.start + p.bound ≤ s.clk then
        let s1 := s.setWg wid fun g => { g with preempt := some { p with mech := .save, missed := true } }
        { s1 with regs := { s1.regs with prMech := Mech.save.code } }
      else s
    | none => s)

/-! ### What a save withdraws (R173 step 2, R302, R395) -/

/-- A `TKT.LD` with a lane queued on a full table: its entries are dropped, every active lane's pair is set to zero and full, and its
threads stand at it again. -/
def State.withdrawTicket (s : State) (w t : Nat) (p : Prod) : State :=
  match p.work with
  | .ticket _ _ _ o =>
    let g := s.wg w
    let lanes := g.live.filter fun u => slotOf u == slotOf t && o.lanes.getLsbD (slotLane u)
    let held := (s.slices.map fun e => (e.2.tickets.filter fun k =>
      lanes.any fun u => k.2.issuer == (w, u) && k.2.born == p.born && (k.2.state == .pending || k.2.state == .ready)).map fun k =>
        (e.1, k.1)).flatten
    let s1 := held.foldl (fun s e => s.dropTicket e.1 e.2) s
    let s2 := s1.setThreads w lanes fun _ x =>
      let x1 := match p.tgt with
        | some d => x.onBank p.bank fun r => d.places.foldl (fun r (e : Nat × Nat) => r.setV e.2 .zero) r
        | none => x
      { x1.setPend p.bank p.stat false with prods := x.prods.filter (fun q => q.born != p.born), pc := o.ipc }
    { s2 with slices := s2.slices.mapVals fun _ n => { n with waiting := n.waiting.filter fun e => !(e.1 == w && lanes.contains e.2.1) } }
  | _ => s

/-- A thread's request stands queued on the full table of some slice. -/
def State.tktQueued (s : State) (w t seq : Nat) : Bool := s.slices.any fun e => e.2.waiting.contains (w, t, seq)

def State.withdrawTickets (s : State) (w : Nat) : State :=
  (s.wg w).live.foldl (fun s t =>
    match (s.thread w t).prods.find? fun p => s.tktQueued w t p.seq with
    | some p => s.withdrawTicket w t p
    | none => s) s

/-- A thread held at `KJOIN` gets 0, and stands at the `KJOIN`. -/
def Thread.withdrawJoin (t : Thread) : Thread :=
  match t.hold with
  | .kjoin n => (match t.prod? n with
    | some p => { t.land p [0] full true with hold := .none }
    | none => { t with hold := .none })
  | _ => t

/-- Commands with `.WAITEMPTY` that have not started get a status word; registered commands that wait for the metadata check leave the
table. -/
def State.withdrawCmds (s : State) (w : Nat) : State :=
  let c := (s.wg w).core
  let out := (s.core c).xq.filter fun d => d.wid == w && waitsEmpty d.instr && !d.started
  let s1 := out.foldl (fun s d => s.finishCmd c d [statusWord 0x6B 0] true) s
  let back := (s1.core c).pend.filter fun d => d.wid == w
  back.foldl (fun s d => (s.unlock d.id).setCore c fun x => { x with pend := x.pend.filter fun e => e.id != d.id }) s1

/-- Threads whose wait ends with the save: they execute the instruction again after the restore (R174). -/
def State.mayLeave (s : State) (w t : Nat) : Bool :=
  match (s.thread w t).hold with
  | .none | .sleep _ | .join _ _ | .lane _ _ | .barWait _ | .barSync _ | .waita _ _ _ _ _ _ _ _ _ _ _ | .waitany _ _ _ | .engine _ _ _
  | .sparse _ | .kjoin _ | .stand _ | .settled _ => true
  | .redeem _ => s.parked w t || (s.thread w t).answered
  | .fence _ _ _ _ | .miss _ _ _ _ _ | .lineClr _ _ _ | .codebook _ _ _ _ _ => false

/-- A thread of `TKT.RDS` leaves it: one with its answer goes on after it, one that is parked was not accepted. -/
def Thread.leaveRds (t : Thread) : Thread :=
  match t.hold with
  | .redeem r =>
    if r.acc then t.resume r.orig.len
    else match r.rds with
      | some (_, n) => t.unproduce n
      | none => t
  | _ => t

/-- Step 2 has nothing more to wait for. -/
def State.quiesced (s : State) (w : Nat) : Bool :=
  let g := s.wg w
  let c := s.core g.core
  let rds := fun (t : Thread) (p : Prod) => match t.hold with
    | .redeem r => !r.acc && r.rds.map Prod.snd == some p.seq
    | _ => false
  (g.live.all (s.mayLeave w)) && (g.threads.all fun e => e.2.prods.all (rds e.2)) &&
  (s.cmdsOf w).isEmpty && !(c.siding.any fun e => e.wid == w)

/-! ### Save (R173) -/

/-- How the write of a region ends. -/
inductive SavePut
  | ok (s : State)
  | wait (page : Nat) (s : State)
  | no

/-- Write a region line by line; on a translation miss `s0` asks for the page. -/
def State.storeRegion (s0 : State) (ctx core va : Nat) (l : List Byte) : List Nat → State → SavePut
  | [], s => .ok s
  | i :: rest, s =>
    match s.deviceStore ctx (va + 128 * i) ((l.drop (128 * i)).take 128) with
    | .ok s1 => s0.storeRegion ctx core va l rest s1
    | .no => .no
    | .miss => match (s0.ctx ctx).resolve .wr (va + 128 * i) with
      | none => .no
      | some a => match s0.ask ctx core a .wr false true false false with
        | .wait s1 pg => .wait pg s1
        | _ => .no

/-- The workgroup has been written: it leaves its core, and its contributions leave the upper barriers. -/
def State.savedOut (s : State) (w : Nat) (p : Preempt) : State :=
  let g := s.wg w
  let s1 := (List.range 16).foldl (fun s i =>
    let b := upperBar i
    let n := g.upper.getD i 0
    if n = 0 then s else let q := s.phaseOf w b; s.setPhase w b { q with count := q.count - n }) s
  let s1 := s1.setKern g.kernel fun k => k.stirred g.core s.clk
  let v : Saved := ⟨w, g.kernel, g.ctx, g.lin, g.core, g.saveAt, p.bySuspend, g.slots.map fun e => e.2.num, g.kept⟩
  ({ s1.removeWg w with saved := s1.saved ++ [v] }).preemptOver p

/-- Every resident workgroup of a co-resident kernel has stopped for its save (R442). -/
def State.matesStopped (s : State) (w : Nat) : Bool :=
  let h := (s.wg w).kernel
  !Krec.coresident (s.kern h).krec || s.wgs.all fun e => e.2.kernel != h || e.2.ended || (match e.2.preempt with
    | some p => p.mech == .save
    | none => false)

/-- The region of a workgroup is written from `s4`, in which its threads have left their waits; a miss is asked for in `s`, whose table may have no
entry for it, so that it asks again (R457). -/
def State.saveOut (s : State) (w : Nat) (p : Preempt) (s4 : State) : State :=
  let g := s.wg w
  let va := (s.ctx g.ctx).saveVa + g.saveAt
  let img := s4.regionImage w p.bySuspend
  match s.storeRegion g.ctx g.core va img (List.range (img.length / 128)) s4 with
  | .ok s5 => s5.savedOut w p
  | .no => s.ctxFault g.ctx Cause.page g.kernel 0
  | .wait pg s5 => s5.setWg w fun g => { g with preempt := some { p with wait := some (pg, false) } }

def State.saveWg (s : State) (w : Nat) (p : Preempt) : State :=
  let s1 := ((s.settle w).withdrawTickets w).withdrawCmds w
  let s2 := s1.setThreads w (s1.wg w).live fun _ x => x.withdrawJoin
  if !(s2.quiesced w && s2.matesStopped w) then s2
  else
    let g := s2.wg w
    let s3 := g.live.foldl (fun s t => s.withdrawBar w t) s2
    let s4 := s3.setThreads w g.live fun _ x => { x.leaveRds with hold := .none }
    match p.wait with
    | some (_, true) => s2.ctxFault g.ctx Cause.page g.kernel 0
    | some (pg, false) => if s.missing pg then s2 else s2.saveOut w p s4
    | none => s2.saveOut w p s4

def execWgSave (wid : Nat) (s : State) : Host.Outcome State Fault Refusal :=
  .next (match (s.wg wid).preempt with
    | some p => if p.mech = .save ∧ (s.wg wid).ended = false then s.saveWg wid p else s
    | none => s)

/-! ### Flush (R175) -/

/-- A request of a producer that is on its way, so that a flush waits for it. -/
def State.inFlight (s : State) (w t : Nat) (p : Prod) : Bool :=
  match p.work with
  | .load _ _ | .atom _ _ _ | .store _ _ _ _ | .spotStore _ _ | .drop _ | .launch _ | .post _ _ | .getev | .page _ _ _ => true
  | .kkill _ _ found => found.isNone
  | .ticket _ _ _ _ => !s.tktQueued w t p.seq
  | _ => false

/-- The state of a thread is discarded, but for the requests on their way. -/
def State.flushed (s : State) (w t : Nat) (x : Thread) : Thread :=
  { x with handler := false, report := [], errs := .zero, later := .zero,
           prods := (x.prods.filter (s.inFlight w t)).map fun p => { p with tgt := none, stat := none, bank := false } }

/-- Steps 1 to 3 of a flush. -/
def State.flushStart (s : State) (w : Nat) : State :=
  let s1 := (s.cancel fun e => e.wid == w).setCore (s.wg w).core fun c => { c with siding := c.siding.filter fun e => e.wid != w }
  s1.setWg w fun g => { g with threads := g.threads.mapVals (s.flushed w) }

def execWgFlush (wid : Nat) (s : State) : Host.Outcome State Fault Refusal :=
  .next (let g := s.wg wid
    match g.preempt with
    | none => s
    | some p =>
      if p.mech ≠ .flush ∨ g.ended = true then s
      else
        let s1 := s.flushStart wid
        if (s1.wg wid).threads.any fun e => e.2.prods ≠ [] || e.2.hold.inFlight then s1
        else
          ((s1.removeWg wid).setKern g.kernel fun k =>
            ({ k with ret := k.ret ++ [g.lin], state := if k.state = .running then .dispatching else k.state } : Kern).stirred g.core s.clk).preemptOver p)

/-! ### Restore (R168, R177) -/

/-- A QUEUED kernel of higher effective priority lacks room (R168). -/
def State.outranked (s : State) (h : Nat) : Bool :=
  s.kernels.any fun e => e.2.state == .queued && (s.kern h).prio < e.2.prio && !s.coreRoom e.2

/-- The bytes of a region, when every line of it can be read. -/
def State.readRegion (s : State) (ctx va : Nat) : List Nat → State × Option (List Byte)
  | [] => (s, some [])
  | i :: rest =>
    match s.deviceRead ctx .rd (va + 128 * i) 128 with
    | .ok s1 l => (match s1.readRegion ctx va rest with
      | (s2, some m) => (s2, some (l ++ m))
      | (s2, none) => (s2, none))
    | _ => (s, none)

/-- Place one saved workgroup again; `none` when it has no room, or its region cannot be read. -/
def State.restoreOne (s : State) (wid : Nat) : Option State :=
  match s.saved.find? fun v => v.wid == wid with
  | none => none
  | some v =>
    let r := (s.kern v.kernel).krec
    if !s.hasRoom v.core r || s.wgs.has wid then none
    else match s.readRegion v.ctx ((s.ctx v.ctx).saveVa + v.saveAt) (List.range (Region.size r / 128)) with
      | (_, none) => none
      | (s1, some l) =>
        let g := v.reload r s.clk l
        let s2 := ({ s1 with wgs := s1.wgs.set wid g, saved := s1.saved.filter fun x => x.wid != wid }).setKern v.kernel fun k =>
          k.stirred v.core s.clk
        some ((List.range 16).foldl (fun s i =>
          let b := upperBar i
          if Krec.bars r b.lvl ≤ b.num then s
          else s.setPhase wid b ⟨(s.phaseOf wid b).count + g.upper.getD i 0, bytesAt l (56 + 2 * i) 2 / 2 ^ 13 % 2 == 1⟩) s2)

/-- What may be restored in one step: one workgroup, or all those of a co-resident kernel. -/
def State.restorable (s : State) (wids : List Nat) : Bool :=
  match wids.filterMap fun w => s.saved.find? fun v => v.wid == w with
  | [] => false
  | v :: l =>
    let all := (s.saved.filter fun x => x.kernel == v.kernel).map Saved.wid
    (s.ctx v.ctx).state == .active && s.regs.suspending != some v.ctx && (l.all fun x => x.kernel == v.kernel) &&
    (v.bySuspend || !s.outranked v.kernel) && (if Krec.coresident (s.kern v.kernel).krec then all == wids else wids.length == 1)

def execWgRestore (wids : List Nat) (s : State) : Host.Outcome State Fault Refusal :=
  .next (if !s.restorable wids then s
    else (wids.foldl (fun (o : Option State) w => o.bind fun s => s.restoreOne w) (some s)).getD s)

end Sys2Proof.Machine
end

