-- ==== Sys2Proof/Machine/PageOps.lean ====
section
/-!
DEFINITION. The page instructions, at issue and at the page's agent (spec/17_page.md R461, R462, R468 to R473), and what they do to the requests
that wait for the pager (R457).
-/
namespace Sys2Proof.Machine
open Sys2Proof

/-! ### Waiters (R457) -/

def inRange (r : Nat × Nat) (pg : Nat) : Bool := r.1 ≤ pg && pg < r.1 + r.2

def Thread.waitOn (t : Thread) (seq : Nat) (p : Option Nat) : Thread :=
  { t with prods := listSet t.prods (fun q => q.seq == seq) fun q => { q with wait := p } }

/-- A held thread that has ended no longer waits for its page: a clear of a line goes on, and any other request is over (R137). -/
def State.dropLeft (s : State) (w t : Nat) : State :=
  match (s.thread w t).hold with
  | .lineClr r _ o => s.setThread w t fun x => { x with hold := .lineClr r none o }
  | _ => s.dropHold w t

/-- A waiter goes through translation again. -/
def State.freeWaiter (s : State) : Waiter → State
  | .prod w t seq => s.setThread w t fun x => x.waitOn seq none
  | .held w t => if !(s.thread w t).live then s.dropLeft w t else s.setThread w t fun x => match x.hold with
    | .waita r c b d n till st mon next _ o => { x with hold := .waita r c b d n till st mon next none o }
    | .lineClr r _ o => { x with hold := .lineClr r none o }
    | .codebook k m st _ o => { x with hold := .codebook k m st none o }
    | _ => x
  | .side c id => s.setCore c fun x => { x with siding := listSet x.siding (fun e => e.id == id) fun e => { e with state := .grant } }
  | .cmd c id => s.setCmd c id fun d => { d with wait := none }
  | .tkt n e => s.setTicket n e fun k => { k with wait := none }
  | .done _ => s
  | .save w => s.setWg w fun g => { g with preempt := g.preempt.map fun p => { p with wait := none } }

/-- A waiter becomes unresolvable. -/
def State.failWaiter (s : State) : Waiter → State
  | .prod w t seq =>
    match (s.thread w t).prod? seq with
    | none => s
    | some p =>
      let s1 := s.setThread w t fun x => x.waitOn seq none
      match p.work with
      | .atom r a _ => ((s1.atomFails w t p a r.va Cause.page).atomAcquire w p.born r).wgRelease w
      | _ => s1.setThread w t fun x => x.setWork seq (.failed false)
  | .held w t =>
    let g := s.wg w
    if !(g.thread t).live then s.dropHold w t
    else match (g.thread t).hold with
    | .waita r _ _ d n _ st _ _ _ o =>
      ((s.setThread w t fun x => x.waitEnd d n none st false o.len).reportLane w t ⟨Cause.page, 0, r.va, o⟩).unmonitor (· == (w, t))
    | .lineClr r _ o => (s.setThread w t fun x => x.settle o).reportLane w t ⟨Cause.page, 0, r.va, o⟩
    | .codebook k _ st pg o => s.setThread w t fun x => { x with hold := .miss (pg.getD 0) true (Krec.codebook (s.krecOf w) k) o st }
    | .miss pg _ a o st => s.setThread w t fun x => { x with hold := .miss pg true a o st }
    | _ => s
  | .side c id =>
    match (s.core c).siding.find? fun e => e.id == id with
    | none => s
    | some e => (s.setCore c fun x => { x with siding := x.siding.filter fun e => e.id != id }).storeFails e.wid e.t e.kernel e.va e.handler
  | .cmd c id => s.setCmd c id fun d => { d with wait := none, bad := d.bad ++ d.wait.toList }
  | .tkt n e => s.setTicket n e fun k =>
    let j := k.left.find? fun j => some (s.pageOf (k.addr j).gia).1 == k.wait
    { k with wait := none, svcNew := if k.svcNew = 1 then 1 else 2, left := k.left.filter fun i => some i != j }
  | .done h => (s.noWord h).sweepKernels
  | .save w => s.setWg w fun g => { g with preempt := g.preempt.map fun p => { p with wait := p.wait.map fun x => (x.1, true) } }

/-- The miss entries of a page's range go. -/
def State.clearMisses (s : State) (r : Nat × Nat) : State :=
  { s with slices := s.slices.mapVals fun _ n => { n with misses := n.misses.filter fun m => !inRange r m.page } }

/-- Everything that waits on the page proceeds. -/
def State.pageSettled (s : State) (r : Nat × Nat) : State := (s.waiters (inRange r)).foldl State.freeWaiter (s.clearMisses r)

/-- Everything that waits on the page fails: the state, and how many there were. -/
def State.pageFailed (s : State) (r : Nat × Nat) : State × Nat :=
  let ws := s.waiters (inRange r)
  (ws.foldl State.failWaiter (s.clearMisses r), ws.length)

/-- The event of a page was dropped, and the page still has an entry 100 µs later: it is posted again. An entry on which nothing waits is freed. -/
def execPageMissRepost (slice page : Nat) (s : State) : Host.Outcome State Fault Refusal :=
  .next (match (s.slice slice).misses.find? fun m => m.page == page with
    | none => s
    | some m =>
      if s.waiters (· == page) = [] then s.sweepMisses slice
      else if m.dropped && m.posted + 100 * Config.clkPerUs ≤ s.clk then
        let s1 := s.post m.ctx m.kind m.info page
        s1.setSlice slice fun x => { x with misses := listSet x.misses (fun m => m.page == page) fun m =>
          { m with dropped := (s1.ctx m.ctx).evLost != (s.ctx m.ctx).evLost, posted := s.clk } }
      else s)

/-! ### At the agent (R470 to R473) -/

/-- How an operation at the agent ends: refused with a cause; done, with `pst.info`; not yet, while a revoke waits for a release-record hold. -/
inductive PageAns
  | refuse (cause : Nat)
  | done (s : State) (info : Nat)
  | wait
deriving DecidableEq, Repr

/-- The stack behind the page agent. -/
def State.agentStack (s : State) (ia : Nat) : Nat := s.agent ia / 2

/-- Reserved bits of a PTE image are zero, and its frame has the form of its tier (R452). -/
def imageOk (img : Nat) (large : Bool) : Bool :=
  let f := Pte.frame img
  Pte.fld img 12 4 == 0 && Pte.fld img 28 4 == 0 && Pte.fld img 72 8 == 0 &&
  (match Pte.tier img with
   | 2 => f < 2 ^ 36
   | 3 => 1 ≤ f / 2 ^ 32 && f / 2 ^ 32 ≤ 15
   | _ => true) && (!large || f % 32 == 0)

/-- The page that `PAGE.MAP` makes: the fields of the image that software sets, and its frame. -/
def State.mapPage (s : State) (ctx ia : Nat) (e : Nat × Bool) (img frame : Nat) : PageAns :=
  let p := 1 + 2 * Pte.tier img + 2 ^ 3 * Pte.perm img + 2 ^ 6 * Pte.fld img 6 2 + 2 ^ 9 * Pte.fld img 9 1 + 2 ^ 10 * e.2.toNat +
    2 ^ 16 * ctx + 2 ^ 32 * frame
  .done ((s.setPte e.1 p).pageSettled (s.pageOf ia)) (frame % 2 ^ 24)

def State.pageMapOp (s : State) (ctx ia img : Nat) (alloc : Bool) : PageAns :=
  match s.pteAt ia with
  | none => .refuse 0x71
  | some e =>
    let p := s.pte e.1
    let tier := Pte.tier img
    let f := Pte.frame img
    let n := pageSpan e.2
    if Pte.valid p then .refuse (if Pte.ctx p ≠ ctx then 0x74 else 0x72)
    else if alloc then
      let pool := if f = 63 then s.agentStack ia else f
      if !imageOk (Pte.put img 32 40 0) false || (33 < f && f ≠ 63) || tier ≠ (if pool < 32 then 0 else 1) then .refuse 0x77
      else match s.takeFrames pool e.2 with
        | none => .refuse 0x75
        | some (g, s1) => s1.mapPage ctx ia e img (frameRef pool g)
    else if !imageOk img e.2 then .refuse 0x77
    else if 2 ≤ tier then s.mapPage ctx ia e img f
    else
      let pool := poolOf tier f
      let k := frameNo tier f
      let each := fun (q : Nat → Bool) => (List.range n).any fun i => q (k + i)
      if !s.frameOk tier f || !s.frameOk tier (f + n - 1) then .refuse 0x77
      else if !(s.pool pool).up then .refuse 0x75
      else if each fun i => (s.pool pool).isTable i || (s.pool pool).isRetired i || (s.pool pool).count i == 0 then .refuse 0x77
      else if each fun i => (s.pool pool).count i == 65535 then .refuse 0x78
      else (s.adjFrames pool k n 1).mapPage ctx ia e img f

/-- P of an instruction that needs a mapped page of its own context. -/
def State.withPte (s : State) (ctx ia : Nat) (f : Nat → Bool → Nat → PageAns) : PageAns :=
  match s.pteAt ia with
  | none => .refuse 0x73
  | some (a, large) =>
    let p := s.pte a
    if !Pte.valid p then .refuse 0x73 else if Pte.ctx p ≠ ctx then .refuse 0x74 else f a large p

def State.pageUpd (s : State) (ctx ia img : Nat) : PageAns :=
  s.withPte ctx ia fun a _ p =>
    let off := fun (b : Nat) => Pte.fld p b 1 == 1 && Pte.fld img b 1 == 0
    let needs := (!Pte.cow p && Pte.cow img) || off 3 || off 4 || off 5 || Pte.shared p != Pte.shared img || Pte.near p != Pte.near img
    if needs && !s.revokeReady ia then .wait
    else
      let s1 := if needs then s.revoke ia else s
      let q := Pte.put (Pte.put (s1.pte a) 3 5 (Pte.fld img 3 5)) 9 1 (Pte.fld img 9 1)
      let s2 := s1.setPte a q
      .done (if Pte.cow p && !Pte.cow img then s2.pageSettled (s.pageOf ia) else s2) 0

/-- A node or a leaf is made in a frame of its own. -/
def State.newNode (s : State) (pool : Nat) : Option (Nat × State) :=
  (s.popFrame pool).map fun e => (framePa pool e.1, e.2.setPool pool fun p => p.setEntry e.1 1 true false)

/-- The node behind an entry, made when it is missing. -/
def State.nodeAt (s : State) (pool at_ : Nat) : Option (Nat × State) :=
  let e := s.m64 at_
  if e % 2 = 1 then some (nextNode e, s)
  else (s.newNode pool).map fun x => (x.1, { x.2 with mem := Memory.writeLE x.2.mem at_ 8 (1 + x.1) })

def State.pageMapRgnOp (s : State) (ia : Nat) (large : Bool) : PageAns :=
  let pool := s.agentStack ia
  if (s.region ia).isSome then .refuse 0x72
  else if !(s.pool pool).up then .refuse 0x75
  else
    let made : Option State := do
      let (n1, s1) ← s.nodeAt pool (s.rootNode + 8 * (ia / 2 ^ 39 % 512))
      let (n2, s2) ← s1.nodeAt pool (n1 + 8 * (ia / 2 ^ 30 % 512))
      let (leaf, s3) ← s2.newNode pool
      pure { s3 with mem := Memory.writeLE s3.mem (n2 + 8 * (ia / 2 ^ 23 % 128)) 8 (1 + 2 * large.toNat + leaf) }
    match made with
    | none => .refuse 0x75
    | some t => .done t 0

def State.pageUnmapOp (s : State) (ctx ia : Nat) : PageAns :=
  s.withPte ctx ia fun a large p =>
    if Pte.pin p then .refuse 0x76
    else if !s.revokeReady ia then .wait
    else
      let s1 := (s.revoke ia).setPte a 0
      .done (if Pte.tier p < 2 then s1.adjFrames (poolOf (Pte.tier p) (Pte.frame p)) (frameNo (Pte.tier p) (Pte.frame p)) (pageSpan large) (-1)
        else s1) 0

def State.pageUnmapRgnOp (s : State) (ia : Nat) : PageAns :=
  match s.region ia with
  | none => .refuse 0x71
  | some (a, e) =>
    let leaf := leafNode e
    let n := if e / 2 % 2 = 1 then 4 else 128
    if (List.range n).any fun i => Pte.valid (s.pte (leaf + 16 * i)) then .refuse 0x7A
    else .done ({ s with mem := Memory.writeLE s.mem a 8 0 }.setCount (leaf / 2 ^ 36) (leaf % 2 ^ 36 / 65536) 0) 0

/-- The pool and the frame of a frame reference, or the cause for which it is refused (R452, R471). -/
def State.frameOf (s : State) (v : Nat) : Except Nat (Nat × Nat) :=
  let tier := v / 2 ^ 40
  let f := v % 2 ^ 40
  if 1 < tier || !s.frameOk tier f then .error 0x77
  else if !(s.pool (poolOf tier f)).up then .error 0x75
  else .ok (poolOf tier f, frameNo tier f)

def State.pageRefOp (s : State) (v : Nat) (up : Bool) : PageAns :=
  match s.frameOf v with
  | .error c => .refuse c
  | .ok (pool, f) =>
    let n := (s.pool pool).count f
    if (s.pool pool).isTable f || (s.pool pool).isRetired f then .refuse 0x77
    else if n = (if up then 65535 else 0) then .refuse 0x78
    else let m := if up then n + 1 else n - 1; .done (s.setCount pool f m) m

def State.pageCopyOp (s : State) (ctx ia pool : Nat) : PageAns :=
  s.withPte ctx ia fun a large p =>
    let old := poolOf (Pte.tier p) (Pte.frame p)
    let f := frameNo (Pte.tier p) (Pte.frame p)
    let c := if Pte.tier p < 2 then (s.pool old).count f else 1
    if !Pte.cow p then .done s 0
    else if !s.revokeReady ia then .wait
    else if c ≤ 1 then
      let s1 := s.revoke ia
      .done ((s1.setPte a (Pte.put (s1.pte a) 6 1 0)).pageSettled (s.pageOf ia)) 1
    else
      let into := if pool = 63 then old else pool
      match (s.revoke ia).takeFrames into large with
      | none => .refuse 0x75
      | some (g, s1) =>
        let s2 := (s1.repage ia a large into g).adjFrames old f (pageSpan large) (-1)
        .done ((s2.setPte a (Pte.put (s2.pte a) 6 1 0)).pageSettled (s.pageOf ia)) (c - 1)

def State.pageInvOp (s : State) (ctx ia : Nat) (fail : Bool) : PageAns :=
  let other := match s.pteAt ia with
    | some (a, _) => Pte.valid (s.pte a) && Pte.ctx (s.pte a) != ctx
    | none => false
  if other then .refuse 0x74
  else if !s.revokeReady ia then .wait
  else
    let s1 := s.revoke ia
    if fail then let (s2, n) := s1.pageFailed (s.pageOf ia); .done s2 n else .done s1 0

def State.pagePinOp (s : State) (ctx ia : Nat) (on : Bool) : PageAns :=
  s.withPte ctx ia fun a _ p => .done (s.setPte a (Pte.put p 8 1 on.toNat)) 0

/-- `PAGE.PROBE`: the PTE, or zeros. -/
def State.pageProbeOp (s : State) (ia : Nat) (clr : Bool) : State × Nat :=
  match s.pteAt ia with
  | none => (s, 0)
  | some (a, _) =>
    let p := s.pte a
    if !Pte.valid p then (s, 0) else (if clr then s.setPte a (Pte.put p 80 48 0) else s, p)

def pageStatus (cause info : Nat) : Word := .ofNat 32 (2 ^ 31 + cause * 2 ^ 24 + info % 2 ^ 24)

/-- The status word of an operation; `none` while it waits. -/
def PageAns.word (s : State) : PageAns → Option (State × List Word)
  | .refuse c => some (s, [pageStatus c 0])
  | .done s1 n => some (s1, [pageStatus 0 n])
  | .wait => none

def State.probeFrame (s : State) (v : Nat) : List Word :=
  match s.frameOf v with
  | .error c => [pageStatus c 0]
  | .ok (pool, f) => [((s.pool pool).table.getD f 0)]

def quadWords (r : State × Nat) : Option (State × List Word) := some (r.1, wordList r.2 4)

/-- A page instruction of one lane at the agent: the state and the words of its destination; `none` while it waits. -/
def State.pageOp (s : State) (ctx : Nat) (i : Instr) (ia img : Nat) : Option (State × List Word) :=
  match i with
  | .pageMap _ _ _ _ => (s.pageMapOp ctx ia img false).word s
  | .pageMapAlloc _ _ _ _ => (s.pageMapOp ctx ia img true).word s
  | .pageMapUpd _ _ _ _ => (s.pageUpd ctx ia img).word s
  | .pageMapRgn _ _ _ large => (s.pageMapRgnOp ia large).word s
  | .pageUnmap _ _ _ => (s.pageUnmapOp ctx ia).word s
  | .pageUnmapRgn _ _ _ => (s.pageUnmapRgnOp ia).word s
  | .pageRef _ _ _ => (s.pageRefOp ia true).word s
  | .pageUnref _ _ _ => (s.pageRefOp ia false).word s
  | .pageCopy _ _ _ pool => (s.pageCopyOp ctx ia pool).word s
  | .pageProbe _ _ _ => quadWords (s.pageProbeOp ia false)
  | .pageProbeClr _ _ _ => quadWords (s.pageProbeOp ia true)
  | .pageProbeFrame _ _ _ => some (s, s.probeFrame ia)
  | .pageInv _ _ _ => (s.pageInvOp ctx ia false).word s
  | .pageInvFail _ _ _ => (s.pageInvOp ctx ia true).word s
  | .pagePin _ _ _ => (s.pagePinOp ctx ia true).word s
  | .pagePinClr _ _ _ => (s.pagePinOp ctx ia false).word s
  | _ => some (s, [])

/-- A page instruction acts on a page, named by an IA, and not on a frame (R461, R471). -/
def takesIa : Instr → Bool
  | .pageRef _ _ _ | .pageUnref _ _ _ | .pageProbeFrame _ _ _ => false
  | _ => true

def isPageOp : Work → Bool
  | .page _ _ _ => true
  | _ => false

/-- One lane's page instruction is taken at the agent, after those of lower lanes; its transfer-queue entry goes with it (R469, R472).  At an
agent whose slice has left service it is not performed, and fails as an atomic does there (R29, R447; notes/assumptions/46.md). -/
def State.doPage (s : State) (w t : Nat) (p : Prod) (i : Instr) (ia img : Nat) : State :=
  let g := s.wg w
  let leave := fun (s : State) => s.setCore g.core fun c =>
    c.setXq s.clk (c.xq.filter fun d => !(d.wid == w && d.t == t && d.seq == p.seq && moveOf d.instr == .page))
  if s.lowerLane w t p.born isPageOp then s
  else if takesIa i && !s.sliceUp (s.agent ia) then (leave s).setThread w t fun x => x.setWork p.seq (.failed true)
  else match s.pageOp g.ctx i ia img with
    | none => s
    | some (s1, vals) =>
      ((leave s1).acquire g.core .dev).landProd w t p vals full true

/-! ### Issue (R469) -/

/-- The lanes of a page instruction are sent in ascending order; a full transfer queue parks those of `PAGE.COPY` that are left (R472). -/
def pageLoop (i : Instr) (copy : Bool) (w : State → Nat → Work) : List Nat → State → Res
  | [], s => .ok s
  | t :: rest, s =>
    let c := s.iwg.core
    if !copy then pageLoop i copy w rest (s.produce i t (w s t))
    else if s.engineRoom c false then
      let cmd := { s.newCmd i t [] [] with started := true, begun := s.clk }
      pageLoop i copy w rest ((s.setCore c fun x => { x.setXq s.clk (x.xq ++ [cmd]) with cmdId := x.cmdId + 1 }).produce i t (w s t))
    else
      let s1 := s.setThreads s.issue.wid (t :: rest) fun _ x => x.waitAt s.issue.pc (.engine false [] s.origin)
      if (t :: rest).length = s.issue.lanes.length then .wait s1 else .ok s1

/-- The common course: PRIV, ALIGN of an IA, the release without the siding, then one operation per lane. -/
def pageCourse (i : Instr) (isIa : Bool) (a : Field) (img : Option Field) (copy : Bool) (s : State) : Host.Outcome State Fault Refusal :=
  issue i 1 (fun act s =>
    let ia := fun t => (s.ithread t).pair a
    if act = [] then .ok s
    else if s.ictx.capPager = false then trapAll act Cause.priv
    else match (if isIa then failing act (fun t => 2 ^ 48 ≤ ia t || ia t % 65536 != 0) Cause.align ia else none) with
      | some r => r
      | none => match s.releaseDev act false with
        | none => .hold
        | some s1 => pageLoop i copy (fun s t => .page i ((s.ithread t).pair a) (img.elim 0 ((s.ithread t).wide · 4))) act s1) s

def execPageMap (g : Guard) (d a img : Field) (s : State) : Host.Outcome State Fault Refusal :=
  pageCourse (.pageMap g d a img) true a (some img) false s
def execPageMapAlloc (g : Guard) (d a img : Field) (s : State) : Host.Outcome State Fault Refusal :=
  pageCourse (.pageMapAlloc g d a img) true a (some img) false s
def execPageMapUpd (g : Guard) (d a img : Field) (s : State) : Host.Outcome State Fault Refusal :=
  pageCourse (.pageMapUpd g d a img) true a (some img) false s
def execPageMapRgn (g : Guard) (d a : Field) (large : Bool) (s : State) : Host.Outcome State Fault Refusal :=
  pageCourse (.pageMapRgn g d a large) true a none false s
def execPageUnmap (g : Guard) (d a : Field) (s : State) : Host.Outcome State Fault Refusal :=
  pageCourse (.pageUnmap g d a) true a none false s
def execPageUnmapRgn (g : Guard) (d a : Field) (s : State) : Host.Outcome State Fault Refusal :=
  pageCourse (.pageUnmapRgn g d a) true a none false s
def execPageRef (g : Guard) (d a : Field) (s : State) : Host.Outcome State Fault Refusal :=
  pageCourse (.pageRef g d a) false a none false s
def execPageUnref (g : Guard) (d a : Field) (s : State) : Host.Outcome State Fault Refusal :=
  pageCourse (.pageUnref g d a) false a none false s
def execPageCopy (g : Guard) (d a : Field) (pool : Nat) (s : State) : Host.Outcome State Fault Refusal :=
  pageCourse (.pageCopy g d a pool) true a none true s
def execPageProbe (g : Guard) (d a : Field) (s : State) : Host.Outcome State Fault Refusal :=
  pageCourse (.pageProbe g d a) true a none false s
def execPageProbeClr (g : Guard) (d a : Field) (s : State) : Host.Outcome State Fault Refusal :=
  pageCourse (.pageProbeClr g d a) true a none false s
def execPageProbeFrame (g : Guard) (d a : Field) (s : State) : Host.Outcome State Fault Refusal :=
  pageCourse (.pageProbeFrame g d a) false a none false s
def execPageInv (g : Guard) (d a : Field) (s : State) : Host.Outcome State Fault Refusal :=
  pageCourse (.pageInv g d a) true a none false s
def execPageInvFail (g : Guard) (d a : Field) (s : State) : Host.Outcome State Fault Refusal :=
  pageCourse (.pageInvFail g d a) true a none false s
def execPagePin (g : Guard) (d a : Field) (s : State) : Host.Outcome State Fault Refusal :=
  pageCourse (.pagePin g d a) true a none false s
def execPagePinClr (g : Guard) (d a : Field) (s : State) : Host.Outcome State Fault Refusal :=
  pageCourse (.pagePinClr g d a) true a none false s

end Sys2Proof.Machine
end

