-- ==== Sys2Proof/Machine/ThreadEv.lean ====
section
/-!
DEFINITION. Steps of threads and bays outside issue: traps after settlement and deferred traps (spec/18_trap.md R307, R479), the result of a
long-latency producer (spec/08_thread.md R187), and the displacement of a window entry (spec/07_group.md R157).
-/
namespace Sys2Proof.Machine
open Sys2Proof

/-- A thread that stands outside every wait and every handler has a trap to take, and the lanes of the instruction that it reports are settled. -/
def Wg.trapReady (g : Wg) (t : Nat) : Bool :=
  let x := g.thread t
  x.live && x.hold == .none && x.hurt && !g.ticketHeld t && (match x.report with
    | r :: _ => !g.unsettled t r.orig
    | [] => true)

/-- The lowest lane of a thread's group. -/
def Wg.lowest (g : Wg) (t : Nat) : Nat := (g.standing t).foldl min t

/-- The thread can take a trap that waits: the frame of its slot is free, and no group of the slot that is ready to take one has a lower lane
(R480). -/
def State.canTrap (s : State) (w t : Nat) : Bool :=
  let g := s.wg w
  g.trapReady t && !(g.slot (slotOf t)).busy && !g.stopped &&
  !(g.live.any fun u => slotOf u == slotOf t && g.trapReady u && g.lowest u < g.lowest t)

/-- A trap after settlement, once every lane of its instruction is settled. -/
def execSettledTrap (wid t : Nat) (s : State) : Host.Outcome State Fault Refusal :=
  .next (match (s.thread wid t).report with
    | _ :: _ => if s.canTrap wid t then s.takeSettled wid t else s
    | [] => s)

/-- A deferred trap; one after settlement goes first. -/
def execDeferredTrap (wid t : Nat) (s : State) : Host.Outcome State Fault Refusal :=
  .next (let x := s.thread wid t
    if s.canTrap wid t && x.errs.any && x.report.isEmpty then s.takeDeferred wid t else s)

def execEligibleStarvation (core bay : Nat) (s : State) : Host.Outcome State Fault Refusal := .next (s.starve core bay)

/-! ### PRODUCER_COMPLETE -/

/-- A producer's lane failed and reports a trap after settlement: its registers stay empty and enter the error set (R343, R479). -/
def Thread.failReport (t : Thread) (p : Prod) (r : Report) : Thread :=
  let x := t.failProd p (r.cause == Cause.ue)
  let flags := fun (new old : Errs) => if r.cause = Cause.align then { new with ue := old.ue, page := old.page } else new
  { x with errs := flags x.errs t.errs, later := flags x.later t.later, report := t.report ++ [r] }

/-- Lanes of an issue group that wait for the memory side, so that the group has not settled. -/
def State.unsettledGroup (s : State) (w born : Nat) : Bool :=
  (s.together w born fun q => match q with
    | .atom _ _ _ | .ticket _ _ _ _ => true
    | _ => false) != []

/-- The failed lanes of an atomic's group end together. -/
def State.settleGroup (s : State) (w : Nat) (born : Nat) : State :=
  let ls := s.together w born fun q => match q with
    | .trap _ => true
    | _ => false
  (ls.foldl (fun s e => match e.2.work with
    | .trap r =>
      let g := s.wg w
      if !(g.thread e.1).live then s.setThread w e.1 fun x => x.endProd e.2 false
      else if e.2.bank then s.ctxFault g.ctx r.cause g.kernel (g.thread e.1).pc
      else s.setThread w e.1 fun x => x.failReport e.2 r
    | _ => s) s).wgRelease w

/-- Granules of a granule load. -/
def grans (p : Prod) : List Nat :=
  match p.work with
  | .granule o n _ _ _ _ => granules o (o + n)
  | _ => []

/-- The granule loads of an issue group that share granules with the given ones, directly or through others. -/
def sharing (all : List Served) : Nat → List Served → List Served
  | 0, l => l
  | n + 1, l => sharing all n (all.filter fun e => l.any fun f => (grans e.2).any (grans f.2).contains)

/-- Granule loads that share granules are performed together, when every granule is full: all read, and then the granules that `.FE.CLR` names
are emptied (R278).  A load waits for the thread's earlier granule loads of its bytes (R318); an acquire at `.CLU` or wider then drops the core's
clean bytes (R322, R323). -/
def State.loadGranules (s : State) (w t : Nat) (p : Prod) : State :=
  let g := s.wg w
  let all := s.together w p.born Work.isGranule
  let ls := sharing all all.length [(t, p)]
  let early := fun (e : Served) => match e.2.work with
    | .granule o n _ _ _ _ => ({ g.thread e.1 with prods := (g.thread e.1).prods.filter fun q => q.seq < e.2.seq }).spotPend w w o n
    | _ => false
  if ls.any fun e => early e || (grans e.2).any g.empty.contains then s
  else
    let one := fun (s : State) (e : Served) => match e.2.work with
      | .granule o n sgn _ _ _ => (match s.spotRead (.scr w o) n with
        | none => s.prodFails w e.1 e.2 true
        | some b => (match answer n sgn false b with
          | .done vals iv ok => s.setThread w e.1 fun x => x.land e.2 vals iv ok
          | _ => s))
      | _ => s
    let clear := (ls.filter fun e => match e.2.work with
      | .granule _ _ _ c _ _ => c
      | _ => false).map fun e => grans e.2
    let acq := fun (s : State) => match p.work with
      | .granule _ _ _ _ o sc => if Use.hasAcq o then s.acquire g.core sc else s
      | _ => s
    ((acq (ls.foldl one s)).setWg w fun g => { g with empty := g.empty ++ (dedup clear.flatten).filter fun k => !g.empty.contains k }).wgRelease w

/-- A result is written while the predicate of its group is still pending (R189, R304, R342). -/
def Thread.landEarly (t : Thread) (p : Prod) (vals : List Word) (iv : Intv) : Thread :=
  { t.landRegs p vals iv with prods := listSet t.prods (fun q => q.seq == p.seq) fun q => { q with tgt := none } }

def isLaunch : Work → Bool
  | .launch _ => true
  | _ => false
def isPost : Work → Bool
  | .post _ _ => true
  | _ => false
def isGetev : Work → Bool
  | .getev => true
  | _ => false

/-- The result of a producer arrives; a request that is performed where it is answered is performed here, lower lanes first. -/
def State.prodComplete (s : State) (w t : Nat) (p : Prod) : State :=
  let first := fun (k : Work → Bool) => !s.lowerLane w t p.born k
  match p.work with
  | .done vals iv ok =>
    if p.stat.isSome && s.unsettledGroup w p.born then s.setThread w t fun x => x.landEarly p vals iv
    else s.landProd w t p vals iv ok
  | .failed ue => s.prodFails w t p ue
  | .trap _ => if s.unsettledGroup w p.born then s else s.settleGroup w p.born
  | .granule _ _ _ _ _ _ => s.loadGranules w t p
  | .kjoin h poll => s.doJoin w t p h poll
  | .kkill h own found => if first isKill then s.doKill w t p h own found else s
  | .launch va => if first isLaunch then s.doLaunch w t p va else s
  | .post q va => if first isPost then s.doPost w t p q va else s
  | .getev => if first isGetev then s.doGetev w t p else s
  | .page i ia img => s.doPage w t p i ia img
  | .store _ _ _ _ | .spotStore _ _ => (s.storeStep w t p).wgRelease w
  | .spotLoad _ _ _ _ _ _ _ _ => s.spotStep w t p
  | .load _ _ | .atom _ _ _ | .ticket _ _ _ _ | .drop _ | .engine => s

def execProducerComplete (wid t seq : Nat) (s : State) : Host.Outcome State Fault Refusal :=
  .next (match (s.thread wid t).prod? seq with
    | some p => s.prodComplete wid t p
    | none => s)

end Sys2Proof.Machine
end

