-- ==== Sys2Proof/Machine/ContextEv.lean ====
section
/-!
DEFINITION. Contexts (spec/04_context.md R96 to R116): the host's commands, the checks of CREATE, the reclaim of TEARDOWN, and host writes to a
context record.
-/
namespace Sys2Proof.Machine
open Sys2Proof

/-! ### The checks of CREATE (R105, R107) -/

/-- Reserved bits of each word of a context record that CREATE reads: lowest bit and count. -/
def ctxReserved (n : Nat) : Nat × Nat :=
  if n = 0 then (4, 60) else if n = 1 then (20, 44) else if n = 2 then (64, 0) else if n = 3 ∨ n = 4 then (57, 7) else if n = 5 then (16, 48)
  else if n = 6 ∨ n = 7 then (64, 0) else if n = 8 then (57, 7) else if n = 9 then (40, 24) else if n < 13 then (64, 0) else if n < 16 then (0, 64)
  else if n < 80 then (match n % 4 with
    | 0 | 1 => (57, 7)
    | 2 => (48, 16)
    | _ => (15, 49))
  else if n < 92 then (64, 0) else (0, 64)

/-- The bytes from `va` up to `e` lie in writable ranges. -/
def Ctx.writable (c : Ctx) : Nat → Nat → Nat → Bool
  | 0, va, e => e ≤ va
  | n + 1, va, e =>
    e ≤ va || (match c.rangeOf va with
      | some r => r.perm / 2 % 2 == 1 && c.writable n (r.va + r.size) e
      | none => false)

/-- The interleave set of a range exists, and its die or stack is in service. -/
def State.setOk (s : State) (r : Range) : Bool :=
  match r.ilv with
  | 0 => r.set == 0
  | 1 => s.dieUp r.set
  | 2 => s.regs.stacksUp.getLsbD r.set
  | _ => false

/-- Selectors that the checks of one valid range register report. -/
def State.badRange (s : State) (c : Ctx) (m : Nat) : List Nat :=
  match c.range m with
  | none => []
  | some r =>
    let n := 16 + 4 * m
    let clash := (List.range m).any fun k => match c.range k with
      | some q => q.va < r.va + r.size && r.va < q.va + q.size
      | none => false
    (if r.va % 2 ^ 21 ≠ 0 ∨ 2 ^ 57 < r.va + r.size ∨ clash then [n] else []) ++
    (if r.size = 0 ∨ r.size % 2 ^ 21 ≠ 0 ∨ 2 ^ 48 < r.ia + r.size then [n + 1] else []) ++
    (if r.ia % 2 ^ 21 ≠ 0 then [n + 2] else []) ++ (if s.setOk r then [] else [n + 3])

/-- Selectors whose map bytes name a unit out of service. -/
def State.badMaps (s : State) (c : Ctx) : List Nat :=
  (List.range 12).filterMap fun i =>
    let ok := fun (b : Nat) => b == 255 || (if i < 8 then s.sliceUp b else b < 32 && s.regs.stacksUp.getLsbD b)
    if (List.range 8).all fun j => ok (c.fld (80 + i) (8 * j) 8) then none else some (80 + i)

/-- Every selector that a failing check reports. -/
def State.badRecord (s : State) (c : Ctx) : List Nat :=
  let age := c.fld 1 0 20
  ((List.range 128).filter fun n => c.fld n (ctxReserved n).1 (ctxReserved n).2 != 0) ++
  (if age ≠ 0 ∧ (age < 10 ∨ 1000000 < age) then [1] else []) ++ (if c.fld 3 0 2 ≠ 0 then [3] else []) ++ (if c.evqLog2 < 6 then [5] else []) ++
  (if c.evqVa % 4096 ≠ 0 ∨ c.writable 17 c.evqVa (c.evqVa + 16 * 2 ^ c.evqLog2) = false then [4] else []) ++
  (if c.saveVa % 4096 ≠ 0 ∨ c.writable 17 c.saveVa (c.saveVa + c.saveLen) = false then [8] else []) ++
  (if c.saveLen % 4096 ≠ 0 then [9] else []) ++ ((List.range 16).map (s.badRange c)).flatten ++ s.badMaps c

/-- The 1,024 bytes of a context record in host memory; `none` when the read does not return good data. -/
def State.readCtxRecord (s : State) (a : Nat) : Option (List Byte) :=
  let bad := (List.range 9).any fun i => s.poison.contains (hostPa a / 128 + i) && (hostPa a / 128 + i) * 128 < hostPa a + 1024
  if s.regs.hlRate = 0 ∨ 2 ^ 52 < a + 1024 ∨ bad = true then none else some (Memory.readN s.mem (hostPa a) 1024)

/-! ### Commands (R98 to R101) -/

/-- A command for a context: ignored while another runs (R99). -/
def State.ctxCmd (s : State) (id : Nat) (f : State → State) : State :=
  if Config.contexts ≤ id then s else s.hostWrite fun s => if s.regs.ctxBusy then s else f s

def stOk := 0
def stBadOp := 1
def stBadState := 2
def stBadRec := 3
def stNoSlot := 4

def execCtxCreate (id : Nat) (s : State) : Host.Outcome State Fault Refusal :=
  .next (s.ctxCmd id fun s =>
    let a := s.regs.ctxarg.toNat
    if (s.ctx id).state ≠ .free then s.ctxDone stBadState 0
    else if a % 64 ≠ 0 then s.ctxDone stBadRec 0x80
    else match s.readCtxRecord a with
      | none => s.ctxDone stBadRec 0x81
      | some l =>
        let words : NMap Dword := ((List.range 128).filter fun n => !([6, 7, 10, 11, 12].contains n)).map fun n => (n, .ofNat 64 (bytesAt l (8 * n) 8))
        let c : Ctx := { state := .built, held := false, words := words, fault := none }
        match lowest (s.badRecord c) with
        | some n => s.ctxDone stBadRec n
        | none => (s.setCtx id fun _ => c).ctxDone stOk 0)

def execCtxActivate (id : Nat) (s : State) : Host.Outcome State Fault Refusal :=
  .next (s.ctxCmd id fun s =>
    if (s.ctx id).state ≠ .built then s.ctxDone stBadState 0
    else if Config.activeSlots ≤ (s.ctxs.filter fun e => e.2.held).length then s.ctxDone stNoSlot 0
    else ((s.setCtx id fun c => { c with state := .active, held := true }).ctxOn id).ctxDone stOk 0)

/-- SUSPEND requests every resident workgroup; those that it saves before on the same core count in the latency of the next (R166, R170).  It takes
them by ascending workgroup serial (DESIGN CHOICE, notes/assumptions/66.md). -/
def State.suspendAll (s : State) (id bound : Nat) : State :=
  let ws := s.wgs.keys.filter fun w => (s.wg w).ctx == id && !(s.wg w).ended
  (ws.foldl (fun (r : State × NMap Nat) w =>
    let c := (r.1.wg w).core
    let s1 := r.1.requestPreempt w bound (r.2.getD c 0) true
    let saves := (r.1.wg w).preempt.isNone && (match (s1.wg w).preempt with
      | some p => p.mech == .save
      | none => false)
    (s1, if saves then r.2.update c 0 (· + Region.size (s.krecOf w)) else r.2)) (s, [])).1

def execCtxSuspend (id : Nat) (s : State) : Host.Outcome State Fault Refusal :=
  .next (s.ctxCmd id fun s =>
    if (s.ctx id).state ≠ .active then s.ctxDone stBadState 0
    else
      let s1 := s.suspendAll id (s.regs.ctxarg.toNat % 2 ^ 32 * Config.clkPerUs)
      { s1 with regs := { s1.regs with ctxBusy := true, suspending := some id } })

/-- SUSPEND completes when no workgroup of the context is resident: the context leaves ACTIVE, which is CTX_OFF for its queues (R101, R120). -/
def execCtxSuspendDone (id : Nat) (s : State) : Host.Outcome State Fault Refusal :=
  .next (if s.regs.suspending ≠ some id ∨ (s.wgs.any fun e => e.2.ctx == id) = true then s
    else
      let s1 := ((s.ctxOff id).setCtx id fun c => { c with state := .suspended }).ctxDone stOk 0
      { s1 with regs := { s1.regs with suspending := none } })

def execCtxResume (id : Nat) (s : State) : Host.Outcome State Fault Refusal :=
  .next (s.ctxCmd id fun s =>
    if (s.ctx id).state ≠ .suspended then s.ctxDone stBadState 0
    else ((s.setCtx id fun c => { c with state := .active }).ctxOn id).ctxDone stOk 0)

/-! ### TEARDOWN (R103) -/

/-- Valid entries of a tree node: index and value. -/
def State.entries (s : State) (node n : Nat) : List (Nat × Nat) :=
  (List.range n).filterMap fun i => let e := s.m64 (node + 8 * i); if e % 2 = 1 then some (i, e) else none

/-- Every valid PTE: its address, the first IA of its page, and whether the page is large. -/
def State.allPtes (s : State) : List (Nat × Nat × Bool) :=
  ((s.entries s.rootNode 512).map fun a =>
    ((s.entries (nextNode a.2) 512).map fun b =>
      ((s.entries (nextNode b.2) 128).map fun r =>
        let ia := a.1 * 2 ^ 39 + b.1 * 2 ^ 30 + r.1 * 2 ^ 23
        let large := r.2 / 2 % 2 = 1
        (List.range (if large then 4 else 128)).filterMap fun i =>
          let at_ := leafNode r.2 + 16 * i
          if Pte.valid (s.pte at_) then some (at_, ia + i * (if large then 2 ^ 21 else 2 ^ 16), decide large) else none).flatten).flatten).flatten

/-- Remove the mapping of a page and give its frames back. -/
def State.dropPage (s : State) (e : Nat × Nat × Bool) : State :=
  let p := s.pte e.1
  let s1 := (s.revoke e.2.1).setPte e.1 0
  if Pte.tier p < 2 then s1.adjFrames (poolOf (Pte.tier p) (Pte.frame p)) (frameNo (Pte.tier p) (Pte.frame p)) (pageSpan e.2.2) (-1) else s1

/-- One request of a thread is performed as far as it goes in one step, where it does not wait for the pager. -/
def State.perform (s : State) (w t : Nat) (p : Prod) : State :=
  if p.wait.isSome then s
  else match p.work with
    | .load r got => if r.atHome then s.acquireLoad w t p r got else s.plainLoad w t p r got
    | .atom r a recd => s.serveAtom w t p r a.red recd
    | .ticket r lines try_ _ => (s.ticketAlloc w t p.seq r lines try_).wgRelease w
    | .drop tk => s.dropStep w t p tk
    | _ => s.prodComplete w t p

/-- Step 3: the requests of workgroups that are on their way complete under the mapping as it is, with the drains that these wait for; one that
waits for the pager does not, and is dropped (notes/assumptions/23.md). -/
def State.finishRequests (s : State) (ws : List Nat) : Nat → State
  | 0 => s
  | n + 1 =>
    let reqs := (ws.map fun w => ((s.wg w).threads.map fun e => e.2.prods.map fun p => (w, e.1, p.seq)).flatten).flatten
    let held := (ws.map fun w => ((s.wg w).threads.filter fun e => e.2.hold != .none).map fun e => (w, e.1)).flatten
    let s1 := reqs.foldl (fun s e => ((s.thread e.1 e.2.1).prod? e.2.2).elim s fun p => s.perform e.1 e.2.1 p) s
    let s2 := held.foldl (fun s e => s.settleLeft e.1 e.2) s1
    let drains := (s2.cores.map fun c => (c.2.drains.filter fun d => d.who.any fun x => ws.contains x.1).map fun d => (c.1, d)).flatten
    (drains.foldl (fun s d => s.finishDrain d.2 d.1) s2).finishRequests ws n

/-- The unfinished kernels of a context. -/
def State.openKernels (s : State) (id : Nat) : List Nat := (s.kernels.filter fun e => e.2.ctx == id && !e.2.state.final).map Prod.fst

/-- Nothing of a context's work stays: its workgroups, saved or resident, its commands, its siding entries and what the cores fetched for it. -/
def State.clearWork (s : State) (id : Nat) : State :=
  let s1 := s.cancel fun e => e.ctx == id
  let gone := (s1.wgs.filter fun e => e.2.ctx == id).map Prod.fst
  { s1 with wgs := s1.wgs.filter fun e => e.2.ctx != id,
            saved := s1.saved.filter fun v => v.ctx != id,
            slices := s1.slices.mapVals fun _ n => { n with waiting := n.waiting.filter fun e => !gone.contains e.1 },
            cores := s1.cores.mapVals fun _ c => { c with siding := c.siding.filter fun e => e.ctx != id,
                                                          icache := c.icache.filter fun e => e.1 != id } }

/-- The ends that were under way are made: a kernel that was being stopped ends as its stop says, since its first end is kept (R141), a completion
word that still waits for the pager cannot be written (R139), and a context fault is posted (R102; notes/assumptions/23.md). -/
def State.endOpen (s : State) (id : Nat) : State :=
  let s1 := (s.openKernels id).foldl (fun s h => match (s.kern h).stop with
    | some p => s.kernelEnd h p.state p.cause p.addr false
    | none => s) s
  let s2 := ((s1.kernels.filter fun e => e.2.ctx == id && e.2.donePend).map Prod.fst).foldl (fun s h => s.noWord h) s1
  (s2.faultPosted id).sweepKernels

/-- Steps 2 and 3: the requests in flight complete, the kernels end KILLED with no word, event or signal, but for those whose end was under way, and
nothing of the context's work stays. -/
def State.killCtx (s : State) (id : Nat) : State :=
  let s0 := (s.openKernels id).foldl (fun s h => s.kernelStop h) s
  let ws := (s0.wgs.filter fun e => e.2.ctx == id).map Prod.fst
  let todo := (ws.map fun w => ((s0.wg w).threads.map fun e => e.2.prods.length).foldl (· + ·) 1).foldl (· + ·) 1
  let s1 := s0.finishRequests ws (16 * todo)
  let s2 := ((s1.openKernels id).filter fun h => (s1.kern h).stop.isNone).foldl (fun s h => s.endOne h .killed 0 0 true) s1
  (s2.clearWork id).endOpen id

/-- Step 4: dirty lines that the context wrote go back, past any visitor slice, to their homes. -/
def State.drainHome (s : State) (id : Nat) : State :=
  let ls := (s.cores.map fun c => (c.2.l1.filter fun e => e.2.writers.contains id && e.2.dirty != []).map Prod.fst).flatten
  (dedup ls).foldl (fun s gl => s.homeW gl) (s.drainCtx id)

/-- Release-record slots that cores registered for lines of the context leave. -/
def State.dropRecords (s : State) (id : Nat) : State :=
  let mine := fun (c gl : Nat) => s.owner (128 * gl) == some id || ((s.core c).l1.get? gl).elim false fun l => l.ctx == id
  { s with slices := s.slices.mapVals fun _ n =>
             { n with records := (n.records.mapVals fun gl l => l.filter fun e => !mine e.core gl).filter fun e => e.2 != [] },
           cores := s.cores.mapVals fun c x => { x with l1 := x.l1.mapVals fun gl l => if mine c gl then { l with held := none } else l } }

def State.freeTickets (s : State) (id : Nat) : State :=
  s.slices.foldl (fun s (e : Nat × Slice) => (e.2.tickets.filter fun k => k.2.ctx == id && k.2.state != .free).foldl (fun s (k : Nat × Ticket) =>
    s.freeTicket e.1 k.1) s) s

def State.teardown (s : State) (id : Nat) : State :=
  let s1 := ((s.setCtx id fun c => { c with state := .tornDown }).ctxOff id).ctxEnd id
  let s2 := (((s1.killCtx id).drainHome id).freeTickets id).dropRecords id
  let s3 : State := (s2.allPtes.filter fun e => Pte.ctx (s2.pte e.1) == id).foldl (fun s e => s.dropPage e) s2
  let s4 := { s3 with cores := s3.cores.mapVals fun _ c => { c with grants := c.grants.filter fun g => g.ctx != id } }
  (s4.sweepKernels.setCtx id fun c => { c with state := .tornDown, held := false }).ctxDone stOk 0

/-- TEARDOWN runs from these states. -/
def CState.torn : CState → Bool
  | .built | .active | .suspended | .faulted => true
  | .free | .tornDown => false

def execCtxTeardown (id : Nat) (s : State) : Host.Outcome State Fault Refusal :=
  .next (s.ctxCmd id fun s => if (s.ctx id).state.torn then s.teardown id else s.ctxDone stBadState 0)

def execCtxRelease (id : Nat) (s : State) : Host.Outcome State Fault Refusal :=
  .next (s.ctxCmd id fun s =>
    if (s.ctx id).state ≠ .tornDown then s.ctxDone stBadState 0
    else (s.setCtx id fun _ => .zero).ctxDone stOk 0)

/-- A host write to a word of a context record: to an RW or WO word it acts as `CTX.WR`; to any other it is ignored. -/
def execCtxRecordHostWrite (id sel : Nat) (v : Dword) (s : State) : Host.Outcome State Fault Refusal :=
  .next (if Config.contexts ≤ id then s
    else s.hostWrite fun s => if (s.ctx id).state = .free then s else (s.ctxWrite id sel v).getD s)

end Sys2Proof.Machine
end

