-- ==== Sys2Proof/Machine/DirEv.lean ====
section
/-!
DEFINITION. Events of the interchange directory, and accesses of the host to the device's memory (spec/13_line.md R350 to R358, spec/05_queue.md
R121, spec/19_link.md R507).
-/
namespace Sys2Proof.Machine
open Sys2Proof

/-- An agent can be a visitor of a line (R350, R352): a slice of one homed on another die, or of one in host memory, through a range register of
some context; of one on a peer the slice that such a register's interleave set names (R502); a reachable peer, or the host over CXL, of one of
this device's. -/
def State.visits (s : State) (v gl : Nat) : Bool :=
  (s.lineAddr gl).isSome && s.reachable (128 * gl) && !s.isPoison gl &&
  (if 64 ≤ v then
    v < 80 && peerOf (128 * gl) = 0 && s.tierOf (128 * gl) ≤ 1 && s.sliceUp (s.homeOfLine gl) &&
      (if v = 79 then s.regs.hlCxl else s.routes (v - 63) != [])
   else s.sliceUp v && s.ctxs.any fun e => (List.range 16).any fun m => match e.2.range m with
     | some r =>
       let base := r.peer * 2 ^ 48 + r.ia
       let n := s.home ⟨128 * gl, r.ilv, r.set⟩
       base ≤ 128 * gl && 128 * gl < base + r.size &&
         (if r.peer ≠ 0 then n == v else s.sliceUp n && (dieOfSlice n != dieOfSlice v || s.tierOf (128 * gl) == 2))
     | none => false)

/-- The directory can take a request now: the line has no open transaction and no request that waits, and an entry can be had. -/
def State.dirTakes (s : State) (gl : Nat) : Bool := !(s.dirOf gl).busy && ((s.dirOf gl).state != .i || (s.allocDir gl).isSome)

/-- A request reaches its half: it is taken in its turn, or waits in the queue; its sender tries again 64 clk after it found the queue full
(R354). -/
def State.dirAsk (s : State) (q : DirReq) : State :=
  if !s.visits q.slice q.line then s
  else if s.dirTakes q.line && !s.dirQueue.any (·.line == q.line) then s.dirServe q
  else if (s.dirQueue.filter fun r => r.line % 2 == q.line % 2).length < Config.dirQueue then { s with dirQueue := s.dirQueue ++ [q] }
  else { s with dirRetry := s.dirRetry ++ [(q, s.clk + 64)] }

/-- The requests that try again now (R354). -/
def State.dirRetries (s : State) : State :=
  let due := s.dirRetry.filter fun e => e.2 ≤ s.clk
  due.foldl (fun s e => s.dirAsk e.1) { s with dirRetry := s.dirRetry.filter fun e => s.clk < e.2 }

/-- A request of a peer's agent wakes the device (R511). -/
def State.peerWakes (s : State) (agent : Nat) : State := if 64 ≤ agent ∧ agent < 79 then s.wakeUp else s

def execDirRd (slice line : Nat) (s : State) : Host.Outcome State Fault Refusal := .next ((s.peerWakes slice).dirAsk ⟨false, slice, line⟩)

def execDirRdx (slice line : Nat) (s : State) : Host.Outcome State Fault Refusal := .next ((s.peerWakes slice).dirAsk ⟨true, slice, line⟩)

/-- A dirty copy first leaves the visitor ways for the write-back buffer, and then passes the directory (R357). -/
def execDirWb (slice line : Nat) (s : State) : Host.Outcome State Fault Refusal :=
  .next (match (s.slice slice).visitors.get? line with
    | some v => if v.dirty then s.setSlice slice fun x => { x with visitors := x.visitors.erase line, wbuf := x.wbuf.set line v } else s
    | none => if (s.slice slice).wbuf.has line then s.dirWbOp slice line else s)

def execDirDrop (slice line : Nat) (s : State) : Host.Outcome State Fault Refusal := .next (s.dirDropOp slice line)

def execDirHomeR (line : Nat) (s : State) : Host.Outcome State Fault Refusal := .next (s.homeR line)

def execDirHomeW (line : Nat) (s : State) : Host.Outcome State Fault Refusal := .next (s.homeW line)

/-- The open transactions of a half complete, and the first of its queued requests that can be taken is taken. -/
def execDirQueueRetry (half : Nat) (s : State) : Host.Outcome State Fault Refusal :=
  .next (
    let s1 := ((s.dir.filter fun e => e.1 % 2 == half && e.2.busy).map Prod.fst).foldl State.dirClose s
    match s1.dirQueue.find? fun q => q.line % 2 == half && s1.dirTakes q.line with
    | none => s1
    | some q => { s1 with dirQueue := s1.dirQueue.erase q }.dirServe q)

/-! ### Host accesses -/

/-- The parts of a range of IAs by line: first byte, offset, length. -/
def iaPieces (ia n : Nat) : List (Nat × Nat × Nat) :=
  (List.range (if n = 0 then 0 else (ia + n - 1) / 128 + 1 - ia / 128)).map fun i =>
    let lo := max ia ((ia / 128 + i) * 128)
    let hi := min (ia + n) ((ia / 128 + i + 1) * 128)
    (lo, lo - ia, hi - lo)

/-- The home of a line answers agents outside the device: it is in service, the page is mapped, and its memory can be reached. -/
def State.answers (s : State) (a : GAddr) : Bool := s.sliceUp (s.home a) && (s.phys a.gia).isSome && s.reachable a.gia

/-- A home-side read of an outside agent (R351). -/
def State.outsideRead (s : State) (ia n ilv set : Nat) : State :=
  (iaPieces ia n).foldl (fun s p => let a : GAddr := ⟨p.1, ilv, set⟩; if s.answers a then (s.readHome a).countPte p.1 80 else s) s

/-- A home-side write of an outside agent; it does not clear a poisoned line (R361). -/
def State.outsideWrite (s : State) (ia : Nat) (bytes : List Byte) (ilv set : Nat) : State :=
  (iaPieces ia bytes.length).foldl (fun s p =>
    let a : GAddr := ⟨p.1, ilv, set⟩
    if s.answers a then
      ((s.writeHome a).putHome (lineOf p.1) none
        ((List.range p.2.2).map fun i => (p.1 % 128 + i, bytes.getD (p.2.1 + i) 0))).countPte p.1 80
    else s) s

/-- What a host read of device memory answers: for each line its bytes, or `none`, CXL poison, where the line is poisoned (R507); zeros where
nothing answers (DESIGN CHOICE, notes/assumptions/46.md).  The state is the one after the read. -/
def State.memRead (s : State) (ia n ilv set : Nat) : List (Option (List Byte)) :=
  (iaPieces ia n).map fun p =>
    if !s.answers ⟨p.1, ilv, set⟩ then some (List.replicate p.2.2 0)
    else if s.isPoison (lineOf p.1) then none
    else some (((s.homeLine (lineOf p.1)).drop (p.1 % 128)).take p.2.2)

/-- What a host read of the launch window's range answers: the slots' contents, and zeros beyond the first 4 MiB (R121). -/
def State.windowRead (s : State) (off n : Nat) : List Byte :=
  (List.range n).map fun i => if off + i < 2 ^ 22 then Memory.read s.mem (windowPa 0 0 + off + i) else 0

/-- A host write to that range: stored in the window, which wakes the device, and ignored beyond it (R121, R511). -/
def State.windowWrite (s : State) (off : Nat) (bytes : List Byte) : State :=
  let l := bytes.take (2 ^ 22 - off)
  if l = [] then s else { s.wakeUp with mem := Memory.writeN s.mem (windowPa 0 0 + off) l }

/-- A host access arrives over CXL.mem: at the launch window, or at the home of a line.  A read of the window changes nothing. -/
def execHostDeviceAccess (a : HostAddr) (o : HostAcc) (s : State) : Host.Outcome State Fault Refusal :=
  .next (if !s.regs.hlCxl || s.inRecovery then s
    else match a, o with
    | .window off, .write bytes => s.windowWrite off bytes
    | .window _, .read _ => s
    | .mem ia ilv set, .write bytes => s.outsideWrite ia bytes ilv set
    | .mem ia ilv set, .read n => s.outsideRead ia n ilv set)

end Sys2Proof.Machine
end

