-- ==== Sys2Proof/Machine/LinkEv.lean ====
section
/-!
DEFINITION. The links (spec/19_link.md R496 to R508): states of a Skoen link, frames and recalibration, requests of a peer, and the host link.
-/
namespace Sys2Proof.Machine
open Sys2Proof

/-! ### Commands (R499, R500) -/

/-- Error codes of `lsts.err`. -/
def lnkOk := 0
def lnkBadOp := 1
def lnkBadState := 2
def lnkBadCfg := 3

/-- A command runs on a link of the device, unless the fixed loader runs (R520). -/
def State.linkCmd (s : State) (n : Nat) (f : Link → Link) : State := if 12 ≤ n then s else s.hostWrite fun s => s.setLink n f

def Link.train (l : Link) : Link :=
  match l.state with
  | .down => if l.peer = 0 || l.res ≠ 0 then { l with err := lnkBadCfg } else { l with state := .training, err := lnkOk }
  | .failed => if l.res ≠ 0 then { l with err := lnkBadCfg } else { l with state := .training, err := lnkOk }
  | .training | .up | .degraded | .retiring => { l with err := lnkBadState }

def Link.retire (l : Link) : Link :=
  match l.state with
  | .training => { l with state := .down, err := lnkOk }
  | .up | .degraded => { l with state := .retiring, err := lnkOk }
  | .retiring => { l with err := lnkOk }
  | .down | .failed => { l with err := lnkBadState }

def Link.reset (l : Link) : Link :=
  match l.state with
  | .down => { l with err := lnkOk }
  | .training => { l with state := .down, err := lnkOk }
  | .failed => { l with state := .down, lanes := 0, err := lnkOk }
  | .up | .degraded | .retiring => { l with err := lnkBadState }

def execLinkTrain (n : Nat) (s : State) : Host.Outcome State Fault Refusal := .next (s.linkCmd n Link.train)
def execLinkRetire (n : Nat) (s : State) : Host.Outcome State Fault Refusal := .next (s.linkCmd n Link.retire)
def execLinkReset (n : Nat) (s : State) : Host.Outcome State Fault Refusal := .next (s.linkCmd n Link.reset)

/-! ### Training, loss and retirement -/

/-- The interchange die that carries a link (R20). -/
def linkDie (n : Nat) : Nat := n / 6

def State.icUp (s : State) (i : Nat) : Bool := i < 2 && s.regs.icUp.getLsbD i

/-- Lanes that are good. -/
def goodLanes (b : BitVec 8) : Nat := ((List.range 8).filter fun i => b.getLsbD i).length

/-- The lanes that run: all 8 in UP, and the four lowest-numbered good ones in DEGRADED; the other good ones are spares (R498). -/
def Link.running (l : Link) : List Nat :=
  let good := (List.range 8).filter fun i => l.lanes.getLsbD i
  match l.state with
  | .degraded => good.take 4
  | .up => good
  | _ => []
def Link.spares (l : Link) : List Nat := ((List.range 8).filter fun i => l.lanes.getLsbD i).filter fun i => !l.running.contains i

/-- A link starts to carry frames. -/
def Link.starts (l : Link) (st : LState) (lanes : BitVec 8) : Link :=
  { l with state := st, lanes := lanes, rxSeq := 0, replayRun := 0, txSeq := 0, txBuf := [], txRun := 0, opn := [] }

def execUpOk (n : Nat) (s : State) : Host.Outcome State Fault Refusal :=
  .next (if 12 ≤ n || (s.link n).state ≠ .training || !s.icUp (linkDie n) then s
    else s.setLink n fun l => l.starts .up 0xFF)

def execUpHalf (n : Nat) (lanes : BitVec 8) (s : State) : Host.Outcome State Fault Refusal :=
  .next (if 12 ≤ n || (s.link n).state ≠ .training || !s.icUp (linkDie n) || goodLanes lanes < 4 || goodLanes lanes = 8 then s
    else s.setLink n fun l => l.starts .degraded lanes)

/-- Peer p is lost (R504): the directory raises LOSS for it, and copies of its lines are dropped, a modified one being poisoned at the peer's
home (R360, R505); its requests at the directory go with it, and so do the grants of pages that it holds, so that new stores there are
unresolvable. -/
def State.peerLost (s : State) (p : Nat) : State :=
  let theirs := fun (g : Grant) => (s.peerHome (g.page / 128)).any fun e => e.1 == p
  let s0 : State :=
    { s with dirQueue := s.dirQueue.filter fun q => q.slice != 63 + p
             dirRetry := s.dirRetry.filter fun q => q.1.slice != 63 + p
             cores := s.cores.mapVals fun _ c => { c with grants := c.grants.filter fun g => !theirs g } }
  let s1 := (s0.dir.map Prod.fst).foldl (fun s gl =>
    if peerOf (128 * gl) = p then
      let s := s.dirClose gl
      let e := s.dirOf gl
      let s1 := if e.state = .e || e.state = .m || e.state = .o then s.setPoison gl true else s
      (s1.invalidate gl none).freeDir gl
    else s.dirLoss (.peer p) gl) s0
  s1.health .peer

/-- Frames leave this side: they stay in the replay buffer of 64 until the peer acknowledges them (R497). -/
def Link.send (l : Link) : Nat → Link
  | 0 => l
  | n + 1 => if 64 ≤ l.txBuf.length then l else { l with txBuf := l.txBuf ++ [l.txSeq], txSeq := (l.txSeq + 1) % 4096 }.send n

/-- Move (R500, R503): every request that has not been answered on a link is sent again, with its identifier, on the link that its IA now
names. -/
def State.moveOpen (s : State) (l : List (Nat × Nat × Nat)) : State :=
  l.foldl (fun s e => match s.routeOf e.2.1 e.2.2 with
    | none => s
    | some k => s.setLink k fun x => ({ x with opn := x.opn ++ [e] } : Link).send 1) s

/-- A link fails with the lanes that are still good: it leaves its route set, and its requests move; with the last link of the set its peer is
lost. -/
def State.linkDead (s : State) (n : Nat) (lanes : BitVec 8) : State :=
  let l := s.link n
  let p := l.peer.toNat
  let s1 := s.setLink n fun l => { l with state := .failed, lanes := lanes, txBuf := [], txRun := 0, opn := [] }
  if p = 0 then s1 else if s1.routes p = [] then s1.peerLost p else s1.moveOpen l.opn

/-- Lanes that are dropped count in `lsts.losses` (R499). -/
def Link.drop (l : Link) (bad : BitVec 8) : Link := { l with losses := min (l.losses + goodLanes (l.lanes &&& bad)) 65535 }

/-- FAIL, with its source. -/
def State.linkFails (s : State) (n : Nat) (why : LinkWhy) : State :=
  let l := s.link n
  match why, l.state with
  | .noPartner, .training => s.setLink n fun l => { l with state := .failed, err := 4 }
  | .fewLanes lanes, .training => if goodLanes lanes < 4 then s.setLink n fun l => { l with state := .failed, lanes := lanes, err := 5 } else s
  | .peerClash, .training =>
    if (List.range 12).any fun k => k != n && (s.link k).peer == l.peer then s.setLink n fun l => { l with state := .failed, err := 6 } else s
  | .lost lanes, .up | .lost lanes, .degraded | .lost lanes, .retiring =>
    if goodLanes lanes < 4 then (s.setLink n (Link.drop · (~~~lanes))).linkDead n lanes else s
  | _, _ => s

def execLinkFail (n : Nat) (why : LinkWhy) (s : State) : Host.Outcome State Fault Refusal :=
  .next (if 12 ≤ n then s else s.linkFails n why)

/-- A retiring link has no request of either side that is unanswered; for the last link to a peer, none of the peer waits at the directory. -/
def State.linkQuiet (s : State) (n : Nat) : Bool :=
  let l := s.link n
  let p := l.peer.toNat
  l.state == .retiring && l.txBuf == [] && l.opn == [] &&
    (s.routes p != [] || !(s.dirQueue.any (·.slice == 63 + p) || s.dirRetry.any (·.1.slice == 63 + p)))

/-- A retiring link on which nothing is unanswered goes DOWN; for the last link to a peer, the entries of the peer are evicted first, and no line of
it is kept (R501). -/
def execLinkQuiet (n : Nat) (s : State) : Host.Outcome State Fault Refusal :=
  .next (if 12 ≤ n || !s.linkQuiet n then s
    else
      let p := (s.link n).peer.toNat
      let s1 := if s.routes p = [] then
          (s.dir.map Prod.fst).foldl (fun s gl =>
            if peerOf (128 * gl) = p || (s.dirOf gl).peers.contains p || (s.dirOf gl).owner = some (.peer p) then s.evictDir gl else s) s
        else s
      s1.setLink n fun l => { l with state := .down })

/-! ### Frames (R497, R498) -/

/-- The link carries frames. -/
def LState.carries (l : LState) : Bool := l == .up || l == .degraded || l == .retiring

def Link.oneReplay (l : Link) : Link := { l with replays := min (l.replays + 1) 65535 }

/-- The sending side: the frames before the one that the peer names leave the buffer; when it refuses that one, the frames from it on are sent
again, which is one replay. -/
def Link.acked (l : Link) (ack : Nat) (nak : Bool) : Link :=
  let left := if l.txBuf.contains ack then l.txBuf.dropWhile (· != ack) else if ack = l.txSeq then [] else l.txBuf
  let l1 := { l with txBuf := left, txRun := if left.head? = l.txBuf.head? then l.txRun else 0 }
  if nak && left.head? = some ack then { l1.oneReplay with txRun := l1.txRun + 1 } else l1

/-- The receiving side: a frame in its turn is delivered, or refused, so that the peer replays it; one delivered before is dropped. -/
def Link.received (l : Link) (seq : Nat) (good : Bool) : Link :=
  if seq ≠ l.rxSeq then l
  else if good then { l with rxSeq := (l.rxSeq + 1) % 4096, replayRun := 0 }
  else { l.oneReplay with replayRun := l.replayRun + 1 }

/-- The peer has answered requests, and they are open no longer (R503). -/
def Link.answered (l : Link) (ids : List Nat) : Link := { l with opn := l.opn.filter fun e => !ids.contains e.1 }

/-- A frame arrives, with what its control slot says of the other direction when it can be read. -/
def execSkoenFrameReceive (n : Nat) (frame : FrameIn) (good : Bool) (s : State) : Host.Outcome State Fault Refusal :=
  .next (if 12 ≤ n || !(s.link n).state.carries then s
    else s.setLink n fun l =>
      let l1 := (l.send frame.sent).received frame.seq good
      if good then (l1.acked frame.ack frame.nak).answered (if frame.seq = l.rxSeq then frame.answered else []) else l1)

/-- After 16 replays of one frame the bad lanes are dropped; with fewer than 4 left the link fails. -/
def execLinkRecalibrate (n : Nat) (bad : BitVec 8) (s : State) : Host.Outcome State Fault Refusal :=
  .next (let l := s.link n
    if 12 ≤ n || !l.state.carries || (l.replayRun < 16 && l.txRun < 16) then s
    else
      let left := l.lanes &&& ~~~bad
      let s1 := s.setLink n fun l =>
        { l.drop bad with lanes := left, replayRun := 0, txRun := 0,
                          state := if l.state = .up && goodLanes (l.lanes &&& bad) ≠ 0 then .degraded else l.state }
      if goodLanes left < 4 then s1.linkDead n left else s1)

/-! ### Requests of a peer (R502, R503) -/

/-- The response of a peer's request, and the state after it: a request is performed at this device's home by the set-0 rule.  Zeros answer for
bytes that no home answers for, and nothing answers an atomic that cannot be performed (DESIGN CHOICE, notes/assumptions/46.md). -/
def State.peerDo (s : State) (o : PeerOp) : State × List Byte :=
  let bytes := fun (s : State) (ia n : Nat) => ((iaPieces ia n).map fun p =>
    if s.answers ⟨p.1, 0, 0⟩ then ((s.homeLine (lineOf p.1)).drop (p.1 % 128)).take p.2.2 else List.replicate p.2.2 0).flatten
  let update := fun (ia n : Nat) (f : Nat → Nat) =>
    if ia % n ≠ 0 || s.isPoison (lineOf ia) then (s, [])
    else
      let s1 := s.outsideRead ia n 0 0
      let old := bytes s1 ia n
      (s1.outsideWrite ia (bytesOf (f (ofBytes old)) n) 0 0, old)
  match o with
  | .read ia n => let s1 := s.outsideRead ia n 0 0; (s1, bytes s1 ia n)
  | .write ia b => (s.outsideWrite ia b 0 0, [])
  | .atom ia op sz data =>
    let n := nBytes sz
    update ia n fun m => atomNew op (8 * n) m (data.toNat % (if op = .mask then 2 ^ 64 else 2 ^ (8 * n)))
  | .cas ia sz new cmp => update ia (nBytes sz) fun m => if m = cmp.toNat % 2 ^ (8 * nBytes sz) then new.toNat % 2 ^ (8 * nBytes sz) else m
  | .ack => (s, [])

/-- A request is performed once; one that is sent again gets the response that was kept, until the peer acknowledges it (R503).  It wakes the
device. -/
def execPeerRequest (p txn : Nat) (o : PeerOp) (s : State) : Host.Outcome State Fault Refusal :=
  .next (if s.inRecovery || s.routes p = [] then s
    else if o = .ack then { s.wakeUp with peerDone := s.peerDone.filter fun e => !(e.1 == p && e.2.1 == txn) }
    else if s.peerDone.any fun e => e.1 == p && e.2.1 == txn then s.wakeUp
    else let (s1, r) := s.wakeUp.peerDo o; { s1 with peerDone := s1.peerDone ++ [(p, txn, r)] })

/-! ### The host link (R506, R507) -/

/-- The widths that PCI Express trains to (R506). -/
def linkWidths : List Nat := [1, 2, 4, 8, 16]

/-- The host link trains to a rate and a width; CXL runs at 32 and 64 GT/s, and not under the fixed loader. -/
def execHostLinkUp (rate width : Nat) (s : State) : Host.Outcome State Fault Refusal :=
  .next (if rate = 0 || 6 < rate || !linkWidths.contains width || !s.icUp 0 then s
    else { s with regs := { s.regs with hlRate := rate, hlWidth := width, hlCxl := 5 ≤ rate && !s.inRecovery } })

/-- Surprise link-down raises LOSS for the host. -/
def State.hostDown (s : State) : State :=
  let s1 := { s with regs := { s.regs with hlRate := 0, hlWidth := 0, hlCxl := false } }
  (s.dir.map Prod.fst).foldl (fun s gl => s.dirLoss .host gl) s1

def execHostLinkDown (s : State) : Host.Outcome State Fault Refusal := .next s.hostDown

/-- The device's CXL.cache state for a line of host memory, as the directory answers a snoop with it (R352). -/
def State.cacheState (s : State) (gl : Nat) : DState :=
  match (s.dirOf gl).state with
  | .o => .m
  | st => st

/-- The host snoops a line of its memory that the device holds (R352, R355): dirty data goes home; the device keeps a clean copy, or none when the
host asks for the line for itself. -/
def execHostSnoop (snoop : Snoop) (s : State) : Host.Outcome State Fault Refusal :=
  .next (match s.lineAddr snoop.line with
    | some pa =>
      if s.regs.hlCxl && hostPa 0 ≤ pa && pa < peerPa 1 0 then (if snoop.excl then s.homeW snoop.line else s.homeR snoop.line) else s
    | none => s)

end Sys2Proof.Machine
end

