-- ==== Sys2Proof/Machine/Units.lean ====
section
/-!
DEFINITION. Units that leave service (spec/01_module.md R28 and R29, spec/13_line.md R359 and R360, spec/17_page.md R447): stacks, compute dies,
interchange dies, pseudo-channels (R465) and capacity ports (R508).
-/
namespace Sys2Proof.Machine
open Sys2Proof

/-! ### Events for the contexts (R110) -/

/-- UNIT_LOST to every context whose maps name a unit. -/
def State.postLost (s : State) (slices : List Nat) (stack : Option Nat) : State :=
  let names := fun (c : Ctx) =>
    ((List.range 64).any fun n => slices.contains (c.fld (80 + n / 8) (8 * (n % 8)) 8)) ||
    ((List.range 32).any fun n => some (c.fld (88 + n / 8) (8 * (n % 8)) 8) == stack)
  (s.ctxs.filter fun e => e.2.state != .free && names e.2).foldl (fun s (e : Nat × Ctx) => s.post e.1 6 (s.modcap5 % 2 ^ 43) 0) s

/-! ### A slice leaves service -/

/-- The directory loses a slice; lines homed on it are not poisoned, and their visitor copies go (R360). -/
def State.dirSliceLost (s : State) (n : Nat) : State :=
  (s.dir.map Prod.fst).foldl (fun s gl =>
    if peerOf (128 * gl) = 0 ∧ (s.dirOf gl).home = n then ((s.dirClose gl).invalidate gl none).freeDir gl else s.dirLoss (.slice n) gl) s

/-- Redeems that the slice had accepted end as LOST (R301, R305, R306). -/
def State.redeemsLost (s : State) (n : Nat) : State :=
  let s1 := s.wgs.foldl (fun s (e : Nat × Wg) => e.2.live.foldl (fun s t =>
    match (s.thread e.1 t).hold with
    | .redeem r =>
      if r.acc ∧ r.rds = none ∧ Tkt.slice r.tkt = n then s.rdvEnd e.1 t r ⟨0, false, some (Cause.tkt, 5, r.tkt.toNat)⟩ else s
    | _ => s) s) s
  (s.slice n).tickets.foldl (fun s (k : Nat × Ticket) => match k.2.state, k.2.byCmd with
    | .redeeming, some (c, id) => s.setCmd c id fun d => { d with moved := true, cause := 0x25, info := 0 }
    | _, _ => s) s1

/-- The slice's tables cease to exist, and what waited on them goes on. -/
def State.sliceLost (s : State) (n : Nat) : State :=
  let s1 := (s.dirSliceLost n).redeemsLost n
  let x := s1.slice n
  let s2 := x.waiting.foldl (fun s (e : Nat × Nat × Nat) => s.ticketAnswer e.1 e.2.1 e.2.2 0 false) s1
  let s3 := x.monitors.foldl (fun s (e : Nat × List (Nat × Nat)) => s.wake e.1) s2
  let s4 := (s3.waiters fun p => x.misses.any fun m => m.page == p).foldl State.freeWaiter s3
  { s4 with slices := s4.slices.erase n,
            cores := s4.cores.mapVals fun _ c =>
              { c with drains := c.drains.filter (fun d => d.slice != n),
                       l1 := c.l1.mapVals fun gl l => if s4.home ⟨128 * gl, l.ilv, l.set⟩ = n then { l with held := none } else l } }

/-! ### Stacks and compute dies -/

def State.loseStack (s : State) (k : Nat) : State :=
  if 32 ≤ k || !s.regs.stacksUp.getLsbD k then s
  else
    let s1 := { s with regs := { s.regs with stacksUp := setBit s.regs.stacksUp k false } }.setPool k fun p => { p with up := false }
    (([2 * k, 2 * k + 1].foldl State.sliceLost s1).postLost [2 * k, 2 * k + 1] (some k)).health .unit

/-- A core whose die is gone: its counters stay (R467). -/
def Core.lost (c : Core) : Core := { Core.zero with perf := c.perf, dlmT := c.dlmT, dlmX := c.dlmX, dlmM := c.dlmM }

/-- A compute die leaves service (R29): its cores' contents are lost, kernels with a workgroup there fault with 0x94, and its slices go.  The bits
of its four stacks in `MODCAP5` and their pools stay as they are (DESIGN CHOICE, notes/assumptions/46.md). -/
def State.loseDie (s : State) (d : Nat) : State :=
  if !s.dieUp d then s
  else
    let on := fun (c : Nat) => dieOfCore c == d
    let hit := dedup (((s.wgs.filter fun e => on e.2.core && !e.2.ended).map fun e => e.2.kernel) ++
      ((s.saved.filter fun v => on v.core).map fun v => v.kernel))
    let s1 := { s with regs := { s.regs with diesUp := setBit s.regs.diesUp d false } }.cancel fun c => on (c.id % 256)
    let s2 := { s1 with cores := s1.cores.mapVals fun c x => if on c then x.lost else x }
    let s3 := hit.foldl (fun s h => s.kernelFault h 0x94 0) s2
    let s4 := { s3 with
      wgs := s3.wgs.filter fun e => !on e.2.core
      slices := s3.slices.mapVals fun _ x =>
        { x with records := (x.records.mapVals fun _ l => l.filter fun e => !on e.core).filter fun e => e.2 != [] } }
    let sl := (List.range 8).map fun i => 8 * d + i
    ((sl.foldl State.sliceLost s4).postLost sl none).health .unit

def execComputeDieLoss (die : Nat) (s : State) : Host.Outcome State Fault Refusal := .next (s.loseDie die)

/-! ### Interchange dies (R359) -/

/-- The lost half is recalled from every agent; the surviving half keeps its entries, and the versions of its ways move to the sets that it now
serves both halves with. -/
def State.mergeHalves (s : State) (lost : Nat) : State :=
  let held := (s.slices.map fun e => e.2.visitors.keys ++ e.2.wbuf.keys).flatten
  let s1 := (dedup ((s.dir.map Prod.fst ++ held).filter fun gl => gl % 2 == lost)).foldl (fun s gl => s.recallAll gl) s
  { s1 with regs := { s1.regs with degraded := true },
            dirVers := (s1.dirVers.filter fun e => e.1 / 16 % 2 != lost).map fun e => (16 * (e.1 / 32) + e.1 % 16, e.2) }

/-- Capacity port p goes down: accesses to its frames are not performed. -/
def State.portDown (s : State) (p : Nat) : State := if 2 ≤ p then s else s.setPool (32 + p) fun x => { x with up := false }

def execCapacityPortDown (port : Nat) (s : State) : Host.Outcome State Fault Refusal := .next (s.portDown port)

/-- An interchange die leaves service.  After the second one the directory goes on serving cross-die requests (DESIGN CHOICE,
notes/assumptions/46.md). -/
def State.loseInterchange (s : State) (i : Nat) : State :=
  if !s.icUp i then s
  else
    let s1 := { s with regs := { s.regs with icUp := setBit s.regs.icUp i false } }
    let s2 := if s1.icUp (1 - i) then s1.mergeHalves i else s1
    let s3 := ((List.range 12).filter fun n => linkDie n == i).foldl (fun s n =>
      if (s.link n).state = .training then s.linkFails n .noPartner
      else if (s.link n).state.carries then s.linkDead n 0 else s) s2
    let s4 := if i = 0 then s3.hostDown else s3
    (s4.portDown i).health .unit

def execInterchangeDieLoss (ic : Nat) (s : State) : Host.Outcome State Fault Refusal := .next (s.loseInterchange ic)

def execUnitFailure (u : UnitId) (s : State) : Host.Outcome State Fault Refusal :=
  .next (match u with
    | .stack n => s.loseStack n
    | .die n => s.loseDie n
    | .interchange n => s.loseInterchange n)

/-! ### Moving a frame (R463, R465, R512) -/

/-- PTEs that name a frame of a pool, alone or in a run. -/
def State.usersOf (s : State) (pool f : Nat) : List (Nat × Nat × Bool) :=
  s.allPtes.filter fun e =>
    let p := s.pte e.1
    let g := frameNo (Pte.tier p) (Pte.frame p)
    Pte.tier p < 2 && poolOf (Pte.tier p) (Pte.frame p) == pool && g ≤ f && f < g + pageSpan e.2.2

/-- Every tree entry that names a node in a frame is rewritten to the node's new place. -/
def State.moveNode (s : State) (old new : Nat) : State :=
  let mids := (s.entries s.rootNode 512).map fun a => (s.rootNode + 8 * a.1, a.2, nextNode a.2)
  let dirs := (mids.map fun m => (s.entries m.2.2 512).map fun b => (m.2.2 + 8 * b.1, b.2, nextNode b.2)).flatten
  let leaves := (dirs.map fun d => (s.entries d.2.2 128).map fun r => (d.2.2 + 8 * r.1, r.2, leafNode r.2)).flatten
  let fix := (mids ++ dirs ++ leaves).filter fun x => old ≤ x.2.2 && x.2.2 < old + 65536
  let s1 := fix.foldl (fun s x => { s with mem := Memory.writeLE s.mem x.1 8 (x.2.1 - old + new) }) s
  { s1 with mem := Memory.move s1.mem old new 65536 }

/-- Frame f of a pool, or the run of a large page that it lies in, moves to a pool; every entry that names it follows, and so do the counts.
`none` when the pool has no room. Frames whose number `gone` holds are not given back to their free list. -/
def State.moveFrame (s : State) (pool f into : Nat) (gone : Nat → Bool) : Option State :=
  let p := s.pool pool
  let users := s.usersOf pool f
  let large := users.any fun e => e.2.2
  let b := if large then f / 32 * 32 else f
  let n := pageSpan large
  if !(s.pool into).up then none
  else if p.isTable f then
    (s.popFrame into).map fun e =>
      let s1 := (e.2.moveNode (framePa pool f) (framePa into e.1)).setPool into fun q => q.setEntry e.1 (p.count f) true false
      s1.setPool pool fun q => let q1 := q.setEntry f 0 false (q.isRetired f); if gone f then q1 else q1.push f
  else
    (if large then s.popRun into else s.popFrame into).map fun e =>
      let s1 := users.foldl (fun s u => s.repage u.2.1 u.1 u.2.2 into e.1) (e.2.copyFrames (framePa pool b) (framePa into e.1) (65536 * n))
      (List.range n).foldl (fun s i =>
        let s2 := s.setPool into fun q => q.setEntry (e.1 + i) (p.count (b + i)) false false
        s2.setPool pool fun q =>
          let q1 := q.setEntry (b + i) 0 false (q.isRetired (b + i)); if gone (b + i) || p.isRetired (b + i) then q1 else q1.push (b + i)) s1

/-! ### Retirement of a pseudo-channel (R465) -/

/-- Frames of a pool in use, as its table has them. -/
def Pool.inUse (p : Pool) (q : Nat → Bool) : List Nat :=
  (p.table.filter fun e => e.2.toNat % 65536 != 0 && p.reserved ≤ e.1 && q e.1).map Prod.fst

/-- The frames of a channel leave a pool: its free ones, and those in use as far as free frames are left. -/
def State.retireFrames (s : State) (k ch : Nat) : State :=
  let mine := fun (f : Nat) => f % 96 == ch
  let p := s.pool k
  let all := (List.range ((p.size + 95) / 96)).map fun i => 96 * i + ch
  let free := all.filter p.isFree
  let s1 := s.setPool k fun p => free.foldl (fun (p : Pool) f => (p.remove f 1).setEntry f 0 false true) p
  let s2 := (p.inUse mine).foldl (fun s f =>
    if (s.pool k).count f = 0 then s
    else match s.moveFrame k f k mine with
      | some t => t.setPool k fun p => p.setEntry f 0 false true
      | none => s) s1
  let n := ((s2.pool k).table.filter fun e => mine e.1 && e.2.getLsbD 17).length
  s2.setPool k fun p => { p with frames := p.frames - n }

def execChannelRetire (stack ch : Nat) (s : State) : Host.Outcome State Fault Refusal :=
  .next (if s.inRecovery || 32 ≤ stack || 96 ≤ ch || !s.regs.stacksUp.getLsbD stack || (s.arch.maps.getD (16 * stack) []).contains ch then s
    else
      let s1 := s.retireFrames stack ch
      let maps := (List.range 16).foldl (fun m i => NMap.update m (16 * stack + i) [] fun l => l ++ [ch]) s1.arch.maps
      { s1 with arch := { s1.arch with retired := min (s1.arch.retired + 1) (2 ^ 64 - 1), maps := maps } }.health .channel)

end Sys2Proof.Machine
end

