-- ==== Sys2Proof/Machine/PowerEv.lean ====
section
/-!
DEFINITION. Reset of the device, power states (spec/20_power.md R509 to R512), thermal thresholds (R513), the archive (R515) and firmware
(R516 to R520).
-/
namespace Sys2Proof.Machine
open Sys2Proof

/-! ### Firmware (R517 to R519) -/

/-- One step of CRC-32 as IEEE 802.3 has it, lowest bit first. -/
def crcBit (c : BitVec 32) : BitVec 32 := if c.getLsbD 0 then (c >>> 1) ^^^ 0xEDB88320 else c >>> 1
def crcByte (c : BitVec 32) (b : Byte) : BitVec 32 := (List.range 8).foldl (fun c _ => crcBit c) (c ^^^ b.zeroExtend 32)

/-- CRC-32 of bytes. -/
def crc32 (l : List Byte) : BitVec 32 := ~~~(l.foldl crcByte 0xFFFFFFFF)

/-- The image's length as the registers give it, and whether `FWADDR` and `FWLEN` are in range (notes/assumptions/11.md). -/
def Firmware.bytes (f : Firmware) : Nat := f.len.toNat % 2 ^ 32
def Firmware.argsOk (f : Firmware) : Bool :=
  f.addr.toNat % 4096 == 0 && f.len.toNat < 2 ^ 32 && f.bytes % 4096 == 0 && 4096 ≤ f.bytes && f.bytes ≤ 67108864

/-- The image in host memory. -/
def State.imageBytes (s : State) : List Byte := Memory.readN s.mem (hostPa s.fw.addr.toNat) s.fw.bytes

/-- The image passes the check of R518. -/
def State.imageGood (s : State) : Bool :=
  let l := s.imageBytes
  s.fw.argsOk && bytesAt l 0 4 == 0x4D524946 && bytesAt l 4 4 != 0 && bytesAt l 8 4 == s.fw.bytes && (crc32 (l.drop 64)).toNat == bytesAt l 12 4 &&
  bytesAt l 16 48 == 0

/-- The host link delivers the image. -/
def State.imageReadable (s : State) : Bool :=
  s.regs.hlRate != 0 && s.fw.addr.toNat + s.fw.bytes ≤ 2 ^ 52 &&
  !(s.poison.any fun l => hostPa s.fw.addr.toNat ≤ 128 * l && 128 * l < hostPa s.fw.addr.toNat + s.fw.bytes)

/-- A host write to a register of R517, which answers in every state. -/
def State.fwWrite (s : State) (f : Firmware → Firmware) : State := let s1 := s.wakeUp; { s1 with fw := f s1.fw }

def fwOk := 0
def fwBadOp := 1
def fwBadState := 2

def execFwInstall (s : State) : Host.Outcome State Fault Refusal :=
  .next (s.fwWrite fun f => match f.state with
    | .installing => { f with status := fwBadState }
    | .running =>
      if s.ctxs.any fun e => e.2.state != .free then { f with status := fwBadState }
      else { f with state := .installing, began := .running, busy := true }
    | .recovery => { f with state := .installing, began := .recovery, busy := true })

def execFwArm (s : State) : Host.Outcome State Fault Refusal := .next (s.fwWrite fun f => { f with armed := true, status := fwOk })
def execFwDisarm (s : State) : Host.Outcome State Fault Refusal := .next (s.fwWrite fun f => { f with armed := false, status := fwOk })

/-- The whole image has been stored. -/
def execFwWritten (s : State) : Host.Outcome State Fault Refusal :=
  .next (if s.fw.state ≠ .installing || !s.imageReadable || !s.imageGood then s
    else
      let v := bytesAt s.imageBytes 4 4
      { s with fw := { s.fw with state := s.fw.began, busy := false, status := fwOk, version := v, image := v, valid := true } })

/-- An install ends without success. -/
def execFwFailed (why : FwWhy) (s : State) : Host.Outcome State Fault Refusal :=
  .next (if s.fw.state ≠ .installing then s
    else
      let f := { s.fw with state := s.fw.began, busy := false }
      match why with
      | .badImage => if !s.imageGood && (s.imageReadable || !s.fw.argsOk) then { s with fw := { f with status := 3 } } else s
      | .readFail => { s with fw := { f with status := 4 } }
      | .storeFail => if s.imageGood then { s with fw := { f with status := 5, version := 0, valid := false } } else s)

/-- RESET of the firmware: `fwsts.version` is 0 until the stored image has been read (R10).  An install is abandoned, and the stored image is
spoilt when the install had begun to write it, which only an image that passes its check comes to (notes/assumptions/11.md). -/
def State.fwReset (s : State) : Firmware :=
  let spoilt := s.fw.state == .installing && s.imageReadable && s.imageGood && Config.freeChoice s.freeCtr
  let ok := s.fw.valid && !spoilt
  { addr := 0, len := 0, busy := false, state := if s.fw.armed || !ok then .recovery else .running, armed := false, status := 0,
    version := 0, image := s.fw.image, valid := ok, began := .running }

/-! ### Reset -/

/-- The device after a reset in which these units pass self-test.  Memory and its poison marks stay as they are; the archive and the stored
firmware are kept; the agenda and the model's counters go on (notes/assumptions/26.md). -/
def State.resetWith (s : State) (stks : BitVec 32) (dies : BitVec 8) (ics : BitVec 2) : State :=
  let s1 := s.power.off.foldl (fun s d => s.dieOn d) s
  let port := fun (p : Nat) => let q := s1.pool (32 + p); (32 + p, Pool.fresh q.size (ics.getLsbD p && q.size != 0) false)
  { State.reset with
    regs := .fresh stks dies ics
    pools := (freshPools stks).filter (fun e => e.1 < 32) ++ [port 0, port 1]
    mem := Memory.zero s.mem (rootLpa stks * 4096) 65536, poison := s.poison, fw := s.fwReset, arch := s.arch, archStored := s.archStored
    msi := s.msi, cxlEvents := s.cxlEvents, agenda := s.agenda, turnNo := s.turnNo, freeCtr := s.freeCtr + 1 }

def execDeviceReset (stks : BitVec 32) (dies : BitVec 8) (ics : BitVec 2) (s : State) : Host.Outcome State Fault Refusal :=
  .next (s.resetWith stks dies ics)

/-- A loss of power: the archive falls back to what was last written, and counts one power-on reset more, unless recovery follows (R520); local
DRAM and the launch window hold nothing (notes/assumptions/26.md). -/
def execSuddenPowerLoss (s : State) : Host.Outcome State Fault Refusal :=
  .next (let s1 := s.resetWith 0xFFFFFFFF 0xFF 3
    let keep := fun (a : Nat) => 2 ^ 44 ≤ a && !(2 ^ 59 ≤ a && a < 2 ^ 60)
    { s1 with mem := s1.mem.filter fun c => keep c.1, poison := s1.poison.filter fun l => keep (128 * l),
              arch := if s1.inRecovery then s.archStored else { s.archStored with resets := min (s.archStored.resets + 1) (2 ^ 64 - 1) } })

/-! ### Power states (R509 to R512) -/

/-- The device is idle (R511): requests are outstanding while a release is drained, a slice writes back, a directory transaction is open or
waits, or a peer has not answered. -/
def State.idle (s : State) : Bool :=
  s.wgs.isEmpty && (s.kernels.all fun e => e.2.state.final && !e.2.donePend) &&
  (s.cores.all fun e => e.2.xq.isEmpty && e.2.mq.isEmpty && e.2.pend.isEmpty && e.2.siding.isEmpty && e.2.drains.isEmpty) &&
  !(s.slices.any fun e => (e.2.tickets.any fun k => k.2.inflight) || !e.2.wbuf.isEmpty) &&
  s.dirQueue.isEmpty && s.dirRetry.isEmpty && !(s.dir.any fun e => e.2.busy) && (s.links.all fun e => e.2.opn.isEmpty && e.2.txBuf.isEmpty) &&
  !(s.queues.any fun e => e.2.state == .running &&
    (if e.2.src then e.2.posted != [] else Memory.read s.mem (windowPa e.1 (e.2.parsed.toNat % 64) + 255) != 0))

/-- Frames in use of a pool in a range. -/
def State.usedIn (s : State) (k lo n : Nat) : List Nat := (s.pool k).inUse fun f => lo ≤ f && f < lo + n

/-- A die of a stack stays powered (R512). -/
def State.dieKept (s : State) (k l : Nat) : Bool :=
  let p := s.pool k
  let (lo, n) := dieFrames p.size l
  let used := s.usedIn k lo n
  lo < p.reserved || (used.any fun f => p.isTable f) ||
  s.allPtes.any fun e =>
    let q := s.pte e.1
    let f := frameNo (Pte.tier q) (Pte.frame q)
    Pte.tier q = 0 && poolOf 0 (Pte.frame q) = k && (Pte.pin q || Pte.near q) && f < lo + n && lo < f + pageSpan e.2.2

/-- Empty one die: its frames move to the capacity pools, and the rest leave the free list. -/
def State.emptyDie (s : State) (k l : Nat) : Option State :=
  let p := s.pool k
  let (lo, n) := dieFrames p.size l
  let mine := fun (f : Nat) => decide (lo ≤ f ∧ f < lo + n)
  let moved := (s.usedIn k lo n).foldl (fun (o : Option State) f => o.bind fun s =>
    if (s.pool k).count f = 0 then some s
    else match s.moveFrame k f 32 mine with
      | some t => some t
      | none => s.moveFrame k f 33 mine) (some s)
  moved.map fun t =>
    ({ t.setPool k fun q => { q.remove lo n with frames := q.frames - q.live lo n } with
      power := { t.power with off := t.power.off ++ [16 * k + l] } }).cxlEvent false (16 * k + l)

/-- The dies that RETENTION has still to empty: powered, and holding nothing that must stay. -/
def State.diesLeft (s : State) : List (Nat × Nat) :=
  (((List.range 32).filter fun k => s.regs.stacksUp.getLsbD k).map fun k =>
    ((List.range 16).filter fun l => !s.dieKept k l && !s.power.off.contains (16 * k + l)).map fun l => (k, l)).flatten

/-- Every one of them is emptied; `none` when the capacity pools lack room. -/
def State.emptyDies (s : State) : Option State :=
  s.diesLeft.foldl (fun (o : Option State) d => o.bind fun s => s.emptyDie d.1 d.2) (some s)

/-- The cores lose power: dirty bytes go home first, and no L1, code or codebook copy stays. -/
def State.coresOff (s : State) : State :=
  let s1 := s.cores.keys.foldl (fun s c => s.drainCore c) s
  { s1 with cores := s1.cores.mapVals fun _ c => { c with l1 := [], icache := [], books := [], lbufs := [] } }

/-- The deepest state that the tolerance allows; RETENTION, only where the capacity pools have room for every die that it empties. -/
def State.deepest (s : State) : Nat :=
  let n := ((List.range 5).filter fun n => exitLatency n ≤ s.power.tol.toNat && (n != 4 || s.power.retain)).foldl max 0
  if n = 4 ∧ s.emptyDies = none then 3 else n

/-- A core holds copies, which it loses with its power. -/
def Core.powered (c : Core) : Bool := !(c.l1.isEmpty && c.icache.isEmpty && c.books.isEmpty && c.lbufs.isEmpty)

/-- One step of an entry: the cores, then a die, then the state is reached. -/
def State.entryStep (s : State) : State :=
  let reach := { s with power := { s.power with state := s.power.goal, moving := false, goal := 0 } }
  if 2 ≤ s.power.goal ∧ s.cores.any (fun e => e.2.powered) then s.coresOff
  else if s.power.goal = 4 then
    match s.diesLeft with
    | [] => reach
    | d :: _ => match s.emptyDie d.1 d.2 with
      | some t => t
      | none =>
        let t := s.power.off.foldl (fun s d => s.dieOn d) s
        { t with power := { t.power with goal := 3, off := [] } }
  else reach

/-- A step of the device's power state: an idle device begins to enter the deepest state, an entry goes on while nothing wakes the device, and
a device that leaves a state has left it. -/
def execPowerStateEntry (s : State) : Host.Outcome State Fault Refusal :=
  .next (if s.inRecovery then s
    else if s.power.moving then (if s.power.goal = 0 then s.awake else if s.idle then s.entryStep else s.wakeUp)
    else if !s.idle || s.power.state ≠ 0 || s.deepest = 0 then s
    else { s with power := { s.power with moving := true, goal := s.deepest } })

def execWakeEvent (s : State) : Host.Outcome State Fault Refusal := .next s.wakeUp

/-! ### Thermal thresholds (R513) -/

/-- A die's temperature rises above a threshold, or falls 5 °C below it. -/
def execThermalCrossing (die : Nat) (thr : Nat) (up : Bool) (s : State) : Host.Outcome State Fault Refusal :=
  .next (if 512 ≤ die || thr = 0 || 3 < thr then s
    else
      let level := s.power.thr.getD die 0
      let set := fun (s : State) (n : Nat) =>
        let t := if n = 0 then s.power.thr.erase die else s.power.thr.set die n
        { s with power := { s.power with thr := t, cattemp := t.any fun e => e.2 == 3 } }
      if up then
        if level + 1 ≠ thr then s
        else
          let s1 := set s.wakeUp thr
          let s2 := if s.inRecovery then s1
            else { s1 with arch := { s1.arch with cross := NMap.update s1.arch.cross thr 0 fun n => min (n + 1) (2 ^ 64 - 1) } }
          if 2 ≤ thr then s2.health .thermal else s2
      else if level ≠ thr then s else set s (thr - 1))

/-! ### Archive (R515) -/

/-- The device writes the archive, once a second: each stack's second goes to the band of its temperature, and errors that the memory has
corrected, which no step shows, to their count; both are free values (notes/assumptions/56.md). -/
def execArchiveWrite (s : State) : Host.Outcome State Fault Refusal :=
  .next (if s.inRecovery then s
    else
      let bands := (List.range 32).foldl (fun (m : NMap Nat) k =>
        m.update (16 * k + (Config.freeWord (s.freeCtr + k)).toNat % 16) 0 fun n => min (n + 1) (2 ^ 32 - 1)) s.arch.bands
      let a := { s.arch with bands := bands, soft := min (s.arch.soft + (Config.freeWord (s.freeCtr + 32)).toNat) (2 ^ 64 - 1) }
      { s with arch := a, archStored := a, freeCtr := s.freeCtr + 33 })

end Sys2Proof.Machine
end

