-- ==== Sys2Proof/Machine/QueueEv.lean ====
section
/-!
DEFINITION. Queues (spec/05_queue.md R117 to R128): the four commands, and the parse of a record by the launch monitor or from the posted
records.
-/
namespace Sys2Proof.Machine
open Sys2Proof

/-! ### Commands (R119, R120) -/

/-- Codes of `qsts.err`. -/
def qBadOp := 1
def qBadState := 2
def qBadCfg := 3
def qBadSeal := 4

def State.queueErr (s : State) (q e : Nat) : State := s.setQueue q fun x => { x with err := e }

/-- A command reaches a queue of the device, unless the fixed loader runs (R520). -/
def State.queueCmd (s : State) (q : Nat) (f : State → Queue → State) : State :=
  if Config.queues ≤ q then s else s.hostWrite fun s => f s (s.queue q)

/-- A queue can be bound to a context in these states. -/
def CState.bindable (c : CState) : Bool := c == .built || c == .active || c == .suspended

def State.bindQueue (s : State) (q : Nat) : State :=
  let s1 := { s with mem := (List.range 64).foldl (fun m i => Memory.write m (windowPa q i + 255) 0) s.mem }
  s1.setQueue q fun x =>
    { x with state := .stopped, src := x.cfgSrc, prio := x.cfgPrio, tag := 1, parsed := 0, index := 0, armed := false, posted := [], err := 0 }

def execQueueBind (q : Nat) (s : State) : Host.Outcome State Fault Refusal :=
  .next (s.queueCmd q fun s x => match x.state with
    | .free =>
      if x.cfgRes ≠ 0 then s.queueErr q qBadCfg
      else if !(s.ctx x.cfgCtx.toNat).state.bindable then s.queueErr q qBadState
      else s.bindQueue q
    | .stopped | .running | .halted => s.queueErr q qBadState)

def execQueueStart (q : Nat) (s : State) : Host.Outcome State Fault Refusal :=
  .next (s.queueCmd q fun s x => match x.state with
    | .free => s.queueErr q qBadState
    | .running => s.queueErr q 0
    | .stopped | .halted =>
      let on := (s.ctx x.cfgCtx.toNat).state == .active
      s.setQueue q fun x => { x with state := if on then .running else .stopped, armed := true, err := 0 })

def execQueueStop (q : Nat) (s : State) : Host.Outcome State Fault Refusal :=
  .next (s.queueCmd q fun s x => match x.state with
    | .free => s.queueErr q qBadState
    | .stopped | .running | .halted => s.setQueue q fun x => { x with state := .stopped, armed := false, err := 0 })

def execQueueUnbind (q : Nat) (s : State) : Host.Outcome State Fault Refusal :=
  .next (s.queueCmd q fun s x => match x.state with
    | .stopped | .halted => (s.queueFree q).queueErr q 0
    | .free | .running => s.queueErr q qBadState)

/-! ### Parsing (R122, R123, R128, R134) -/

/-- The handle of the record with index n of a queue. -/
def recordHandle (q n : Nat) : Nat := 2 ^ 23 * q + n % (2 ^ 23 - 1) + 1

/-- Kernel of a parsed record; its effective priority is the lower of the queue's and the record's (R126).  The tag of a posted record
advanced when it was posted (R130). -/
def State.parse (s : State) (q : Nat) (r : BitVec 2048) : State :=
  let x := s.queue q
  let n := x.index
  let s1 := s.setQueue q fun x => { x with parsed := x.parsed + 1, tag := if x.src then x.tag else x.tag % 255 + 1, index := n + 1 }
  (s1.enterKernel (s.newKid (recordHandle q n))
    { Kern.zero with held := true, krec := r, ctx := x.cfgCtx.toNat, queue := some q, prio := min x.prio.toNat (Krec.prio r), parse := n }).sweepKernels

/-- The monitor examines the head slot of a host-fed queue (R123). -/
def State.monitorHead (s : State) (q : Nat) : State :=
  let x := s.queue q
  let pa := windowPa q (x.parsed.toNat % 64)
  let byte := (Memory.read s.mem (pa + 255)).toNat
  if byte = 0 then s
  else if byte = x.tag ∧ (Memory.read s.mem (pa + 254)).toNat = byte then
    let r : BitVec 2048 := .ofNat 2048 (Memory.readLE s.mem pa 256)
    { s with mem := Memory.write s.mem (pa + 255) 0 }.parse q r
  else s.setQueue q fun x => { x with state := .halted, err := qBadSeal }

/-- A queue in RUNNING parses its next record, when the kernel table has room. -/
def execRecordParse (q : Nat) (s : State) : Host.Outcome State Fault Refusal :=
  .next (let x := s.queue q
    if x.state ≠ .running || s.tableFull then s
    else if x.src then (match x.posted with
      | [] => s
      | r :: l => (s.setQueue q fun x => { x with posted := l }).parse q r)
    else s.monitorHead q)

end Sys2Proof.Machine
end

