-- ==== Sys2Proof/Machine/Bar0.lean ====
section
/-!
DEFINITION. Host writes and reads of registers in BAR0: the registers of the chapters by their offsets (R22, R98, R118, R167, R448, R453, R467,
R499, R507, R510, R514, R515, R517), and the commands behind them.
-/
namespace Sys2Proof.Machine
open Sys2Proof

/-- `HLTH` is W1C, in the recovery state too (R514, R520). -/
def execHlthWrite (v : Dword) (s : State) : Host.Outcome State Fault Refusal :=
  .next (let s1 := s.wakeUp
    let clr := fun (b : Bool) (n : Nat) => b && !v.getLsbD n
    { s1 with regs := { s1.regs with hUnit := clr s1.regs.hUnit 0, hThermal := clr s1.regs.hThermal 1, hPeer := clr s1.regs.hPeer 2,
                                     hChannel := clr s1.regs.hChannel 3 } })

/-- A command word of `CTXCMD` (R98). -/
def ctxCommand (v : Nat) (s : State) : Host.Outcome State Fault Refusal :=
  let id := v / 16 % 4096
  if v / 2 ^ 16 ≠ 0 then .next (s.ctxCmd id fun s => s.ctxDone stBadOp 0)
  else match v % 16 with
    | 1 => execCtxCreate id s
    | 2 => execCtxActivate id s
    | 3 => execCtxSuspend id s
    | 4 => execCtxResume id s
    | 5 => execCtxTeardown id s
    | 6 => execCtxRelease id s
    | _ => .next (s.ctxCmd id fun s => s.ctxDone stBadOp 0)

/-- A command word of `QCMD` (R118). -/
def queueCommand (q v : Nat) (s : State) : Host.Outcome State Fault Refusal :=
  match v with
  | 1 => execQueueBind q s
  | 2 => execQueueStart q s
  | 3 => execQueueStop q s
  | 4 => execQueueUnbind q s
  | _ => .next (s.queueCmd q fun s _ => s.queueErr q qBadOp)

/-- A command word of `LCMD` (R499). -/
def linkCommand (n v : Nat) (s : State) : Host.Outcome State Fault Refusal :=
  match v with
  | 1 => execLinkTrain n s
  | 2 => execLinkRetire n s
  | 3 => execLinkReset n s
  | _ => .next (s.linkCmd n fun l => { l with err := lnkBadOp })

/-- A command word of `FWCMD` (R517). -/
def fwCommand (v : Nat) (s : State) : Host.Outcome State Fault Refusal :=
  match v with
  | 1 => execFwInstall s
  | 2 => execFwArm s
  | 3 => execFwDisarm s
  | _ => .next (s.fwWrite fun f => { f with status := fwBadOp })

/-- A write to `QCFG`: ignored unless the queue is FREE.  R118 says so in the row of `qcfg.ctx`; that it holds for the whole register is the model's
choice (DESIGN CHOICE, notes/assumptions/64.md). -/
def Queue.config (x : Queue) (v : Dword) : Queue :=
  if x.state = .free then { x with cfgCtx := v.setWidth 12, cfgPrio := (v >>> 12).setWidth 3, cfgSrc := v.getLsbD 15, cfgRes := (v >>> 16).setWidth 48 }
  else x

/-- A write to `LCFG`: ignored unless the link is DOWN or FAILED. -/
def Link.config (l : Link) (v : Dword) : Link :=
  if l.state = .down ∨ l.state = .failed then { l with peer := v.setWidth 4, res := (v >>> 4).setWidth 60 } else l

/-- A host write of 64 bits at an offset of BAR0; where no writable register stands it changes nothing, but it wakes the device. -/
def execRegisterWrite (off : Nat) (v : Dword) (s : State) : Host.Outcome State Fault Refusal :=
  let n := v.toNat
  let reg := fun (f : Regs0 → Regs0) => Host.Outcome.next (s.hostWrite fun s => { s with regs := f s.regs })
  if off = 0x100 then ctxCommand n s
  else if off = 0x108 then reg fun r => { r with ctxarg := v }
  else if off = 0x200 then
    reg fun r => { r with pcEnable := v.getLsbD 0, pcRes := (v >>> 1).setWidth 31, pcWait := (v >>> 32).setWidth 16, pcBound := (v >>> 48).setWidth 16 }
  else if 0x10000 ≤ off ∧ off < 0x12000 then
    let q := (off - 0x10000) / 32
    match (off - 0x10000) % 32 with
    | 0 => .next (s.hostWrite fun s => s.setQueue q (·.config v))
    | 8 => queueCommand q n s
    | _ => .next (s.hostWrite id)
  else if 0x60000 ≤ off ∧ off < 0x60180 then
    let k := (off - 0x60000) / 32
    match (off - 0x60000) % 32 with
    | 0 => .next (s.hostWrite fun s => s.setLink k (·.config v))
    | 8 => linkCommand k n s
    | _ => .next (s.hostWrite id)
  else if off = 0x70000 then
    .next (s.hostWrite fun s => { s with power := { s.power with tol := v.setWidth 32, retain := v.getLsbD 32, res := (v >>> 33).setWidth 31 } })
  else if off = 0x70010 then execHlthWrite v s
  else if off = 0x70100 then fwCommand n s
  else if off = 0x70108 then .next (s.fwWrite fun f => { f with addr := v })
  else if off = 0x70110 then .next (s.fwWrite fun f => { f with len := v })
  else if 0x400000 ≤ off ∧ off < 0x800000 then execCtxRecordHostWrite ((off - 0x400000) / 1024) ((off - 0x400000) % 1024 / 8) v s
  else .next (s.hostWrite id)

/-! ### Host reads -/

/-- A byte of the archive as R515 lays it out; of each DRAM die the retired channels, of each stack the seconds in each band. -/
def Archive.byte (a : Archive) (i : Nat) : Byte :=
  let part := fun (v k : Nat) => .ofNat 8 (v / 2 ^ (8 * k))
  if i < 0x50 then
    part ([a.soft, a.uncorr, a.retired, a.resets, a.cross.getD 1 0, a.cross.getD 2 0, a.cross.getD 3 0, a.dlmT, a.dlmX, a.dlmM].getD (i / 8) 0) (i % 8)
  else if i < 0x1850 then
    let j := i - 0x50
    let l := a.maps.getD (j / 12) []
    part ((List.range 96).foldl (fun n c => if l.contains c then n + 2 ^ c else n) 0) (j % 12)
  else if i < 0x2050 then part (a.bands.getD ((i - 0x1850) / 4) 0) ((i - 0x1850) % 4)
  else 0

def LState.code : LState → Nat
  | .down => 0 | .training => 1 | .up => 2 | .degraded => 3 | .retiring => 4 | .failed => 5

def FwState.code : FwState → Nat
  | .running => 0 | .installing => 1 | .recovery => 2

/-- The registers that answer in every state of the firmware: the capabilities, `HLTH`, those of R517 and the archive (R520). -/
def State.bar0Fixed (s : State) (off : Nat) : Nat :=
  let fw := s.fw
  if off < 0x30 then s.modcap (off / 8)
  else if off = 0x70010 then s.regs.hUnit.toNat + 2 * s.regs.hThermal.toNat + 4 * s.regs.hPeer.toNat + 8 * s.regs.hChannel.toNat
  else if off = 0x70108 then fw.addr.toNat
  else if off = 0x70110 then fw.len.toNat
  else if off = 0x70118 then
    fw.busy.toNat + 2 * fw.state.code + 2 ^ 3 * fw.armed.toNat + 2 ^ 4 * fw.status + 2 ^ 16 * fw.version
  else if 0x80000 ≤ off ∧ off < 0x82050 then ofBytes ((List.range 8).map fun j => s.archStored.byte (off - 0x80000 + j))
  else 0

/-- A block of registers per queue, core, pool or link, by its base, its size in bytes, its number and the reader of its words. -/
def blockRead (off base size n : Nat) (f : Nat → Nat → Nat) : Option Nat :=
  if base ≤ off ∧ off < base + size * n then some (f ((off - base) / size) ((off - base) % size / 8)) else none

/-- Registers of the chapters that the running firmware serves (R98, R118, R167, R448, R453, R467, R499, R507, R510) and the context records. -/
def State.bar0Run (s : State) (off : Nat) : Nat :=
  let r := s.regs
  let queue := blockRead off 0x10000 32 256 fun q w =>
    let x := s.queue q
    match w with
    | 0 => x.cfgCtx.toNat + 2 ^ 12 * x.cfgPrio.toNat + 2 ^ 15 * x.cfgSrc.toNat + 2 ^ 16 * x.cfgRes.toNat
    | 2 => x.word
    | _ => 0
  let pool := blockRead off 0x40000 16 34 fun k w =>
    let p := s.pool k
    if w = 0 then p.freeCount + 2 ^ 32 * p.frames else p.up.toNat
  let late := blockRead off 0x50000 16 256 fun c w =>
    let x := s.core c
    if w = 0 then x.dlmT.toNat + 2 ^ 32 * x.dlmX.toNat else x.dlmM.toNat
  let link := blockRead off 0x60000 32 12 fun k w =>
    let l := s.link k
    match w with
    | 0 => l.peer.toNat + 2 ^ 4 * l.res.toNat
    | 2 => l.state.code + 2 ^ 4 * l.lanes.toNat + 2 ^ 12 * l.err + 2 ^ 16 * l.replays + 2 ^ 32 * l.losses
    | _ => 0
  let record := blockRead off 0x400000 1024 4096 fun id w => (s.ctxWord id w).toNat
  match queue <|> pool <|> late <|> link <|> record with
  | some v => v
  | none =>
    if off = 0x108 then r.ctxarg.toNat
    else if off = 0x110 then r.ctxBusy.toNat + 2 ^ 4 * r.ctxStatus + 2 ^ 8 * r.ctxDetail
    else if off = 0x200 then r.pcEnable.toNat + 2 * r.pcRes.toNat + 2 ^ 32 * r.pcWait.toNat + 2 ^ 48 * r.pcBound.toNat
    else if off = 0x208 then r.prRequests.toNat + 2 ^ 32 * r.prMisses + 2 ^ 48 * r.prMech + 2 ^ 50 * r.prMiss.toNat
    else if off = 0x300 then r.ptValid.toNat + 2 ^ 12 * r.ptLpa
    else if off = 0x60200 then r.hlRate + 2 ^ 3 * r.hlWidth + 2 ^ 8 * r.hlCxl.toNat
    else if off = 0x70000 then s.power.tol.toNat + 2 ^ 32 * s.power.retain.toNat + 2 ^ 33 * s.power.res.toNat
    else if off = 0x70008 then s.power.state + 2 ^ 3 * s.power.moving.toNat + 2 ^ 4 * s.power.off.length
    else 0

/-- What a host read of the 64-bit register at an offset of BAR0 returns; in the recovery state only the registers of R520 answer.  A write-only
register reads zero (R9). -/
def State.bar0 (s : State) (off : Nat) : Dword :=
  .ofNat 64 (if off % 8 ≠ 0 then 0
    else if off < 0x30 ∨ 0x70010 = off ∨ (0x70100 ≤ off ∧ off < 0x70120) ∨ (0x80000 ≤ off ∧ off < 0x82050) then s.bar0Fixed off
    else if s.inRecovery then 0 else s.bar0Run off)

end Sys2Proof.Machine
end

