-- ==== Sys2Proof/Machine/Float.lean ====
section
/-!
DEFINITION. Group 0x5: FP32 and FP64 arithmetic (spec/09_vector.md R241 to R246).
-/
namespace Sys2Proof.Machine
open Sys2Proof

/-- Write an FP32 result. -/
def Thread.fput (t : Thread) (d : Field) (w : Word) : Thread := t.write d w full

def Thread.fp2 (t : Thread) (o : Alu2) (f : Num → Num → Num) : Thread := t.fput o.d (w32 (f (f32 (t.val o.a)) (f32 (t.fpB o.b))))

def execFadd (g : Guard) (r : Rnd) (o : Alu2) (s : State) : Host.Outcome State Fault Refusal :=
  perLane (.fadd g r o) 1 (fun t => t.fp2 o (addRnd fp32 r)) s

def execFsub (g : Guard) (r : Rnd) (o : Alu2) (s : State) : Host.Outcome State Fault Refusal :=
  perLane (.fsub g r o) 1 (fun t => t.fp2 o fun a b => addRnd fp32 r a b.neg) s

def execFmul (g : Guard) (r : Rnd) (o : Alu2) (s : State) : Host.Outcome State Fault Refusal :=
  perLane (.fmul g r o) 1 (fun t => t.fp2 o (mulRnd fp32 r)) s

def execFfma (g : Guard) (r : Rnd) (o : Alu3) (s : State) : Host.Outcome State Fault Refusal :=
  perLane (.ffma g r o) 1 (fun t => t.fput o.d (w32 (fmaRnd fp32 r (f32 (t.val o.a)) (f32 (t.fpB o.b)) (f32 (t.val o.c))))) s

def execFmin (g : Guard) (o : Alu2) (s : State) : Host.Outcome State Fault Refusal :=
  perLane (.fmin g o) 1 (fun t => t.fput o.d (.ofNat 32 (minMax fp32 false (t.val o.a).toNat (t.fpB o.b).toNat))) s

def execFmax (g : Guard) (o : Alu2) (s : State) : Host.Outcome State Fault Refusal :=
  perLane (.fmax g o) 1 (fun t => t.fput o.d (.ofNat 32 (minMax fp32 true (t.val o.a).toNat (t.fpB o.b).toNat))) s

def execFcmp (g : Guard) (c : FCond) (pd : Nat) (a : Field) (b : SrcB) (s : State) : Host.Outcome State Fault Refusal :=
  perLane (.fcmp g c pd a b) 1 (fun t => t.setPred pd (fcondHolds c (f32 (t.val a)) (f32 (t.fpB b)))) s

def execFrnd (g : Guard) (r : Rnd) (o : Alu1) (s : State) : Host.Outcome State Fault Refusal :=
  perLane (.frnd g r o) 1 (fun t => t.fput o.d (frndWord r (t.val o.a))) s

/-! ### The function set: `Config.freeFn` gives the candidate where R246 bounds the result (notes/assumptions/6.md) -/

def Thread.fn1 (t : Thread) (o : Alu1) (code : Nat) (f : Word → Word → Word) : Thread :=
  t.fput o.d (f (Config.freeFn code (t.val o.a)) (t.val o.a))

def execFrcp (g : Guard) (o : Alu1) (s : State) : Host.Outcome State Fault Refusal :=
  perLane (.frcp g o) 4 (fun t => t.fn1 o 0 frcpWord) s

def execFrsq (g : Guard) (o : Alu1) (s : State) : Host.Outcome State Fault Refusal :=
  perLane (.frsq g o) 4 (fun t => t.fn1 o 1 frsqWord) s

def execFsqrt (g : Guard) (o : Alu1) (s : State) : Host.Outcome State Fault Refusal :=
  perLane (.fsqrt g o) 4 (fun t => t.fput o.d (fsqrtWord (t.val o.a))) s

def execFexp2 (g : Guard) (o : Alu1) (s : State) : Host.Outcome State Fault Refusal :=
  perLane (.fexp2 g o) 4 (fun t => t.fn1 o 3 fexp2Word) s

def execFlog2 (g : Guard) (o : Alu1) (s : State) : Host.Outcome State Fault Refusal :=
  perLane (.flog2 g o) 4 (fun t => t.fn1 o 4 flog2Word) s

def execFsin (g : Guard) (o : Alu1) (s : State) : Host.Outcome State Fault Refusal :=
  perLane (.fsin g o) 4 (fun t => t.fn1 o 5 fsinWord) s

def execFcos (g : Guard) (o : Alu1) (s : State) : Host.Outcome State Fault Refusal :=
  perLane (.fcos g o) 4 (fun t => t.fn1 o 6 fcosWord) s

def execFtanh (g : Guard) (o : Alu1) (s : State) : Host.Outcome State Fault Refusal :=
  perLane (.ftanh g o) 4 (fun t => t.fn1 o 7 ftanhWord) s

/-! ### FP64 -/

def Thread.f64 (t : Thread) (a : Field) : Num := decodeFp fp64 (t.wide a 2)
def Thread.dput (t : Thread) (d : Field) (x : Num) : Thread := t.writeN d 2 (encodeFp fp64 x)

def execDadd (g : Guard) (r : Rnd) (negb : Bool) (d a b : Field) (s : State) : Host.Outcome State Fault Refusal :=
  perLane (.dadd g r negb d a b) 8 (fun t => t.dput d (addRnd fp64 r (t.f64 a) (if negb then (t.f64 b).neg else t.f64 b))) s

def execDmul (g : Guard) (r : Rnd) (d a b : Field) (s : State) : Host.Outcome State Fault Refusal :=
  perLane (.dmul g r d a b) 8 (fun t => t.dput d (mulRnd fp64 r (t.f64 a) (t.f64 b))) s

def execDfma (g : Guard) (r : Rnd) (d a b c : Field) (s : State) : Host.Outcome State Fault Refusal :=
  perLane (.dfma g r d a b c) 8 (fun t => t.dput d (fmaRnd fp64 r (t.f64 a) (t.f64 b) (t.f64 c))) s

def execDcmp (g : Guard) (c : FCond) (pd : Nat) (a b : Field) (s : State) : Host.Outcome State Fault Refusal :=
  perLane (.dcmp g c pd a b) 8 (fun t => t.setPred pd (fcondHolds c (t.f64 a) (t.f64 b))) s

end Sys2Proof.Machine
end

