-- ==== Sys2Proof/Machine/Interval.lean ====
section
/-!
DEFINITION. Group 0x3, compares, predicates and intervals (spec/08_thread.md R215 to R221).
-/
namespace Sys2Proof.Machine
open Sys2Proof

def execIcmp (g : Guard) (c : Cond) (pd : Nat) (a : Field) (b : SrcB) (s : State) : Host.Outcome State Fault Refusal :=
  perLane (.icmp g c pd a b) 1 (fun t => t.setPred pd (condHolds c (t.val a) (t.opdB b).val)) s

def execIcmpu (g : Guard) (c : Cond) (pd : Nat) (a : Field) (b : SrcB) (s : State) : Host.Outcome State Fault Refusal :=
  perLane (.icmpu g c pd a b) 1 (fun t => t.setPred pd (condHoldsU c (t.val a) (t.opdB b).val)) s

def execPset (g : Guard) (tt : BitVec 4) (pd pa pb : Nat) (s : State) : Host.Outcome State Fault Refusal :=
  perLane (.pset g tt pd pa pb) 1 (fun t => t.setPred pd (tt.getLsbD (2 * (t.pred pa).toNat + (t.pred pb).toNat))) s

def execPmov (g : Guard) (d : Field) (s : State) : Host.Outcome State Fault Refusal :=
  perLane (.pmov g d) 1 (fun t => t.write d (.ofNat 32 t.cur.p.toNat) (point t.cur.p.toNat)) s

def execPmovW (g : Guard) (a : Field) (mask : BitVec 7) (s : State) : Host.Outcome State Fault Refusal :=
  perLane (.pmovW g a mask) 1 (fun t =>
    let v := (t.val a).truncate 7
    t.setCur fun r => { r with p := (r.p &&& ~~~mask) ||| (v &&& mask) }) s

def Thread.clamp (t : Thread) (d : Field) (a b c : Opd) : Thread :=
  t.write d (toWord (min (max a.val.toInt b.val.toInt) c.val.toInt)) (clip (clampIv a.iv b.iv c.iv))

def execClamp (g : Guard) (d a : Field) (b : ClampB) (s : State) : Host.Outcome State Fault Refusal :=
  perLane (.clamp g d a b) 1 (fun t => match b with
    | .regs x y => t.clamp d (t.opd a) (t.opd x) (t.opd y)
    | .imms lo hi => t.clamp d (t.opd a) (immOpd lo) (immOpd hi)) s

/-- The interval check of R220: a lane whose value lies outside, or whose bounds cross, fails. -/
def intvFails (lo hi x : Int) : Bool := hi < lo || x < lo || hi < x

/-- The trap of R220 for the failing lanes; the address holds the bounds of the lowest one. -/
def intvTrap (s : State) (act : List Nat) (d : Field) (bounds : Thread → Int × Int) : Option Res :=
  let bad := act.filter fun t => let x := s.ithread t; let b := bounds x; intvFails b.1 b.2 (x.val d).toInt
  match bad with
  | [] => none
  | t :: _ =>
    let b := bounds (s.ithread t)
    some (.trap { cause := Cause.intv, mask := bad, addr := trunc b.1 32 + 2 ^ 32 * trunc b.2 32 })

/-- Write the interval of a register whose value stays. -/
def Thread.rewrite (t : Thread) (d : Field) (iv : Intv) : Thread := t.write d (t.val d) iv

def execWiden (g : Guard) (d : Field) (lo hi : BitVec 32) (s : State) : Host.Outcome State Fault Refusal :=
  issue (.widen g d lo hi) 1 (fun act s => (intvTrap s act d fun _ => (lo.toInt, hi.toInt)).getD
    (.ok (s.setThreads s.issue.wid act fun _ t => t.rewrite d ⟨lo.toInt, hi.toInt⟩))) s

def execIntvSet (g : Guard) (d a b : Field) (s : State) : Host.Outcome State Fault Refusal :=
  issue (.intvSet g d a b) 1 (fun act s =>
    let bd := fun (t : Thread) => ((t.val a).toInt, (t.val b).toInt)
    (intvTrap s act d bd).getD
      (.ok (s.setThreads s.issue.wid act fun _ t => t.rewrite d ⟨(bd t).1, (bd t).2⟩))) s

def execIntvChk (g : Guard) (d : Field) (lo hi : BitVec 32) (s : State) : Host.Outcome State Fault Refusal :=
  issue (.intvChk g d lo hi) 1 (fun act s => (intvTrap s act d fun _ => (lo.toInt, hi.toInt)).getD
    (.ok (s.setThreads s.issue.wid act fun _ t => t.rewrite d (meet (t.read d).2 ⟨lo.toInt, hi.toInt⟩)))) s

/-- A pair that holds the two ends of an interval. -/
def ivPair (e : Intv) : Nat := trunc e.lo 32 + 2 ^ 32 * trunc e.hi 32

def execIntvGet (g : Guard) (d a : Field) (s : State) : Host.Outcome State Fault Refusal :=
  perLane (.intvGet g d a) 1 (fun t => t.writeN d 2 (ivPair (t.read a).2)) s

def execIntvUn (g : Guard) (d a : Field) (s : State) : Host.Outcome State Fault Refusal :=
  issue (.intvUn g d a) 2 (fun act s =>
    let u := unionIv (act.map fun t => ((s.ithread t).read a).2)
    .ok (s.setThreads s.issue.wid act fun _ t => t.writeN d 2 (ivPair u))) s

end Sys2Proof.Machine
end

