-- ==== Sys2Proof/Machine/KernelEv.lean ====
section
/-!
DEFINITION. The dispatcher (spec/05_queue.md R126, spec/06_kernel.md R141 to R143, spec/07_group.md R151 to R153 and R168): choice and placement
of kernels, the end of a draining kernel, and pre-emption for a kernel without room.
-/
namespace Sys2Proof.Machine
open Sys2Proof

/-! ### Room (R113, R142, R143) -/

/-- Regions in use of a context's save area: offset and size. -/
def State.savedRegions (s : State) (ctx : Nat) : List (Nat × Nat) :=
  ((s.wgs.filter fun e => e.2.ctx == ctx && !e.2.ended).map fun e => (e.2.saveAt, Region.size (s.kern e.2.kernel).krec)) ++
  ((s.saved.filter fun v => v.ctx == ctx).map fun v => (v.saveAt, Region.size (s.kern v.kernel).krec))

/-- The lowest offset of an area at which y bytes are free. -/
def slotIn (len y : Nat) (used : List (Nat × Nat)) : Option Nat :=
  lowest ((0 :: used.map fun r => r.1 + r.2).filter fun a => a + y ≤ len && used.all fun r => a + y ≤ r.1 || r.1 + r.2 ≤ a)

/-- An area takes n more regions of y bytes, each where it fits. -/
def slotsIn (len y : Nat) (used : List (Nat × Nat)) : Nat → Bool
  | 0 => true
  | n + 1 => match slotIn len y used with
    | some a => slotsIn len y ((a, y) :: used) n
    | none => false

/-- The lowest offset of a context's save area at which y bytes are free. -/
def State.saveSlot (s : State) (ctx y : Nat) : Option Nat := slotIn (s.ctx ctx).saveLen y (s.savedRegions ctx)

/-- The cores and the save area have room for the next SELECT of a kernel. -/
def State.roomFor (s : State) (k : Kern) : Bool :=
  slotsIn (s.ctx k.ctx).saveLen (Region.size k.krec) (s.savedRegions k.ctx) (placeCount k) && s.coreRoom k

/-! ### Choice (R126, R146) -/

/-- A context dispatches. -/
def State.dispatches (s : State) (ctx : Nat) : Bool := (s.ctx ctx).state == .active && s.regs.suspending != some ctx

/-- A QUEUED kernel can be taken: its context dispatches, its queue is RUNNING or has been unbound since (notes/assumptions/62.md), and no
earlier kernel of the queue is held. -/
def State.candidateKern (s : State) (k : Kern) : Bool :=
  k.state == .queued && k.stop.isNone && s.dispatches k.ctx &&
  (match k.queue with
   | none => true
   | some q => (!k.held || (s.queue q).state == .running) &&
      !(s.kernels.any fun e => e.2.queue == some q && e.2.held == k.held && e.2.order < k.order &&
        (e.2.state == .queued || e.2.state == .waiting)))

/-- The dispatcher serves `a` before `b`: priority, then children in launch order, then the queues in turn. -/
def State.before (s : State) (a b : Kern) : Bool :=
  let turn := fun (q : Nat) => (q + Config.queues - s.regs.rrQueue) % Config.queues
  b.prio < a.prio || (a.prio == b.prio && (match a.queue, b.queue with
    | none, none => decide (a.order < b.order)
    | none, some _ => true
    | some _, none => false
    | some p, some q => decide (turn p < turn q)))

/-- A kernel that the dispatcher can serve now: it is refused, or it has room. -/
def State.servable (s : State) (k : Kern) : Bool := s.candidateKern k && (s.admitCause k.ctx k.krec != 0 || s.roomFor k)

/-! ### Placement (R141, R150 to R153) -/

/-- The slots of a workgroup: each in the lowest free place of its bay. -/
def State.newSlots (s : State) (c : Nat) (r : BitVec 2048) : NMap Slot :=
  (List.range (Krec.slots r)).map fun k =>
    let free := (List.range Config.baySlots).filter fun n => !(s.bayNums c (k % 4)).contains n
    (k, { Slot.zero with place := .eligible, since := s.clk, last := s.clk, num := free.getD (k / 4) 0 })

/-- Place the next workgroup of a kernel on a core; `none` when it has no room there. -/
def State.placeOn (s : State) (h c : Nat) : Option State :=
  let k := s.kern h
  let r := k.krec
  let (lin, k1) := match k.ret with
    | w :: l => (w, { k with ret := l })
    | [] => (k.next, { k with next := k.next + 1 })
  match s.saveSlot k.ctx (Region.size r) with
  | none => none
  | some a =>
    if !s.hasRoom c r || Krec.wgCount r ≤ lin || Config.cores ≤ c then none
    else
      let g : Wg :=
        { Wg.zero with
          kernel := h, ctx := k.ctx, lin := lin, core := c, width := Krec.width r, placed := s.clk, saveAt := a, slots := s.newSlots c r
          threads := (List.range (Krec.threads r)).map fun t => (t, { Thread.zero with pc := Krec.codeVa r, live := true, last := s.clk }) }
      let st := if k1.ret = [] ∧ k1.next = Krec.wgCount r then .running else .dispatching
      let s1 := ({ s with wgs := s.wgs.set s.wgSerial g, wgSerial := s.wgSerial + 1 }).setKern h fun _ =>
        { k1 with state := st, roomless := none }.stirred c s.clk
      some ((s1.setCore c fun x => { x with icache := x.icache.filter fun e => e.1 != k.ctx }).acquire c .sys)

/-- Place workgroups on the cores of a list, as far as they go. -/
def State.placeEach (s : State) (h : Nat) : List Nat → State
  | [] => s
  | c :: l =>
    if (s.kern h).state ≠ .queued ∧ (s.kern h).state ≠ .dispatching then s
    else match s.placeOn h c with
      | some s1 => s1.placeEach h l
      | none => s

/-- All the workgroups of a co-resident kernel, on the cores of a list, or none. -/
def State.placeAll (s : State) (h : Nat) (cores : List Nat) : Option State :=
  if cores.length ≠ Krec.wgCount (s.kern h).krec then none
  else cores.foldl (fun (o : Option State) c => o.bind fun s => s.placeOn h c) (some s)

/-- SELECT or REFUSE of a kernel, or the placement of more of its workgroups. -/
def execKernelSelect (h : Nat) (cores : List Nat) (s : State) : Host.Outcome State Fault Refusal :=
  .next (match s.kernels.get? h with
    | none => s
    | some k =>
      if k.stop.isSome then s
      else if k.state = .dispatching ∧ s.dispatches k.ctx = true then s.placeEach h cores
      else if !s.candidateKern k then s
      else if s.admitCause k.ctx k.krec ≠ 0 then
        (if s.kernels.any fun e => s.servable e.2 && s.before e.2 k then s else s.kernelEnd h .faulted (s.admitCause k.ctx k.krec) 0 false)
      else if !s.roomFor k || s.kernels.any fun e => s.servable e.2 && s.before e.2 k then s
      else
        let s1 := if Krec.coresident k.krec then (s.placeAll h cores).getD s else s.placeEach h cores
        match k.queue with
        | some q => if (s1.kern h).state = .queued then s1 else { s1 with regs := { s1.regs with rrQueue := (q + 1) % Config.queues } }
        | none => s1)

/-! ### QUIET (R138, R141) -/

/-- A draining kernel ends COMPLETE, and one that is being stopped ends as its stop says (R137); a kernel whose completion word waits for its page
tries again (R139). -/
def execKernelQuiet (h : Nat) (s : State) : Host.Outcome State Fault Refusal :=
  .next (let s := s.settleGone h
    match s.kernels.get? h with
    | none => s
    | some k =>
      if k.donePend then (s.finishEnd h).sweepKernels
      else if k.stop.isSome then s.stopOver h
      else if k.state = .draining ∧ s.quiet h = true then s.kernelEnd h .complete 0 0 false else s)

/-! ### Pre-emption by the dispatcher (R168) -/

/-- Since when each kernel has been QUEUED without room on any core. -/
def State.roomStamps (s : State) : State :=
  { s with kernels := s.kernels.mapVals fun _ k =>
      { k with roomless := if k.state == .queued && !s.coreRoom k then some (k.roomless.getD s.clk) else none } }

/-- A request of the dispatcher is in force. -/
def State.dispatcherBusy (s : State) : Bool := s.wgs.any fun e => match e.2.preempt with
  | some p => !p.bySuspend
  | none => false

/-- The workgroup to take: of a running kernel of lower priority that is not co-resident, the one placed most recently. -/
def State.preemptVictim (s : State) (prio : Nat) : Option Nat :=
  ((s.wgs.filter fun e =>
    let k := s.kern e.2.kernel
    !e.2.ended && e.2.preempt.isNone && k.prio < prio && !Krec.coresident k.krec && (k.state == .running || k.state == .dispatching)).foldl
    (fun (b : Option (Nat × Nat)) e => match b with
      | some (t, w) => if t ≤ e.2.placed then some (e.2.placed, e.1) else some (t, w)
      | none => some (e.2.placed, e.1)) none).map Prod.snd

def execDispatchPreempt (h : Nat) (s : State) : Host.Outcome State Fault Refusal :=
  .next (match s.kernels.get? h with
    | none => s
    | some k =>
      let due := match k.roomless with
        | some t => t + max 1 s.regs.pcWait.toNat * Config.clkPerUs ≤ s.clk
        | none => false
      if !s.regs.pcEnable || k.state ≠ .queued || k.stop.isSome || Krec.coresident k.krec || !due || s.coreRoom k || s.dispatcherBusy then s
      else match s.preemptVictim k.prio with
        | some w => s.requestPreempt w (max 1 s.regs.pcBound.toNat * Config.clkPerUs) 0 false
        | none => s)

end Sys2Proof.Machine
end

