-- ==== Sys2Proof/Machine/Logic.lean ====
section
/-!
DEFINITION. Group 0x2, logic and bit operations (spec/08_thread.md R212 to R214).
-/
namespace Sys2Proof.Machine
open Sys2Proof

/-- A bitwise result with its interval. -/
def wordRes (w : Word) (e : Intv) : Int × Intv := (w.toInt, e)

def execAnd (g : Guard) (o : Alu2) (s : State) : Host.Outcome State Fault Refusal :=
  perLane (.and g o) 1 (fun t => t.bin o fun a b => wordRes (a.val &&& b.val) (andIv a b)) s

def execOr (g : Guard) (o : Alu2) (s : State) : Host.Outcome State Fault Refusal :=
  perLane (.or g o) 1 (fun t => t.bin o fun a b => wordRes (a.val ||| b.val) full) s

def execXor (g : Guard) (o : Alu2) (s : State) : Host.Outcome State Fault Refusal :=
  perLane (.xor g o) 1 (fun t => t.bin o fun a b => wordRes (a.val ^^^ b.val) full) s

def execAndn (g : Guard) (o : Alu2) (s : State) : Host.Outcome State Fault Refusal :=
  perLane (.andn g o) 1 (fun t => t.bin o fun a b => wordRes (a.val &&& ~~~b.val) full) s

def execNot (g : Guard) (o : Alu1) (s : State) : Host.Outcome State Fault Refusal :=
  perLane (.not g o) 1 (fun t => t.un o fun a => wordRes (~~~a.val) full) s

/-- Bit i is the table's bit A[i] + 2 B[i] + 4 C[i]. -/
def blutWord (lut : BitVec 8) (a b c : Word) : Word :=
  let pick := fun (k : Nat) (x y z : Word) => if lut.getLsbD k then x &&& y &&& z else 0
  pick 0 (~~~a) (~~~b) (~~~c) ||| pick 1 a (~~~b) (~~~c) ||| pick 2 (~~~a) b (~~~c) ||| pick 3 a b (~~~c) |||
  pick 4 (~~~a) (~~~b) c ||| pick 5 a (~~~b) c ||| pick 6 (~~~a) b c ||| pick 7 a b c

def execBlut (g : Guard) (o : Alu3) (lut : BitVec 8) (s : State) : Host.Outcome State Fault Refusal :=
  perLane (.blut g o lut) 1 (fun t => t.tri o fun a b c => wordRes (blutWord lut a.val b.val c.val) full) s

/-- The shift count: bits 4 to 0 of B. -/
def shCount (b : Opd) : Nat := b.val.toNat % 32

def execShl (g : Guard) (o : Alu2) (s : State) : Host.Outcome State Fault Refusal :=
  perLane (.shl g o) 1 (fun t => t.bin o fun a b => wordRes (a.val <<< shCount b) (shlIv a b)) s

def execShr (g : Guard) (o : Alu2) (s : State) : Host.Outcome State Fault Refusal :=
  perLane (.shr g o) 1 (fun t => t.bin o fun a b => wordRes (a.val >>> shCount b) (shrIv a b)) s

def execSar (g : Guard) (o : Alu2) (s : State) : Host.Outcome State Fault Refusal :=
  perLane (.sar g o) 1 (fun t => t.bin o fun a b => (a.i / 2 ^ shCount b, sarIv a b)) s

def execRol (g : Guard) (o : Alu2) (s : State) : Host.Outcome State Fault Refusal :=
  perLane (.rol g o) 1 (fun t => t.bin o fun a b => wordRes (a.val.rotateLeft (shCount b)) full) s

/-- Bits of a word, lowest first. -/
def wordBits (w : Word) : List Bool := (List.range 32).map w.getLsbD

def execBcnt (g : Guard) (o : Alu1) (s : State) : Host.Outcome State Fault Refusal :=
  perLane (.bcnt g o) 1 (fun t => t.un o fun a => ((((wordBits a.val).filter id).length : Nat), ⟨0, 32⟩)) s

def execClz (g : Guard) (o : Alu1) (s : State) : Host.Outcome State Fault Refusal :=
  perLane (.clz g o) 1 (fun t => t.un o fun a => ((((wordBits a.val).reverse.takeWhile not).length : Nat), ⟨0, 32⟩)) s

def execCtz (g : Guard) (o : Alu1) (s : State) : Host.Outcome State Fault Refusal :=
  perLane (.ctz g o) 1 (fun t => t.un o fun a => ((((wordBits a.val).takeWhile not).length : Nat), ⟨0, 32⟩)) s

def execBitrev (g : Guard) (o : Alu1) (s : State) : Host.Outcome State Fault Refusal :=
  perLane (.bitrev g o) 1 (fun t => t.un o fun a => wordRes a.val.reverse full) s

/-- Position and width of a field (R214). -/
def fieldPos (b : Word) : Nat := b.toNat % 32
def fieldWidth (b : Word) : Nat := min (fieldW b) (32 - fieldPos b)

/-- The field that `BFE` extracts. -/
def bfeVal (sgn : Bool) (a b : Word) : Int :=
  let w := fieldWidth b
  let f : Nat := a.toNat / 2 ^ fieldPos b % 2 ^ w
  if w = 0 then 0 else if sgn then sext f w else f

def execBfe (g : Guard) (sgn : Bool) (o : Alu2) (s : State) : Host.Outcome State Fault Refusal :=
  perLane (.bfe g sgn o) 1 (fun t => t.bin o fun a b => (bfeVal sgn a.val b.val, bfeIv sgn b)) s

/-- C with its field replaced by the low bits of A. -/
def bfiVal (a b c : Word) : Word :=
  let m : Word := .ofNat 32 ((2 ^ fieldWidth b - 1) * 2 ^ fieldPos b)
  (c &&& ~~~m) ||| ((a <<< fieldPos b) &&& m)

def execBfi (g : Guard) (o : Alu3) (s : State) : Host.Outcome State Fault Refusal :=
  perLane (.bfi g o) 1 (fun t => t.tri o fun a b c => wordRes (bfiVal a.val b.val c.val) full) s

end Sys2Proof.Machine
end

