-- ==== Sys2Proof/Machine/Packed.lean ====
section
/-!
DEFINITION. Group 0x6: packed narrow arithmetic (spec/09_vector.md R247 to R251).
-/
namespace Sys2Proof.Machine
open Sys2Proof

/-- Both elements of packed registers, in a 16-bit format. -/
def pk1 (p : Fp) (f : Num → Num → Num → Num) (a b c : Word) : Word :=
  halves (fun x y z => encodeFp p (f (decodeFp p x) (decodeFp p y) (decodeFp p z))) a b c

def Thread.pk (t : Thread) (p : Fp) (d a b c : Field) (f : Num → Num → Num → Num) : Thread :=
  t.fput d (pk1 p f (t.val a) (t.val b) (t.val c))

def execH2add (g : Guard) (r : Rnd) (d a b : Field) (s : State) : Host.Outcome State Fault Refusal :=
  perLane (.h2add g r d a b) 1 (fun t => t.pk fp16 d a b b fun x y _ => addRnd fp16 r x y) s

def execH2mul (g : Guard) (r : Rnd) (d a b : Field) (s : State) : Host.Outcome State Fault Refusal :=
  perLane (.h2mul g r d a b) 1 (fun t => t.pk fp16 d a b b fun x y _ => mulRnd fp16 r x y) s

def execH2fma (g : Guard) (r : Rnd) (d a b c : Field) (s : State) : Host.Outcome State Fault Refusal :=
  perLane (.h2fma g r d a b c) 1 (fun t => t.pk fp16 d a b c fun x y z => fmaRnd fp16 r x y z) s

def execB2add (g : Guard) (r : Rnd) (d a b : Field) (s : State) : Host.Outcome State Fault Refusal :=
  perLane (.b2add g r d a b) 1 (fun t => t.pk fpBf16 d a b b fun x y _ => addRnd fpBf16 r x y) s

def execB2mul (g : Guard) (r : Rnd) (d a b : Field) (s : State) : Host.Outcome State Fault Refusal :=
  perLane (.b2mul g r d a b) 1 (fun t => t.pk fpBf16 d a b b fun x y _ => mulRnd fpBf16 r x y) s

def execB2fma (g : Guard) (r : Rnd) (d a b c : Field) (s : State) : Host.Outcome State Fault Refusal :=
  perLane (.b2fma g r d a b c) 1 (fun t => t.pk fpBf16 d a b c fun x y z => fmaRnd fpBf16 r x y z) s

def execPkminmax (g : Guard) (max bf : Bool) (d a b : Field) (s : State) : Host.Outcome State Fault Refusal :=
  perLane (.pkminmax g max bf d a b) 1 (fun t =>
    let p := if bf then fpBf16 else fp16
    t.fput d (halves (fun x y _ => minMax p max x y) (t.val a) (t.val b) 0)) s

def execF8dot (g : Guard) (ae5 be5 : Bool) (d a b c : Field) (s : State) : Host.Outcome State Fault Refusal :=
  perLane (.f8dot g ae5 be5 d a b c) 1 (fun t =>
    let f := fun (e5 : Bool) => if e5 then Fmt.e5m2 else Fmt.e4m3
    t.fput d (f8dotWord (f ae5) (f be5) (t.val a) (t.val b) (t.val c))) s

def execI8dot (g : Guard) (ua ub : Bool) (d a b c : Field) (s : State) : Host.Outcome State Fault Refusal :=
  perLane (.i8dot g ua ub d a b c) 1 (fun t => t.fput d (i8dotWord ua ub (t.val a) (t.val b) (t.val c))) s

/-- The eight half-words that `VQDEC` writes (R250). -/
def vqdecPat (f16 : Bool) (code entry blk : Nat) (scale : Word) : Nat :=
  let p := if f16 then fp16 else fpBf16
  packCodes 16 ((decodeVq2 code entry).map fun w => encodeFp p (roundFp p .rn (scaled w (some blk) (f32 scale))))

def execVqdec (g : Guard) (hi f16 : Bool) (d a b : Field) (slot : Nat) (s : State) : Host.Outcome State Fault Refusal :=
  issue (.vqdec g hi f16 d a b slot) 4 (fun act s1 =>
    let w := s.iwg
    let va := Krec.codebook s.ikrec slot
    if act = [] then .ok s1
    else match (s.core w.core).book w.kernel slot with
    | none => match s.readBook w.core w.ctx va with
      | .bytes _ _ => .wait (s.setThreads s.issue.wid act fun _ t => t.waitAt s.issue.pc (.codebook slot false s.clk none s.origin))
      | .miss _ _ => .wait (s.setThreads s.issue.wid act fun _ t => t.waitAt s.issue.pc (.codebook slot false s.clk none s.origin))
      | .page s2 => .trapIn s2 { cause := Cause.page, mask := act, addr := va }
      | .ue l => trapAll act Cause.ue 0 l
    | some book =>
      .ok ((s1.setThreads s.issue.wid act fun _ t =>
        let c := (t.val a).toNat / (if hi then 65536 else 1) % 65536
        t.writeN d 4 (vqdecPat f16 c (s.bookEntry w.ctx va book (c / 256)) ((t.val b).toNat % 256)
          (.ofNat 32 (Krec.fslot s.ikrec slot / 2 ^ 32)))).spendBook)) s

def execAmax (g : Guard) (f : AmaxFmt) (d a b : Field) (s : State) : Host.Outcome State Fault Refusal :=
  perLane (.amax g f d a b) 1 (fun t =>
    let v := t.val a
    let half := fun (p : Fp) => [decodeFp p (v.toNat % 65536), decodeFp p (v.toNat / 65536)]
    let els := match f with
      | .f32 => [f32 v]
      | .bf16x2 => half fpBf16
      | .f16x2 => half fp16
    t.fput d (amaxWord els (t.val b))) s

end Sys2Proof.Machine
end

