-- ==== Sys2Proof/Machine/Dispatch.lean ====
section
/-!
DEFINITION. One arm for each instruction: a direct call of its meaning.
-/
namespace Sys2Proof.Machine
open Sys2Proof

def exec (i : Instr) (s : State) : Host.Outcome State Fault Refusal :=
  match i with
  | .blockEnd => Sys2Proof.Machine.execBlockEnd s
  | .nop g => Sys2Proof.Machine.execNop g s
  | .bra g off => Sys2Proof.Machine.execBra g off s
  | .brc g c a b => Sys2Proof.Machine.execBrc g c a b s
  | .brp g all p off => Sys2Proof.Machine.execBrp g all p off s
  | .brx g a off => Sys2Proof.Machine.execBrx g a off s
  | .brxAbs g a => Sys2Proof.Machine.execBrxAbs g a s
  | .call g d off => Sys2Proof.Machine.execCall g d off s
  | .callx g d a => Sys2Proof.Machine.execCallx g d a s
  | .ret g a => Sys2Proof.Machine.execRet g a s
  | .join g => Sys2Proof.Machine.execJoin g s
  | .exit g => Sys2Proof.Machine.execExit g s
  | .yield g => Sys2Proof.Machine.execYield g s
  | .sleep g n => Sys2Proof.Machine.execSleep g n s
  | .iadd g o => Sys2Proof.Machine.execIadd g o s
  | .isub g o => Sys2Proof.Machine.execIsub g o s
  | .imul g o => Sys2Proof.Machine.execImul g o s
  | .imulh g u o => Sys2Proof.Machine.execImulh g u o s
  | .imad g o => Sys2Proof.Machine.execImad g o s
  | .ineg g o => Sys2Proof.Machine.execIneg g o s
  | .iabs g o => Sys2Proof.Machine.execIabs g o s
  | .imin g o => Sys2Proof.Machine.execImin g o s
  | .imax g o => Sys2Proof.Machine.execImax g o s
  | .iminu g o => Sys2Proof.Machine.execIminu g o s
  | .imaxu g o => Sys2Proof.Machine.execImaxu g o s
  | .isad g o => Sys2Proof.Machine.execIsad g o s
  | .and g o => Sys2Proof.Machine.execAnd g o s
  | .or g o => Sys2Proof.Machine.execOr g o s
  | .xor g o => Sys2Proof.Machine.execXor g o s
  | .andn g o => Sys2Proof.Machine.execAndn g o s
  | .not g o => Sys2Proof.Machine.execNot g o s
  | .blut g o lut => Sys2Proof.Machine.execBlut g o lut s
  | .shl g o => Sys2Proof.Machine.execShl g o s
  | .shr g o => Sys2Proof.Machine.execShr g o s
  | .sar g o => Sys2Proof.Machine.execSar g o s
  | .rol g o => Sys2Proof.Machine.execRol g o s
  | .bcnt g o => Sys2Proof.Machine.execBcnt g o s
  | .clz g o => Sys2Proof.Machine.execClz g o s
  | .ctz g o => Sys2Proof.Machine.execCtz g o s
  | .bitrev g o => Sys2Proof.Machine.execBitrev g o s
  | .bfe g sr o => Sys2Proof.Machine.execBfe g sr o s
  | .bfi g o => Sys2Proof.Machine.execBfi g o s
  | .icmp g c pd a b => Sys2Proof.Machine.execIcmp g c pd a b s
  | .icmpu g c pd a b => Sys2Proof.Machine.execIcmpu g c pd a b s
  | .pset g tt pd pa pb => Sys2Proof.Machine.execPset g tt pd pa pb s
  | .pmov g d => Sys2Proof.Machine.execPmov g d s
  | .pmovW g a mask => Sys2Proof.Machine.execPmovW g a mask s
  | .clamp g d a b => Sys2Proof.Machine.execClamp g d a b s
  | .widen g d lo hi => Sys2Proof.Machine.execWiden g d lo hi s
  | .intvSet g d a b => Sys2Proof.Machine.execIntvSet g d a b s
  | .intvChk g d lo hi => Sys2Proof.Machine.execIntvChk g d lo hi s
  | .intvGet g d a => Sys2Proof.Machine.execIntvGet g d a s
  | .intvUn g d a => Sys2Proof.Machine.execIntvUn g d a s
  | .mov g w d a => Sys2Proof.Machine.execMov g w d a s
  | .movi g d v => Sys2Proof.Machine.execMovi g d v s
  | .sel g o p => Sys2Proof.Machine.execSel g o p s
  | .cvt g tgt src r sat elem d a => Sys2Proof.Machine.execCvt g tgt src r sat elem d a s
  | .cvtq g d a slot => Sys2Proof.Machine.execCvtq g d a slot s
  | .xlane g m d a b mask => Sys2Proof.Machine.execXlane g m d a b mask s
  | .pcoll g m pd d pa mask => Sys2Proof.Machine.execPcoll g m pd d pa mask s
  | .lreduce g op d a mask => Sys2Proof.Machine.execLreduce g op d a mask s
  | .lscan g op excl d a mask => Sys2Proof.Machine.execLscan g op excl d a mask s
  | .xeq g b64 d a mask => Sys2Proof.Machine.execXeq g b64 d a mask s
  | .sread g d sel => Sys2Proof.Machine.execSread g d sel s
  | .getf g d slot word => Sys2Proof.Machine.execGetf g d slot word s
  | .fadd g r o => Sys2Proof.Machine.execFadd g r o s
  | .fsub g r o => Sys2Proof.Machine.execFsub g r o s
  | .fmul g r o => Sys2Proof.Machine.execFmul g r o s
  | .ffma g r o => Sys2Proof.Machine.execFfma g r o s
  | .fmin g o => Sys2Proof.Machine.execFmin g o s
  | .fmax g o => Sys2Proof.Machine.execFmax g o s
  | .fcmp g c pd a b => Sys2Proof.Machine.execFcmp g c pd a b s
  | .frnd g r o => Sys2Proof.Machine.execFrnd g r o s
  | .frcp g o => Sys2Proof.Machine.execFrcp g o s
  | .frsq g o => Sys2Proof.Machine.execFrsq g o s
  | .fsqrt g o => Sys2Proof.Machine.execFsqrt g o s
  | .fexp2 g o => Sys2Proof.Machine.execFexp2 g o s
  | .flog2 g o => Sys2Proof.Machine.execFlog2 g o s
  | .fsin g o => Sys2Proof.Machine.execFsin g o s
  | .fcos g o => Sys2Proof.Machine.execFcos g o s
  | .ftanh g o => Sys2Proof.Machine.execFtanh g o s
  | .dadd g r negb d a b => Sys2Proof.Machine.execDadd g r negb d a b s
  | .dmul g r d a b => Sys2Proof.Machine.execDmul g r d a b s
  | .dfma g r d a b c => Sys2Proof.Machine.execDfma g r d a b c s
  | .dcmp g c pd a b => Sys2Proof.Machine.execDcmp g c pd a b s
  | .h2add g r d a b => Sys2Proof.Machine.execH2add g r d a b s
  | .h2mul g r d a b => Sys2Proof.Machine.execH2mul g r d a b s
  | .h2fma g r d a b c => Sys2Proof.Machine.execH2fma g r d a b c s
  | .b2add g r d a b => Sys2Proof.Machine.execB2add g r d a b s
  | .b2mul g r d a b => Sys2Proof.Machine.execB2mul g r d a b s
  | .b2fma g r d a b c => Sys2Proof.Machine.execB2fma g r d a b c s
  | .pkminmax g max bf d a b => Sys2Proof.Machine.execPkminmax g max bf d a b s
  | .f8dot g ae5 be5 d a b c => Sys2Proof.Machine.execF8dot g ae5 be5 d a b c s
  | .i8dot g ua ub d a b c => Sys2Proof.Machine.execI8dot g ua ub d a b c s
  | .vqdec g hi f16 d a b slot => Sys2Proof.Machine.execVqdec g hi f16 d a b slot s
  | .amax g f d a b => Sys2Proof.Machine.execAmax g f d a b s
  | .ld g sz sgn d m => Sys2Proof.Machine.execLd g sz sgn d m s
  | .st g sz m sr => Sys2Proof.Machine.execSt g sz m sr s
  | .ldu g sz sgn d m => Sys2Proof.Machine.execLdu g sz sgn d m s
  | .lds g sz sgn d x off w => Sys2Proof.Machine.execLds g sz sgn d x off w s
  | .sts g sz x off w sr => Sys2Proof.Machine.execSts g sz x off w sr s
  | .ldp g sz sgn d x off core w => Sys2Proof.Machine.execLdp g sz sgn d x off core w s
  | .stp g sz x off core w sr => Sys2Proof.Machine.execStp g sz x off core w sr s
  | .ldXs g d m => Sys2Proof.Machine.execLdXs g d m s
  | .stXs g m sr => Sys2Proof.Machine.execStXs g m sr s
  | .lda g sz sgn d va off w => Sys2Proof.Machine.execLda g sz sgn d va off w s
  | .sta g sz va off w sr => Sys2Proof.Machine.execSta g sz va off w sr s
  | .pref g l2 m => Sys2Proof.Machine.execPref g l2 m s
  | .resv g m => Sys2Proof.Machine.execResv g m s
  | .resvClr g m => Sys2Proof.Machine.execResvClr g m s
  | .cctl g op va count => Sys2Proof.Machine.execCctl g op va count s
  | .arraySet g k a => Sys2Proof.Machine.execArraySet g k a s
  | .arrayGet g d k => Sys2Proof.Machine.execArrayGet g d k s
  | .arrayChk g keep d => Sys2Proof.Machine.execArrayChk g keep d s
  | .tktLd g try_ d m => Sys2Proof.Machine.execTktLd g try_ d m s
  | .tktRdv g sz nf d t xo => Sys2Proof.Machine.execTktRdv g sz nf d t xo s
  | .tktRds g nf d t xs => Sys2Proof.Machine.execTktRds g nf d t xs s
  | .tktPoll g pd t => Sys2Proof.Machine.execTktPoll g pd t s
  | .tktWaitany g d xa count ps => Sys2Proof.Machine.execTktWaitany g d xa count ps s
  | .tktDrop g stat t => Sys2Proof.Machine.execTktDrop g stat t s
  | .tktStat g d t => Sys2Proof.Machine.execTktStat g d t s
  | .atom g op d m sr => Sys2Proof.Machine.execAtom g op d m sr s
  | .red g op m sr => Sys2Proof.Machine.execRed g op m sr s
  | .cas g d k x off w new cmp => Sys2Proof.Machine.execCas g d k x off w new cmp s
  | .atoms g op d x f w sr => Sys2Proof.Machine.execAtoms g op d x f w sr s
  | .cass g d x off w new cmp => Sys2Proof.Machine.execCass g d x off w new cmp s
  | .fence g o sc remote => Sys2Proof.Machine.execFence g o sc remote s
  | .waita g d k x b off w => Sys2Proof.Machine.execWaita g d k x b off w s
  | .lineClr g m => Sys2Proof.Machine.execLineClr g m s
  | .mma g d x fa fb mc => Sys2Proof.Machine.execMma g d x fa fb mc s
  | .mmaSp g d x ka kb fa fb mc => Sys2Proof.Machine.execMmaSp g d x ka kb fa fb mc s
  | .mmaMcr g d x ka kb fa fb => Sys2Proof.Machine.execMmaMcr g d x ka kb fa fb s
  | .accZero g d x => Sys2Proof.Machine.execAccZero g d x s
  | .accLd g d x => Sys2Proof.Machine.execAccLd g d x s
  | .accSt g d x => Sys2Proof.Machine.execAccSt g d x s
  | .accCvt g d x slot r sat => Sys2Proof.Machine.execAccCvt g d x slot r sat s
  | .accAmax g d x => Sys2Proof.Machine.execAccAmax g d x s
  | .xfer g d x c we => Sys2Proof.Machine.execXfer g d x c we s
  | .xferIm2c g d x c we fresh => Sys2Proof.Machine.execXferIm2c g d x c we fresh s
  | .xferGath g d x c we => Sys2Proof.Machine.execXferGath g d x c we s
  | .xferScat g d x c => Sys2Proof.Machine.execXferScat g d x c s
  | .xferUnpk g d x c we => Sys2Proof.Machine.execXferUnpk g d x c we s
  | .xferPack g d x c => Sys2Proof.Machine.execXferPack g d x c s
  | .xferMcast g d x c we mask => Sys2Proof.Machine.execXferMcast g d x c we mask s
  | .xferPref g d x c pl => Sys2Proof.Machine.execXferPref g d x c pl s
  | .xferPagein g d x pl => Sys2Proof.Machine.execXferPagein g d x pl s
  | .lockQ g d r n => Sys2Proof.Machine.execLockQ g d r n s
  | .granFill g x n => Sys2Proof.Machine.execGranFill g x n s
  | .granEmpty g x n => Sys2Proof.Machine.execGranEmpty g x n s
  | .barArr g d b => Sys2Proof.Machine.execBarArr g d b s
  | .barWait g a => Sys2Proof.Machine.execBarWait g a s
  | .barSync g b => Sys2Proof.Machine.execBarSync g b s
  | .barTry g pd a => Sys2Proof.Machine.execBarTry g pd a s
  | .barCnt g d b => Sys2Proof.Machine.execBarCnt g d b s
  | .elect g pd gang => Sys2Proof.Machine.execElect g pd gang s
  | .klaunch g d a => Sys2Proof.Machine.execKlaunch g d a s
  | .kjoin g poll d a => Sys2Proof.Machine.execKjoin g poll d a s
  | .kkill g d a => Sys2Proof.Machine.execKkill g d a s
  | .qpost g d q a => Sys2Proof.Machine.execQpost g d q a s
  | .qstat g d q => Sys2Proof.Machine.execQstat g d q s
  | .ctxRd g d sel => Sys2Proof.Machine.execCtxRd g d sel s
  | .ctxWr g sel a => Sys2Proof.Machine.execCtxWr g sel a s
  | .pageMap g d a img => Sys2Proof.Machine.execPageMap g d a img s
  | .pageMapAlloc g d a img => Sys2Proof.Machine.execPageMapAlloc g d a img s
  | .pageMapUpd g d a img => Sys2Proof.Machine.execPageMapUpd g d a img s
  | .pageMapRgn g d a large => Sys2Proof.Machine.execPageMapRgn g d a large s
  | .pageUnmap g d a => Sys2Proof.Machine.execPageUnmap g d a s
  | .pageUnmapRgn g d a => Sys2Proof.Machine.execPageUnmapRgn g d a s
  | .pageRef g d a => Sys2Proof.Machine.execPageRef g d a s
  | .pageUnref g d a => Sys2Proof.Machine.execPageUnref g d a s
  | .pageCopy g d a pool => Sys2Proof.Machine.execPageCopy g d a pool s
  | .pageProbe g d a => Sys2Proof.Machine.execPageProbe g d a s
  | .pageProbeClr g d a => Sys2Proof.Machine.execPageProbeClr g d a s
  | .pageProbeFrame g d a => Sys2Proof.Machine.execPageProbeFrame g d a s
  | .pageInv g d a => Sys2Proof.Machine.execPageInv g d a s
  | .pageInvFail g d a => Sys2Proof.Machine.execPageInvFail g d a s
  | .pagePin g d a => Sys2Proof.Machine.execPagePin g d a s
  | .pagePinClr g d a => Sys2Proof.Machine.execPagePinClr g d a s
  | .trap g code => Sys2Proof.Machine.execTrap g code s
  | .eret g => Sys2Proof.Machine.execEret g s
  | .eretFault g => Sys2Proof.Machine.execEretFault g s
  | .hrd g d kind idx => Sys2Proof.Machine.execHrd g d kind idx s
  | .hwr g kind idx a => Sys2Proof.Machine.execHwr g kind idx a s
  | .getev g d ps => Sys2Proof.Machine.execGetev g d ps s
  | .bkpt g code => Sys2Proof.Machine.execBkpt g code s
  | .clk g ord d => Sys2Proof.Machine.execClk g ord d s
  | .perf g d n => Sys2Proof.Machine.execPerf g d n s
  | .preemptChk g pd => Sys2Proof.Machine.execPreemptChk g pd s
  | .idiv g words rest => Sys2Proof.Machine.execIdiv g words rest s
  | .irem g words rest => Sys2Proof.Machine.execIrem g words rest s
  | .settledTrap wid t => Sys2Proof.Machine.execSettledTrap wid t s
  | .deferredTrap wid t => Sys2Proof.Machine.execDeferredTrap wid t s
  | .deviceReset stks dies ics => Sys2Proof.Machine.execDeviceReset stks dies ics s
  | .unitFailure u => Sys2Proof.Machine.execUnitFailure u s
  | .computeDieLoss die => Sys2Proof.Machine.execComputeDieLoss die s
  | .interchangeDieLoss ic => Sys2Proof.Machine.execInterchangeDieLoss ic s
  | .channelRetire stack ch => Sys2Proof.Machine.execChannelRetire stack ch s
  | .capacityPortDown port => Sys2Proof.Machine.execCapacityPortDown port s
  | .hostLinkDown => Sys2Proof.Machine.execHostLinkDown s
  | .ctxCreate id => Sys2Proof.Machine.execCtxCreate id s
  | .ctxActivate id => Sys2Proof.Machine.execCtxActivate id s
  | .ctxSuspend id => Sys2Proof.Machine.execCtxSuspend id s
  | .ctxSuspendDone id => Sys2Proof.Machine.execCtxSuspendDone id s
  | .ctxResume id => Sys2Proof.Machine.execCtxResume id s
  | .ctxTeardown id => Sys2Proof.Machine.execCtxTeardown id s
  | .ctxRelease id => Sys2Proof.Machine.execCtxRelease id s
  | .ctxRecordHostWrite id sel v => Sys2Proof.Machine.execCtxRecordHostWrite id sel v s
  | .queueBind q => Sys2Proof.Machine.execQueueBind q s
  | .queueStart q => Sys2Proof.Machine.execQueueStart q s
  | .queueStop q => Sys2Proof.Machine.execQueueStop q s
  | .queueUnbind q => Sys2Proof.Machine.execQueueUnbind q s
  | .recordParse q => Sys2Proof.Machine.execRecordParse q s
  | .kernelSelect h cores => Sys2Proof.Machine.execKernelSelect h cores s
  | .kernelQuiet h => Sys2Proof.Machine.execKernelQuiet h s
  | .dispatchPreempt h => Sys2Proof.Machine.execDispatchPreempt h s
  | .drainTimeout wid => Sys2Proof.Machine.execDrainTimeout wid s
  | .wgSave wid => Sys2Proof.Machine.execWgSave wid s
  | .wgFlush wid => Sys2Proof.Machine.execWgFlush wid s
  | .wgRestore wids => Sys2Proof.Machine.execWgRestore wids s
  | .eligibleStarvation core bay => Sys2Proof.Machine.execEligibleStarvation core bay s
  | .joinTimeout wid gang => Sys2Proof.Machine.execJoinTimeout wid gang s
  | .gangDeadlock wid gang => Sys2Proof.Machine.execGangDeadlock wid gang s
  | .barrierDeadlockWg wid => Sys2Proof.Machine.execBarrierDeadlockWg wid s
  | .barrierDeadlockUpper h b unit => Sys2Proof.Machine.execBarrierDeadlockUpper h b unit s
  | .sleepExpiry wid t => Sys2Proof.Machine.execSleepExpiry wid t s
  | .producerComplete wid t seq => Sys2Proof.Machine.execProducerComplete wid t seq s
  | .l1WriteBack core line => Sys2Proof.Machine.execL1WriteBack core line s
  | .recordRegister core line => Sys2Proof.Machine.execRecordRegister core line s
  | .drainComplete slice core => Sys2Proof.Machine.execDrainComplete slice core s
  | .acquireAtHome wid t seq => Sys2Proof.Machine.execAcquireAtHome wid t seq s
  | .remotePromotion wid t => Sys2Proof.Machine.execRemotePromotion wid t s
  | .atomicPerform wid t seq => Sys2Proof.Machine.execAtomicPerform wid t seq s
  | .waitaPoll wid t => Sys2Proof.Machine.execWaitaPoll wid t s
  | .waitaTimeout wid t => Sys2Proof.Machine.execWaitaTimeout wid t s
  | .translateRequest wid t seq => Sys2Proof.Machine.execTranslateRequest wid t seq s
  | .pageMissRepost slice page => Sys2Proof.Machine.execPageMissRepost slice page s
  | .grantRequest core id => Sys2Proof.Machine.execGrantRequest core id s
  | .sidingReplay core id => Sys2Proof.Machine.execSidingReplay core id s
  | .pageMigrate core id => Sys2Proof.Machine.execPageMigrate core id s
  | .dirRd slice line => Sys2Proof.Machine.execDirRd slice line s
  | .dirRdx slice line => Sys2Proof.Machine.execDirRdx slice line s
  | .dirWb slice line => Sys2Proof.Machine.execDirWb slice line s
  | .dirDrop slice line => Sys2Proof.Machine.execDirDrop slice line s
  | .dirHomeR line => Sys2Proof.Machine.execDirHomeR line s
  | .dirHomeW line => Sys2Proof.Machine.execDirHomeW line s
  | .dirQueueRetry half => Sys2Proof.Machine.execDirQueueRetry half s
  | .hostDeviceAccess a o => Sys2Proof.Machine.execHostDeviceAccess a o s
  | .ticketAlloc wid t seq => Sys2Proof.Machine.execTicketAlloc wid t seq s
  | .ticketServiced slice entry => Sys2Proof.Machine.execTicketServiced slice entry s
  | .ticketRedeem wid t => Sys2Proof.Machine.execTicketRedeem wid t s
  | .ticketDelivered slice entry => Sys2Proof.Machine.execTicketDelivered slice entry s
  | .ticketDropEvent wid t seq => Sys2Proof.Machine.execTicketDropEvent wid t seq s
  | .ticketAgeScan slice => Sys2Proof.Machine.execTicketAgeScan slice s
  | .xferStart core => Sys2Proof.Machine.execXferStart core s
  | .xferComplete core id => Sys2Proof.Machine.execXferComplete core id s
  | .mmaStart core => Sys2Proof.Machine.execMmaStart core s
  | .multicastTimeout core => Sys2Proof.Machine.execMulticastTimeout core s
  | .mmaComplete core => Sys2Proof.Machine.execMmaComplete core s
  | .engineDeadlock core => Sys2Proof.Machine.execEngineDeadlock core s
  | .codebookRead core h slot => Sys2Proof.Machine.execCodebookRead core h slot s
  | .linkTrain n => Sys2Proof.Machine.execLinkTrain n s
  | .linkRetire n => Sys2Proof.Machine.execLinkRetire n s
  | .linkReset n => Sys2Proof.Machine.execLinkReset n s
  | .upOk n => Sys2Proof.Machine.execUpOk n s
  | .upHalf n lanes => Sys2Proof.Machine.execUpHalf n lanes s
  | .linkFail n why => Sys2Proof.Machine.execLinkFail n why s
  | .linkQuiet n => Sys2Proof.Machine.execLinkQuiet n s
  | .skoenFrameReceive n frame good => Sys2Proof.Machine.execSkoenFrameReceive n frame good s
  | .linkRecalibrate n bad => Sys2Proof.Machine.execLinkRecalibrate n bad s
  | .peerRequest p txn o => Sys2Proof.Machine.execPeerRequest p txn o s
  | .fwInstall => Sys2Proof.Machine.execFwInstall s
  | .fwArm => Sys2Proof.Machine.execFwArm s
  | .fwDisarm => Sys2Proof.Machine.execFwDisarm s
  | .fwWritten => Sys2Proof.Machine.execFwWritten s
  | .fwFailed why => Sys2Proof.Machine.execFwFailed why s
  | .hlthWrite v => Sys2Proof.Machine.execHlthWrite v s
  | .registerWrite off v => Sys2Proof.Machine.execRegisterWrite off v s
  | .powerStateEntry => Sys2Proof.Machine.execPowerStateEntry s
  | .wakeEvent => Sys2Proof.Machine.execWakeEvent s
  | .thermalCrossing die thr up => Sys2Proof.Machine.execThermalCrossing die thr up s
  | .archiveWrite => Sys2Proof.Machine.execArchiveWrite s
  | .hostSnoop snoop => Sys2Proof.Machine.execHostSnoop snoop s
  | .hostLinkUp rate width => Sys2Proof.Machine.execHostLinkUp rate width s
  | .suddenPowerLoss => Sys2Proof.Machine.execSuddenPowerLoss s
  | .eagerDrainComplete wid t => Sys2Proof.Machine.execEagerDrainComplete wid t s

end Sys2Proof.Machine
end

