-- ==== Sys2Proof/Machine/Step.lean ====
section
/-!
DEFINITION. One step of the module: the next turn is taken.  A bay's turn runs the first of its groups that issues; an event's turn runs
the step of the device that it names.
-/
namespace Sys2Proof.Machine
open Sys2Proof

/-- The outcome of a candidate; `none` when its group does not issue. -/
def Cand.result (c : Cand) : Option (Host.Outcome State Fault Refusal) :=
  match c.run with
  | none => some (.next c.s)
  | some i =>
    match exec i c.s with
    | .next t => if t.issue.held then none else some (.next t)
    | r => some r

/-- The candidate takes a trap: it needs the frame of its slot, or it ends the kernel, alone or with its context, in FAULTED.  `ERET.FAULT` does
that without a trap. -/
def Cand.traps (s : State) (c : Cand) : Bool :=
  let h := (s.wg c.wid).kernel
  (match c.run with
    | some (.eretFault _) => false
    | _ => true) && (match c.result with
    | some (.next t) => (!((s.wg c.wid).slot c.k).busy && ((t.wg c.wid).slot c.k).busy) || (!s.faulting h && t.faulting h)
    | _ => false)

/-- Of the candidates of a slot that take traps the one whose group holds the lowest lane goes first (R480). -/
def Cand.first (s : State) (c : Cand) (l : List Cand) : Cand :=
  if c.traps s then (l.filter fun d => d.wid == c.wid && d.k == c.k && d.lane < c.lane && d.traps s).foldl (fun b d => if d.lane < b.lane then d else b) c
  else c

/-- Run the candidates in order until one issues. -/
def tryAll (s : State) : List Cand → Host.Outcome State Fault Refusal
  | [] => .next s
  | c :: l =>
    match (c.first s l).result with
    | some r => r
    | none => tryAll s l

/-- What happens by itself as time passes: the root is built after a reset, dirty bytes and tickets come of age, directory requests are tried
again, waits for room begin or end, and the device has left a power state (R314, R295, R354, R168, R448, R511). -/
def State.tick (s : State) : State := s.boot.agedOut.ageDue.dirRetries.roomStamps.awakeDue

/-- One turn. -/
def turn (s : State) : Turn → Host.Outcome State Fault Refusal
  | .bay c b => let s1 := s.bayReady c b; tryAll s1 (s1.bayCands c b)
  | .event e => if e.isThread then .next s else exec e s
  | .idle n => .next { s with clk := s.clk + n }
  | .hostStore a v => .next (s.hostStore a v)

def step (s : State) : Host.Outcome State Fault Refusal :=
  let (t, s1) := s.popTurn
  turn s1.tick t

/-- The state in which the next step fetches and runs the instruction whose bits are `w` (notes/assumptions/20.md).  A step of the device has
no bits: it is placed by the agenda alone. -/
def State.withFetchWord (s : State) (nbits w : Nat) : State := s.placed (wordsOf 8 (w % 2 ^ nbits))

end Sys2Proof.Machine
end

