-- ==== Sys2Proof/Safety.lean ====
section
/-!
DEFINITION. The terms that statements are made in: canonical memory, a group that is ready to issue, what an issue leaves as it is, and the
registers that a thread's write changes and keeps.
-/
namespace Sys2Proof.Machine
open Sys2Proof

/-! ### Memory -/

/-- Memory stands in its canonical form. -/
def State.memOk (s : State) : Prop := Memory.wf s.mem = true

/-! ### A group that issues -/

/-- The issue group stands ready at instruction `i`, and neither the mode, the kernel's register counts, the format slot nor an FE field stops
it: its threads are distinct threads of a placed workgroup, each is ready (R154, R188, R189), `i` is legal for each (R184, R484), the format
slot that `i` names is one that `i` accepts (R84), and no FE source of an active lane is empty (R45). -/
structure State.Issuable (s : State) (i : Instr) : Prop where
  placed   : s.wgs.has s.issue.wid = true
  distinct : s.issue.lanes.Nodup
  ready    : ∀ n ∈ s.issue.lanes, (s.ithread n).ready i = true
  legal    : ∀ n ∈ s.issue.lanes, limitsOk s.ikrec (s.ithread n).handler i = true
  format   : slotOk s.ikrec i = true
  full     : ∀ n ∈ s.active i, ∀ u, i.uses = some u → ∀ x ∈ u.srcs, srcTraps (s.ithread n) x = false

/-- A thread of the group with its PC at the next instruction (R186) and the clk of this issue noted. -/
def State.stepped (s : State) (n : Nat) : Thread := { s.ithread n with pc := s.nextPc, last := s.clk }

/-- What an issue of cost `cost` that acts on threads only leaves as it is: everything but the clk, the threads of the group, and the counts
of R169 and R493. -/
structure State.Keeps (s t : State) (cost : Nat) : Prop where
  /-- The clk passes by the cost, and no part of the machine but workgroups and performance counters differs. -/
  rest     : t = { s with clk := s.clk + cost, wgs := t.wgs, cores := t.cores }
  /-- Every byte of memory reads as before. -/
  mem      : ∀ a, Memory.read t.mem a = Memory.read s.mem a
  /-- Every other workgroup is as before. -/
  others   : ∀ w, w ≠ s.issue.wid → t.wgs.get? w = s.wgs.get? w
  /-- Of the group's workgroup only threads, slots and the progress count differ: scratchpad, accumulators, array registers and barriers
  are as before. -/
  group    : t.iwg = { s.iwg with threads := t.iwg.threads, slots := t.iwg.slots, progress := min (s.iwg.progress + 1) (2 ^ 32 - 1) }
  /-- The threads that are not of the group are as before. -/
  threads  : ∀ n, n ∉ s.issue.lanes → t.ithread n = s.ithread n
  /-- The slot notes the issue; the other slots are as before. -/
  slots    : ∀ k, t.iwg.slot k = if k = s.issue.slot then { s.iwg.slot k with last := s.clk } else s.iwg.slot k
  /-- Of the cores only the performance counters differ, and of these only the count of issue groups of the group's core. -/
  cores    : ∀ c, t.core c = { s.core c with perf := (t.core c).perf }
  perf     : ∀ c k, (t.core c).perf.getD k 0 =
    if c = s.issue.core ∧ k = 0 then (s.core c).perf.getD k 0 + 1 else (s.core c).perf.getD k 0

/-- `exec i s` answers a next state in which each active lane's thread stands in relation `R` to the thread that only went on to the next
instruction, each other thread of the group only went on, and everything else is as `State.Keeps` says. -/
def State.Runs (s : State) (i : Instr) (cost : Nat) (R : Nat → Thread → Thread → Prop) : Prop :=
  ∃ t, exec i s = .next t ∧ s.Keeps t cost ∧ (∀ n ∈ s.issue.lanes, n ∉ s.active i → t.ithread n = s.stepped n) ∧
    ∀ n ∈ s.active i, R n (s.stepped n) (t.ithread n)

/-- Wherever the group can issue `i`, it runs so. -/
def Lanes (i : Instr) (cost : Nat) (R : State → Nat → Thread → Thread → Prop) : Prop :=
  ∀ s : State, s.Issuable i → s.Runs i cost (R s)

/-- Wherever the group can issue `i` and `P` holds of every active lane's thread, it runs so. -/
def LanesIf (i : Instr) (P : State → Thread → Prop) (cost : Nat) (R : State → Nat → Thread → Thread → Prop) : Prop :=
  ∀ s : State, s.Issuable i → (∀ n ∈ s.active i, P s (s.ithread n)) → s.Runs i cost (R s)

/-- Where the group can issue `i` and `bad` holds of the thread of some active lane, the group takes a trap of cause `c`: its mask the lanes of
which `bad` holds, its address that of the first of them. -/
def TrapsAt (i : Instr) (s : State) (bad : Thread → Bool) (c : Nat) (addr : Thread → Nat) : Prop :=
  s.Issuable i → ∀ t l, (s.active i).filter (fun n => bad (s.ithread n)) = t :: l →
    exec i s = .next (s.trapIssue { cause := c, mask := t :: l, addr := addr (s.ithread t) })

/-! ### What a thread's write changes -/

/-- Nothing of a thread but its registers differs: PC, producers, holds, errors, mode, predicates pending and reports are as before. -/
def Thread.SameButRegs (t u : Thread) : Prop :=
  u = { t with regs := u.regs, bank := u.bank, o := u.o, l0 := u.l0, l1 := u.l1 }

/-- Of the two register sets only the one that main-tier fields name differs (R484). -/
def Thread.OtherBank (t u : Thread) : Prop := if t.handler then u.regs = t.regs else u.bank = t.bank

/-- The last results after a write of `v` with interval `iv`: `L0` receives it and `L1` the old `L0`; in handler mode both stay
(R50, R484). -/
def Thread.Shifted (t u : Thread) (v : Word) (iv : Intv) : Prop :=
  if t.handler then u.l0 = t.l0 ∧ u.l1 = t.l1 else u.l0 = ⟨v, iv⟩ ∧ u.l1 = t.l0

/-- `u` is `t` after a 32-bit write of `v` to destination `d`: the register that `d` names is full and holds `v`, with the interval `iv` when
it is of class X and FULL otherwise; the last results shift; every other register, predicate and thread field is as before
(R49, R50, R74). -/
structure Thread.Wrote (t u : Thread) (d : Field) (v : Word) (iv : Intv) : Prop where
  rest  : t.SameButRegs u
  bank  : t.OtherBank u
  xs    : ∀ k, u.cur.getX k = if d.tier = .main ∧ d.cls = .x ∧ k = d.idx then ⟨v, iv, true⟩ else t.cur.getX k
  vs    : ∀ k, u.cur.getV k = if d.tier = .main ∧ d.cls = .v ∧ k = d.idx then ⟨v, true⟩ else t.cur.getV k
  preds : u.cur.p = t.cur.p
  opnds : ∀ k, u.getO k = if d.tier = .opnd ∧ k = d.idx then ⟨v, if d.cls = .x then iv else Machine.full⟩ else t.getO k
  last  : t.Shifted u v (if d.cls = .x then iv else Machine.full)

/-- `u` is `t` after a write of `n` V registers from `d` with the 32-bit words of `v`, lowest first (R50, R74). -/
structure Thread.WroteN (t u : Thread) (d : Field) (n v : Nat) : Prop where
  rest  : t.SameButRegs u
  bank  : t.OtherBank u
  xs    : ∀ k, u.cur.getX k = t.cur.getX k
  vs    : ∀ k, u.cur.getV k = if d.idx ≤ k ∧ k < d.idx + n then ⟨.ofNat 32 (v / 2 ^ (32 * (k - d.idx))), true⟩ else t.cur.getV k
  preds : u.cur.p = t.cur.p
  opnds : ∀ k, u.getO k = t.getO k
  last  : t.Shifted u (.ofNat 32 v) Machine.full

/-- `u` is `t` after a write of predicate `k`, and nothing else (R185, R216). -/
structure Thread.WroteP (t u : Thread) (k : Nat) (b : Bool) : Prop where
  rest  : t.SameButRegs u
  bank  : t.OtherBank u
  xs    : u.cur.x = t.cur.x
  vs    : u.cur.v = t.cur.v
  preds : ∀ j, j < 7 → u.cur.p.getLsbD j = if j = k then b else t.cur.p.getLsbD j
  opnds : u.o = t.o
  last  : u.l0 = t.l0 ∧ u.l1 = t.l1

/-! ### Cross-lane instructions (R162, R163, R232) -/

/-- A thread's guard holds for `i`. -/
def State.guards (s : State) (i : Instr) (n : Nat) : Bool :=
  match i.guard? with
  | some g => (s.ithread n).guard g
  | none => true

/-- The active members of thread n's set, when its mask is `m` (R162, R233). -/
def State.members (s : State) (i : Instr) (n : Nat) (m : BitVec 64) : List Nat :=
  (s.iwg.crossSet n m).filter (s.guards i)

/-- Everything that a cross-lane instruction waits for has come: the issue group and the threads held at the rendezvous make whole sets,
whose members agree on them. -/
structure State.Meets (s : State) (mask : Nat → Thread → BitVec 64) : Prop where
  lanes : ∀ n ∈ s.issue.lanes, n ∈ s.meeting
  once  : s.meeting.Nodup
  some  : s.meeting ≠ []
  whole : ∀ n ∈ s.meeting, ∀ u ∈ s.iwg.crossSet n (mask n (s.ithread n)), u ∈ s.meeting
  agree : ∀ n ∈ s.meeting, ∀ u ∈ s.iwg.crossSet n (mask n (s.ithread n)),
    s.iwg.crossSet u (mask u (s.ithread u)) = s.iwg.crossSet n (mask n (s.ithread n))

/-- A thread that leaves the rendezvous: at the next instruction, held no longer, and issued now (R158, R162). -/
def State.arrived (s : State) (n : Nat) : Thread := { s.ithread n with pc := s.nextPc, hold := .none, last := s.clk }

/-- The mask that each thread gives a cross-lane instruction: its operand, or the thread's octet (R232, R239). -/
def crossMask (s : State) : Instr → Option (Nat → Thread → BitVec 64)
  | .xlane _ _ _ _ _ m | .pcoll _ _ _ _ _ m | .xeq _ _ _ _ m | .lreduce _ _ _ _ m | .lscan _ _ _ _ _ m | .elect _ _ (some m) => some (laneMaskOf m)
  | .cvtq _ _ _ _ => some fun n _ => maskOf ((List.range 8).map (n % s.iwg.width / 8 * 8 + ·))
  | _ => none

/-- After a cross-lane instruction: each meeting thread whose guard holds stands in relation `R` to the thread that only left the
rendezvous, each other one only left it, and everything else is as before. -/
structure State.Crossed (s t : State) (i : Instr) (cost : Nat) (R : Nat → Thread → Thread → Prop) : Prop where
  rest   : t = { s with clk := s.clk + cost, wgs := t.wgs, cores := t.cores }
  mem    : ∀ a, Memory.read t.mem a = Memory.read s.mem a
  others : ∀ w, w ≠ s.issue.wid → t.wgs.get? w = s.wgs.get? w
  group  : t.iwg = { s.iwg with threads := t.iwg.threads, slots := t.iwg.slots, progress := min (s.iwg.progress + 1) (2 ^ 32 - 1) }
  away   : ∀ n, n ∉ s.meeting → t.ithread n = s.ithread n
  idle   : ∀ n ∈ s.meeting, s.guards i n = false → t.ithread n = s.arrived n
  active : ∀ n ∈ s.meeting, s.guards i n = true → R n (s.arrived n) (t.ithread n)

/-- Wherever the group can issue the cross-lane instruction `i` and its sets are whole, it executes so. -/
def Crosses (i : Instr) (mask : State → Nat → Thread → BitVec 64) (cost : Nat) (R : State → Nat → Thread → Thread → Prop) : Prop :=
  ∀ s : State, s.Issuable i → s.Meets (mask s) → ∃ t, exec i s = .next t ∧ s.Crossed t i cost (R s)

/-! ### Long-latency producers (R187, R189) -/

/-- `u` is `t` after the start of a producer with destination `d`, status predicate `stat` and work `w`, issued at clk `born`: it stands last in
the thread's list, the registers of `d` are empty, `stat` is pending, and every other register, predicate and thread field is as before. -/
structure Thread.Started (t u : Thread) (d : Option Dst) (stat : Option Nat) (w : Work) (born : Nat) : Prop where
  rest  : u = { t with regs := u.regs, bank := u.bank, pend := u.pend, bpend := u.bpend, prods := u.prods, seq := t.seq + 1 }
  prods : u.prods = t.prods ++ [⟨t.seq, d.map fun x => ⟨x.f.cls, x.f.idx, x.n, t.handler, []⟩, stat, t.handler, w, none, born⟩]
  bank  : t.OtherBank u
  xs    : ∀ k, u.cur.getX k = if (∃ x, d = some x ∧ x.f.cls = .x ∧ x.f.idx ≤ k ∧ k < x.f.idx + x.n)
    then { t.cur.getX k with ful := false } else t.cur.getX k
  vs    : ∀ k, u.cur.getV k = if (∃ x, d = some x ∧ x.f.cls = .v ∧ x.f.idx ≤ k ∧ k < x.f.idx + x.n)
    then { t.cur.getV k with ful := false } else t.cur.getV k
  preds : u.cur.p = t.cur.p
  pends : ∀ k, k < 7 → u.pending k = (decide (stat = some k) || t.pending k)

/-! ### Accesses of one lane (R256, R257) -/

/-- Instruction `i` accesses `n` bytes at the element that lane `l`, the only active one, names through array register `k`: array `a`, whose
element lies inside the extent, at byte address `p`, free of registered ranges. -/
structure State.Hits (s : State) (i : Instr) (l k : Nat) (x : Field) (off : Int) (n : Nat) (write : Bool) (a : Arr) (p : Nat) : Prop where
  issuable : s.Issuable i
  one      : s.active i = [l]
  array    : s.iwg.array l k = a
  low      : 0 ≤ ((s.ithread l).val x).toInt + off
  high     : ((s.ithread l).val x).toInt + off + (max 1 (n / 2 ^ a.esize) : Nat) ≤ a.extent
  addr     : (p : Int) = a.base + (((s.ithread l).val x).toInt + off) * 2 ^ a.esize
  quiet    : s.iwg.acquiring l = false
  unlocked : a.space ≤ 1 → s.meets (if a.space = 0 then .glob p else .scr s.issue.wid p) n write = false

/-- Instruction `i` accesses `n` bytes at byte `p` of the scratchpad of workgroup `o`, which its only active lane `l` names by register `x` and an
offset: aligned, inside the allocation, free of registered ranges and of the accesses of the thread that are not performed yet. -/
structure State.HitsScratch (s : State) (i : Instr) (l : Nat) (x : Field) (off : Int) (n al : Nat) (o : Nat) (write : Option Bool) (p : Nat) :
    Prop where
  issuable : s.Issuable i
  one      : s.active i = [l]
  addr     : (p : Int) = ((s.ithread l).val x).toInt + off
  aligned  : p % al = 0
  high     : p + n ≤ Krec.scratch s.ikrec
  quiet    : s.iwg.acquiring l = false
  unlocked : ∀ w, write = some w → s.meets (.scr o p) n w = false
  free     : (s.ithread l).spotPend s.issue.wid o p n = false

/-! ### Accesses of several lanes (R256 to R259, R265, R268, R275, R277) -/

/-- What an instruction accesses through an array register: the register, the index, its offset, the bytes of the access, whether it writes, whether
the lowest lane of a gang acts for all, the alignment that it asks for, whether it may name spaces other than the global one and the accumulators, and
its order. -/
structure ArrForm where
  k      : Nat
  x      : Field
  off    : Int
  n      : Nat
  write  : Bool
  uni    : Bool
  al     : Nat
  scr    : Bool
  acc    : Bool
  order  : Ord
deriving DecidableEq, Repr

/-- The access of an instruction of groups 0x7 to 0x9 through an array register. -/
def arrForm : Instr → Option ArrForm
  | .ld _ sz _ _ m => some ⟨m.k, m.x, arrOff m, nBytes sz, false, false, 1, true, true, ordOf (Use.wordOf m)⟩
  | .ldu _ sz _ _ m => some ⟨m.k, m.x, arrOff m, nBytes sz, false, true, 1, true, true, ordOf (Use.wordOf m)⟩
  | .ldXs _ _ m => some ⟨m.k, m.x, arrOff m, 16, false, false, 1, true, true, ordOf (Use.wordOf m)⟩
  | .st _ sz m _ => some ⟨m.k, m.x, arrOff m, nBytes sz, true, false, 1, true, true, ordOf (Use.wordOf m)⟩
  | .stXs _ m _ => some ⟨m.k, m.x, arrOff m, 16, true, false, 1, true, true, ordOf (Use.wordOf m)⟩
  | .atom _ _ _ m _ | .red _ _ m _ => (Use.wordOf m).map fun w =>
      ⟨m.k, m.x, arrOff m, nBytes w.size, true, false, nBytes w.size, true, false, atOrd w⟩
  | .cas _ _ k x off w _ _ => some ⟨k, x, off.toInt, nBytes w.size, true, false, nBytes w.size, true, false, atOrd w⟩
  | .waita _ _ k x _ off w => some ⟨k, x, off.toInt, nBytes w.size, false, false, 1, false, false, ⟨w.order, w.scope⟩⟩
  | .lineClr _ m => some ⟨m.k, m.x, arrOff m, 128, true, false, 128, false, false, .relaxed⟩
  | .tktLd _ _ _ m => some ⟨m.k, m.x, arrOff m, 128 * ((Use.wordOf m).map TkW.lines).getD 1, false, false, 128, false, false, .relaxed⟩
  | _ => none

/-- The lane whose index a lane's access uses: its own, or that of the lowest active lane of its gang. -/
def State.leadOf (s : State) (i : Instr) (f : ArrForm) (l : Nat) : Nat :=
  if f.uni then ((s.active i).find? fun u => s.iwg.gangOf u == s.iwg.gangOf l).getD l else l

/-- The index of a lane's element. -/
def State.elemIx (s : State) (i : Instr) (f : ArrForm) (l : Nat) : Int := ((s.ithread (s.leadOf i f l)).val f.x).toInt + f.off

/-- The exact byte address of a lane's element (R256). -/
def State.elemAt (s : State) (i : Instr) (f : ArrForm) (l : Nat) : Int :=
  let a := s.iwg.array l f.k
  a.base + s.elemIx i f l * 2 ^ a.esize

/-- A lane's access lies inside the extent of its array. -/
def State.inside (s : State) (i : Instr) (f : ArrForm) (l : Nat) : Bool :=
  let a := s.iwg.array l f.k
  decide (0 ≤ s.elemIx i f l ∧ s.elemIx i f l + (max 1 (f.n / 2 ^ a.esize) : Nat) ≤ a.extent)

/-- Where a lane that is inside accesses. -/
def State.placeOf (s : State) (i : Instr) (f : ArrForm) (l : Nat) : Option Spot :=
  if s.inside i f l then s.spot (s.iwg.array l f.k) (s.elemAt i f l).toNat else none

/-- The group can issue the array instruction `i`, and no order holds it. -/
structure State.Comes (s : State) (i : Instr) (f : ArrForm) : Prop where
  form     : arrForm i = some f
  issuable : s.Issuable i
  rising   : (s.active i).Pairwise (· < ·)
  order    : ∀ l ∈ s.active i, s.iwg.acquiring l = false ∧ (f.order.rel = true → s.releaseReady s.issue.wid l true = true)

/-- The array instruction `i` reaches the check of R257: its spaces are allowed and its addresses aligned, and each lane's index lies in its
interval. -/
structure State.Checks (s : State) (i : Instr) (f : ArrForm) : Prop where
  comes    : s.Comes i f
  spaces   : ∀ l ∈ s.active i, let a := s.iwg.array l f.k; (a.space = 3 → f.acc = true) ∧ (a.space ≠ 0 → f.scr = true)
  aligned  : ∀ l ∈ s.active i, s.elemAt i f l % f.al = 0 ∧ ((s.iwg.array l f.k).space = 3 → 4 ≤ f.n)
  sound    : ∀ l ∈ s.active i, let e := (s.ithread (s.leadOf i f l)).index f.x; e.2.lo ≤ e.1.toInt ∧ e.1.toInt ≤ e.2.hi

/-- The access goes on for each lane that is inside: bad lanes are masked by their arrays, the place of each exists, and no range is met. -/
structure State.Spread (s : State) (i : Instr) (f : ArrForm) : Prop where
  checks   : s.Checks i f
  masked   : ∀ l ∈ s.active i, s.inside i f l = false → (s.iwg.array l f.k).trap = false
  peers    : ∀ l ∈ s.active i, let a := s.iwg.array l f.k; a.space = 2 → s.peerWg a.peer ≠ none
  unlocked : ∀ l ∈ s.active i, ∀ sp, s.placeOf i f l = some sp → s.meets sp f.n f.write = false

/-- gang.mask_status of gang g after the access: the bits of its bad lanes are set (R257). -/
def State.maskAfter (s : State) (i : Instr) (f : ArrForm) (g : Nat) : BitVec 64 :=
  (s.iwg.gang g).mask ||| maskOf (((s.active i).filter fun l => s.iwg.gangOf l == g && !s.inside i f l).map s.iwg.laneOf)

/-- `u` is `t` after its destination was written with zero, full, and its status predicate with false (R258, R259). -/
structure Thread.Zeroed (t u : Thread) (d : Option Dst) (stat : Option Nat) (iv : Intv) : Prop where
  rest  : u = { t with regs := u.regs, bank := u.bank }
  bank  : t.OtherBank u
  xs    : ∀ k, u.cur.getX k = if (∃ x, d = some x ∧ x.f.cls = .x ∧ k = x.f.idx) then ⟨0, iv, true⟩ else t.cur.getX k
  vs    : ∀ k, u.cur.getV k = if (∃ x, d = some x ∧ x.f.cls = .v ∧ x.f.idx ≤ k ∧ k < x.f.idx + x.n) then ⟨0, true⟩ else t.cur.getV k
  preds : ∀ j, j < 7 → u.cur.p.getLsbD j = if stat = some j then false else t.cur.p.getLsbD j

/-- What an instruction accesses in scratchpad by an offset: index, offset, bytes, the workgroup when there is one, how it meets ranges, and its
order (R277). -/
structure ScrForm where
  x      : Field
  off    : Int
  n      : Nat
  wg     : Option Nat
  write  : Option Bool
  order  : Ord
deriving DecidableEq, Repr

def scrForm (s : State) : Instr → Option ScrForm
  | .lds _ sz _ _ x off w => some ⟨x, off.toInt, nBytes sz, some s.issue.wid, if (w.map ScrW.fe).getD .none = .none then some false else none, ordScr w⟩
  | .ldp _ sz _ _ x off core w => some ⟨x, off.toInt, nBytes sz, s.peerWg core, some false, ordScr (some w)⟩
  | .sts _ sz x off w _ => some ⟨x, off.toInt, nBytes sz, some s.issue.wid, some true, ordScr w⟩
  | .stp _ sz x off core w _ => some ⟨x, off.toInt, nBytes sz, s.peerWg core, some true, ordScr (some w)⟩
  | .atoms _ _ _ x o w _ =>
    some ⟨x, scratchOff o, nBytes w.size, match w.peer with
      | some c => s.peerWg c
      | none => some s.issue.wid, some true, atOrd w⟩
  | .cass _ _ x off w _ _ =>
    some ⟨x, off.toInt, nBytes w.size, match w.peer with
      | some c => s.peerWg c
      | none => some s.issue.wid, some true, atOrd w⟩
  | _ => none

/-- The exact byte offset of a lane in scratchpad. -/
def State.scrAt (s : State) (f : ScrForm) (l : Nat) : Int := ((s.ithread l).val f.x).toInt + f.off

/-- A lane's access lies inside the workgroup's allocation. -/
def State.scrIn (s : State) (f : ScrForm) (l : Nat) : Bool := decide (0 ≤ s.scrAt f l ∧ s.scrAt f l + f.n ≤ Krec.scratch s.ikrec)

/-- The scratchpad instruction `i` reaches the checks of R277: the group can issue it, no order holds it, and each index lies in its interval. -/
structure State.ChecksScr (s : State) (i : Instr) (f : ScrForm) : Prop where
  form     : scrForm s i = some f
  issuable : s.Issuable i
  rising   : (s.active i).Pairwise (· < ·)
  order    : ∀ l ∈ s.active i, s.iwg.acquiring l = false ∧ (f.order.rel = true → s.releaseReady s.issue.wid l true = true)
  sound    : ∀ l ∈ s.active i, let e := (s.ithread l).index f.x; e.2.lo ≤ e.1.toInt ∧ e.1.toInt ≤ e.2.hi

/-- Every lane of a scratchpad instruction accesses workgroup `o`: aligned, inside, and free of registered ranges. -/
structure State.SpreadScr (s : State) (i : Instr) (f : ScrForm) (o : Nat) : Prop where
  checks   : s.ChecksScr i f
  wg       : f.wg = some o
  good     : ∀ l ∈ s.active i, s.scrAt f l % f.n = 0 ∧ s.scrIn f l = true
  unlocked : ∀ w, f.write = some w → ∀ l ∈ s.active i, s.meets (.scr o (s.scrAt f l).toNat) f.n w = false

/-- The value that a store writes, as a number (R196, R274). -/
def storeData : Instr → Option (Thread → Nat)
  | .st _ sz _ v | .sts _ sz _ _ _ v | .stp _ sz _ _ _ _ v | .sta _ sz _ _ _ v => some fun u => u.wide v (max 1 (nBytes sz / 4))
  | .stXs _ _ v => some fun u => (u.read v).1.toNat + 2 ^ 32 * ((u.read v).2.lo % 2 ^ 32).toNat + 2 ^ 64 * ((u.read v).2.hi % 2 ^ 32).toNat
  | _ => none

/-- What lane `l` gets from scratchpad or accumulators at a place: the bytes, or an uncorrectable error. -/
def State.gives (s : State) (sp : Spot) (n : Nat) (sgn xs : Bool) : Work :=
  match s.spotRead sp n with
  | some b => answer n sgn xs b
  | none => .failed true

/-- The state in which the good lanes of a load or store through an array register act: after the check of R257, and with the footprints noted. -/
def State.afterCheck (s : State) (i : Instr) (f : ArrForm) : State :=
  let ps := s.advance.parts ⟨f.k, f.x, f.off, f.n, f.uni⟩ (s.active i)
  ps.foldl (fun s p => s.footprint f.k true p) (s.advance.boundsNoted ps)

/-- The line `gl`, as core `c` holds it, goes home alone: its home is on the core's die and in service, its frame lies at `pa` and can be reached, it is
not poisoned, and no request for it is under way at the directory, which has no entry of it. -/
structure State.HomeOnly (s : State) (c gl pa : Nat) : Prop where
  home  : s.wayOf c ((s.l1 c gl).addr gl) = none ∧ peerOf (128 * gl) = 0 ∧ s.sliceUp (s.home ((s.l1 c gl).addr gl)) = true
  copy  : s.via ((s.l1 c gl).addr gl) = s
  frame : s.lineAddr gl = some pa ∧ s.reachable (128 * gl) = true
  clean : s.isPoison gl = false
  free  : (s.dirOf gl).state = .i ∧ (s.dirOf gl).busy = false ∧ ∀ q ∈ s.dirQueue, q.line ≠ gl

/-- `n` bytes at the VA `va` are one single-copy atomic piece behind the address `a`, which the context may write, and lane `l` can store them now:
neither an earlier access of its thread nor a lower lane's store keeps them back (R26, R265, R297, R317). -/
structure State.OnePiece (s : State) (l va n : Nat) (a : GAddr) : Prop where
  resolves : s.ictx.resolve .wr va = some a
  offset   : a.gia % 128 = va % 128
  aligned  : va % n = 0
  unit     : n ≤ min (s.unitAt s.iwg.ctx va) (s.unitAt s.iwg.ctx (va + n - 1))
  fetch    : s.fetching s.issue.wid l (lineOf a.gia) s.clk = false
  free     : (s.ithread l).busyAt s.ictx va n = false
  below    : s.iwg.pendingBelow s.ictx l va n s.clk = false

/-- No other thread and no other workgroup changes. -/
def State.OnlyThread (s t : State) (l : Nat) : Prop :=
  t.issue = s.issue ∧ (∀ n, n ≠ l → n ∉ s.issue.lanes → t.ithread n = s.ithread n) ∧
  (∀ n, n ≠ l → n ∈ s.issue.lanes → t.ithread n = s.stepped n) ∧
  (∀ w, w ≠ s.issue.wid → (t.wg w).threads = (s.wg w).threads)

/-! ### Engine commands (R372, R392) -/

/-- For a command of an engine: whether it is the matrix engine's, and what steps 3 to 8 of its acceptance find for a lane (R372, R392). -/
def engineOp (i : Instr) : Option (Bool × (State → Nat → Exam)) :=
  let mat := fun (x : Field) => some (true, fun (s : State) t => s.examBlock t x 64 (s.examMma i) 0x4A)
  let acc := fun (x : Field) => some (true, fun (s : State) t => s.examBlock t x 32 (s.examAcc i) 0x4A)
  let mov := fun (x c : Field) =>
    some (false, fun (s : State) t => s.examBlock t x 64 (s.examXfer i (((s.ithread t).readN c 4).map BitVec.toNat)) 0x69)
  match i with
  | .mma _ _ x _ _ _ => mat x
  | .mmaSp _ _ x _ _ _ _ _ => mat x
  | .mmaMcr _ _ x _ _ _ _ => mat x
  | .accZero _ _ x => acc x
  | .accLd _ _ x => acc x
  | .accSt _ _ x => acc x
  | .accCvt _ _ x _ _ _ => acc x
  | .accAmax _ _ x => acc x
  | .xfer _ _ x c _ => mov x c
  | .xferIm2c _ _ x c _ _ => mov x c
  | .xferGath _ _ x c _ => mov x c
  | .xferScat _ _ x c => mov x c
  | .xferUnpk _ _ x c _ => mov x c
  | .xferPack _ _ x c => mov x c
  | .xferMcast _ _ x c _ _ => mov x c
  | .xferPref _ _ x c _ => mov x c
  | .xferPagein _ _ x _ => some (false, fun s t => s.examBlock t x 64 (s.examPagein i) 0x69)
  | _ => none

/-- `XFER.PAGEIN` needs the pager's capability (R392). -/
def needsPager : Instr → Bool
  | .xferPagein _ _ _ _ => true
  | _ => false

/-! ### What stays when more than threads changes -/

/-- `exec i s` answers a next state of which `P` holds. -/
def State.Completes (s : State) (i : Instr) (P : State → Prop) : Prop := ∃ t, exec i s = .next t ∧ P t

/-- The threads of the group after an issue: active lanes as `R` says, the others only went on; other threads and other workgroups as
before. -/
structure State.Threads (s t : State) (i : Instr) (R : Nat → Thread → Thread → Prop) : Prop where
  issue  : t.issue = s.issue
  active : ∀ n ∈ s.active i, R n (s.stepped n) (t.ithread n)
  idle   : ∀ n ∈ s.issue.lanes, n ∉ s.active i → t.ithread n = s.stepped n
  others : ∀ n, n ∉ s.issue.lanes → t.ithread n = s.ithread n
  wgs    : ∀ w, w ≠ s.issue.wid → t.wgs.get? w = s.wgs.get? w

/-- The threads after an issue that can change other parts of its own and of other workgroups: active lanes as `R` says, the others of the group
only went on, and every other thread of the machine is as before. -/
structure State.GroupOnly (s t : State) (i : Instr) (R : Nat → Thread → Thread → Prop) : Prop where
  active : ∀ n ∈ s.active i, R n (s.stepped n) (t.ithread n)
  idle   : ∀ n ∈ s.issue.lanes, n ∉ s.active i → t.ithread n = s.stepped n
  others : ∀ n, n ∉ s.issue.lanes → t.ithread n = s.ithread n
  wgs    : ∀ w, w ≠ s.issue.wid → (t.wg w).threads = (s.wg w).threads

/-- The machine `t` is `s` with thread `n` of workgroup `w` standing as `x`: every other thread, the rest of the workgroup, every other
workgroup and every other part of the machine are as before. -/
structure State.ThreadSet (s t : State) (w n : Nat) (x : Thread) : Prop where
  rest   : t = { s with wgs := t.wgs }
  thread : t.thread w n = x
  others : ∀ m, m ≠ n → t.thread w m = s.thread w m
  group  : t.wg w = { s.wg w with threads := (t.wg w).threads }
  wgs    : ∀ v, v ≠ w → t.wgs.get? v = s.wgs.get? v

/-- The L1 of the issue group's core holds no dirty byte and no line that waits for its record, so that a release has nothing to write back
(R324, R326). -/
def State.clean (s : State) : Prop := ∀ e ∈ (s.core s.iwg.core).l1, e.2.dirty = [] ∧ e.2.held = none

/-- The operands of a page instruction but for `PAGE.COPY`: whether A is an IA, A, and the PTE image (R468). -/
def pageOperands : Instr → Option (Bool × Field × Option Field)
  | .pageMap _ _ a m | .pageMapAlloc _ _ a m | .pageMapUpd _ _ a m => some (true, a, some m)
  | .pageMapRgn _ _ a _ | .pageUnmap _ _ a | .pageUnmapRgn _ _ a | .pageProbe _ _ a | .pageProbeClr _ _ a => some (true, a, none)
  | .pageInv _ _ a | .pageInvFail _ _ a | .pagePin _ _ a | .pagePinClr _ _ a => some (true, a, none)
  | .pageRef _ _ a | .pageUnref _ _ a | .pageProbeFrame _ _ a => some (false, a, none)
  | _ => none

/-- The capability of its context that an instruction needs (R279, R114, R130, R146, R148, R468, R409, R492). -/
def capability : Instr → Option (Ctx → Bool)
  | .lda _ _ _ _ _ _ _ | .sta _ _ _ _ _ _ => some Ctx.capUnchecked
  | .klaunch _ _ _ | .qpost _ _ _ _ | .kkill _ _ _ => some Ctx.capLauncher
  | .ctxWr _ _ _ => some Ctx.capHandler
  | .getev _ _ _ => some fun c => c.capPager || c.capHandler
  | .pageCopy _ _ _ _ | .xferPagein _ _ _ _ => some Ctx.capPager
  | i => (pageOperands i).map fun _ => Ctx.capPager

end Sys2Proof.Machine
end

