-- ==== Sys2Proof/Certificates/Slice0/Obligations.lean ====
section
/-!
DEFINITION. Obligations: what the provers are to prove of the model, family by family. The relations between the state before a step and the state
after it are those of Sys2Proof/Safety.lean.
-/
open Sys2Proof Sys2Proof.Machine

/-! ## Encoding (spec/02_encoding.md R30 to R57) -/

/-- R35 to R57: the words that a well-formed thread instruction encodes to, with anything behind them, decode to that instruction and their number;
every operand at every value that the encoding admits is kept. -/
def Obligations.DecodeEncode : Prop :=
  ∀ i tail, i.isThread = true → i.wf = true → decode (encode i ++ tail) = .ok i (encode i).length

/-- R35, R40: what the decoder accepts is a well-formed thread instruction whose encoding is the words that it read, bit for bit: no reserved or
unused bit is passed over. -/
def Obligations.EncodeDecode : Prop :=
  ∀ ws i n, decode ws = .ok i n → i.isThread = true ∧ i.wf = true ∧ n ≤ ws.length ∧ encode i = ws.take n

/-- Words written out from the encodings of spec/02_encoding.md, 08_thread.md, 11_ticket.md, 13_line.md and 16_barrier.md, and the instructions that
they are. -/
def Obligations.DecodeSamples : Prop :=
  let p7 : Guard := ⟨7, false⟩
  let x := fun n : Nat => (⟨.main, false, .x, n⟩ : Field)
  let v := fun n : Nat => (⟨.main, false, .v, n⟩ : Field)
  decode [3] = .ok .blockEnd 1 ∧
  decode [0x4121C208, 0x00000184] = .ok (.tktRds p7 none (v 8) (v 4) (x 6)) 2 ∧
  decode [0x0025C300, 0x00190000] = .ok (.barArr p7 (x 9) ⟨.wg, 3⟩) 2 ∧
  decode [0x301C83C4, 0x00000240] = .ok (.idiv ⟨2, false⟩ 2 (.ofNat 128 0x00000240301C0000)) 2 ∧
  decode [0x9001C25C, 0x00020000] = .ok (.lineClr p7 ⟨2, x 9, .a64 0⟩) 2

/-! ## The machine -/

/-- R1, R29, R97, R118, R157, R167, R448, R499, R509, R517: after a reset every context and queue is FREE, no kernel and no workgroup exists, every
link is DOWN and the host link too, the root register and the firmware version read 0, the device is ACTIVE and its firmware RUNNING, and the
dispatcher waits 100 µs and bounds at 50 µs without being enabled. That no core holds a line, a fetch copy or a codebook is the model's choice
(notes/assumptions/16.md), and so is that memory, in its canonical form, lists nothing at first (notes/assumptions/1.md). -/
def Obligations.ResetState : Prop :=
  let s := State.reset
  (∀ c, (s.ctx c).state = .free) ∧ (∀ q, (s.queue q).state = .free) ∧ s.kernels = [] ∧ s.wgs = [] ∧ s.saved = [] ∧ s.cores = [] ∧
  s.dir = [] ∧
  (∀ n, (s.link n).state = .down) ∧ s.regs.hlRate = 0 ∧ s.power.state = 0 ∧ s.fw.state = .running ∧ s.fw.armed = false ∧
  s.regs.ptValid = false ∧ s.regs.ptLpa = 0 ∧ s.fw.version = 0 ∧
  s.regs.pcEnable = false ∧ s.regs.pcWait = 100 ∧ s.regs.pcBound = 50 ∧ s.regs.hUnit = false ∧ s.regs.hThermal = false ∧ s.regs.hPeer = false ∧
  s.regs.hChannel = false ∧ (∀ n e, (s.ticket n e).state = .free) ∧ s.memOk

/-- Every step that answers a next state keeps memory in its canonical form: addresses rise, and no entry equals what an unlisted byte reads as, so
that equal memories are equal data. This is the model's own invariant (notes/assumptions/1.md). -/
def Obligations.StepKeepsMemory : Prop :=
  ∀ s t : State, s.memOk → step s = .next t → t.memOk

/-- R35 to R37, R154, R158, R480: a bay's turn whose first candidate is the group `g` fetches the block of the group's PC, decodes from the PC on,
and runs the instruction for the threads of the group that are ready, when it issues; where it takes a trap, for the frame of its slot or to the end
of its kernel, no other group of the slot that could take one first holds a lower lane. The words fetched are those of the coherent level where the
core holds no copy. A turn of an event runs the step of the device that it names; a turn that passes clocks only passes them (the agenda is the
model's own: notes/assumptions/2.md). Before a turn the things happen that time alone brings (R168, R295, R314, R354, R448, R511); where none is
due, only the waits for room are noted. -/
def Obligations.StepRunsInstruction : Prop :=
  (∀ (s : State) c b rest w k g cands ws s1 i n, s.agenda = .bay c b :: rest →
    let r := ({ s with agenda := rest } : State).tick.bayReady c b
    let ready := g.lanes.filter fun t => r.readyAt w t i
    let s2 := s1.withIssue c w k ready g.pc ((ws.drop (g.pc % 32 / 4)).take n)
    r.bayCands c b = (r.candidate c w k g).toList ++ cands → (∀ t ∈ g.lanes, (r.thread w t).hurt = false) →
    r.fetch c (r.wg w).ctx (g.pc / 32 * 32) = .words ws s1 → decode (ws.drop (g.pc % 32 / 4)) = .ok i n → ready ≠ [] →
    ∀ t, exec i s2 = .next t → t.issue.held = false →
    ((((r.wg w).slot k).busy = false ∧ ((t.wg w).slot k).busy = true) ∨
        (r.faulting (r.wg w).kernel = false ∧ t.faulting (r.wg w).kernel = true) → ∀ d ∈ cands, d.wid = w → d.k = k → ∃ m ∈ ready, m ≤ d.lane) →
    step s = exec i s2) ∧
  (∀ (s : State) c ctx va a s1, (s.ctx ctx).resolve .ex va = some a → s.ask ctx c a .ex false false false false = .go s1 →
    s1.isPoison (lineOf a.gia) = false →
    (∀ e ∈ ((s1.cohRead c a).1.core c).icache, ¬(e.1 = ctx ∧ e.2.1 = va)) →
    ∃ t, s.fetch c ctx va = .words (wordList (ofBytes (((s1.cohRead c a).2.drop (a.gia % 128)).take 32)) 8) t) ∧
  (∀ (s : State) e rest, s.agenda = .event e :: rest → e.isThread = false → step s = exec e ({ s with agenda := rest } : State).tick) ∧
  (∀ (s : State) n rest, s.agenda = .idle n :: rest →
    step s = .next { ({ s with agenda := rest } : State).tick with clk := ({ s with agenda := rest } : State).tick.clk + n }) ∧
  (∀ s : State, s.regs.ptValid = true → (∀ e ∈ s.cores, ∀ l ∈ e.2.l1, l.2.dirty = [] ∨ l.2.held.isSome = true ∨ s.clk < l.2.since + 22000) →
    (∀ e ∈ s.slices, s.clk < e.2.lastScan + 11000) → (∀ e ∈ s.dirRetry, s.clk < e.2) →
    (s.power.moving = true → s.power.goal = 0 → s.clk < s.power.due) → s.tick = s.roomStamps)

/-! ## Taking a trap (spec/18_trap.md R474 to R486) -/

/-- R477, R480, R481, R483: a trap of threads of one slot outside handler mode, whose frame is free, in a context with a handler: the frame holds
the cause, the lanes, the resume PC, the instruction's PC and words and the address; each lane is in handler mode at the handler's address with a
fresh bank whose `X0` is the cause and `X1` its lane, and nothing else of it changes; no other thread and no byte of memory changes. R477: with no
handler the kernel takes FAULT. R485: with a lane in handler mode the context faults. R480: while the frame is busy nothing happens. -/
def Obligations.TrapEntry : Prop :=
  (∀ (s : State) w k lanes ipc insn r, lanes ≠ [] → lanes.Nodup → (∀ n ∈ lanes, n / 64 = k ∧ (s.thread w n).handler = false) →
    s.wgs.has w = true → ((s.wg w).slot k).busy = false → (s.ctx (s.wg w).ctx).trapPc ≠ 0 →
    let t := s.takeTrap w lanes ipc insn r
    let f := ((t.wg w).slot k).frame
    ((t.wg w).slot k).busy = true ∧ f.cause = r.cause ∧ f.kind = r.kind ∧ f.detail = r.detail ∧ f.lanes = maskOf (lanes.map (· % 64)) ∧
    f.mask = maskOf (r.mask.map (· % 64)) ∧ f.pc = r.pc.getD ipc ∧ f.ipc = ipc ∧ f.insn = insn ∧ f.addr = r.addr ∧
    (∀ j, j ≠ k → (t.wg w).slot j = (s.wg w).slot j) ∧
    (∀ n ∈ lanes, ∃ b : Regs, t.thread w n =
        { s.thread w n with handler := true, pc := (s.ctx (s.wg w).ctx).trapPc, bank := b, bpend := 0, hold := .none } ∧
      b.getX 0 = ⟨.ofNat 32 r.cause, ⟨r.cause, r.cause⟩, true⟩ ∧ b.getX 1 = ⟨.ofNat 32 (n % 64), ⟨n % 64, n % 64⟩, true⟩ ∧
      (∀ j, 2 ≤ j → b.getX j = ⟨0, ⟨0, 0⟩, true⟩) ∧ (∀ j, b.getV j = ⟨0, true⟩) ∧ b.p = 0) ∧
    (∀ n, n ∉ lanes → t.thread w n = s.thread w n) ∧ (∀ v, v ≠ w → t.wgs.get? v = s.wgs.get? v) ∧ t.mem = s.mem ∧
    t.kernels = s.kernels ∧ t.ctxs = s.ctxs ∧ t.clk = s.clk) ∧
  (∀ (s : State) w n lanes ipc insn r, (∀ m ∈ n :: lanes, (s.thread w m).handler = false) → ((s.wg w).slot (n / 64)).busy = false →
    (s.ctx (s.wg w).ctx).trapPc = 0 → r.cause ≠ Cause.lock →
    s.takeTrap w (n :: lanes) ipc insn r = s.kernelFault (s.wg w).kernel r.cause (r.pc.getD ipc)) ∧
  (∀ (s : State) w lanes ipc insn r, (∃ n ∈ lanes, (s.thread w n).handler = true) → r.cause ≠ Cause.lock →
    s.takeTrap w lanes ipc insn r = s.ctxFault (s.wg w).ctx r.cause (s.wg w).kernel ipc) ∧
  (∀ (s : State) w n lanes ipc insn r, (∀ m ∈ n :: lanes, (s.thread w m).handler = false) → ((s.wg w).slot (n / 64)).busy = true →
    s.takeTrap w (n :: lanes) ipc insn r = s)

/-! ## Control (spec/08_thread.md R200 to R209) -/

/-- R32, R33, R200, R201, R203, R204, R206: where each thread goes. A target is `pc + 4 × off` modulo 2^57; `BRX` adds the signed value of A to its
offset; `BRP` moves every active lane when the predicate is true in any (or in every) active lane; `BLOCK_END` goes to the following fetch block,
whose PC modulo 2^57, at the top of the address space, is the model's choice (notes/assumptions/63.md); `NOP` goes on. Nothing else of a thread, and
nothing of the machine beyond `State.Keeps`, changes. -/
def Obligations.BranchesGo : Prop :=
  (Lanes .blockEnd 1 fun s _ u v => v = { u with pc := (s.issue.pc / 32 + 1) * 32 % 2 ^ 57 }) ∧
  (∀ g, Lanes (.nop g) 1 fun _ _ u v => v = u) ∧
  (∀ g off, Lanes (.bra g off) 1 fun s _ u v => v = { u with pc := (((s.issue.pc : Int) + 4 * Off.val off) % 2 ^ 57).toNat }) ∧
  (∀ g all p off, Lanes (.brp g all p off) 1 fun s _ u v =>
    v = if (if all then ∀ m ∈ s.active (.brp g all p off), (s.ithread m).pred p = true
            else ∃ m ∈ s.active (.brp g all p off), (s.ithread m).pred p = true)
        then { u with pc := (((s.issue.pc : Int) + 4 * Off.val off) % 2 ^ 57).toNat } else u) ∧
  (∀ g a off, Lanes (.brx g a off) 1 fun s _ u v =>
    v = { u with pc := (((s.issue.pc : Int) + 4 * ((u.val a).toInt + off.toInt)) % 2 ^ 57).toNat })

/-- R202: `BRC` compares A with B, moves the lanes in which the condition holds, and changes no register's value: only intervals of main-tier X
registers, the refinement of R194, can differ. R194, R195: the interval that `BRC` against an immediate leaves in a main-tier X register: the
condition's refinement in a lane that branches, and that of the opposite condition in a lane that does not. -/
def Obligations.CompareAndBranch : Prop :=
  (
    ∀ g c a b, Lanes (.brc g c a b) 1 fun s _ u v =>
      let x := u.val a
      let y := match b with
        | .reg f _ => u.val f
        | .imm w _ => w
      let off := match b with
        | .reg _ o => Off.val o
        | .imm _ o => o.toInt
      v.pc = (if condHolds c x y then (((s.issue.pc : Int) + 4 * off) % 2 ^ 57).toNat else u.pc) ∧
      (∀ k, (v.cur.getX k).val = (u.cur.getX k).val ∧ (v.cur.getX k).ful = (u.cur.getX k).ful) ∧
      v.cur.v = u.cur.v ∧ v.cur.p = u.cur.p ∧ u.OtherBank v ∧
      v = { u with pc := v.pc, regs := v.regs, bank := v.bank } ∧
      (∀ k, (v.cur.getX k).iv ≠ (u.cur.getX k).iv → (a.tier = .main ∧ a.cls = .x ∧ k = a.idx) ∨
        ∃ f o, b = .reg f o ∧ f.tier = .main ∧ f.cls = .x ∧ k = f.idx)) ∧
  (
    ∀ g c a w off, a.tier = .main → a.cls = .x → Lanes (.brc g c a (.imm w off)) 1 fun _ _ u v =>
      v.cur.getX a.idx = ⟨(u.cur.getX a.idx).val,
        (refine (if condHolds c (u.val a) w then c else condOpp c) (u.cur.getX a.idx).iv ⟨w.toInt, w.toInt⟩).1, (u.cur.getX a.idx).ful⟩)

/-- R34, R201, R204, R205: `CALL` and `CALLX` write the address of the next instruction to a V pair and go to their target; `BRX.ABS`, `CALLX` and
`RET` go to the 64-bit value of a V pair where it is a multiple of 4 below 2^57. R34, R201: a target of `BRX.ABS`, `CALLX` or `RET` that is not a
multiple of 4 takes ALIGN, and one beyond 2^57 takes PAGE when none is misaligned; the trap is the issue group's, its mask the lanes at fault, and
its address the first of their targets. -/
def Obligations.CallsAndReturns : Prop :=
  (
    (∀ g d off, Lanes (.call g d off) 1 fun s _ u v => ∃ y, u.WroteN y d 2 s.nextPc ∧
      v = { y with pc := (((s.issue.pc : Int) + 4 * Off.val off) % 2 ^ 57).toNat }) ∧
    (∀ g d a, LanesIf (.callx g d a) (fun _ x => x.pair a % 4 = 0 ∧ x.pair a < 2 ^ 57) 1 fun s _ u v =>
      ∃ y, u.WroteN y d 2 s.nextPc ∧ v = { y with pc := u.pair a }) ∧
    (∀ g a, LanesIf (.brxAbs g a) (fun _ x => x.pair a % 4 = 0 ∧ x.pair a < 2 ^ 57) 1 fun _ _ u v => v = { u with pc := u.pair a }) ∧
    (∀ g a, LanesIf (.ret g a) (fun _ x => x.pair a % 4 = 0 ∧ x.pair a < 2 ^ 57) 1 fun _ _ u v => v = { u with pc := u.pair a })) ∧
  (
    ∀ s g d a, ∀ i ∈ [Instr.brxAbs g a, .callx g d a, .ret g a],
      TrapsAt i s (fun x => x.pair a % 4 ≠ 0) Cause.align (fun x => x.pair a) ∧
      ((∀ n ∈ s.active i, (s.ithread n).pair a % 4 = 0) →
        TrapsAt i s (fun x => 2 ^ 57 ≤ x.pair a) Cause.page (fun x => x.pair a)))

/-! ## Integers, logic, predicates and intervals (spec/08_thread.md R210 to R221) -/

/-- R211: the value and the interval that each integer operation writes: sums, differences and products modulo 2^32, the high word of the exact
product, signed and unsigned minimum and maximum, and the sum with an absolute difference. -/
def Obligations.IntegerResults : Prop :=
  (∀ g o, Lanes (.iadd g o) 1 fun _ _ u v => let a := u.opd o.a; let b := u.opdB o.b
    u.Wrote v o.d (a.val + b.val) (clip ⟨a.iv.lo + b.iv.lo, a.iv.hi + b.iv.hi⟩)) ∧
  (∀ g o, Lanes (.isub g o) 1 fun _ _ u v => let a := u.opd o.a; let b := u.opdB o.b
    u.Wrote v o.d (a.val - b.val) (clip ⟨a.iv.lo - b.iv.hi, a.iv.hi - b.iv.lo⟩)) ∧
  (∀ g o, Lanes (.imul g o) 1 fun _ _ u v => let a := u.opd o.a; let b := u.opdB o.b
    u.Wrote v o.d (a.val * b.val) (clip (mulIv a.iv b.iv))) ∧
  (∀ g o, Lanes (.imulh g false o) 1 fun _ _ u v => let a := u.opd o.a; let b := u.opdB o.b
    u.Wrote v o.d (.ofInt 32 (a.val.toInt * b.val.toInt / 2 ^ 32)) (clip (mulhIv a.iv b.iv))) ∧
  (∀ g o, Lanes (.imulh g true o) 1 fun _ _ u v => let a := u.opd o.a; let b := u.opdB o.b
    u.Wrote v o.d (.ofNat 32 (a.val.toNat * b.val.toNat / 2 ^ 32))
      (clip (if 0 ≤ a.iv.lo ∧ 0 ≤ b.iv.lo then mulhIv a.iv b.iv else full))) ∧
  (∀ g o, Lanes (.imad g o) 1 fun _ _ u v => let a := u.opd o.a; let b := u.opdB o.b; let c := u.opd o.c
    u.Wrote v o.d (a.val * b.val + c.val) (clip (addIv (mulIv a.iv b.iv) c.iv))) ∧
  (∀ g o, Lanes (.ineg g o) 1 fun _ _ u v => let a := u.opd o.a
    u.Wrote v o.d (-a.val) (clip ⟨-a.iv.hi, -a.iv.lo⟩)) ∧
  (∀ g o, Lanes (.iabs g o) 1 fun _ _ u v => let a := u.opd o.a
    u.Wrote v o.d (if a.val.toInt < 0 then -a.val else a.val) (clip (absIv a.iv))) ∧
  (∀ g o, Lanes (.imin g o) 1 fun _ _ u v => let a := u.opd o.a; let b := u.opdB o.b
    u.Wrote v o.d (if a.val.toInt ≤ b.val.toInt then a.val else b.val) (clip ⟨min a.iv.lo b.iv.lo, min a.iv.hi b.iv.hi⟩)) ∧
  (∀ g o, Lanes (.imax g o) 1 fun _ _ u v => let a := u.opd o.a; let b := u.opdB o.b
    u.Wrote v o.d (if a.val.toInt ≤ b.val.toInt then b.val else a.val) (clip ⟨max a.iv.lo b.iv.lo, max a.iv.hi b.iv.hi⟩)) ∧
  (∀ g o, Lanes (.iminu g o) 1 fun _ _ u v => let a := u.opd o.a; let b := u.opdB o.b
    u.Wrote v o.d (if a.val.toNat ≤ b.val.toNat then a.val else b.val) (clip (minuIv a.iv b.iv))) ∧
  (∀ g o, Lanes (.imaxu g o) 1 fun _ _ u v => let a := u.opd o.a; let b := u.opdB o.b
    u.Wrote v o.d (if a.val.toNat ≤ b.val.toNat then b.val else a.val) (clip (maxuIv a.iv b.iv))) ∧
  (∀ g o, Lanes (.isad g o) 1 fun _ _ u v => let a := u.opd o.a; let b := u.opdB o.b; let c := u.opd o.c
    u.Wrote v o.d ((if b.val.toInt ≤ a.val.toInt then a.val - b.val else b.val - a.val) + c.val)
      (clip (addIv (absIv (subIv a.iv b.iv)) c.iv)))

/-- R212, R213: the value and the interval that each bitwise operation and each count writes. R212 to R214: shifts and rotates by bits 4 to 0 of B,
and bit fields: `BFE` extracts the field at position B[4:0] of width B[13:8], cut to 32 and to what lies above the position, and `BFI` replaces it
in C by the low bits of A. -/
def Obligations.LogicAndShifts : Prop :=
  (
    (∀ g o, Lanes (.and g o) 1 fun _ _ u v => let a := u.opd o.a; let b := u.opdB o.b
      u.Wrote v o.d (a.val &&& b.val) (clip (andIv a b))) ∧
    (∀ g o, Lanes (.or g o) 1 fun _ _ u v => u.Wrote v o.d ((u.opd o.a).val ||| (u.opdB o.b).val) full) ∧
    (∀ g o, Lanes (.xor g o) 1 fun _ _ u v => u.Wrote v o.d ((u.opd o.a).val ^^^ (u.opdB o.b).val) full) ∧
    (∀ g o, Lanes (.andn g o) 1 fun _ _ u v => u.Wrote v o.d ((u.opd o.a).val &&& ~~~(u.opdB o.b).val) full) ∧
    (∀ g o, Lanes (.not g o) 1 fun _ _ u v => u.Wrote v o.d (~~~(u.opd o.a).val) full) ∧
    (∀ g o lut, Lanes (.blut g o lut) 1 fun _ _ u v => ∃ w : Word, u.Wrote v o.d w full ∧ ∀ j, j < 32 →
      w.getLsbD j = lut.getLsbD (((u.opd o.a).val.getLsbD j).toNat + 2 * ((u.opdB o.b).val.getLsbD j).toNat +
        4 * ((u.opd o.c).val.getLsbD j).toNat)) ∧
    (∀ g o, Lanes (.bcnt g o) 1 fun _ _ u v =>
      u.Wrote v o.d (.ofNat 32 ((List.range 32).filter fun j => (u.val o.a).getLsbD j).length) ⟨0, 32⟩) ∧
    (∀ g o, Lanes (.clz g o) 1 fun _ _ u v => ∃ k : Nat, u.Wrote v o.d (.ofNat 32 k) ⟨0, 32⟩ ∧ k ≤ 32 ∧
      (∀ j, 32 - k ≤ j → j < 32 → (u.val o.a).getLsbD j = false) ∧ (k < 32 → (u.val o.a).getLsbD (31 - k) = true)) ∧
    (∀ g o, Lanes (.ctz g o) 1 fun _ _ u v => ∃ k : Nat, u.Wrote v o.d (.ofNat 32 k) ⟨0, 32⟩ ∧ k ≤ 32 ∧
      (∀ j, j < k → (u.val o.a).getLsbD j = false) ∧ (k < 32 → (u.val o.a).getLsbD k = true)) ∧
    (∀ g o, Lanes (.bitrev g o) 1 fun _ _ u v => ∃ w : Word, u.Wrote v o.d w full ∧ ∀ j, j < 32 → w.getLsbD j = (u.val o.a).getLsbD (31 - j))) ∧
  (
    (∀ g o, Lanes (.shl g o) 1 fun _ _ u v => let a := u.opd o.a; let b := u.opdB o.b
      u.Wrote v o.d (a.val <<< (b.val.toNat % 32)) (clip (shlIv a b))) ∧
    (∀ g o, Lanes (.shr g o) 1 fun _ _ u v => let a := u.opd o.a; let b := u.opdB o.b
      u.Wrote v o.d (a.val >>> (b.val.toNat % 32)) (clip (shrIv a b))) ∧
    (∀ g o, Lanes (.sar g o) 1 fun _ _ u v => let a := u.opd o.a; let b := u.opdB o.b
      u.Wrote v o.d (a.val.sshiftRight (b.val.toNat % 32)) (clip (sarIv a b))) ∧
    (∀ g o, Lanes (.rol g o) 1 fun _ _ u v =>
      u.Wrote v o.d ((u.opd o.a).val.rotateLeft ((u.opdB o.b).val.toNat % 32)) full) ∧
    (∀ g sgn o, Lanes (.bfe g sgn o) 1 fun _ _ u v =>
      let a := (u.opd o.a).val
      let b := (u.opdB o.b).val
      let p := b.toNat % 32
      let w := min (min (b.toNat / 256 % 64) 32) (32 - p)
      ∃ r : Word, u.Wrote v o.d r (clip (bfeIv sgn (u.opdB o.b))) ∧ ∀ j, j < 32 →
        r.getLsbD j = if j < w then a.getLsbD (p + j) else (sgn && decide (0 < w) && a.getLsbD (p + w - 1))) ∧
    (∀ g o, Lanes (.bfi g o) 1 fun _ _ u v =>
      let a := (u.opd o.a).val
      let b := (u.opdB o.b).val
      let p := b.toNat % 32
      let w := min (min (b.toNat / 256 % 64) 32) (32 - p)
      ∃ r : Word, u.Wrote v o.d r full ∧ ∀ j, j < 32 →
        r.getLsbD j = if p ≤ j ∧ j < p + w then a.getLsbD (j - p) else (u.opd o.c).val.getLsbD j))

/-- R216, R217: `ICMP` and `ICMPU` write one predicate with the truth of a signed or unsigned comparison, `PSET` with a bit of its truth table, and
nothing else. -/
def Obligations.PredicateWrites : Prop :=
  (∀ g c pd a b, Lanes (.icmp g c pd a b) 1 fun _ _ u v => u.WroteP v pd (condHolds c (u.val a) (u.opdB b).val)) ∧
  (∀ g c pd a b, Lanes (.icmpu g c pd a b) 1 fun _ _ u v => u.WroteP v pd (condHoldsU c (u.val a) (u.opdB b).val)) ∧
  (∀ g tt pd pa pb, Lanes (.pset g tt pd pa pb) 1 fun _ _ u v =>
    u.WroteP v pd (tt.getLsbD (2 * (u.pred pa).toNat + (u.pred pb).toNat))) ∧
  (∀ g c pd a b, Lanes (.fcmp g c pd a b) 1 fun _ _ u v => u.WroteP v pd (fcondHolds c (f32 (u.val a)) (f32 (u.fpB b)))) ∧
  (∀ g c pd a b, Lanes (.dcmp g c pd a b) 8 fun _ _ u v =>
    u.WroteP v pd (fcondHolds c (decodeFp fp64 (u.pair a)) (decodeFp fp64 (u.pair b))))

/-- R218, R219, R221: `PMOV` reads `P0` to `P6` into a register and writes those that its mask names; `CLAMP` writes min(max(a, lo), hi) with the
clamped interval; `INTV.GET` and `INTV.UN` write the ends of an interval, or of the union over the active lanes, to a V pair. R220: `WIDEN`,
`INTV.SET` and `INTV.CHK` keep the value and write the interval named, or for `INTV.CHK` its meet with the register's own, where in every active
lane the value lies inside the bounds. R220: where the value of some active lane lies outside the bounds of `WIDEN`, `INTV.SET` or `INTV.CHK`, the
issue group takes INTV, with those lanes as its mask and the two bounds of the first of them as its address. -/
def Obligations.IntervalsAndMoves : Prop :=
  (
    (∀ g d, Lanes (.pmov g d) 1 fun _ _ u v => u.Wrote v d (.ofNat 32 u.cur.p.toNat) ⟨u.cur.p.toNat, u.cur.p.toNat⟩) ∧
    (∀ g a mask, Lanes (.pmovW g a mask) 1 fun _ _ u v => u.SameButRegs v ∧ u.OtherBank v ∧ v.cur.x = u.cur.x ∧ v.cur.v = u.cur.v ∧ v.o = u.o ∧
      v.l0 = u.l0 ∧ v.l1 = u.l1 ∧ ∀ j, j < 7 → v.cur.p.getLsbD j = if mask.getLsbD j then (u.val a).getLsbD j else u.cur.p.getLsbD j) ∧
    (∀ g d a x y, Lanes (.clamp g d a (.regs x y)) 1 fun _ _ u v =>
      u.Wrote v d (.ofInt 32 (min (max (u.val a).toInt (u.val x).toInt) (u.val y).toInt))
        (clip (clampIv (u.read a).2 (u.read x).2 (u.read y).2))) ∧
    (∀ g d a lo hi, Lanes (.clamp g d a (.imms lo hi)) 1 fun _ _ u v =>
      u.Wrote v d (.ofInt 32 (min (max (u.val a).toInt lo.toInt) hi.toInt))
        (clip (clampIv (u.read a).2 ⟨lo.toInt, lo.toInt⟩ ⟨hi.toInt, hi.toInt⟩))) ∧
    (∀ g d a, Lanes (.intvGet g d a) 1 fun _ _ u v =>
      u.WroteN v d 2 (((u.read a).2.lo % 2 ^ 32).toNat + 2 ^ 32 * ((u.read a).2.hi % 2 ^ 32).toNat)) ∧
    (∀ g d a, Lanes (.intvUn g d a) 2 fun s _ u v =>
      let e := unionIv ((s.active (.intvUn g d a)).map fun m => ((s.ithread m).read a).2)
      u.WroteN v d 2 ((e.lo % 2 ^ 32).toNat + 2 ^ 32 * (e.hi % 2 ^ 32).toNat))) ∧
  (
    (
      (∀ g d lo hi, LanesIf (.widen g d lo hi) (fun _ x => lo.toInt ≤ (x.val d).toInt ∧ (x.val d).toInt ≤ hi.toInt) 1 fun _ _ u v =>
        u.Wrote v d (u.val d) ⟨lo.toInt, hi.toInt⟩) ∧
      (∀ g d a b, LanesIf (.intvSet g d a b) (fun _ x => (x.val a).toInt ≤ (x.val d).toInt ∧ (x.val d).toInt ≤ (x.val b).toInt) 1 fun _ _ u v =>
        u.Wrote v d (u.val d) ⟨(u.val a).toInt, (u.val b).toInt⟩) ∧
      (∀ g d lo hi, LanesIf (.intvChk g d lo hi) (fun _ x => lo.toInt ≤ (x.val d).toInt ∧ (x.val d).toInt ≤ hi.toInt) 1 fun _ _ u v =>
        u.Wrote v d (u.val d) ⟨max (u.read d).2.lo lo.toInt, min (u.read d).2.hi hi.toInt⟩)) ∧
    (
      ∀ s g d (lo hi : BitVec 32) a b,
        (∀ i ∈ [Instr.widen g d lo hi, .intvChk g d lo hi],
          TrapsAt i s (fun x => (x.val d).toInt < lo.toInt ∨ hi.toInt < (x.val d).toInt) Cause.intv
            (fun _ => lo.toNat + 2 ^ 32 * hi.toNat)) ∧
        TrapsAt (.intvSet g d a b) s (fun x => (x.val d).toInt < (x.val a).toInt ∨ (x.val b).toInt < (x.val d).toInt) Cause.intv
          (fun x => (x.val a).toNat + 2 ^ 32 * (x.val b).toNat)))

/-! ## Moves, special values and conversion (spec/09_vector.md R226 to R231, R239, R240) -/

/-- R226, R227: `MOV` copies one register with its interval, or 2 or 4 V registers; `MOVI` writes its constant; `SEL` takes A where the predicate is
true and B elsewhere. R228, R229: the value that `SREAD` writes for each selector of the table, n being the thread's number in its workgroup, and
the word of a format slot that `GETF` writes where the slot's format is not 15. -/
def Obligations.MovesAndReads : Prop :=
  (
    (∀ g d a, Lanes (.mov g .w1 d a) 1 fun _ _ u v => u.Wrote v d (u.val a) (u.read a).2) ∧
    (∀ g d a, Lanes (.mov g .w2 d a) 1 fun _ _ u v => u.WroteN v d 2 (u.wide a 2)) ∧
    (∀ g d a, Lanes (.mov g .w4 d a) 1 fun _ _ u v => u.WroteN v d 4 (u.wide a 4)) ∧
    (∀ g d w, Lanes (.movi g d (.s16 w)) 1 fun _ _ u v => u.Wrote v d (w.signExtend 32) ⟨w.toInt, w.toInt⟩) ∧
    (∀ g d w, Lanes (.movi g d (.hi16 w)) 1 fun _ _ u v => ∃ y : Word, y.toNat = w.toNat * 65536 ∧ u.Wrote v d y ⟨y.toInt, y.toInt⟩) ∧
    (∀ g d w, Lanes (.movi g d (.w32 w)) 1 fun _ _ u v => u.Wrote v d w ⟨w.toInt, w.toInt⟩) ∧
    (∀ g d w, Lanes (.movi g d (.d64 w)) 1 fun _ _ u v => u.WroteN v d 2 w.toNat) ∧
    (∀ g o p, Lanes (.sel g o p) 1 fun _ _ u v =>
      let b : Word × Intv := match o.b with
        | .reg f => u.read f
        | .wide f => u.read f
        | .imm16 w => (w.signExtend 32, ⟨w.toInt, w.toInt⟩)
        | .imm32 w => (w, ⟨w.toInt, w.toInt⟩)
      u.Wrote v o.d (if u.pred p then u.val o.a else b.1) (if u.pred p then (u.read o.a).2 else b.2))) ∧
  (
    (∀ g d sel, Use.sreadRegs sel = 1 → Lanes (.sread g d sel) 1 fun s n u v => ∃ w : Word, u.Wrote v d w ⟨w.toInt, w.toInt⟩ ∧
      (sel = 0x00 → w = .ofNat 32 n) ∧ (sel = 0x01 → w = .ofNat 32 (n % s.iwg.width)) ∧ (sel = 0x02 → w = .ofNat 32 (n / s.iwg.width)) ∧
      (sel = 0x03 → w = .ofNat 32 (Krec.width s.ikrec)) ∧ (sel = 0x04 → w = .ofNat 32 (Krec.gangs s.ikrec)) ∧
      (sel = 0x05 → w = .ofNat 32 (n % 64)) ∧
      (sel = 0x08 → w = .ofNat 32 (s.iwg.lin % Krec.gridX s.ikrec)) ∧
      (sel = 0x09 → w = .ofNat 32 (s.iwg.lin / Krec.gridX s.ikrec % Krec.gridY s.ikrec)) ∧
      (sel = 0x0A → w = .ofNat 32 (s.iwg.lin / (Krec.gridX s.ikrec * Krec.gridY s.ikrec))) ∧ (sel = 0x0B → w = .ofNat 32 s.iwg.lin) ∧
      (sel = 0x0C → w = .ofNat 32 (Krec.gridX s.ikrec)) ∧ (sel = 0x0D → w = .ofNat 32 (Krec.gridY s.ikrec)) ∧
      (sel = 0x0E → w = .ofNat 32 (Krec.gridZ s.ikrec)) ∧
      (sel = 0x10 → w = .ofNat 32 s.iwg.core) ∧ (sel = 0x11 → w = .ofNat 32 (s.iwg.core / 4)) ∧
      (sel = 0x12 → w = .ofNat 32 (s.iwg.core / 8)) ∧ (sel = 0x13 → w = .ofNat 32 (s.iwg.core / 32)) ∧
      (sel = 0x14 → w = .ofNat 32 (s.iwg.core % 4)) ∧ (sel = 0x15 → w = .ofNat 32 (n / 64 % 4)) ∧
      (sel = 0x16 → w = .ofNat 32 (s.iwg.slot (n / 64)).num) ∧
      (sel = 0x18 → w = .ofNat 32 s.iwg.ctx) ∧ (sel = 0x19 → w = .ofNat 32 s.iwg.kernel)) ∧
    (∀ g d sel, Use.sreadRegs sel = 2 → Lanes (.sread g d sel) 1 fun s _ u v => ∃ y, u.WroteN v d 2 y ∧
      (sel = 0x20 → y = s.clk) ∧ (sel = 0x21 → y = Krec.argVa s.ikrec) ∧ (sel = 0x22 → y = Krec.codeVa s.ikrec) ∧
      (0x40 ≤ sel → y = s.modcap (sel - 0x40))) ∧
    (∀ g d slot word, Lanes (.getf g d slot word) 1 fun s _ u v => ∃ w : Word, u.Wrote v d w ⟨w.toInt, w.toInt⟩ ∧
      w = .ofNat 32 (Krec.fslot s.ikrec slot / 2 ^ (32 * word))))

/-- R90, R230, R231: `CVT` decodes element `elem` of its source, converts it by R90, and writes the pattern: a V pair for an FP64 target, one
register otherwise. The pairs and the case of `.SAT` that R90 and R231 leave open go by the model's readings and choices (notes/assumptions/32.md).
R239: `CVTQ` quantises the 32 FP32 values that the active members of an octet hold, four each and zero for the others, with the slot's format and
tensor scale (R91), and writes to each its own four codes and, in the upper word, the block's scale. -/
def Obligations.Conversions : Prop :=
  (
    ∀ g tgt src r sat elem d a, Lanes (.cvt g tgt src r sat elem d a) 1 fun _ _ u v =>
      let pat := if src = .f64 then u.wide a 2 else (u.val a).toNat
      let x := decodeFmt src (pat / 2 ^ (fmtWidth src * elem) % 2 ^ fmtWidth src)
      let y := convert tgt r (sat && !holdsInf tgt src) (!Use.fmtFloat src) x
      if tgt = .f64 then u.WroteN v d 2 (y % 2 ^ 64).toNat else u.Wrote v d (.ofInt 32 y) full) ∧
  (
    ∀ g d a slot, Crosses (.cvtq g d a slot) (fun s n _ => maskOf ((List.range 8).map (n % s.iwg.width / 8 * 8 + ·))) 4 fun s n u v =>
      let base := n % s.iwg.width / 8 * 8
      let mem := s.members (.cvtq g d a slot) n (maskOf ((List.range 8).map (base + ·)))
      let f := fmtOfCode (Krec.fslot s.ikrec slot % 16)
      ∃ xs : List Machine.Num, xs.length = 32 ∧
        (∀ x ∈ mem, ∀ j, j < 4 → xs[4 * (x % s.iwg.width - base) + j]? = some (f32 (((s.ithread x).readN a 4).getD j 0))) ∧
        (∀ k, k < 32 → (∀ x ∈ mem, x % s.iwg.width ≠ base + k / 4) → xs[k]? = some (.fin false 0 1)) ∧
        (let q := quantiseBlock xs f (f32 (.ofNat 32 (Krec.fslot s.ikrec slot / 2 ^ 32)))
         u.WroteN v d 2 (packCodes (fmtWidth f) ((q.2.drop (4 * (n % s.iwg.width % 8))).take 4) + 2 ^ 32 * q.1)))

/-! ## Lanes (spec/09_vector.md R232 to R238) -/

/-- R235: `XLANE` writes to each active member the value and interval of A in the lane that its mode names, when that lane is an active member of
the set, and the thread's own otherwise. R236 to R238: `PCOLL` collects a predicate over the active members: some, every, all the same, the mask of
their lanes, or their number; `XEQ` writes the mask of the lanes whose A equals the thread's. `LREDUCE` combines A over the active members in
ascending lane order, `LSCAN` over those below the thread, with it unless `.EXCL`; an empty combination gives the operation's identity. -/
def Obligations.LaneExchanges : Prop :=
  (
    ∀ g m d a b mask, Crosses (.xlane g m d a b mask) (fun _ => laneMaskOf mask) 2 fun s n u v =>
      let i := Instr.xlane g m d a b mask
      let mem := s.members i n (laneMaskOf mask n (s.ithread n))
      let l := n % s.iwg.width
      let k := (u.val b).toNat
      let from_ := match m with
        | .from => k
        | .rot => (l + k) % s.iwg.width
        | .swap => l ^^^ (k % 64)
        | .seg => l / 2 ^ min (k % 8) 6 * 2 ^ min (k % 8) 6
      (∀ x ∈ mem, x % s.iwg.width = from_ → u.Wrote v d ((s.ithread x).val a) ((s.ithread x).read a).2) ∧
      ((∀ x ∈ mem, x % s.iwg.width ≠ from_) → u.Wrote v d (u.val a) (u.read a).2)) ∧
  (
    (
      (∀ g m pd d pa mask, Crosses (.pcoll g m pd d pa mask) (fun _ => laneMaskOf mask) 2 fun s n u v =>
        let i := Instr.pcoll g m pd d pa mask
        let mem := s.members i n (laneMaskOf mask n (s.ithread n))
        let on := mem.filter fun x => (s.ithread x).pred pa
        match m with
        | .some => u.WroteP v pd (decide (∃ x ∈ mem, (s.ithread x).pred pa = true))
        | .every => u.WroteP v pd (decide (∀ x ∈ mem, (s.ithread x).pred pa = true))
        | .same => u.WroteP v pd (decide ((∀ x ∈ mem, (s.ithread x).pred pa = true) ∨ ∀ x ∈ mem, (s.ithread x).pred pa = false))
        | .mask => u.WroteN v d 2 (maskOf (on.map (· % s.iwg.width))).toNat
        | .count => u.Wrote v d (.ofNat 32 on.length) full) ∧
      (∀ g b64 d a mask, Crosses (.xeq g b64 d a mask) (fun _ => laneMaskOf mask) 2 fun s n u v =>
        let i := Instr.xeq g b64 d a mask
        let mem := s.members i n (laneMaskOf mask n (s.ithread n))
        let k := if b64 then 2 else 1
        let eq := mem.filter fun x => (s.ithread x).wide a k = (s.ithread n).wide a k
        u.WroteN v d 2 (maskOf (eq.map (· % s.iwg.width))).toNat)) ∧
    (
      (∀ g op d a mask, Crosses (.lreduce g op d a mask) (fun _ => laneMaskOf mask) 2 fun s n u v =>
        let mem := s.members (.lreduce g op d a mask) n (laneMaskOf mask n (s.ithread n))
        u.Wrote v d (laneFold op (mem.map fun x => (s.ithread x).val a)) full) ∧
      (∀ g op excl d a mask, Crosses (.lscan g op excl d a mask) (fun _ => laneMaskOf mask) 2 fun s n u v =>
        let mem := s.members (.lscan g op excl d a mask) n (laneMaskOf mask n (s.ithread n))
        u.Wrote v d (laneFold op ((mem.filter fun x => if excl then x < n else x ≤ n).map fun x => (s.ithread x).val a)) full) ∧
      (∀ a l, laneFold .iadd (a :: l) = l.foldl (· + ·) a) ∧ laneFold .iadd [] = 0 ∧
      laneFold .imin [] = 0x7FFFFFFF ∧ laneFold .imax [] = 0x80000000 ∧ laneFold .iminu [] = 0xFFFFFFFF ∧ laneFold .imaxu [] = 0 ∧
      laneFold .fadd [] = 0x80000000 ∧ laneFold .fmin [] = 0x7F800000 ∧ laneFold .fmax [] = 0xFF800000))

/-- R163, R440: where all threads of a set stand at the cross-lane instruction and some of them computed another set, the threads of that set take
BAR with detail 5, and they alone. That an inactive thread's set is formed from its own mask is the model's reading (notes/assumptions/28.md), and
so is that the trap comes before any agreeing set of the turn executes, and takes members whose own set is not whole (notes/assumptions/29.md). A
thread whose set is not whole waits at the instruction with its mask, and has not issued: nothing is written. -/
def Obligations.LaneRendezvous : Prop :=
  (∀ (s : State) i mask, crossMask s i = some mask → s.Issuable i →
    let set := fun n => s.iwg.crossSet n (mask n (s.ithread n))
    let split := s.meeting.filter fun n => (set n).all (fun u => s.meeting.contains u) && (set n).any fun u => set u != set n
    let bad := s.meeting.filter fun u => split.any fun n => (set n).contains u
    bad ≠ [] → exec i s = .next (s.trapIssue { cause := Cause.bar, mask := bad, detail := 5, lanes := some bad })) ∧
  (∀ (s : State) i mask, crossMask s i = some mask → s.Issuable i →
    (∀ n ∈ s.meeting, ∃ u ∈ s.iwg.crossSet n (mask n (s.ithread n)), u ∉ s.meeting) → (∀ n ∈ s.issue.lanes, n ∈ s.meeting) →
    s.Completes i fun t => t.clk = s.clk ∧ (∀ a, Memory.read t.mem a = Memory.read s.mem a) ∧
      (∀ n ∈ s.issue.lanes, t.ithread n = { s.ithread n with pc := s.issue.pc, hold := .lane (mask n (s.ithread n)) s.clk }) ∧
      ∀ n, n ∉ s.issue.lanes → t.ithread n = s.ithread n)

/-! ## Floating point (spec/09_vector.md R241 to R251) -/

/-- R242: FP32 sum, difference, product and fused product are the exact result of the decoded operands, rounded once in the instruction's mode; a
zero sum of operands of opposite sign is −0 under `.RM` only. R243: `FMIN` and `FMAX` answer one operand unchanged: the other one when one is NaN,
the quiet NaN when both are, and −0 orders below +0. -/
def Obligations.Fp32Arithmetic : Prop :=
  (
    (∀ g r o, Lanes (.fadd g r o) 1 fun _ _ u v =>
      u.Wrote v o.d (w32 (roundFp fp32 r ((f32 (u.val o.a)).add (r == .rm) (f32 (u.fpB o.b))))) full) ∧
    (∀ g r o, Lanes (.fsub g r o) 1 fun _ _ u v =>
      u.Wrote v o.d (w32 (roundFp fp32 r ((f32 (u.val o.a)).add (r == .rm) (f32 (u.fpB o.b)).neg))) full) ∧
    (∀ g r o, Lanes (.fmul g r o) 1 fun _ _ u v =>
      u.Wrote v o.d (w32 (roundFp fp32 r ((f32 (u.val o.a)).mul (f32 (u.fpB o.b))))) full) ∧
    (∀ g r o, Lanes (.ffma g r o) 1 fun _ _ u v =>
      u.Wrote v o.d (w32 (roundFp fp32 r (((f32 (u.val o.a)).mul (f32 (u.fpB o.b))).add (r == .rm) (f32 (u.val o.c))))) full) ∧
    (∀ g r o, Lanes (.frnd g r o) 1 fun _ _ u v => ∃ w, u.Wrote v o.d w full ∧
      ∀ sg n m, f32 (u.val o.a) = .fin sg n m → n < m * 2 ^ 23 → w = w32 (.fin sg (roundQ r sg n m) 1)) ∧
    (∀ g o, Lanes (.fsqrt g o) 4 fun _ _ u v => u.Wrote v o.d (fsqrtWord (u.val o.a)) full)) ∧
  (
    (∀ g o, Lanes (.fmin g o) 1 fun _ _ u v =>
      let a := u.val o.a
      let b := u.fpB o.b
      u.Wrote v o.d (if (f32 a).isNan ∧ (f32 b).isNan then 0x7FC00000 else if (f32 a).isNan then b else if (f32 b).isNan then a
        else if below (f32 b) (f32 a) then b else a) full) ∧
    (∀ g o, Lanes (.fmax g o) 1 fun _ _ u v =>
      let a := u.val o.a
      let b := u.fpB o.b
      u.Wrote v o.d (if (f32 a).isNan ∧ (f32 b).isNan then 0x7FC00000 else if (f32 a).isNan then b else if (f32 b).isNan then a
        else if below (f32 a) (f32 b) then b else a) full))

/-- R246: each function of the set writes a result of its operand; what the manual bounds without a value takes the free candidate of its code
(notes/assumptions/6.md). NaN gives the quiet NaN, and the special operands give the values of R246. -/
def Obligations.FunctionSet : Prop :=
  (∀ g o, Lanes (.frcp g o) 4 fun _ _ u v => ∃ w, u.Wrote v o.d w full ∧ (u.val o.a = 0 → w = 0x7F800000) ∧
    (u.val o.a = 0x7F800000 → w = 0) ∧ ((f32 (u.val o.a)).isNan → w = 0x7FC00000) ∧ w = frcpWord (Config.freeFn 0 (u.val o.a)) (u.val o.a)) ∧
  (∀ g o, Lanes (.frsq g o) 4 fun _ _ u v => ∃ w, u.Wrote v o.d w full ∧ (u.val o.a = 0 → w = 0x7F800000) ∧
    (u.val o.a = 0x7F800000 → w = 0) ∧ ((f32 (u.val o.a)).isNan → w = 0x7FC00000) ∧ w = frsqWord (Config.freeFn 1 (u.val o.a)) (u.val o.a)) ∧
  (∀ g o, Lanes (.fexp2 g o) 4 fun _ _ u v => ∃ w, u.Wrote v o.d w full ∧ (u.val o.a = 0 → w = 0x3F800000) ∧
    (u.val o.a = 0x7F800000 → w = 0x7F800000) ∧ (u.val o.a = 0xFF800000 → w = 0) ∧ w = fexp2Word (Config.freeFn 3 (u.val o.a)) (u.val o.a)) ∧
  (∀ g o, Lanes (.flog2 g o) 4 fun _ _ u v => ∃ w, u.Wrote v o.d w full ∧ (u.val o.a = 0 → w = 0xFF800000) ∧
    (u.val o.a = 0x3F800000 → w = 0) ∧ ((f32 (u.val o.a)).isNan → w = 0x7FC00000) ∧ w = flog2Word (Config.freeFn 4 (u.val o.a)) (u.val o.a)) ∧
  (∀ g o, Lanes (.fsin g o) 4 fun _ _ u v => ∃ w, u.Wrote v o.d w full ∧ (u.val o.a = 0 → w = 0) ∧
    (u.val o.a = 0x7F800000 → w = 0x7FC00000) ∧ w = fsinWord (Config.freeFn 5 (u.val o.a)) (u.val o.a)) ∧
  (∀ g o, Lanes (.fcos g o) 4 fun _ _ u v => ∃ w, u.Wrote v o.d w full ∧ (u.val o.a = 0x7F800000 → w = 0x7FC00000) ∧
    w = fcosWord (Config.freeFn 6 (u.val o.a)) (u.val o.a)) ∧
  (∀ g o, Lanes (.ftanh g o) 4 fun _ _ u v => ∃ w, u.Wrote v o.d w full ∧ (u.val o.a = 0 → w = 0) ∧
    (u.val o.a = 0x7F800000 → w = 0x3F800000) ∧ (u.val o.a = 0xFF800000 → w = 0xBF800000) ∧
    w = ftanhWord (Config.freeFn 7 (u.val o.a)) (u.val o.a))

/-- R242: FP64 sum, difference, product and fused product of V pairs, rounded once. R248: packed sums, products and fused products act on the two
half-words apart, each decoded, computed exactly and rounded once in its format. -/
def Obligations.Fp64AndPacked : Prop :=
  (
    let x := fun (t : Thread) (f : Field) => decodeFp fp64 (t.wide f 2)
    (∀ g r d a b, Lanes (.dadd g r false d a b) 8 fun _ _ u v =>
      u.WroteN v d 2 (encodeFp fp64 (roundFp fp64 r ((x u a).add (r == .rm) (x u b))))) ∧
    (∀ g r d a b, Lanes (.dadd g r true d a b) 8 fun _ _ u v =>
      u.WroteN v d 2 (encodeFp fp64 (roundFp fp64 r ((x u a).add (r == .rm) (x u b).neg)))) ∧
    (∀ g r d a b, Lanes (.dmul g r d a b) 8 fun _ _ u v => u.WroteN v d 2 (encodeFp fp64 (roundFp fp64 r ((x u a).mul (x u b))))) ∧
    (∀ g r d a b c, Lanes (.dfma g r d a b c) 8 fun _ _ u v =>
      u.WroteN v d 2 (encodeFp fp64 (roundFp fp64 r (((x u a).mul (x u b)).add (r == .rm) (x u c)))))) ∧
  (
    let out := fun (p : Fp) (f : Machine.Num → Machine.Num → Machine.Num → Machine.Num) (a b c : Word) (w : Word) =>
      w.toNat % 65536 = encodeFp p (f (decodeFp p (a.toNat % 65536)) (decodeFp p (b.toNat % 65536)) (decodeFp p (c.toNat % 65536))) % 65536 ∧
      w = .ofNat 32 (encodeFp p (f (decodeFp p (a.toNat % 65536)) (decodeFp p (b.toNat % 65536)) (decodeFp p (c.toNat % 65536))) +
        65536 * encodeFp p (f (decodeFp p (a.toNat / 65536)) (decodeFp p (b.toNat / 65536)) (decodeFp p (c.toNat / 65536))))
    (∀ g r d a b, Lanes (.h2add g r d a b) 1 fun _ _ u v => ∃ w, u.Wrote v d w full ∧
      out fp16 (fun x y _ => roundFp fp16 r (x.add (r == .rm) y)) (u.val a) (u.val b) (u.val b) w) ∧
    (∀ g r d a b, Lanes (.h2mul g r d a b) 1 fun _ _ u v => ∃ w, u.Wrote v d w full ∧
      out fp16 (fun x y _ => roundFp fp16 r (x.mul y)) (u.val a) (u.val b) (u.val b) w) ∧
    (∀ g r d a b c, Lanes (.h2fma g r d a b c) 1 fun _ _ u v => ∃ w, u.Wrote v d w full ∧
      out fp16 (fun x y z => roundFp fp16 r ((x.mul y).add (r == .rm) z)) (u.val a) (u.val b) (u.val c) w) ∧
    (∀ g r d a b, Lanes (.b2add g r d a b) 1 fun _ _ u v => ∃ w, u.Wrote v d w full ∧
      out fpBf16 (fun x y _ => roundFp fpBf16 r (x.add (r == .rm) y)) (u.val a) (u.val b) (u.val b) w) ∧
    (∀ g r d a b, Lanes (.b2mul g r d a b) 1 fun _ _ u v => ∃ w, u.Wrote v d w full ∧
      out fpBf16 (fun x y _ => roundFp fpBf16 r (x.mul y)) (u.val a) (u.val b) (u.val b) w) ∧
    (∀ g r d a b c, Lanes (.b2fma g r d a b c) 1 fun _ _ u v => ∃ w, u.Wrote v d w full ∧
      out fpBf16 (fun x y z => roundFp fpBf16 r ((x.mul y).add (r == .rm) z)) (u.val a) (u.val b) (u.val c) w))

/-- R249 to R251: packed minimum and maximum; the dot product of four signed or unsigned bytes added to C modulo 2^32, and that of four FP8 values
rounded once; the maximum magnitude of `AMAX`; and `VQDEC`, which writes eight decoded and scaled values of a code from the codebook that the core
holds, and spends the free choices of its entries (notes/assumptions/3.md). -/
def Obligations.DotsAndCodes : Prop :=
  (∀ g mx bf d a b, Lanes (.pkminmax g mx bf d a b) 1 fun _ _ u v =>
    let p := if bf then fpBf16 else fp16
    u.Wrote v d (.ofNat 32 (minMax p mx ((u.val a).toNat % 65536) ((u.val b).toNat % 65536) +
      65536 * minMax p mx ((u.val a).toNat / 65536) ((u.val b).toNat / 65536))) full) ∧
  (∀ g ua ub d a b c, Lanes (.i8dot g ua ub d a b c) 1 fun _ _ u v =>
    let x := fun (un : Bool) (w : Word) (k : Nat) => if un then ((w.toNat / 256 ^ k % 256 : Nat) : Int) else sext (w.toNat / 256 ^ k % 256 : Nat) 8
    let p := fun k => x ua (u.val a) k * x ub (u.val b) k
    u.Wrote v d (.ofInt 32 ((u.val c).toInt + p 0 + p 1 + p 2 + p 3)) full) ∧
  (∀ g ae be d a b c, Lanes (.f8dot g ae be d a b c) 1 fun _ _ u v =>
    u.Wrote v d (f8dotWord (if ae then .e5m2 else .e4m3) (if be then .e5m2 else .e4m3) (u.val a) (u.val b) (u.val c)) full) ∧
  (∀ g d a b, Lanes (.amax g .f32 d a b) 1 fun _ _ u v => u.Wrote v d (amaxWord [f32 (u.val a)] (u.val b)) full) ∧
  (∀ g d a b, Lanes (.amax g .bf16x2 d a b) 1 fun _ _ u v =>
    u.Wrote v d (amaxWord [decodeFp fpBf16 ((u.val a).toNat % 65536), decodeFp fpBf16 ((u.val a).toNat / 65536)] (u.val b)) full) ∧
  (∀ g d a b, Lanes (.amax g .f16x2 d a b) 1 fun _ _ u v =>
    u.Wrote v d (amaxWord [decodeFp fp16 ((u.val a).toNat % 65536), decodeFp fp16 ((u.val a).toNat / 65536)] (u.val b)) full) ∧
  (∀ (s : State) g hi f16 d a b slot book, s.Issuable (.vqdec g hi f16 d a b slot) → s.active (.vqdec g hi f16 d a b slot) ≠ [] →
    (s.core s.iwg.core).book s.iwg.kernel slot = some book →
    s.Completes (.vqdec g hi f16 d a b slot) fun t => t.freeCtr = s.freeCtr + 256 ∧ (∀ x, Memory.read t.mem x = Memory.read s.mem x) ∧
      s.Threads t (.vqdec g hi f16 d a b slot) fun _ u v =>
        let c := (u.val a).toNat / (if hi then 65536 else 1) % 65536
        let e := s.bookEntry s.iwg.ctx (Krec.codebook s.ikrec slot) book (c / 256)
        let p := if f16 then fp16 else fpBf16
        let one := fun x => encodeFp p (roundFp p .rn ((x.mul (scaleVal ((u.val b).toNat % 256))).mul
          (f32 (.ofNat 32 (Krec.fslot s.ikrec slot / 2 ^ 32)))))
        u.WroteN v d 4 (packCodes 16 ((decodeVq2 c e).map one)))

/-! ## Arrays and memory access (spec/10_array.md R252 to R283) -/

/-- R252 to R259, R264, R270, R273, R275, R276, R279: a load through an array register, of any number of active lanes: `LD`; `LDU`, whose lanes take
the load of the lowest active lane of their gang; and `LD.XS`, whose 16 bytes carry an interval. A lane outside the extent of an array that masks
gets zero, full, and a false status at once, and its bit of gang.mask_status is set. A lane of the global space starts a producer with the address,
size, sign, ordering, near bit and service class that the array and the form give it; its registers are empty until the answer. A lane of
scratchpad, a peer's, or the accumulators is answered as it issues with the bytes stored. The pieces of a scratchpad access that is not one
single-copy atomic piece are read later: how it is cut is the model's choice (notes/assumptions/8.md), as is that the inserted cycle of the check
comes first where some interval does not pass (notes/assumptions/40.md). `LDA` starts the load of each lane at the V pair's value plus the offset.
-/
def Obligations.ArrayLoads : Prop :=
  let loads := fun (s : State) (i : Instr) (f : ArrForm) (sgn xs : Bool) =>
    s.Spread i f →
    (∀ l ∈ s.active i, ∀ o p, s.placeOf i f l = some (.scr o p) → (s.ithread l).spotPend s.issue.wid o p f.n = false) →
    s.Completes i fun t =>
      (∀ o, (t.wg o).scratch = (s.wg o).scratch ∧ (t.wg o).acc = (s.wg o).acc) ∧ (∀ g, (t.iwg.gang g).mask = s.maskAfter i f g) ∧
      ((∀ l ∈ s.active i, (s.iwg.array l f.k).space ≠ 0) → ∀ a, Memory.read t.mem a = Memory.read s.mem a) ∧
      ∃ b, (b = s.clk ∨ b = s.clk + 1) ∧ s.GroupOnly t i fun l u v =>
        (s.inside i f l = false → u.Zeroed v (instrDst i) (instrStat i) (if xs then ⟨0, 0⟩ else loadIv f.n sgn)) ∧
        (∀ p, s.placeOf i f l = some (.glob p) → u.Started v (instrDst i) (instrStat i)
          (.load { va := p, size := f.n, sgn := sgn, xs := xs, near := (s.iwg.array l f.k).near, svc := (s.iwg.array l f.k).svc,
                   order := f.order.order, scope := f.order.scope, remote := false, uni := if f.uni then some (s.leadOf i f l) else none } []) b) ∧
        (∀ o p, s.placeOf i f l = some (.scr o p) → u.Started v (instrDst i) (instrStat i)
          (if 1 < (cutUnit scratchUnit p f.n).length then .spotLoad o p f.n sgn xs f.order.order f.order.scope []
           else s.gives (.scr o p) f.n sgn xs) b) ∧
        (∀ o p, s.placeOf i f l = some (.acc o p) → u.Started v (instrDst i) (instrStat i) (s.gives (.acc o p) f.n sgn xs) b)
  (∀ (s : State) g sz sgn d m f, arrForm (.ld g sz sgn d m) = some f → loads s (.ld g sz sgn d m) f sgn false) ∧
  (∀ (s : State) g sz sgn d m f, arrForm (.ldu g sz sgn d m) = some f → loads s (.ldu g sz sgn d m) f sgn false) ∧
  (∀ (s : State) g d m f, arrForm (.ldXs g d m) = some f → loads s (.ldXs g d m) f false true) ∧
  (∀ (s : State) o p n sgn, (∀ b ∈ (s.wg o).badScratch, b < p ∨ p + n ≤ b) →
    s.gives (.scr o p) n sgn false =
      .done (loadWords n sgn (ofBytes (Memory.readN (s.wg o).scratch p n))) (loadIv n sgn) true) ∧
  (∀ (s : State) o p n sgn xs, 0 < n → p ∈ (s.wg o).badScratch → s.gives (.scr o p) n sgn xs = .failed true) ∧
  (∀ (s : State) o p sgn, p % 4 = 0 → p / 4 ∉ (s.wg o).badAcc →
    s.gives (.acc o p) 4 sgn false = .done [(s.wg o).acc.getD (p / 4) 0] full true) ∧
  (∀ (s : State) g sz sgn d va (off : BitVec 16) w (p : Nat → Nat), let i := Instr.lda g sz sgn d va off w
    s.Issuable i → s.ictx.capUnchecked = true → (ordScr w).rel = false →
    (∀ l ∈ s.active i, s.iwg.acquiring l = false ∧ (p l : Int) = (s.ithread l).pair va + off.toInt ∧ p l < 2 ^ 57 ∧
      s.meets (.glob (p l)) (nBytes sz) false = false) →
    s.Runs i 1 fun l u v => u.Started v (instrDst i) none
      (.load { va := p l, size := nBytes sz, sgn := sgn, xs := false, near := false, svc := Krec.svc s.ikrec, order := (ordScr w).order,
               scope := (ordScr w).scope, remote := false } []) s.clk)

/-- R271, R273, R277, R278: a load of scratchpad by any number of lanes is answered as it issues, with the bytes stored, sign- or zero-extended, and
its interval, or with an uncorrectable error; one that names granules starts a producer that waits for them. `LDP` reads the scratchpad of the
workgroup at its cluster position. The alignment makes each access one single-copy atomic piece. -/
def Obligations.ScratchLoads : Prop :=
  (∀ (s : State) i f o n sgn, s.SpreadScr i f o → f.order.rel = false →
    ((∃ g sz d x off w, i = .lds g sz sgn d x off w ∧ (w.map ScrW.fe).getD .none = .none ∧ n = nBytes sz) ∨
      (∃ g sz d x off core w, i = .ldp g sz sgn d x off core w ∧ n = nBytes sz)) →
    (∀ l ∈ s.active i, (s.ithread l).spotPend s.issue.wid o (s.scrAt f l).toNat n = false) →
    s.Completes i fun t => (∀ v, (t.wg v).scratch = (s.wg v).scratch) ∧ (∀ a, Memory.read t.mem a = Memory.read s.mem a) ∧
      ∃ b, (b = s.clk ∨ b = s.clk + 1) ∧ s.GroupOnly t i fun l u v =>
        let p := (s.scrAt f l).toNat
        u.Started v (instrDst i) (instrStat i) (s.gives (.scr o p) n sgn false) b ∧
          ((∀ b ∈ (s.wg o).badScratch, b < p ∨ p + n ≤ b) → s.gives (.scr o p) n sgn false =
            .done (loadWords n sgn (ofBytes (Memory.readN (s.wg o).scratch p n))) (loadIv n sgn) true)) ∧
  (∀ (s : State) g sz sgn d x off (w : ScrW) f, let i := Instr.lds g sz sgn d x off (some w)
    s.SpreadScr i f s.issue.wid → f.order.rel = false → w.fe ≠ .none →
    s.Completes i fun t => (∀ v, (t.wg v).scratch = (s.wg v).scratch) ∧ (∀ a, Memory.read t.mem a = Memory.read s.mem a) ∧
      ∃ b, (b = s.clk ∨ b = s.clk + 1) ∧ s.GroupOnly t i fun l u v => u.Started v (instrDst i) none
        (.granule (s.scrAt f l).toNat (nBytes sz) sgn (decide (w.fe = .clr)) w.order w.scope) b)

/-- R196, R258, R265, R274, R277: a store to scratchpad, a peer's, or the accumulators by any number of lanes writes the low bytes of each lane's
data at its place, the highest lane's where several name one byte, and changes no other byte and no memory: `STS` in the workgroup's own scratchpad,
`STP` in that of the workgroup at its cluster position, `ST` and `ST.XS` through an array. Lanes that their array masks store nothing, and their
bits of gang.mask_status are set. The threads only go on. An access that is not one single-copy atomic piece starts a producer of its pieces: how it
is cut is the model's choice (notes/assumptions/8.md). -/
def Obligations.LocalStores : Prop :=
  let one := fun (s : State) (l n : Nat) (place : Nat → Option Spot) =>
    (∀ p, place l ≠ some (.glob p)) ∧ (∀ o p, place l = some (.acc o p) → p % 4 = 0) ∧
    ∀ o p, place l = some (.scr o p) → (cutUnit scratchUnit p n).length ≤ 1 ∧ (s.ithread l).spotPend s.issue.wid o p n = false ∧
      s.iwg.spotBelow l o p n s.clk = false
  let writes := fun (s : State) (i : Instr) (n : Nat) (place : Nat → Option Spot) (d : Thread → Nat) =>
    s.Completes i fun t => s.GroupOnly t i (fun _ u v => v = u) ∧ (∀ a, Memory.read t.mem a = Memory.read s.mem a) ∧
      (∀ o a, Memory.read (t.wg o).scratch a =
        match ((s.active i).filter fun l => match place l with
          | some (.scr v p) => v == o && p ≤ a && a < p + n
          | _ => false).getLast? with
        | some l => match place l with
          | some (.scr _ p) => (bytesOf (d (s.ithread l)) n).getD (a - p) 0
          | _ => 0
        | none => Memory.read (s.wg o).scratch a) ∧
      ∀ k, t.iwg.acc.getD k 0 =
        match ((s.active i).filter fun l => match place l with
          | some (.acc _ p) => p / 4 ≤ k && k < p / 4 + n / 4
          | _ => false).getLast? with
        | some l => match place l with
          | some (.acc _ p) => .ofNat 32 (d (s.ithread l) / 2 ^ (32 * (k - p / 4)))
          | _ => 0
        | none => s.iwg.acc.getD k 0
  (∀ (s : State) i f d, s.Spread i f → storeData i = some d → (f.order.rel = true → s.clean) →
    (∀ l ∈ s.active i, one s l f.n (s.placeOf i f)) →
    writes s i f.n (s.placeOf i f) d ∧ s.Completes i fun t => ∀ g, (t.iwg.gang g).mask = s.maskAfter i f g) ∧
  (∀ (s : State) i f o d, s.SpreadScr i f o → storeData i = some d → (f.order.rel = true → s.clean) →
    let place := fun l => some (Spot.scr o (s.scrAt f l).toNat)
    (∀ l ∈ s.active i, one s l f.n place) → writes s i f.n place d) ∧
  (∀ (s : State) i f d l o p, s.Spread i f → storeData i = some d → f.order.rel = false → s.active i = [l] →
    s.placeOf i f l = some (.scr o p) → (s.ithread l).spotPend s.issue.wid o p f.n = false → 1 < (cutUnit scratchUnit p f.n).length →
    s.Completes i fun t => (∀ v, (t.wg v).scratch = (s.wg v).scratch) ∧ (∀ a, Memory.read t.mem a = Memory.read s.mem a) ∧
      ∃ b, (b = s.clk ∨ b = s.clk + 1) ∧ s.GroupOnly t i fun _ u v => u.Started v none none
        (.spotStore o ((cutUnit scratchUnit p f.n).map fun q => ⟨q.1, ((bytesOf (d (s.ithread l)) f.n).drop q.2.1).take q.2.2⟩)) b)

/-- R26, R258, R265, R274, R279, R297, R317, R332, R455, R456, R459: a store to the global space: `ST` and `ST.XS` through an array, and `STA` where
the context may access unchecked. Lanes whose bytes are one single-copy atomic piece and whose core holds a grant write the bytes of their lines in
the L1 as dirty, the highest lane's where several name one byte, and a release holds the line for its record; without a grant a lane's bytes go to
the siding; a near-only lane whose page is far is dropped, with TIER_MISS posted. A full siding makes the group stand at the instruction, and an
earlier access of the thread to the bytes makes it wait. No byte of memory changes but the counts of the footprint's pages. A store that is not one
piece starts a producer of its pieces: that it is cut so, and its unit taken from the first and the last byte, is the model's choice
(notes/assumptions/8.md). -/
def Obligations.GlobalStores : Prop :=
  let stores := fun (s : State) (i : Instr) (s1 : State) (good : List Nat) (va : Nat → Nat) (near : Nat → Bool) (svc : Nat → Nat) (n : Nat)
      (o : Ord) (d : Thread → Nat) =>
    let c := s.iwg.core
    let bytes := fun l => bytesOf (d (s.ithread l)) n
    let rel := if o.rel ∧ o.scope ≠ .sys then some o.scope else none
    let plain := fun l a => s1.sidedAt s.issue.wid l a n = false ∧ s1.sidedBelow s.issue.wid l a n s1.clk = false
    (∀ a : Nat → GAddr, (∀ l ∈ good, s1.OnePiece l (va l) n (a l) ∧ plain l (a l).gia ∧ (s1.grantOf c s.iwg.ctx (a l).gia).isSome = true ∧
        (near l = true → ∀ g ∈ (s1.core c).grants, g.far = false)) →
      s.Completes i fun t => s.GroupOnly t i (fun _ u v => v = u) ∧ t.mem = s1.mem ∧ t.iwg.gangs = s1.iwg.gangs ∧
        ∀ gl, let on := fun l => lineOf (a l).gia == gl
          ((t.l1 c gl).held = if rel.isSome ∧ good.any on then rel else (s1.l1 c gl).held) ∧
          ∀ j, (t.l1 c gl).cells.get? j =
            match (good.filter fun l => on l && (a l).gia % 128 ≤ j && j < (a l).gia % 128 + n).getLast? with
            | some l => some ⟨(bytes l).getD (j - (a l).gia % 128) 0, true⟩
            | none => (s1.l1 c gl).cells.get? j) ∧
    (∀ l a, good = [l] → s1.OnePiece l (va l) n a → (s1.grantOf c s.iwg.ctx a.gia = none ∨ s1.sidedAt s.issue.wid l a.gia n = true) →
      (s1.ithread l).olderStores s1.clk = false →
      ((s1.core c).siding.length < 512 →
        s.Completes i fun t => s.GroupOnly t i (fun _ u v => v = u) ∧ t.mem = s1.mem ∧ t.iwg.gangs = s1.iwg.gangs ∧
          ∃ e ∈ (t.core c).siding, e.wid = s.issue.wid ∧ e.t = l ∧ lineOf e.gia = lineOf a.gia ∧
            ∀ j, j < n → e.bytes.get? (a.gia % 128 + j) = some ((bytes l).getD j 0)) ∧
      (512 ≤ (s1.core c).siding.length → o.rel = false → exec i s = .next (s.stand s.issue.lanes false))) ∧
    (∀ l a gr, good = [l] → s1.OnePiece l (va l) n a → plain l a.gia → s1.grantOf c s.iwg.ctx a.gia = some gr → near l = true → gr.far = true →
      o.rel = false → exec i s = .next ((s1.postTier a s.iwg.ctx c true false false).counted 1)) ∧
    (∀ l, good = [l] → (s1.ithread l).busyAt s1.ictx (va l) n = true → exec i s = .next s.stay) ∧
    (∀ l, good = [l] → (s1.ithread l).busyAt s1.ictx (va l) n = false → 1 < (s1.split s.iwg.ctx (va l) n).length →
      s.Completes i fun t => t.mem = s1.mem ∧ t.iwg.gangs = s1.iwg.gangs ∧ s.GroupOnly t i fun u x y =>
        if u = l then x.Started y none none (.store ((s1.split s.iwg.ctx (va l) n).map fun q => ⟨q.1, ((bytes l).drop q.2.1).take q.2.2⟩)
          (near l) (svc l) rel) s1.clk else y = x)
  (∀ (s : State) i f d, s.Spread i f → storeData i = some d → (f.order.rel = true → s.clean) →
    (∀ l ∈ s.active i, (s.iwg.array l f.k).space = 0) →
    stores s i (s.afterCheck i f) ((s.active i).filter (s.inside i f)) (fun l => (s.elemAt i f l).toNat) (fun l => (s.iwg.array l f.k).near)
      (fun l => (s.iwg.array l f.k).svc) f.n f.order d) ∧
  (∀ (s : State) i f, s.Spread i f → ∀ g, ((s.afterCheck i f).iwg.gang g).mask = s.maskAfter i f g) ∧
  (∀ (s : State) g sz va (off : BitVec 16) w v d (p : Nat → Nat), let i := Instr.sta g sz va off w v
    storeData i = some d → s.Issuable i → (s.active i).Pairwise (· < ·) → s.ictx.capUnchecked = true → ((ordScr w).rel = true → s.clean) →
    (∀ l ∈ s.active i, s.iwg.acquiring l = false ∧ ((ordScr w).rel = true → s.releaseReady s.issue.wid l true = true) ∧
      (p l : Int) = (s.ithread l).pair va + off.toInt ∧ p l < 2 ^ 57 ∧ s.meets (.glob (p l)) (nBytes sz) true = false) →
    stores s i s.advance (s.active i) p (fun _ => false) (fun _ => Krec.svc s.ikrec) (nBytes sz) (ordScr w) d)

/-- R255 to R258, R263, R268, R274, R277, R279, R341, R345, R362, R420: the traps of accesses, in their order. Through an array register: ILL of all
active lanes where some lane's space is not allowed; ALIGN of the lanes whose address is misaligned, or that touch accumulators with less than 4 bytes;
BOUNDS of the lanes outside the extent, of arrays that trap, with the exact address of the first modulo 2^64; BOUNDS of all where the workgroup named
does not exist; LOCK of the lanes that meet a registered range. The same for the offsets of scratchpad, ALIGN and BOUNDS by the allocation; and for
`LDA` and `STA`, LOCK and then PAGE beyond 57 bits. That the inserted cycle of a failing check passes before the trap, and not where the trap waits for
a busy frame, is the model's reading (notes/assumptions/40.md). -/
def Obligations.AccessTraps : Prop :=
  let after := fun (s : State) (i : Instr) (l : List State) (r : TrapReq) =>
    ∃ s1 ∈ l, exec i s = .next (if s.frameBusy s.issue.lanes then s.trapIssue r else s1.trapIssue r)
  (∀ (s : State) i f, s.Comes i f →
    (∃ l ∈ s.active i, let a := s.iwg.array l f.k; (a.space = 3 ∧ f.acc = false) ∨ (a.space ≠ 0 ∧ f.scr = false)) →
    exec i s = .next (s.trapIssue { cause := Cause.ill, mask := s.active i })) ∧
  (∀ (s : State) i f t l, s.Comes i f →
    (∀ l ∈ s.active i, let a := s.iwg.array l f.k; (a.space = 3 → f.acc = true) ∧ (a.space ≠ 0 → f.scr = true)) →
    ((s.active i).filter fun l => s.elemAt i f l % f.al != 0 || ((s.iwg.array l f.k).space == 3 && f.n < 4)) = t :: l →
    exec i s = .next (s.trapIssue { cause := Cause.align, mask := t :: l, addr := (s.elemAt i f t % 2 ^ 64).toNat })) ∧
  (∀ (s : State) i f t l, s.Checks i f → (∀ l ∈ s.active i, (s.iwg.array l f.k).trap = true) →
    ((s.active i).filter fun l => !s.inside i f l) = t :: l →
    after s i [s.advance.checked] { cause := Cause.bounds, mask := t :: l, addr := (s.elemAt i f t % 2 ^ 64).toNat }) ∧
  (∀ (s : State) i f t l, s.Checks i f → s.active i = t :: l → (∀ l ∈ s.active i, s.inside i f l = true) →
    (∃ l ∈ s.active i, let a := s.iwg.array l f.k; a.space = 2 ∧ s.peerWg a.peer = none) →
    after s i [s.advance, s.advance.checked] { cause := Cause.bounds, mask := t :: l, addr := (s.elemAt i f t % 2 ^ 64).toNat }) ∧
  (∀ (s : State) i f t l, s.Checks i f → (∀ l ∈ s.active i, s.inside i f l = true) →
    (∀ l ∈ s.active i, let a := s.iwg.array l f.k; a.space = 2 → s.peerWg a.peer ≠ none) → (∀ g try_ d m, i ≠ .tktLd g try_ d m) →
    ((s.active i).filter fun l => (s.placeOf i f l).any fun sp => s.meets sp f.n f.write) = t :: l →
    after s i [s.advance, s.advance.checked] { cause := Cause.lock, mask := t :: l, addr := (s.elemAt i f t % 2 ^ 64).toNat }) ∧
  (∀ (s : State) i f t l, s.ChecksScr i f → ((s.active i).filter fun l => s.scrAt f l % f.n != 0) = t :: l →
    exec i s = .next (s.trapIssue { cause := Cause.align, mask := t :: l, addr := (s.scrAt f t % 2 ^ 64).toNat })) ∧
  (∀ (s : State) i f t l, s.ChecksScr i f → (∀ l ∈ s.active i, s.scrAt f l % f.n = 0) →
    (f.wg = none → s.active i = t :: l →
      exec i s = .next (s.trapIssue { cause := Cause.bounds, mask := t :: l, addr := (s.scrAt f t % 2 ^ 64).toNat })) ∧
    (∀ o, f.wg = some o → ((s.active i).filter fun l => !s.scrIn f l) = t :: l →
      after s i [s.advance.checked] { cause := Cause.bounds, mask := t :: l, addr := (s.scrAt f t % 2 ^ 64).toNat }) ∧
    (∀ o w, f.wg = some o → f.write = some w → (∀ l ∈ s.active i, s.scrIn f l = true) →
      ((s.active i).filter fun l => s.meets (.scr o (s.scrAt f l).toNat) f.n w) = t :: l →
      after s i [s.advance, s.advance.checked] { cause := Cause.lock, mask := t :: l, addr := (s.scrAt f t % 2 ^ 64).toNat })) ∧
  (∀ (s : State) i n write (va : Field) (off : BitVec 16) t l,
    ((∃ g sz sgn d w, i = .lda g sz sgn d va off w ∧ n = nBytes sz ∧ write = false ∧ (ordScr w).rel = false) ∨
      (∃ g sz w v, i = .sta g sz va off w v ∧ n = nBytes sz ∧ write = true ∧ (ordScr w).rel = false)) →
    s.Issuable i → s.ictx.capUnchecked = true → (∀ l ∈ s.active i, s.iwg.acquiring l = false) →
    let p := fun (l : Nat) => (((s.ithread l).pair va + off.toInt) % 2 ^ 64).toNat
    (((s.active i).filter fun l => s.meets (.glob (p l)) n write) = t :: l →
      exec i s = .next (s.trapIssue { cause := Cause.lock, mask := t :: l, addr := p t })) ∧
    ((∀ l ∈ s.active i, s.meets (.glob (p l)) n write = false) → ((s.active i).filter fun l => 2 ^ 57 ≤ p l) = t :: l →
      exec i s = .next (s.trapIssue { cause := Cause.page, mask := t :: l, addr := p t })))

/-- R280: `PREF` brings the line of its element into the L1, all 128 bytes, where translation performs and the line is not poisoned; no register
changes. That `PREF` and `RESV`, which have no access size, take one element of their array is the model's choice (notes/assumptions/66.md). R260 to
R263, R281: `RESV` records the footprint of its lanes' intervals for the gang's array register and reserves its lines in the L1, where the core has
room for them and the record does not hold it already; `RESV.CLR` empties the record and releases every line that the register reserves. R282:
`CCTL.WB` leaves no dirty byte, and `.INV` and `.WBINV` no byte, in the L1 lines of its range, and the dirty bytes reach the coherent level; `.IINV`
drops the core's copies of the fetch blocks in it, with nothing left to write there of the thread's own. -/
def Obligations.CacheInstructions : Prop :=
  (
    (∀ (s : State) g (m : ArrOp Unit) l a p ga pa tier, let i := Instr.pref g false m
      let e := ((s.ithread l).index m.x).2
      let lo := a.base + (max (e.lo + arrOff m) 0).toNat * 2 ^ a.esize
      let hi := a.base + ((min (e.hi + arrOff m) (a.extent - 1)).toNat + 1) * 2 ^ a.esize - 1
      let s1 := s.advance.countFp s.iwg.ctx lo hi
      s.Hits i l m.k m.x (arrOff m) 1 false a p → a.space = 0 → s.meets (.glob p) (2 ^ a.esize) false = false →
      e.lo ≤ ((s.ithread l).val m.x).toInt → ((s.ithread l).val m.x).toInt ≤ e.hi →
      p % 128 + 2 ^ a.esize ≤ 128 → s.ictx.resolve .rd p = some ga →
      s1.translate s.iwg.ctx ga .rd a.near false = .ok pa tier → s1.isPoison (lineOf ga.gia) = false →
      s.Completes i fun t => (t.ithread l).cur = (s.ithread l).cur ∧ ∀ j, j < 128 → (t.l1Byte s.iwg.core (128 * lineOf ga.gia + j)).isSome) ∧
    (∀ (s : State) g (m : ArrOp Unit) l, let i := Instr.pref g true m
      s.Issuable i → s.active i = [l] → (s.iwg.array l m.k).space ≠ 0 → (s.iwg.array l m.k).resv = false →
      s.Completes i fun t => t.ithread l = s.stepped l ∧ ∀ a, Memory.read t.mem a = Memory.read s.mem a)) ∧
  (
    (∀ (s : State) g (m : ArrOp Unit) l, let i := Instr.resv g m
      let a := s.iwg.array l m.k
      let e := ((s.ithread l).index m.x).2
      let lo := a.base + (max (e.lo + arrOff m) 0).toNat * 2 ^ a.esize
      let hi := a.base + ((min (e.hi + arrOff m) (a.extent - 1)).toNat + 1) * 2 ^ a.esize - 1
      let old := (s.iwg.gang (s.iwg.gangOf l)).fp.get? m.k
      s.Issuable i → s.active i = [l] → a.space = 0 → max (e.lo + arrOff m) 0 ≤ min (e.hi + arrOff m) (a.extent - 1) →
      hi / 128 + 1 - lo / 128 ≤ 16 → (∀ x ∈ (s.core s.iwg.core).l1, x.2.resv = []) →
      s.Completes i fun t => t.ithread l = s.stepped l ∧ (t.iwg.gang (s.iwg.gangOf l)).fp.get? m.k =
        (if ∃ r, old = some r ∧ r.1 ≤ lo ∧ hi ≤ r.2 then old else some (lo, hi)) ∧
        ((∀ r, old = some r → ¬(r.1 ≤ lo ∧ hi ≤ r.2)) → ∀ j, lo / 128 ≤ j → j ≤ hi / 128 → ∀ ga, s.ictx.gia (128 * j) = some ga →
          (s.issue.wid, s.iwg.gangOf l, m.k) ∈ (t.l1 s.iwg.core (lineOf ga.gia)).resv)) ∧
    (∀ (s : State) g (m : ArrOp Unit) l, let i := Instr.resvClr g m
      s.Issuable i → s.active i = [l] → s.Completes i fun t => t.ithread l = s.stepped l ∧
        (t.iwg.gang (s.iwg.gangOf l)).fp.get? m.k = none ∧ (∀ a, Memory.read t.mem a = Memory.read s.mem a) ∧
        ∀ x ∈ (t.core s.iwg.core).l1, (s.issue.wid, s.iwg.gangOf l, m.k) ∉ x.2.resv)) ∧
  (
    (∀ (s : State) g va n l, let i := Instr.cctl g .wb va n
      s.Issuable i → s.active i = [l] → (∀ x ∈ s.cctlLines ((s.ithread l).pair va) n, (s.l1 s.iwg.core x).held = none) →
      s.Completes i fun t => ∀ x ∈ s.cctlLines ((s.ithread l).pair va) n, (t.l1 s.iwg.core x).dirty = []) ∧
    (∀ (s : State) g op va n l, let i := Instr.cctl g op va n
      s.Issuable i → s.active i = [l] → (op = .inv ∨ op = .wbinv) →
      (∀ x ∈ s.cctlLines ((s.ithread l).pair va) n, (s.l1 s.iwg.core x).held = none) →
      s.Completes i fun t => ∀ x ∈ s.cctlLines ((s.ithread l).pair va) n, (t.l1 s.iwg.core x).cells = []) ∧
    (∀ (s : State) g op va n l gl pa, let i := Instr.cctl g op va n
      let x := s.l1 s.iwg.core gl
      s.Issuable i → s.active i = [l] → op ≠ .iinv → s.cctlLines ((s.ithread l).pair va) n = [gl] → x.held = none → x.dirty ≠ [] →
      s.HomeOnly s.iwg.core gl pa → s.Completes i fun t =>
        t.mem = (({ s with mem := x.dirty.foldl (fun m e => Memory.write m (pa + e.1) e.2) s.mem } : State).countPte (128 * gl) 80).mem) ∧
    (∀ (s : State) g va n l, let i := Instr.cctl g .iinv va n
      let b := (s.ithread l).pair va / 32 * 32
      s.Issuable i → s.active i = [l] → s.codeBusy l b (b + 32 * n) = false →
      (∀ x ∈ s.l1Lines s.iwg.core s.iwg.ctx b (b + 32 * n), (s.l1 s.iwg.core x).dirty = [] ∧ (s.l1 s.iwg.core x).held = none) →
      s.Completes i fun t => t.ithread l = s.stepped l ∧ (∀ a, Memory.read t.mem a = Memory.read s.mem a) ∧
        ∀ x, x ∈ (t.core s.iwg.core).icache ↔ x ∈ (s.core s.iwg.core).icache ∧ ¬ (x.1 = s.iwg.ctx ∧ b ≤ x.2.1 ∧ x.2.1 < b + 32 * n)))

/-- R283: `ARRAY.SET` loads the gang's array register with the image in the V quad of its highest active lane and empties the register's footprint
record; `ARRAY.GET` reads it back; `ARRAY.CHK` reads the gang's mask of bad lanes and clears it unless `.KEEP`. R253, R283: an image that breaks a
rule of array registers makes every active lane of `ARRAY.SET` take ILL. -/
def Obligations.ArrayRegisters : Prop :=
  (
    (∀ (s : State) g k a l, let i := Instr.arraySet g k a
      let img : BitVec 128 := .ofNat 128 ((s.ithread l).wide a 4)
      s.Issuable i → s.active i = [l] → arrOk s.ikrec img = true →
      s.Completes i fun t => t.ithread l = s.stepped l ∧ (∀ x, Memory.read t.mem x = Memory.read s.mem x) ∧
        (∀ j, (t.iwg.gang (s.iwg.gangOf l)).arr.getD j 0 = if j = k then img else (s.iwg.gang (s.iwg.gangOf l)).arr.getD j 0) ∧
        (t.iwg.gang (s.iwg.gangOf l)).fp.get? k = none) ∧
    (∀ g d k, Lanes (.arrayGet g d k) 1 fun s n u v => u.WroteN v d 4 ((s.iwg.gang (n / s.iwg.width)).arr.getD k 0).toNat) ∧
    (∀ g d, Lanes (.arrayChk g true d) 1 fun s n u v => u.WroteN v d 2 (s.iwg.gang (n / s.iwg.width)).mask.toNat) ∧
    (∀ (s : State) g d, s.Issuable (.arrayChk g false d) → s.Completes (.arrayChk g false d) fun t =>
      s.Threads t (.arrayChk g false d) (fun n u v => u.WroteN v d 2 (s.iwg.gang (n / s.iwg.width)).mask.toNat) ∧
      (∀ a, Memory.read t.mem a = Memory.read s.mem a) ∧
      (∀ n ∈ s.active (.arrayChk g false d), (t.iwg.gang (n / s.iwg.width)).mask = 0) ∧
      ∀ k, (∀ n ∈ s.active (.arrayChk g false d), n / s.iwg.width ≠ k) → t.iwg.gang k = s.iwg.gang k)) ∧
  (
    ∀ (s : State) g k a l, s.Issuable (.arraySet g k a) → s.active (.arraySet g k a) = [l] →
      arrOk s.ikrec (.ofNat 128 ((s.ithread l).wide a 4)) = false →
      exec (.arraySet g k a) s = .next (s.trapIssue { cause := Cause.ill, mask := [l] }))

/-! ## Tickets (spec/11_ticket.md R302 to R311) -/

/-- R291, R293, R302, R304: `TKT.LD` of an aligned block that does not cross 4 KiB and may be read sends the request of its lane as it issues, which
is the model's reading (notes/assumptions/19.md), so that the answer can be there at once. It waits in the queue of a full table, or while the
thread's own accesses to the block are not performed; `.TRY` with a full table answers 0 and false; and where the home slice has a free entry and
lines for it, the entry is PENDING with every line to read, and the answer is its ticket; which free entry comes first is the model's choice
(notes/assumptions/17.md). Of several lanes each sends its request in ascending order, and a lane that its array masks gets 0 and false. -/
def Obligations.TicketLoads : Prop :=
  (∀ (s : State) g try_ d (m : ArrOp TkW) l a p ga, let i := Instr.tktLd g try_ d m
    let k := ((Use.wordOf m).map TkW.lines).getD 1
    let n := s.home ga
    let seq := (s.ithread l).seq
    let ctx := s.iwg.ctx
    s.Hits i l m.k m.x (arrOff m) (128 * k) false a p → a.space = 0 → p % 128 = 0 → 0 < k → p / 4096 = (p + 128 * k - 1) / 4096 →
    s.ictx.resolve .rd p = some ga → (s.ithread l).prod? seq = none →
    s.Completes i fun t => s.OnlyThread t l ∧ ∃ b y, (b = s.clk ∨ b = s.clk + 1) ∧
      (s.stepped l).Started y (instrDst i) (instrStat i)
        (.ticket { va := p, size := 128 * k, sgn := false, xs := false, near := a.near, svc := a.svc, order := .none, scope := .gang,
                   remote := false } k try_ ⟨s.issue.pc, s.issue.words, laneMask [l]⟩) b ∧
      (t.ithread l = y ∨ t.ithread l = { y with prods := listSet y.prods (fun p => p.seq == seq) Prod.queue } ∨
        ∃ v ok, t.ithread l = y.setWork seq (.done (wordList v 2) full ok)) ∧
      (s.blockBusy s.issue.wid l seq p (128 * k) ga = true → t.ithread l = y) ∧
      (s.blockBusy s.issue.wid l seq p (128 * k) ga = false → s.sliceUp n = true → (s.issue.wid, l, seq) ∉ (s.slice n).waiting →
        (∀ j, j < k → (s.l1 s.iwg.core (lineOf ga.gia + j)).dirty = [] ∧ (s.l1 s.iwg.core (lineOf ga.gia + j)).held = none) →
        (∀ e, (s.slice n).pinned + k ≤ 16384 → (s.slice n).freeEntry = some e →
          t.ithread l = y.setWork seq (.done (wordList (makeTicket (s.ctx ctx).secret n e (s.ticket n e).gen.toNat ctx k).toNat 2) full true) ∧
          (t.ticket n e).state = .pending ∧ (t.ticket n e).lines = k ∧ (t.ticket n e).ctx = ctx ∧ (t.ticket n e).ia = ga.gia ∧
          (t.ticket n e).inflight = true ∧ (t.ticket n e).left = List.range k) ∧
        (16384 < (s.slice n).pinned + k →
          if try_ then t.ithread l = y.setWork seq (.done [0, 0] full false)
          else t.ithread l = { y with prods := listSet y.prods (fun p => p.seq == seq) Prod.queue } ∧
            (t.slice n).waiting = (s.slice n).waiting ++ [(s.issue.wid, l, seq)]))) ∧
  (∀ (s : State) g try_ d m f, let i := Instr.tktLd g try_ d m
    let k := ((Use.wordOf m).map TkW.lines).getD 1
    let at_ := fun l => (s.elemAt i f l).toNat
    s.Spread i f → (∀ l ∈ s.active i, s.inside i f l = true → at_ l / 4096 = (at_ l + 128 * k - 1) / 4096 ∧ (s.ictx.resolve .rd (at_ l)).isSome = true) →
    exec i s = .next ((((s.active i).filter (s.inside i f)).foldl (fun t l =>
      let seq := (t.ithread l).seq
      let a := s.iwg.array l m.k
      let r : Req := { va := at_ l, size := 128 * k, sgn := false, xs := false, near := a.near, svc := a.svc, order := .none, scope := .gang, remote := false }
      (t.produce i l (.ticket r k try_ ⟨s.issue.pc, s.issue.words, laneMask (s.active i)⟩)).ticketAlloc s.issue.wid l seq r k try_)
      (((s.active i).filter fun l => !s.inside i f l).foldl (fun t l => t.iset l fun x => x.giveNow i (.done [] full false)) (s.afterCheck i f))).counted 1))

/-- R305, R306: a redeem with a ticket that passes the local checks holds its lane at the instruction until the slice answers: `TKT.RDV` with an
aligned offset inside the block, `TKT.RDS` with a producer for its status word. R311: `TKT.WAITANY` reads its list of tickets from scratchpad and
holds the lane until one is READY. R308 to R310: `TKT.POLL` answers whether the entry is READY for a ticket that passes every check, `TKT.STAT` the
status word, and `TKT.DROP` sends a drop for a ticket that passes the local checks, and otherwise only sets its predicate to false. -/
def Obligations.TicketUses : Prop :=
  (
    (
      (∀ g sz nf d tf xo, LanesIf (.tktRdv g sz nf d tf xo) (fun s x =>
          s.ticketLocal s.iwg.ctx (.ofNat 64 (x.pair tf)) = 0 ∧ (x.val xo).toNat % nBytes sz = 0 ∧
          (x.val xo).toNat + nBytes sz ≤ 128 * Tkt.lines (.ofNat 64 (x.pair tf))) 1 fun s _ u v =>
        v = { u with pc := s.issue.pc, hold := .redeem ⟨.ofNat 64 (u.pair tf), (u.val xo).toNat, sz, d, nf, false, s.origin, none⟩ }) ∧
      (∀ (s : State) g nf d tf xs l (p : Nat), let i := Instr.tktRds g nf d tf xs
        s.Issuable i → s.active i = [l] → s.ticketLocal s.iwg.ctx (.ofNat 64 ((s.ithread l).pair tf)) = 0 →
        (p : Int) = ((s.ithread l).val xs).toInt → p % 16 = 0 → p + 128 * Tkt.lines (.ofNat 64 ((s.ithread l).pair tf)) ≤ Krec.scratch s.ikrec →
        s.Runs i 1 fun _ u v => ∃ y, u.Started y (instrDst i) (instrStat i) .engine s.clk ∧
          v = { y with pc := s.issue.pc,
                       hold := .redeem ⟨.ofNat 64 (u.pair tf), p, .b128, d, nf, false, s.origin, some (i, (s.ithread l).seq)⟩ })) ∧
    (
      ∀ (s : State) g d xa n ps l p, let i := Instr.tktWaitany g d xa n ps
        s.HitsScratch i l xa 0 (8 * n) 8 s.issue.wid (some false) p → (∀ b ∈ s.iwg.badScratch, b < p ∨ p + 8 * n ≤ b) →
        s.Completes i fun t => s.OnlyThread t l ∧ (∀ a, Memory.read t.mem a = Memory.read s.mem a) ∧
          ∃ ks, ks.length = n ∧ (∀ j, j < n → ks[j]? = some (.ofNat 64 (Memory.readLE s.iwg.scratch (p + 8 * j) 8))) ∧
            t.ithread l = { s.stepped l with pc := s.issue.pc, hold := .waitany ks d ps })) ∧
  (
    (∀ g pd tf, Lanes (.tktPoll g pd tf) 1 fun s _ u v =>
      let k : Dword := .ofNat 64 (u.pair tf)
      u.Started v none (some pd) (.done [] full (decide (s.ticketCode s.iwg.ctx k = 0 ∧ (s.ticket (Tkt.slice k) (Tkt.entry k)).state = .ready))) s.clk) ∧
    (∀ g d tf, Lanes (.tktStat g d tf) 1 fun s _ u v =>
      u.Started v (instrDst (.tktStat g d tf)) none (.done (wordList (s.ticketStat s.iwg.ctx (.ofNat 64 (u.pair tf))) 2) full true) s.clk) ∧
    (∀ g stat tf, Lanes (.tktDrop g stat tf) 1 fun s _ u v =>
      let k : Dword := .ofNat 64 (u.pair tf)
      if s.ticketLocal s.iwg.ctx k = 0 then u.Started v none stat (.drop k) s.clk
      else if stat = none then v = u else u.Started v none stat (.done [] full false) s.clk) ∧
    (∀ (s : State) ctx, s.ticketLocal ctx 0 = 1) ∧ (∀ (s : State) ctx, s.ticketStat ctx 0 = 0))

/-! ## Atomics, fences and waits (spec/12_ordering.md R338 to R346, spec/13_line.md R362) -/

/-- R258, R268, R338, R340, R341, R343, R455, R456: `ATOM` and `CAS` of any number of lanes through an array of the global space start in each lane
a producer with its operation, data and comparand; the memory side performs it later. A lane that its array masks gets zero and false, and its bit
of gang.mask_status is set. A `RED` under a grant is sent so too, without a destination; without one it is retired into the siding, and its thread
goes on. -/
def Obligations.GlobalAtomics : Prop :=
  let fits := fun (s : State) (w : AtW) (l p : Nat) =>
    p % nBytes w.size = 0 ∧ ((atOrd w).rel = true → s.releaseReady s.issue.wid l true = true ∧ (w.scope = .sys → s.clean))
  let req := fun (w : AtW) (a : Arr) (p : Nat) (remote : Bool) =>
    ({ va := p, size := nBytes w.size, sgn := false, xs := false, near := a.near, svc := a.svc, order := w.order, scope := w.scope,
       remote := remote } : Req)
  let starts := fun (s : State) (i : Instr) (f : ArrForm) (w : AtW) (q : Thread → AtomReq) =>
    s.Spread i f → (∀ l ∈ s.active i, (s.iwg.array l f.k).space = 0) → ((atOrd w).rel = true → w.scope = .sys → s.clean) →
    s.Completes i fun t => (∀ g, (t.iwg.gang g).mask = s.maskAfter i f g) ∧ ∃ b, (b = s.clk ∨ b = s.clk + 1) ∧ s.GroupOnly t i fun l u v =>
      if s.inside i f l then u.Started v (instrDst i) (instrStat i)
        (.atom (req w (s.iwg.array l f.k) (s.elemAt i f l).toNat w.remote) (q (s.ithread l)) false) b
      else u.Zeroed v (instrDst i) (instrStat i) full
  (∀ (s : State) g op d (m : ArrOp AtW) v w f, Use.wordOf m = some w → arrForm (.atom g op d m v) = some f →
    starts s (.atom g op d m v) f w fun u =>
      { op := some op, size := w.size, data := u.wide v (atomRegs op w.size), cmp := 0, red := false, orig := s.origin }) ∧
  (∀ (s : State) g d k x (off : BitVec 32) (w : AtW) new cmp f, arrForm (.cas g d k x off w new cmp) = some f →
    starts s (.cas g d k x off w new cmp) f w fun u =>
      { op := none, size := w.size, data := u.wide new (Use.regsOf w.size), cmp := u.wide cmp (Use.regsOf w.size), red := false, orig := s.origin }) ∧
  (∀ (s : State) g op (m : ArrOp AtW) v w l a p ga, let i := Instr.red g op m v
    let n := nBytes w.size
    let e := ((s.ithread l).index m.x).2
    let lo := a.base + (max (e.lo + arrOff m) 0).toNat * 2 ^ a.esize
    let hi := a.base + ((min (e.hi + arrOff m + (max 1 (n / 2 ^ a.esize) : Nat) - 1) (a.extent - 1)).toNat + 1) * 2 ^ a.esize - 1
    let gr := ((s.countFp s.iwg.ctx lo hi).eager (atOrd w) true false).grantOf s.iwg.core s.iwg.ctx ga.gia
    let q : AtomReq := { op := some op, size := w.size, data := (s.ithread l).wide v (atomRegs op w.size), cmp := 0, red := true, orig := s.origin }
    Use.wordOf m = some w → s.Hits i l m.k m.x (arrOff m) n true a p → a.space = 0 → fits s w l p →
    e.lo ≤ ((s.ithread l).val m.x).toInt → ((s.ithread l).val m.x).toInt ≤ e.hi →
    s.ictx.resolve .wr p = some ga → s.fetching s.issue.wid l (lineOf ga.gia) (s.clk + 1) = false →
    (∀ x, gr = some x → (a.near && x.far) = false → (∀ f ∈ (s.core s.iwg.core).siding, f.wid ≠ s.issue.wid) →
      s.Completes i fun t => s.OnlyThread t l ∧ ∃ b, (b = s.clk ∨ b = s.clk + 1) ∧
        (s.stepped l).Started (t.ithread l) none none (.atom (req w a p false) q false) b) ∧
    (gr = none → (s.ithread l).busyAt s.ictx p n = false → (s.ithread l).olderStores (s.clk + 1) = false →
      (s.core s.iwg.core).siding.length < 512 →
      s.Completes i fun t => s.OnlyThread t l ∧ t.ithread l = s.stepped l ∧
        ∃ f ∈ (t.core s.iwg.core).siding, f.wid = s.issue.wid ∧ f.t = l ∧ f.va = p ∧ f.gia = ga.gia ∧ f.red = some q ∧ f.state = .grant))

/-- R255, R268, R323, R340, R342: an atomic of scratchpad, the workgroup's own or a peer's, is performed as it issues: the bytes hold the
operation's result on the value before, which the destination receives; a compare-and-swap stores only when the value equals its comparand; a
reduction returns nothing. No other byte changes. This holds of `ATOMS` and `CASS`, and of `ATOM`, `CAS` and `RED` through an array of scratchpad.
The lanes of `ATOMS` and `CASS` act in ascending order, each on the value that the lower ones left. R340: the new value of each integer operation of
n bits on the value held and the data, n being 32 or 64. -/
def Obligations.ScratchAtomics : Prop :=
  (
    let does := fun (s : State) (i : Instr) (l o p n : Nat) (new : Nat → Option Nat) (red : Bool) =>
      (∀ b ∈ (s.wg o).badScratch, b < p ∨ p + n ≤ b) →
      s.Completes i fun t => s.OnlyThread t l ∧ (∀ a, Memory.read t.mem a = Memory.read s.mem a) ∧
        let m := Memory.readLE (s.wg o).scratch p n
        (∀ a, Memory.read (t.wg o).scratch a = match new m with
          | some v => if p ≤ a ∧ a < p + n then (bytesOf v n).getD (a - p) 0 else Memory.read (s.wg o).scratch a
          | none => Memory.read (s.wg o).scratch a) ∧
        (if red then t.ithread l = s.stepped l
         else ∃ b, (b = s.clk ∨ b = s.clk + 1) ∧ (s.stepped l).Started (t.ithread l) (instrDst i) (instrStat i)
           (.done (wordList m (n / 4)) full true) b)
    (∀ (s : State) g op d x f (w : AtW) v l p, let i := Instr.atoms g op d x f w v
      w.peer = none → (atOrd w).rel = false → (atOrd w).acq = false →
      s.HitsScratch i l x (scratchOff f) (nBytes w.size) (nBytes w.size) s.issue.wid (some true) p →
      does s i l s.issue.wid p (nBytes w.size)
        (fun m => some (atomNew op (8 * nBytes w.size) m ((s.ithread l).wide v (atomRegs op w.size)))) false) ∧
    (∀ (s : State) g d x (off : BitVec 32) (w : AtW) new cmp l p, let i := Instr.cass g d x off w new cmp
      w.peer = none → (atOrd w).rel = false → (atOrd w).acq = false →
      s.HitsScratch i l x off.toInt (nBytes w.size) (nBytes w.size) s.issue.wid (some true) p →
      does s i l s.issue.wid p (nBytes w.size)
        (fun m => if m = (s.ithread l).wide cmp (Use.regsOf w.size) then some ((s.ithread l).wide new (Use.regsOf w.size)) else none) false) ∧
    (∀ (s : State) g op (m : ArrOp AtW) v w l a p, let i := Instr.red g op m v
      Use.wordOf m = some w → (atOrd w).rel = false → (atOrd w).acq = false →
      s.Hits i l m.k m.x (arrOff m) (nBytes w.size) true a p → a.space = 1 → p % nBytes w.size = 0 →
      (s.ithread l).spotPend s.issue.wid s.issue.wid p (nBytes w.size) = false →
      does s i l s.issue.wid p (nBytes w.size)
        (fun x => some (atomNew op (8 * nBytes w.size) x ((s.ithread l).wide v (atomRegs op w.size)))) true) ∧
    (∀ (s : State) g op d (m : ArrOp AtW) v w l a p o, let i := Instr.atom g op d m v
      Use.wordOf m = some w → (atOrd w).rel = false → (atOrd w).acq = false →
      s.Hits i l m.k m.x (arrOff m) (nBytes w.size) true a p → p % nBytes w.size = 0 →
      s.spot a p = some (.scr o p) → s.meets (.scr o p) (nBytes w.size) true = false → s.spotBusy l (.scr o p) (nBytes w.size) = false →
      does s i l o p (nBytes w.size)
        (fun x => some (atomNew op (8 * nBytes w.size) x ((s.ithread l).wide v (atomRegs op w.size)))) false) ∧
    (∀ (s : State) g d k x (off : BitVec 32) (w : AtW) new cmp l a p o, let i := Instr.cas g d k x off w new cmp
      (atOrd w).rel = false → (atOrd w).acq = false →
      s.Hits i l k x off.toInt (nBytes w.size) true a p → p % nBytes w.size = 0 →
      s.spot a p = some (.scr o p) → s.meets (.scr o p) (nBytes w.size) true = false → s.spotBusy l (.scr o p) (nBytes w.size) = false →
      does s i l o p (nBytes w.size)
        (fun m => if m = (s.ithread l).wide cmp (Use.regsOf w.size) then some ((s.ithread l).wide new (Use.regsOf w.size)) else none) false)) ∧
  (
    let does := fun (s : State) (i : Instr) (f : ScrForm) (o : Nat) (new : Thread → Nat → Option Nat) =>
      s.SpreadScr i f o → (f.order.rel = true → s.clean) →
      (∀ l ∈ s.active i, let p := (s.scrAt f l).toNat
        (s.ithread l).spotPend s.issue.wid o p f.n = false ∧ ∀ b ∈ (s.wg o).badScratch, b < p ∨ p + f.n ≤ b) →
      let run := (s.active i).foldl (fun (r : List Host.Cell × List (Nat × Nat)) l =>
        let p := (s.scrAt f l).toNat
        let m := Memory.readLE r.1 p f.n
        (match new (s.ithread l) m with
          | some v => Memory.writeN r.1 p (bytesOf v f.n)
          | none => r.1, r.2 ++ [(l, m)])) ((s.wg o).scratch, [])
      s.Completes i fun t => (∀ a, Memory.read t.mem a = Memory.read s.mem a) ∧ (∀ a, Memory.read (t.wg o).scratch a = Memory.read run.1 a) ∧
        ∃ b, (b = s.clk ∨ b = s.clk + 1) ∧ s.GroupOnly t i fun l u v => ∀ m, (l, m) ∈ run.2 →
          u.Started v (instrDst i) (instrStat i) (.done (wordList m (f.n / 4)) full true) b
    (∀ (s : State) g op d x f (w : AtW) v h o, scrForm s (.atoms g op d x f w v) = some h →
      does s (.atoms g op d x f w v) h o fun u m => some (atomNew op (8 * nBytes w.size) m (u.wide v (atomRegs op w.size)))) ∧
    (∀ (s : State) g d x (off : BitVec 32) (w : AtW) new cmp h o, scrForm s (.cass g d x off w new cmp) = some h →
      does s (.cass g d x off w new cmp) h o fun u m =>
        if m = u.wide cmp (Use.regsOf w.size) then some (u.wide new (Use.regsOf w.size)) else none)) ∧
  (
    ∀ n, (n = 32 ∨ n = 64) → ∀ m d : Nat, m < 2 ^ n → d < 2 ^ n →
      atomNew .add n m d = (m + d) % 2 ^ n ∧ atomNew .xchg n m d = d ∧ atomNew .minu n m d = min m d ∧ atomNew .maxu n m d = max m d ∧
      (∀ j, (atomNew .and n m d).testBit j = (m.testBit j && d.testBit j)) ∧ (∀ j, (atomNew .or n m d).testBit j = (m.testBit j || d.testBit j)) ∧
      (∀ j, (atomNew .xor n m d).testBit j = (m.testBit j != d.testBit j)) ∧
      sext (atomNew .min n m d) n = min (sext m n) (sext d n) ∧ sext (atomNew .max n m d) n = max (sext m n) (sext d n) ∧
      ∀ k, k < 2 ^ n → ∀ j, j < n → (atomNew .mask n m (d + 2 ^ n * k)).testBit j = if k.testBit j then d.testBit j else m.testBit j)

/-- R344 to R346, R362: `FENCE` holds each active lane in its release part; `WAITA` and `LINE.CLR` hold the lane that names an aligned global
element with what it waits for. -/
def Obligations.FencesAndWaits : Prop :=
  (∀ g o sc remote, Lanes (.fence g o sc remote) 1 fun s _ u v => v = { u with pc := s.issue.pc, hold := .fence o sc remote 0 }) ∧
  (∀ (s : State) g d k x b (off : BitVec 32) (w : WaW) l a p, let i := Instr.waita g d k x b off w
    s.Hits i l k x off.toInt (nBytes w.size) false a p → a.space = 0 → (w.order = .none ∨ w.order = .acq) →
    let r : Req := { va := p, size := nBytes w.size, sgn := false, xs := false, near := a.near, svc := a.svc, order := w.order,
                     scope := w.scope, remote := w.remote }
    s.Completes i fun t => s.OnlyThread t l ∧ ∃ c, (c = s.clk ∨ c = s.clk + 1) ∧
      (t.ithread l).hold = .waita r w.cond ((s.ithread l).wide b (Use.regsOf w.size)) d (Use.regsOf w.size)
        (if w.timeout = 0 then none else some (c + 1100 * w.timeout)) w.stat false c none s.origin ∧
      t.ithread l = { s.stepped l with pc := s.issue.pc, hold := (t.ithread l).hold }) ∧
  (∀ (s : State) g (m : ArrOp Unit) l a p ga, let i := Instr.lineClr g m
    s.Hits i l m.k m.x (arrOff m) 128 true a p → a.space = 0 → p % 128 = 0 → s.ictx.resolve .wr p = some ga →
    s.Completes i fun t => s.OnlyThread t l ∧
      ∃ c, (c = s.clk ∨ c = s.clk + 1) ∧ t.ithread l = { s.stepped l with pc := s.issue.pc, hold :=
        (.lineClr ({ va := p, size := 128, sgn := false, xs := false, near := a.near, svc := a.svc, order := .none, scope := .gang,
                     remote := false, start := c } : Req) none s.origin) })

/-! ## Engine commands and granules (spec/14_tile.md, spec/15_transfer.md) -/

/-- R372, R374, R391, R392, R417: a command of the matrix engine (`MMA`, `MMA.SP`, `MMA.MCR`, `ACC.ZERO`, `ACC.LD`, `ACC.ST`, `ACC.CVT`, `ACC.AMAX`)
or of the transfer engine (`XFER`, `.IM2C`, `.GATH`, `.SCAT`, `.UNPK`, `.PACK`, `.MCAST`, `.PREF`, `.PAGEIN`) that its examination takes, with room
in the queue and in the tables, enters the queue of its core as its youngest command; its ranges stand in the tables, and its status word is to
come. R372, R387, R392, R393: a command that its examination refuses registers nothing and writes its status word at once: bit 31 and the cause in
bits 30 to 24. Of several lanes each command is accepted or refused in ascending order before the next is examined. -/
def Obligations.EngineCommands : Prop :=
  (
    ∀ (s : State) i mat exam l rs empty record args, engineOp i = some (mat, exam) → s.Issuable i → s.active i = [l] →
      (needsPager i = true → s.ictx.capPager = true) → s.iwg.acquiring l = false → s.pending? l = none → exam s.advance l = .take rs empty record args →
      s.engineRoom s.iwg.core mat = true → selfMeets rs = false → s.entriesFit (entriesOf rs) = true →
      let c := s.advance.newCmd i l record args
      (mat = true → State.metaCheck ((s.advance.enlist c.id rs empty).setCore s.iwg.core fun x => { x with pend := x.pend ++ [c] }) c = .good) →
      s.Completes i fun t => (∀ a, Memory.read t.mem a = Memory.read s.mem a) ∧
        (if mat then (t.core s.iwg.core).mq = (s.core s.iwg.core).mq ++ [c] ∧ (t.core s.iwg.core).xq = (s.core s.iwg.core).xq
         else (t.core s.iwg.core).xq = (s.core s.iwg.core).xq ++ [c] ∧ (t.core s.iwg.core).mq = (s.core s.iwg.core).mq) ∧
        (∀ r ∈ rs, (⟨c.id, r.space, r.dest, r.lo, r.hi⟩ : Lock) ∈ (t.core r.core).locks) ∧
        (t.core s.iwg.core).cmdId = (s.core s.iwg.core).cmdId + 1 ∧
        (s.stepped l).Started (t.ithread l) (instrDst i) (instrStat i) .engine s.clk) ∧
  (
    ∀ (s : State) i mat exam l cause d, engineOp i = some (mat, exam) → s.Issuable i → s.active i = [l] →
      (needsPager i = true → s.ictx.capPager = true) → s.iwg.acquiring l = false → s.pending? l = none →
      exam s.advance l = .refuse cause → instrDst i = some d →
      d.f.cls = .v → 0 < d.n →
      s.Completes i fun t => (∀ a, Memory.read t.mem a = Memory.read s.mem a) ∧
        (t.core s.iwg.core).xq = (s.core s.iwg.core).xq ∧ (t.core s.iwg.core).mq = (s.core s.iwg.core).mq ∧
        (t.core s.iwg.core).locks = (s.core s.iwg.core).locks ∧ (t.ithread l).pc = s.nextPc ∧
        (t.ithread l).cur.getV d.f.idx = ⟨.ofNat 32 (2 ^ 31 + cause * 2 ^ 24), true⟩) ∧
  (∀ (s : State) i mat exam, engineOp i = some (mat, exam) → s.Issuable i → (needsPager i = true → s.ictx.capPager = true) →
    (∀ l ∈ s.active i, s.iwg.acquiring l = false) →
    let check := if mat then State.metaCheck else fun _ _ => Meta.good
    (∀ s1, acceptLoop i mat exam check (s.active i) [] s.advance = .ok s1 → exec i s = .next (s1.counted 1)) ∧
    (∀ (s1 : State) l rest done cause, s1.pending? l = none → exam s1 l = .refuse cause →
      acceptLoop i mat exam check (l :: rest) done s1 = acceptLoop i mat exam check rest (done ++ [l]) (s1.refuse i l cause)) ∧
    (∀ (s1 : State) l rest done rs empty record args, s1.pending? l = none → exam s1 l = .take rs empty record args →
      s1.engineRoom s1.iwg.core mat = true → selfMeets rs = false → s1.entriesFit (entriesOf rs) = true → mat = false →
      let c := s1.newCmd i l record args
      acceptLoop i mat exam check (l :: rest) done s1 =
        acceptLoop i mat exam check rest (done ++ [l]) ((s1.enlist c.id rs empty).enqueue i l mat c)))

/-- R413 to R415, R424: `GRAN.FILL` and `GRAN.EMPTY` set the granules that they name full or empty and no others; `LOCK.Q` reads whether a
destination or a source range meets the bytes it names, the free entries of the table, and the length of the transfer queue. -/
def Obligations.GranulesAndLocks : Prop :=
  (∀ (s : State) g x n l p, let i := Instr.granFill g x n
    s.HitsScratch i l x 0 (16 * n) 16 s.issue.wid (some false) p → (s.ithread l).granPending = false →
    s.Completes i fun t => t.ithread l = s.stepped l ∧ (∀ a, Memory.read t.mem a = Memory.read s.mem a) ∧
      ∀ k, k ∈ t.iwg.empty ↔ k ∈ s.iwg.empty ∧ ¬ (p / 16 ≤ k ∧ k < p / 16 + n)) ∧
  (∀ (s : State) g x n l p, let i := Instr.granEmpty g x n
    s.HitsScratch i l x 0 (16 * n) 16 s.issue.wid none p → (s.ithread l).granPending = false →
    s.Completes i fun t => t.ithread l = s.stepped l ∧ (∀ a, Memory.read t.mem a = Memory.read s.mem a) ∧
      ∀ k, k ∈ t.iwg.empty ↔ k ∈ s.iwg.empty ∨ (p / 16 ≤ k ∧ k < p / 16 + n)) ∧
  (∀ g d va n, Lanes (.lockQ g d (.global va) n) 1 fun s _ u v =>
    let c := s.core s.iwg.core
    let hit := fun (dest : Bool) => decide (∃ x ∈ c.locks, x.space = .global s.iwg.ctx ∧ x.dest = dest ∧ x.lo < u.pair va + n ∧ u.pair va < x.hi)
    u.Wrote v d (.ofNat 32 ((hit true).toNat + 2 * (hit false).toNat + 256 * (64 - c.locks.length) + 65536 * c.xq.length)) full) ∧
  (∀ (s : State) g d x n l p, let i := Instr.lockQ g d (.scratch x) n
    s.HitsScratch i l x 0 n 1 s.issue.wid none p →
    let c := s.core s.iwg.core
    let hit := fun (dest : Bool) => decide (∃ y ∈ c.locks, y.space = .scratch s.issue.wid ∧ y.dest = dest ∧ y.lo < p + n ∧ p < y.hi)
    s.Completes i fun t => s.OnlyThread t l ∧ (∀ a, Memory.read t.mem a = Memory.read s.mem a) ∧
      (s.stepped l).Wrote (t.ithread l) d
        (.ofNat 32 ((hit true).toNat + 2 * (hit false).toNat + 256 * (64 - c.locks.length) + 65536 * c.xq.length)) full)

/-! ## Threads and their waits (spec/07_group.md, spec/08_thread.md R206 to R209) -/

/-- R161, R207 to R209: `SLEEP` holds each active lane for n × 16 clk at the instruction and goes on at once for n = 0. `YIELD` moves its slot to
the eligible set when that set holds a slot of the bay. `JOIN` holds its lanes while a live thread of their gang has not come, and lets all go on
when every live thread of the gang waits at the instruction. `EXIT` ends its lanes and no others; the last live thread's end counts its workgroup as
ended. -/
def Obligations.ThreadControl : Prop :=
  (∀ g k, Lanes (.sleep g k) 1 fun s _ u v =>
    let n := match k with
      | .imm w => w.toNat
      | .reg a => (u.val a).toNat % 65536
    v = if n = 0 then u else { u with pc := s.issue.pc, hold := .sleep (s.clk + 16 * n) }) ∧
  (∀ (s : State) g, s.Issuable (.yield g) → s.active (.yield g) ≠ [] →
    (∃ e ∈ s.wgs, e.2.core = s.issue.core ∧ e.2.ended = false ∧ ∃ k ∈ e.2.slots, k.1 % 4 = s.issue.slot % 4 ∧ k.2.place = .eligible) →
    s.Completes (.yield g) fun t => s.Threads t (.yield g) (fun _ u v => v = u) ∧ (∀ a, Memory.read t.mem a = Memory.read s.mem a) ∧
      t.iwg.slot s.issue.slot = { s.iwg.slot s.issue.slot with place := .eligible, since := s.clk, last := s.clk }) ∧
  (∀ (s : State) g, s.Issuable (.yield g) →
    (∀ e ∈ s.wgs, e.2.core = s.issue.core → e.2.ended = false → ∀ k ∈ e.2.slots, k.1 % 4 = s.issue.slot % 4 → k.2.place ≠ .eligible) →
    s.Runs (.yield g) 1 fun _ u v => v = u) ∧
  (∀ (s : State) g, s.Issuable (.join g) →
    (∀ n ∈ s.active (.join g), ∃ u ∈ s.iwg.gangLive (s.iwg.gangOf n), u ∉ s.active (.join g) ∧ ∀ a b, (s.ithread u).hold ≠ .join a b) →
    s.Runs (.join g) 1 fun _ u v => ∃ b, b ≤ s.clk ∧ v = { u with hold := .join s.issue.pc b }) ∧
  (∀ (s : State) g, s.Issuable (.join g) →
    (∀ n ∈ s.active (.join g), n ∈ s.iwg.live ∧ ∀ u ∈ s.iwg.gangLive (s.iwg.gangOf n),
      u ∈ s.active (.join g) ∨ ∃ b, (s.ithread u).hold = .join s.issue.pc b) →
    s.Completes (.join g) fun t => (∀ a, Memory.read t.mem a = Memory.read s.mem a) ∧ ∀ n ∈ s.active (.join g), t.ithread n = s.stepped n ∧
      ∀ u ∈ s.iwg.gangLive (s.iwg.gangOf n), u ∉ s.issue.lanes → t.ithread u = { s.ithread u with hold := .none }) ∧
  (∀ (s : State) g, s.Issuable (.exit g) → s.iwg.ended = false → (∃ u ∈ s.iwg.live, u ∉ s.active (.exit g)) →
    s.Completes (.exit g) fun t => (∀ a, Memory.read t.mem a = Memory.read s.mem a) ∧ t.iwg.ended = false ∧
      (∀ n ∈ s.active (.exit g), (t.ithread n).live = false ∧ (t.ithread n).hold = .none) ∧
      (∀ n ∈ s.issue.lanes, n ∉ s.active (.exit g) → t.ithread n = { s.stepped n with hold := (t.ithread n).hold }) ∧
      (∀ n, n ∉ s.issue.lanes → t.ithread n = { s.ithread n with hold := (t.ithread n).hold })) ∧
  (∀ (s : State) g l, s.Issuable (.exit g) → s.active (.exit g) = [l] → s.iwg.ended = false → s.kernels.has s.iwg.kernel = true →
    (s.advance.iwg.setThread l fun x => { x with live := false }).live = [] →
    s.Completes (.exit g) fun t => (∀ a, Memory.read t.mem a = Memory.read s.mem a) ∧
      (t.kern s.iwg.kernel).ended = (s.kern s.iwg.kernel).ended + 1)

/-! ## Barriers (spec/16_barrier.md R431 to R441) -/

/-- R432, R435, R436: an arrival at a declared barrier counts its lanes and makes a token of the phase's number, the level and the barrier before
it. Above the gang the count rises by the active lanes; when it reaches the live members the phase completes: the count is 0 and the number turns.
At the gang each lane sets its bit, and a full mask is cleared. `BAR.ARR` writes the token; `BAR.SYNC` waits with it at the instruction. The core's
L1 holds no dirty bytes here where the level orders its memory beyond the workgroup. -/
def Obligations.BarrierArrivals : Prop :=
  let token := fun (s : State) (b : Bar) => (.ofNat 32 ((s.phaseOf s.issue.wid b).phase.toNat +
    2 * (match b.lvl with | .gang => 0 | .wg => 1 | .clu => 2 | .stk => 3 | .grid => 4) + 16 * b.num) : Word)
  let arrives := fun (s : State) (i : Instr) (b : Bar) (R : Nat → Thread → Thread → Prop) =>
    s.Issuable i → s.active i ≠ [] → b.num < Krec.bars s.ikrec b.lvl → (∀ n ∈ s.active i, s.releaseReady s.issue.wid n true = true) →
    ((b.lvl = .gang ∨ b.lvl = .wg) ∨ (s.clean ∧ s.kernels.has s.iwg.kernel = true)) →
    (b.lvl = .gang → ∀ n ∈ s.active i, (s.iwg.gangBar (s.iwg.gangOf n) b.num).getLsbD (s.iwg.laneOf n) = false) →
    s.Completes i fun t => s.GroupOnly t i R ∧ (∀ a, Memory.read t.mem a = Memory.read s.mem a) ∧
      (b.lvl ≠ .gang →
        let p := s.phaseOf s.issue.wid b
        let k := p.count + (s.active i).length
        let n := s.advance.liveMembers s.issue.wid b.lvl
        t.phaseOf s.issue.wid b = if k < n ∨ n = 0 then ⟨k, p.phase⟩ else ⟨0, !p.phase⟩) ∧
      (b.lvl = .wg → ∀ m, m ≠ b.num → t.iwg.bars.get? m = s.iwg.bars.get? m) ∧
      (b.lvl = .gang → ∀ q,
        let m := s.iwg.gangBar q b.num ||| maskOf (((s.active i).filter fun n => s.iwg.gangOf n == q).map s.iwg.laneOf)
        let live := s.advance.iwg.gangLive q
        t.iwg.gangBar q b.num = if (∃ n ∈ s.active i, s.iwg.gangOf n = q) ∧ live ≠ [] ∧ (∀ u ∈ live, m.getLsbD (s.iwg.laneOf u) = true)
          then 0 else m)
  (∀ (s : State) g d b, arrives s (.barArr g d b) b fun _ u v => u.Wrote v d (token s b) ⟨(token s b).toInt, (token s b).toInt⟩) ∧
  (∀ (s : State) g b, arrives s (.barSync g b) b fun _ u v => v = { u with pc := s.issue.pc, hold := .barSync (token s b) })

/-- R437 to R439: `BAR.WAIT` holds each lane at the instruction with its token; `BAR.TRY` writes whether the wait is over: at the gang, that the
lane's bit is clear, and above it that the phase's number is no longer the token's; `BAR.CNT` writes the count of the phase and the live members of
a declared barrier; `ELECT` is true in the lowest active lane of the group, or in the lowest active member of the set. -/
def Obligations.BarrierWaits : Prop :=
  (∀ g a, LanesIf (.barWait g a) (fun s x => (tokenBar s.ikrec (x.val a)).isSome = true) 1 fun s _ u v =>
    v = { u with pc := s.issue.pc, hold := .barWait (u.val a) }) ∧
  (∀ (s : State) g pd a, s.Issuable (.barTry g pd a) → (∀ n ∈ s.active (.barTry g pd a), (tokenBar s.ikrec ((s.ithread n).val a)).isSome = true) →
    s.Completes (.barTry g pd a) fun t => (∀ x, Memory.read t.mem x = Memory.read s.mem x) ∧ s.Threads t (.barTry g pd a) fun n u v =>
      ∃ b, tokenBar s.ikrec (u.val a) = some b ∧ u.WroteP v pd
        (if b.lvl = .gang then !(s.iwg.gangBar (s.iwg.gangOf n) b.num).getLsbD (s.iwg.laneOf n)
         else (s.phaseOf s.issue.wid b).phase != (u.val a).getLsbD 0)) ∧
  (∀ g d b, LanesIf (.barCnt g d b) (fun s _ => b.num < Krec.bars s.ikrec b.lvl) 1 fun s n u v =>
    u.WroteN v d 2 (s.advance.barArrived s.issue.wid n b + 2 ^ 32 * s.advance.barMembers s.issue.wid n b)) ∧
  (∀ (s : State) w n b, b.lvl ≠ .gang → s.barArrived w n b = (s.phaseOf w b).count) ∧
  (∀ (s : State) w n k, s.barMembers w n ⟨.gang, k⟩ = ((s.wg w).gangLive ((s.wg w).gangOf n)).length ∧
    s.barMembers w n ⟨.wg, k⟩ = (s.wg w).live.length) ∧
  (∀ g pd, Lanes (.elect g pd none) 1 fun s n u v => u.WroteP v pd (decide ((s.active (.elect g pd none)).head? = some n))) ∧
  (∀ g pd m, Crosses (.elect g pd (some m)) (fun _ => laneMaskOf m) 1 fun s n u v =>
    u.WroteP v pd (decide ((s.members (.elect g pd (some m)) n (laneMaskOf m n (s.ithread n))).head? = some n)))

/-! ## Kernels, queues and contexts (spec/04_context.md, spec/05_queue.md, spec/06_kernel.md) -/

/-- R114, R115, R118, R130, R146 to R148, R492: `KLAUNCH` and `QPOST` start, after a release, one request per lane with its record's address;
`KJOIN` one with its handle, waiting at the instruction unless `.POLL`; `KKILL` and `GETEV` one. `QSTAT` writes the word of a queue of the context,
or 0; `CTX.RD` a word of the context record, and 0 for the secret. -/
def Obligations.KernelRequests : Prop :=
  let sends := fun (s : State) (i : Instr) (a : Field) (w : Thread → Work) =>
    s.Issuable i → s.ictx.capLauncher = true → s.clean →
    (∀ n ∈ s.active i, (s.ithread n).pair a % 256 = 0 ∧ (s.ithread n).pair a < 2 ^ 57 ∧ s.iwg.acquiring n = false ∧
      s.releaseReady s.issue.wid n true = true) →
    s.Runs i 1 fun _ u v => u.Started v (instrDst i) (instrStat i) (w u) s.clk
  (∀ (s : State) g d a, sends s (.klaunch g d a) a fun u => .launch (u.pair a)) ∧
  (∀ (s : State) g d q a, sends s (.qpost g d q a) a fun u => .post (u.val q).toNat (u.pair a)) ∧
  (∀ g d a, Lanes (.kjoin g true d a) 1 fun s _ u v =>
    u.Started v (instrDst (.kjoin g true d a)) (instrStat (.kjoin g true d a)) (.kjoin (u.val a).toNat true) s.clk) ∧
  (∀ g d a, Lanes (.kjoin g false d a) 1 fun s _ u v =>
    ∃ y, u.Started y (instrDst (.kjoin g false d a)) (instrStat (.kjoin g false d a)) (.kjoin (u.val a).toNat false) s.clk ∧
      v = { y with pc := s.issue.pc, hold := .kjoin u.seq }) ∧
  (∀ g d a, LanesIf (.kkill g d a) (fun s _ => s.ictx.capLauncher = true) 1 fun s _ u v =>
    u.Started v (instrDst (.kkill g d a)) (instrStat (.kkill g d a)) (.kkill (u.val a).toNat
      (decide (∃ n ∈ s.active (.kkill g d a), s.kidOf? s.iwg.ctx ((s.ithread n).val a).toNat = some s.iwg.kernel)) none) s.clk) ∧
  (∀ g d ps, LanesIf (.getev g d ps) (fun s _ => s.ictx.capPager = true ∨ s.ictx.capHandler = true) 1 fun s _ u v =>
    u.Started v (instrDst (.getev g d ps)) (instrStat (.getev g d ps)) .getev s.clk) ∧
  (∀ g d q, Lanes (.qstat g d q) 1 fun s _ u v => ∃ w, u.WroteN v d 2 w ∧
    (∀ x, s.queueOf? s.iwg.ctx (u.val q).toNat = some x → w % 4 = (match x.state with | .free => 0 | .stopped => 1 | .running => 2 | .halted => 3) ∧
      w = w % 4 + 2 ^ 2 * x.armed.toNat + 2 ^ 4 * x.err + 2 ^ 8 * x.tag + 2 ^ 16 * x.posted.length + 2 ^ 23 * x.src.toNat +
        2 ^ 24 * x.prio.toNat + 2 ^ 32 * x.parsed.toNat) ∧
    (s.queueOf? s.iwg.ctx (u.val q).toNat = none → w = 0)) ∧
  (∀ g d sel, Lanes (.ctxRd g d sel) 1 fun s _ u v => u.WroteN v d 2 (if sel = 2 then 0 else (s.ctxWord s.iwg.ctx sel).toNat))

/-- R115, R116: `CTX.WR` writes the value of its highest active lane to a word of the context's record: the age limit brought into its range, the
secret, after which every ticket of the context is refused, the address of the trap handler where it is a multiple of 4, and the head of the event
queue. Another address of the handler takes ALIGN; that its mask is that lane alone and its address the value is the model's reading
(notes/assumptions/55.md). Other words of the record, other contexts, threads and memory stay as they are. -/
def Obligations.ContextWrites : Prop :=
  ∀ (s : State) g sel a l n, let i := Instr.ctxWr g sel a
    let c := s.iwg.ctx
    s.Issuable i → (s.active i).getLast? = some l → s.ictx.capHandler = true → (s.ithread l).pair a = n →
    (n % 4 ≠ 0 → sel = 3 → exec i s = .next (s.trapIssue { cause := Cause.align, mask := [l], addr := n })) ∧
    ((sel = 1 ∨ sel = 2 ∨ (sel = 3 ∧ n % 4 = 0) ∨ sel = 6) →
      s.Completes i fun t => s.Threads t i (fun _ u v => v = u) ∧ (∀ x, Memory.read t.mem x = Memory.read s.mem x) ∧
        (∀ k, k ≠ sel → (t.ctx c).word k = (s.ctx c).word k) ∧ (∀ d, d ≠ c → t.ctxs.get? d = s.ctxs.get? d) ∧
        (t.ctx c).state = (s.ctx c).state ∧
        (sel = 1 → (t.ctx c).fld 1 0 20 = min (max (if n % 2 ^ 20 = 0 then 1000 else n % 2 ^ 20) 10) 1000000) ∧
        (sel = 2 → (t.ctx c).secret = .ofNat 64 n ∧ ∀ k e, (t.ticket k e).rekeyed =
          (decide ((s.ticket k e).ctx = c ∧ (s.ticket k e).state ≠ .free) || (s.ticket k e).rekeyed)) ∧
        (sel = 3 → (t.ctx c).trapPc = n % 2 ^ 57) ∧ (sel = 6 → (t.ctx c).evqHead = n % 2 ^ 32))

/-! ## Traps that instructions take by their operands (R114, R130, R437, R440) -/

/-- R114, R130, R146, R148, R279, R409, R468, R492: an instruction that needs a capability which its context has not makes its active lanes take
PRIV; a misaligned record address of `KLAUNCH` and `QPOST` makes them take ALIGN, and one beyond 57 bits PAGE; a misaligned input address of a page
instruction ALIGN. R437, R440: the traps of barrier instructions. The detail is 1 for a barrier that the kernel did not declare, 2 for a bad token,
3 for a lane that arrives twice in one phase of a gang barrier, each with the level in bits 6 to 4 and the number in bits 11 to 8; that those of a
bad token are taken from the token of the lowest bad lane is the model's reading (notes/assumptions/30.md). -/
def Obligations.TrapsByName : Prop :=
  (
    (∀ (s : State) i f, s.Issuable i → s.active i ≠ [] → capability i = some f → f s.ictx = false →
      (∀ g sz sgn d va off w, i = .lda g sz sgn d va off w → (ordScr w).rel = false ∧ ∀ n ∈ s.active i, s.iwg.acquiring n = false) →
      (∀ g sz va off w v, i = .sta g sz va off w v → (ordScr w).rel = false ∧ ∀ n ∈ s.active i, s.iwg.acquiring n = false) →
      exec i s = .next (s.trapIssue { cause := Cause.priv, mask := s.active i })) ∧
    (∀ (s : State) g d q a, s.ictx.capLauncher = true → ∀ i ∈ [Instr.klaunch g d a, .qpost g d q a],
      TrapsAt i s (fun x => x.pair a % 256 ≠ 0) Cause.align (fun x => x.pair a) ∧
      ((∀ n ∈ s.active i, (s.ithread n).pair a % 256 = 0) → TrapsAt i s (fun x => 2 ^ 57 ≤ x.pair a) Cause.page (fun x => x.pair a))) ∧
    (∀ (s : State) i a m, s.ictx.capPager = true → pageOperands i = some (true, a, m) →
      TrapsAt i s (fun x => 2 ^ 48 ≤ x.pair a ∨ x.pair a % 65536 ≠ 0) Cause.align (fun x => x.pair a)) ∧
    (∀ (s : State) g d a pool, s.ictx.capPager = true →
      TrapsAt (.pageCopy g d a pool) s (fun x => 2 ^ 48 ≤ x.pair a ∨ x.pair a % 65536 ≠ 0) Cause.align (fun x => x.pair a))) ∧
  (
    let lv := fun (b : Bar) => match b.lvl with | .gang => 0 | .wg => 1 | .clu => 2 | .stk => 3 | .grid => 4
    (∀ (s : State) g d b, ∀ i ∈ [Instr.barArr g d b, .barSync g b, .barCnt g d b], s.Issuable i → s.active i ≠ [] →
      Krec.bars s.ikrec b.lvl ≤ b.num →
      exec i s = .next (s.trapIssue { cause := Cause.bar, mask := s.active i, detail := 1 + 16 * lv b + 256 * b.num })) ∧
    (∀ (s : State) g d b, ∀ i ∈ [Instr.barArr g d b, .barSync g b], s.Issuable i → b.num < Krec.bars s.ikrec b.lvl → b.lvl = .gang →
      let twice := (s.active i).filter fun n => (s.iwg.gangBar (s.iwg.gangOf n) b.num).getLsbD (s.iwg.laneOf n)
      twice ≠ [] → exec i s = .next (s.trapIssue { cause := Cause.bar, mask := twice, detail := 3 + 256 * b.num })) ∧
    (∀ (s : State) g pd a t l, ∀ i ∈ [Instr.barWait g a, .barTry g pd a], s.Issuable i →
      ((s.active i).filter fun n => (tokenBar s.ikrec ((s.ithread n).val a)).isNone) = t :: l →
      let k := ((s.ithread t).val a).toNat
      exec i s = .next (s.trapIssue { cause := Cause.bar, mask := t :: l, detail := 2 + 16 * (k / 2 % 8) + 256 * (k / 16 % 16) })))

/-- R35, R36, R41, R45, R84, R184, R229, R240, R250, R476, R484, R488: the checks that an issue makes, in their order, for every instruction that a
thread executes: with a thread that is not ready the group does not issue; with an instruction that is not legal for the mode, the register counts or
the selector every thread of the group takes ILL; a format slot that the instruction does not accept gives ILL to the active lanes; an empty source
whose `fe` is 1 gives FE to the lanes that have one, with the field of the lowest lane's first in the detail. And the traps of a bay's turn before any
instruction issues: a block that is not resolved gives PAGE, one that is poisoned UE, words that do not fit in the block STRADDLE, words without
meaning ILL, each for every thread of the group, and the slots of group 0xF UNIMPL for the active lanes, or nothing where none is active; a
translation miss holds the threads. -/
def Obligations.ChecksTrap : Prop :=
  (∀ (s : State) i, i.isThread = true →
    let ready := ∀ n ∈ s.issue.lanes, (s.ithread n).ready i = true
    let legal := ∀ n ∈ s.issue.lanes, limitsOk s.ikrec (s.ithread n).handler i = true
    (¬ready → exec i s = .next s.stay) ∧
    (ready → ¬legal → exec i s = .next (s.trapIssue { cause := Cause.ill, mask := s.issue.lanes })) ∧
    (ready → legal → s.active i ≠ [] → slotOk s.ikrec i = false → exec i s = .next (s.trapIssue { cause := Cause.ill, mask := s.active i })) ∧
    (∀ u n l x, ready → legal → slotOk s.ikrec i = true → i.uses = some u →
      ((s.active i).filter fun m => u.srcs.any (srcTraps (s.ithread m))) = n :: l → u.srcs.find? (srcTraps (s.ithread n)) = some x →
      exec i s = .next (s.trapIssue { cause := Cause.fe, mask := n :: l, detail := fieldBits x.f }))) ∧
  (∀ r handler (i : Instr) u x, i.uses = some u → (x ∈ u.srcs.map (fun y => (y.f, y.n)) ∨ x ∈ u.dsts.map (fun y => (y.f, y.n))) →
    (x.1.tier = .main → x.1.cls = .x → (if handler then 8 else Krec.xregs r) < x.1.idx + x.2 → limitsOk r handler i = false) ∧
    (x.1.tier = .main → x.1.cls = .v → (if handler then 16 else Krec.vregs r) < x.1.idx + x.2 → limitsOk r handler i = false) ∧
    (handler = true → x.1.tier = .opnd ∨ x.1.tier = .last → limitsOk r handler i = false)) ∧
  (∀ r g sel a d q kind idx, limitsOk r true (.ctxWr g sel a) = false ∧ limitsOk r true (.qpost g d q a) = false ∧
    limitsOk r true (.klaunch g d a) = false ∧ limitsOk r false (.eret g) = false ∧ limitsOk r false (.eretFault g) = false ∧
    limitsOk r false (.hrd g d kind idx) = false ∧ limitsOk r false (.hwr g kind idx a) = false) ∧
  (∀ (s : State) c b rest w k g cands, s.agenda = .bay c b :: rest →
    let r := ({ s with agenda := rest } : State).tick.bayReady c b
    let blk := g.pc / 32 * 32
    let goes := fun (lanes : List Nat) (u : State) =>
      ((((r.wg w).slot k).busy = false ∧ ((u.wg w).slot k).busy = true) ∨
          (r.faulting (r.wg w).kernel = false ∧ u.faulting (r.wg w).kernel = true) → ∀ d ∈ cands, d.wid = w → d.k = k → ∃ m ∈ lanes, m ≤ d.lane) →
      step s = .next u
    let traps := fun (s1 : State) ws c' a => goes g.lanes ((s1.withIssue c w k g.lanes g.pc ws).trapIssue { cause := c', mask := g.lanes, addr := a })
    r.bayCands c b = (r.candidate c w k g).toList ++ cands → g.lanes ≠ [] → (∀ t ∈ g.lanes, (r.thread w t).hurt = false) →
    (∀ s1, r.fetch c (r.wg w).ctx blk = .page s1 → traps s1 [] Cause.page blk) ∧
    (r.fetch c (r.wg w).ctx blk = .ue → traps r [] Cause.ue blk) ∧
    (∀ s1 pg, r.fetch c (r.wg w).ctx blk = .wait s1 pg → goes g.lanes (s1.setThreads w g.lanes fun _ t =>
      { t with hold := .miss pg false blk ⟨g.pc, [], laneMask g.lanes⟩ s1.clk })) ∧
    (∀ ws s1 x l, r.fetch c (r.wg w).ctx blk = .words ws s1 → ws.drop (g.pc % 32 / 4) = x :: l →
      let n := if x.toNat % 4 = 3 then 1 else x.toNat % 4 + 2
      (decode (x :: l) = .bad .straddle → traps s1 ((x :: l).take n) Cause.straddle blk) ∧
      (∀ e, decode (x :: l) = .bad e → e ≠ .straddle → traps s1 ((x :: l).take n) Cause.ill 0) ∧
      (∀ gd m, decode (x :: l) = .unimpl gd m →
        let ready := g.lanes.filter fun t => !(r.thread w t).pending gd.p
        let act := ready.filter fun t => (r.thread w t).guard gd
        let s2 := s1.withIssue c w k ready g.pc ((x :: l).take m)
        ready ≠ [] → (act ≠ [] → goes ready (s2.trapIssue { cause := Cause.unimpl, mask := act })) ∧
          (act = [] → goes ready (s2.advance.counted 1))))) ∧
  (∀ (x : Word) l, (x.toNat % 4 = 3 → x.toNat ≠ 3 → ∃ e, decode (x :: l) = .bad e ∧ e ≠ .straddle) ∧
    (x.toNat % 4 ≠ 3 → l.length < x.toNat % 4 + 1 → decode (x :: l) = .bad .straddle))

/-- R111, R116, R127, R130, R134, R146 to R148, R492: the requests of a lane where they are performed, after those of lower lanes. `KLAUNCH` enters a
child in the table under the next child handle, or answers FULL or REFUSED with the cause; `QPOST` appends its record, with the queue's tag, to a
device-fed queue of its context, or answers FULL or BADQ; `KJOIN` answers the kernel's status once it has ended, an acquire, or 4, or 0; `KKILL`
answers the state found, once the kernel that it stops has ended; the kill of the thread's own kernel follows the last lane; `GETEV` answers the next
entry of the context's event queue and moves its head, or zeros. A record that cannot be read launches and posts nothing. -/
def Obligations.RequestEffects : Prop :=
  (∀ (s : State) c ctx h born va d e, s.readLine c ctx va (List.range 128) false = .hit d →
    s.readLine c ctx (va + 128) (List.range 128) false = .hit e →
    s.readRecord c ctx h born va = .ok s ((List.range 128).map d ++ (List.range 128).map e)) ∧
  (∀ (s : State) w n seq p va, let g := s.wg w
    (s.thread w n).prod? seq = some p → p.work = .launch va → s.lowerLane w n p.born isLaunch = false →
    (∀ s1 ue, s.readRecord g.core g.ctx g.kernel p.born va = .fail s1 ue → exec (.producerComplete w n seq) s = .next (s1.prodFails w n p ue)) ∧
    (∀ s1 pg, s.readRecord g.core g.ctx g.kernel p.born va = .wait s1 pg →
      exec (.producerComplete w n seq) s = .next (s1.prodWaits w n p.seq pg)) ∧
    (∀ s1 bytes, s.readRecord g.core g.ctx g.kernel p.born va = .ok s1 bytes →
      let r : BitVec 2048 := .ofNat 2048 (ofBytes bytes)
      let c := s1.admitCause g.ctx r
      let give := fun (u : State) a b => exec (.producerComplete w n seq) s = .next (u.landProd w n p [.ofNat 32 a, .ofNat 32 b] full true)
      (4096 ≤ s1.kernels.length → give s1 0 1) ∧
      (s1.kernels.length < 4096 → (c ≠ 0 → give s1 0 (2 + c * 2 ^ 8)) ∧
        (c = 0 → let h := 2 ^ 31 + s1.regs.childSerial
          let k := s1.newKid h
          ∃ u, give u h 0 ∧ (Krec.dep0 r = 0 → Krec.dep1 r = 0 → (u.kern k).krec = r ∧ (u.kern k).ctx = g.ctx ∧ (u.kern k).parent = some g.kernel ∧
            (u.kern k).state = .queued ∧ (u.kern k).prio = min (Krec.prio r) (s1.kern g.kernel).prio ∧
            (∀ j, j ≠ k → u.kernels.get? j = s1.kernels.get? j) ∧
            u = { s1 with kernels := u.kernels, kernOrder := s1.kernOrder + 1, regs :=
              { s1.regs with childSerial := if s1.regs.childSerial = 2 ^ 31 - 1 then 1 else s1.regs.childSerial + 1 } }))))) ∧
  (∀ (s : State) w n seq p q va, let g := s.wg w
    let give := fun (u : State) a => exec (.producerComplete w n seq) s = .next (u.landProd w n p [.ofNat 32 a] ⟨0, 2⟩ true)
    (s.thread w n).prod? seq = some p → p.work = .post q va → s.lowerLane w n p.born isPost = false →
    (s.queueOf? g.ctx q = none → give s 2) ∧
    (∀ x, s.queueOf? g.ctx q = some x → (x.src = false → give s 2) ∧ (x.src = true → (64 ≤ x.posted.length → give s 1) ∧
      (x.posted.length < 64 →
        (∀ s1 ue, s.readRecord g.core g.ctx g.kernel p.born va = .fail s1 ue →
          exec (.producerComplete w n seq) s = .next (s1.prodFails w n p ue)) ∧
        ∀ s1 bytes, s.readRecord g.core g.ctx g.kernel p.born va = .ok s1 bytes →
          give (s1.setQueue q fun x' => { x' with posted := x'.posted ++ [.ofNat 2048 (ofBytes (bytes.take 254) + 2 ^ 2032 * x.tag)],
                                                  tag := x'.tag % 255 + 1 }) 0))) ∧
    (∀ ctx, s.queueOf? ctx q ≠ none ↔ q ≤ 255 ∧ ∃ x, s.queues.get? q = some x ∧ x.state ≠ .free ∧ x.cfgCtx.toNat = ctx)) ∧
  (∀ (s : State) w n seq p h poll, let g := s.wg w
    let give := fun v => s.landProd w n p [.ofNat 32 v] full true
    (s.thread w n).prod? seq = some p → p.work = .kjoin h poll →
    (s.kidOf? g.ctx h = none → exec (.producerComplete w n seq) s = .next (give 0)) ∧
    (∀ k, s.kidOf? g.ctx h = some k → (k = g.kernel ∨ ((s.kern k).state.final = false ∧ poll = true) →
        exec (.producerComplete w n seq) s = .next (give 4)) ∧
      (k ≠ g.kernel → (s.kern k).state.final = false → poll = false → exec (.producerComplete w n seq) s = .next s) ∧
      (k ≠ g.kernel → ∀ code, ((s.kern k).state = .complete ∧ code = 1) ∨ ((s.kern k).state = .faulted ∧ code = 2) ∨
          ((s.kern k).state = .killed ∧ code = 3) →
        exec (.producerComplete w n seq) s = .next ((((give (code + 2 ^ 8 * (s.kern k).cause)).acquire g.core .dev).setKern k fun x =>
          if x.parent.isSome then { x with parent := none, joined := true } else x).sweepKernels)))) ∧
  (∀ (s : State) w n seq p h own, let g := s.wg w
    let answers := fun (u : State) code => exec (.producerComplete w n seq) s = .next (u.killAnswer w n p own code)
    (s.thread w n).prod? seq = some p → s.lowerLane w n p.born isKill = false →
    (p.work = .kkill h own none →
      (s.kidOf? g.ctx h = none → answers s 0) ∧
      (∀ k, s.kidOf? g.ctx h = some k → let st := (s.kern k).state
        (st = .draining → answers s 5) ∧ (st = .complete ∨ st = .faulted ∨ st = .killed → answers s 6) ∧
        (k = g.kernel → st = .dispatching → answers s 3) ∧ (k = g.kernel → st = .running → answers s 4) ∧
        (k ≠ g.kernel → ∀ code, (st = .queued ∧ code = 1) ∨ (st = .waiting ∧ code = 2) ∨ (st = .dispatching ∧ code = 3) ∨ (st = .running ∧ code = 4) →
          let found := fun (m : Nat) (x : Thread) => x.killFound p.born h (if m = n then some p.seq else none) code
          let u := (s.setWg w fun g => { g with threads := g.threads.mapVals found }).kernelKill k
          (u.stopping g.ctx h = false → answers u code) ∧ (u.stopping g.ctx h = true → exec (.producerComplete w n seq) s = .next u)))) ∧
    (∀ code, p.work = .kkill h own (some code) → (s.stopping g.ctx h = true → exec (.producerComplete w n seq) s = .next s) ∧
      (s.stopping g.ctx h = false → answers s code))) ∧
  (∀ (s : State) w n p own code, let g := s.wg w
    let others := ∃ e ∈ g.threads, e.1 ≠ n ∧ ∃ q ∈ e.2.prods, q.born = p.born ∧ isKill q.work = true
    let u := s.landProd w n p [.ofNat 32 code] full true
    (own = false ∨ others → s.killAnswer w n p own code = u) ∧ (own = true → ¬others → s.killAnswer w n p own code = u.kernelKill g.kernel)) ∧
  (∀ (s : State) h, let k := s.kern h
    (k.state.final = true ∨ k.stop ≠ none ∨ k.state = .draining → s.kernelKill h = s) ∧
    (s.kernels.has h = true → k.state.final = false → k.stop = none → k.state ≠ .draining → let u := s.kernelStop h
      (u.quiet h = true → s.kernelKill h = u.kernelEnd h .killed 0x91 0 false) ∧
      (u.quiet h = false → s.kernelKill h = u.setKern h fun k => { k with stop := some ⟨.killed, 0x91, 0⟩ }))) ∧
  (∀ (s : State) w n seq p, let g := s.wg w
    let c := s.ctx g.ctx
    let s0 := s.acquire g.core .sys
    let len := (c.evqTail + 2 ^ 32 - c.evqHead) % 2 ^ 32
    let va := c.evqVa + 16 * (c.evqHead % 2 ^ c.evqLog2)
    (s.thread w n).prod? seq = some p → p.work = .getev → s.lowerLane w n p.born isGetev = false →
    (len = 0 ∨ 2 ^ c.evqLog2 < len → exec (.producerComplete w n seq) s = .next (s0.landProd w n p [] full false)) ∧
    (len ≠ 0 → len ≤ 2 ^ c.evqLog2 →
      (∀ s1 d, s0.readCoherent g.core g.ctx va false = .bytes s1 d → exec (.producerComplete w n seq) s =
        .next (((s1.late g.core g.kernel p.born (Krec.svc (s0.krecOf w))).setCtx g.ctx fun c' => c'.setFld 6 0 32 (c'.evqHead + 1)).landProd w n p
          (wordList (ofBytes ((List.range 16).map fun i => d (va % 128 + i))) 4) full true)) ∧
      (∀ d, s0.readCoherent g.core g.ctx va false = .hit d → exec (.producerComplete w n seq) s =
        .next ((s0.setCtx g.ctx fun c' => c'.setFld 6 0 32 (c'.evqHead + 1)).landProd w n p
          (wordList (ofBytes ((List.range 16).map fun i => d (va % 128 + i))) 4) full true)) ∧
      (s0.readCoherent g.core g.ctx va false = .page → exec (.producerComplete w n seq) s = .next (s0.prodFails w n p false)) ∧
      (s0.readCoherent g.core g.ctx va false = .ue → exec (.producerComplete w n seq) s = .next (s0.prodFails w n p true)) ∧
      ∀ s1 pg, s0.readCoherent g.core g.ctx va false = .wait s1 pg → exec (.producerComplete w n seq) s = .next (s1.prodWaits w n p.seq pg)))

/-! ## Page instructions (spec/17_page.md R468 to R472) -/

/-- R468, R469, R472: a page instruction of a pager's context starts, after a release, one operation per lane, with the input address or frame and
the PTE image of the lane; `PAGE.COPY` also takes a place in the transfer queue. -/
def Obligations.PageRequests : Prop :=
  (∀ (s : State) i isIa a m, pageOperands i = some (isIa, a, m) → s.Issuable i → s.ictx.capPager = true → s.clean →
    (∀ n ∈ s.active i, s.iwg.acquiring n = false ∧ s.releaseReady s.issue.wid n false = true ∧
      (isIa = true → (s.ithread n).pair a < 2 ^ 48 ∧ (s.ithread n).pair a % 65536 = 0)) →
    s.Runs i 1 fun _ u v => u.Started v (instrDst i) (instrStat i)
      (.page i (u.pair a) (match m with
        | some f => u.wide f 4
        | none => 0)) s.clk) ∧
  (∀ (s : State) g d a pool l, let i := Instr.pageCopy g d a pool
    s.Issuable i → s.active i = [l] → s.ictx.capPager = true → s.clean → s.iwg.acquiring l = false →
    s.releaseReady s.issue.wid l false = true → (s.ithread l).pair a < 2 ^ 48 → (s.ithread l).pair a % 65536 = 0 →
    s.engineRoom s.iwg.core false = true →
    s.Completes i fun t => (∀ x, Memory.read t.mem x = Memory.read s.mem x) ∧
      (s.stepped l).Started (t.ithread l) (instrDst i) (instrStat i) (.page i ((s.ithread l).pair a) 0) s.clk ∧
      ∃ c : Cmd, (t.core s.iwg.core).xq = (s.core s.iwg.core).xq ++ [c] ∧ c.instr = i ∧ c.t = l ∧ c.wid = s.issue.wid ∧ c.started = true)

/-- R29, R447, R452, R453, R462, R469 to R473: a page instruction of a lane at the agent, after those of lower lanes. It answers its status word, or
the words that it reads, and changes what its rule says: a refusal changes nothing; `PAGE.MAP.RGN` links a leaf of a frame of the agent's pool;
`PAGE.MAP` makes the entry from the image and counts the frame once more, `.ALLOC` takes a frame of the pool first, `.UPD` writes the permissions, cow,
near and shared; `PAGE.UNMAP` clears the entry and counts down, `PAGE.UNMAP.RGN` unlinks an empty leaf; `PAGE.REF`, `PAGE.UNREF` count; `PAGE.COPY`
settles a COW page; `PAGE.PROBE`, `PAGE.INV`, `PAGE.PIN` read, revoke and pin. A revoke leaves no grant and no L1 bytes of the page. At an agent that
has left service the operation fails, by the model's choice (notes/assumptions/46.md). -/
def Obligations.PageEffects : Prop :=
  let word := fun (c n : Nat) => BitVec.ofNat 32 (2 ^ 31 + c * 2 ^ 24 + n % 2 ^ 24)
  (∀ (s : State) w n seq p i ia img, let g := s.wg w
    let leave := fun (u : State) => u.setCore g.core fun c =>
      c.setXq u.clk (c.xq.filter fun d => !(d.wid == w && d.t == n && d.seq == p.seq && moveOf d.instr == .page))
    (s.thread w n).prod? seq = some p → p.work = .page i ia img → s.lowerLane w n p.born isPageOp = false →
    (takesIa i = true → s.sliceUp (s.agent ia) = false →
      exec (.producerComplete w n seq) s = .next ((leave s).setThread w n fun x => x.setWork p.seq (.failed true))) ∧
    ((takesIa i = true → s.sliceUp (s.agent ia) = true) →
      (s.pageOp g.ctx i ia img = none → exec (.producerComplete w n seq) s = .next s) ∧
      ∀ s1 vals, s.pageOp g.ctx i ia img = some (s1, vals) →
        exec (.producerComplete w n seq) s = .next (((leave s1).acquire g.core .dev).landProd w n p vals full true))) ∧
  (∀ (s : State) ctx ia img g d a big, let no := fun c => s.pageOp ctx (.pageMapRgn g d a big) ia img = some (s, [word c 0])
    let pool := s.agentStack ia
    let m1 := s.rootNode + 8 * (ia / 2 ^ 39 % 512)
    let m2 := nextNode (s.m64 m1) + 8 * (ia / 2 ^ 30 % 512)
    let m3 := nextNode (s.m64 m2) + 8 * (ia / 2 ^ 23 % 128)
    (s.region ia ≠ none → no 0x72) ∧ (s.region ia = none → (s.pool pool).up = false → no 0x75) ∧
    (s.region ia = none → (s.pool pool).up = true → (s.popFrame pool = none → s.m64 m1 % 2 = 1 → s.m64 m2 % 2 = 1 → no 0x75) ∧
      ∀ f s1, s.popFrame pool = some (f, s1) → s.m64 m1 % 2 = 1 → s.m64 m2 % 2 = 1 →
        ∃ t, s.pageOp ctx (.pageMapRgn g d a big) ia img = some (t, [word 0 0]) ∧ (t.pool pool).count f = 1 ∧ (t.pool pool).isTable f = true ∧
          t.mem = Memory.writeLE (Memory.zero s.mem (framePa pool f) 65536) m3 8 (1 + 2 * big.toNat + framePa pool f))) ∧
  (∀ (s : State) ctx ia img, ctx < 4096 → let tier := Pte.tier img
    let entry := fun (large : Bool) (ref : Nat) => 1 + 2 * tier + 2 ^ 3 * Pte.perm img + 2 ^ 6 * Pte.fld img 6 2 + 2 ^ 9 * Pte.fld img 9 1 +
      2 ^ 10 * large.toNat + 2 ^ 16 * ctx + 2 ^ 32 * ref
    (∀ g d a f, let no := fun c => s.pageOp ctx (.pageMap g d a f) ia img = some (s, [word c 0])
      let ref := Pte.frame img
      let pool := poolOf tier ref
      let k := frameNo tier ref
      (s.pteAt ia = none → no 0x71) ∧ ∀ at_ large, s.pteAt ia = some (at_, large) → let p := s.pte at_
        let made := fun (t : State) => s.pageOp ctx (.pageMap g d a f) ia img = some (t, [word 0 ref]) ∧ t.pte at_ = entry large ref
        let any := fun (q : Nat → Prop) => ∃ i, i < pageSpan large ∧ q (k + i)
        let out := fun x => (s.pool pool).isTable x = true ∨ (s.pool pool).isRetired x = true ∨ (s.pool pool).count x = 0
        (Pte.valid p = true → no (if Pte.ctx p = ctx then 0x72 else 0x74)) ∧
        (Pte.valid p = false → (imageOk img large = false → no 0x77) ∧
          (imageOk img large = true → (2 ≤ tier → ∃ t, made t ∧ t.pools = s.pools) ∧
            (tier < 2 → let good := s.frameOk tier ref = true ∧ s.frameOk tier (ref + pageSpan large - 1) = true
              (¬good → no 0x77) ∧ (good → (s.pool pool).up = false → no 0x75) ∧
              (good → (s.pool pool).up = true → (any out → no 0x77) ∧ (¬any out → any (fun x => (s.pool pool).count x = 65535) → no 0x78) ∧
                (¬any out → ¬any (fun x => (s.pool pool).count x = 65535) → ∃ t, made t ∧
                  ∀ i, i < pageSpan large → (t.pool pool).count (k + i) = (s.pool pool).count (k + i) + 1)))))) ∧
    (∀ g d a f, (s.pteAt ia = none → s.pageOp ctx (.pageMapAlloc g d a f) ia img = some (s, [word 0x71 0])) ∧
      ∀ at_ large, s.pteAt ia = some (at_, large) → Pte.valid (s.pte at_) = true →
        s.pageOp ctx (.pageMapAlloc g d a f) ia img = some (s, [word (if Pte.ctx (s.pte at_) = ctx then 0x72 else 0x74) 0])) ∧
    (∀ g d a f at_ large, s.pteAt ia = some (at_, large) → Pte.valid (s.pte at_) = false →
      let no := fun c => s.pageOp ctx (.pageMapAlloc g d a f) ia img = some (s, [word c 0])
      let pool := if Pte.frame img = 63 then s.agentStack ia else Pte.frame img
      let good := imageOk (Pte.put img 32 40 0) false = true ∧ (Pte.frame img ≤ 33 ∨ Pte.frame img = 63) ∧ tier = if pool < 32 then 0 else 1
      (¬good → no 0x77) ∧ (good → s.takeFrames pool large = none → no 0x75) ∧
      (∀ k s1, good → s.takeFrames pool large = some (k, s1) → frameRef pool k < 2 ^ 40 →
        ∃ t, s.pageOp ctx (.pageMapAlloc g d a f) ia img = some (t, [word 0 (frameRef pool k)]) ∧ t.pte at_ = entry large (frameRef pool k) ∧
          ∀ i, i < pageSpan large → (t.pool pool).count (k + i) = 1))) ∧
  (∀ (s : State) ctx ia img i, (∃ g d a, i = .pageUnmap g d a ∨ i = .pagePin g d a ∨ i = .pagePinClr g d a ∨ (∃ f, i = .pageMapUpd g d a f) ∨
      ∃ pool, i = .pageCopy g d a pool) →
    (s.pteAt ia = none → s.pageOp ctx i ia img = some (s, [word 0x73 0])) ∧
    (∀ at_ large, s.pteAt ia = some (at_, large) →
      (Pte.valid (s.pte at_) = false → s.pageOp ctx i ia img = some (s, [word 0x73 0])) ∧
      (Pte.valid (s.pte at_) = true → Pte.ctx (s.pte at_) ≠ ctx → s.pageOp ctx i ia img = some (s, [word 0x74 0])))) ∧
  (∀ (s : State) ctx ia img at_ large, s.pteAt ia = some (at_, large) → Pte.valid (s.pte at_) = true → Pte.ctx (s.pte at_) = ctx → let p := s.pte at_
    let pool := poolOf (Pte.tier p) (Pte.frame p)
    let k := frameNo (Pte.tier p) (Pte.frame p)
    let op := fun i => s.pageOp ctx i ia img
    let r := s.revoke ia
    (∀ g d a f, let i := Instr.pageMapUpd g d a f
      let needs := (Pte.cow p = false ∧ Pte.cow img = true) ∨ (∃ b, b ∈ [3, 4, 5] ∧ Pte.fld p b 1 = 1 ∧ Pte.fld img b 1 = 0) ∨
        Pte.shared p ≠ Pte.shared img ∨ Pte.near p ≠ Pte.near img
      let put := fun q => Pte.put (Pte.put q 3 5 (Pte.fld img 3 5)) 9 1 (Pte.fld img 9 1)
      (needs → s.revokeReady ia = false → op i = none) ∧
      (needs → s.revokeReady ia = true → ∃ t, op i = some (t, [word 0 0]) ∧ t.pte at_ = put (r.pte at_) ∧ t.pools = r.pools) ∧
      (¬needs → ∃ t, op i = some (t, [word 0 0]) ∧ t.pte at_ = put p ∧ t.pools = s.pools)) ∧
    (∀ g d a, let i := Instr.pageUnmap g d a
      (Pte.pin p = true → op i = some (s, [word 0x76 0])) ∧ (Pte.pin p = false → s.revokeReady ia = false → op i = none) ∧
      (Pte.pin p = false → s.revokeReady ia = true → ∃ t, op i = some (t, [word 0 0]) ∧ t.pte at_ = 0 ∧
        (Pte.tier p < 2 → ∀ j, j < pageSpan large → (t.pool pool).count (k + j) = (r.pool pool).count (k + j) - 1))) ∧
    (∀ g d a, (∃ t, op (.pagePin g d a) = some (t, [word 0 0]) ∧ t.pte at_ = Pte.put p 8 1 1 ∧ t = { s with mem := t.mem }) ∧
      ∃ t, op (.pagePinClr g d a) = some (t, [word 0 0]) ∧ t.pte at_ = Pte.put p 8 1 0 ∧ t = { s with mem := t.mem }) ∧
    (∀ g d a into, let i := Instr.pageCopy g d a into
      let c := if Pte.tier p < 2 then (s.pool pool).count k else 1
      let q := if into = 63 then pool else into
      (Pte.cow p = false → op i = some (s, [word 0 0])) ∧ (Pte.cow p = true → s.revokeReady ia = false → op i = none) ∧
      (Pte.cow p = true → s.revokeReady ia = true → (c ≤ 1 → ∃ t, op i = some (t, [word 0 1]) ∧ t.pte at_ = Pte.put (r.pte at_) 6 1 0) ∧
        (2 ≤ c → (r.takeFrames q large = none → op i = some (s, [word 0x75 0])) ∧
          ∀ f s1, r.takeFrames q large = some (f, s1) → frameRef q f < 2 ^ 40 → ∃ t, op i = some (t, [word 0 (c - 1)]) ∧
            Pte.cow (t.pte at_) = false ∧ Pte.frame (t.pte at_) = frameRef q f ∧ Pte.tier (t.pte at_) = (if q < 32 then 0 else 1))))) ∧
  (∀ (s : State) src dst n i, i < n → src + n ≤ dst ∨ dst + n ≤ src →
    Memory.read (s.copyFrames src dst n).mem (dst + i) = Memory.read s.mem (src + i)) ∧
  (∀ (s : State) ctx ia img g d a, let i := Instr.pageUnmapRgn g d a
    (s.region ia = none → s.pageOp ctx i ia img = some (s, [word 0x71 0])) ∧
    ∀ at_ e, s.region ia = some (at_, e) → let full := ∃ j, j < (if e / 2 % 2 = 1 then 4 else 128) ∧ Pte.valid (s.pte (leafNode e + 16 * j)) = true
      (full → s.pageOp ctx i ia img = some (s, [word 0x7A 0])) ∧
      (¬full → ∃ t, s.pageOp ctx i ia img = some (t, [word 0 0]) ∧ t.mem = Memory.writeLE s.mem at_ 8 0 ∧
        (t.pool (leafNode e / 2 ^ 36)).count (leafNode e % 2 ^ 36 / 65536) = 0)) ∧
  (∀ (s : State) ctx v img g d a, let up := Instr.pageRef g d a
    let down := Instr.pageUnref g d a
    let both := fun c => s.pageOp ctx up v img = some (s, [word c 0]) ∧ s.pageOp ctx down v img = some (s, [word c 0])
    let look := Instr.pageProbeFrame g d a
    let tier := v / 2 ^ 40
    let f := v % 2 ^ 40
    let pool := poolOf tier f
    let k := frameNo tier f
    let n := (s.pool pool).count k
    let well := tier ≤ 1 ∧ s.frameOk tier f = true
    (¬well → both 0x77 ∧ s.pageOp ctx look v img = some (s, [0xF7000000])) ∧
    (well → (s.pool pool).up = false → both 0x75 ∧ s.pageOp ctx look v img = some (s, [0xF5000000])) ∧
    (well → (s.pool pool).up = true → s.pageOp ctx look v img = some (s, [(s.pool pool).table.getD k 0]) ∧
      ((s.pool pool).isTable k = true ∨ (s.pool pool).isRetired k = true → both 0x77) ∧
      ((s.pool pool).isTable k = false → (s.pool pool).isRetired k = false →
        (n = 65535 → s.pageOp ctx up v img = some (s, [word 0x78 0])) ∧ (n = 0 → s.pageOp ctx down v img = some (s, [word 0x78 0])) ∧
        (n < 65535 → ∃ t, s.pageOp ctx up v img = some (t, [word 0 (n + 1)]) ∧ (t.pool pool).count k = n + 1 ∧ t.mem = s.mem) ∧
        (0 < n → ∃ t, s.pageOp ctx down v img = some (t, [word 0 (n - 1)]) ∧ (t.pool pool).count k = n - 1 ∧ t.mem = s.mem ∧
          (n = 1 → (t.pool pool).free = (k, 1) :: (s.pool pool).free))))) ∧
  (∀ (s : State) ctx ia img g d a, let probe := fun i => s.pageOp ctx i ia img
    (s.pteAt ia = none → probe (.pageProbe g d a) = some (s, [0, 0, 0, 0]) ∧ probe (.pageProbeClr g d a) = some (s, [0, 0, 0, 0])) ∧
    ∀ at_ large, s.pteAt ia = some (at_, large) → let p := s.pte at_
      (Pte.valid p = false → probe (.pageProbe g d a) = some (s, [0, 0, 0, 0])) ∧
      (Pte.valid p = true → probe (.pageProbe g d a) = some (s, wordList p 4) ∧
        probe (.pageProbeClr g d a) = some (s.setPte at_ (Pte.put p 80 48 0), wordList p 4)) ∧
      (Pte.valid p = true → Pte.ctx p ≠ ctx → probe (.pageInv g d a) = some (s, [word 0x74 0])) ∧
      (Pte.valid p = false ∨ Pte.ctx p = ctx → (s.revokeReady ia = false → probe (.pageInv g d a) = none ∧ probe (.pageInvFail g d a) = none) ∧
        (s.revokeReady ia = true → probe (.pageInv g d a) = some (s.revoke ia, [word 0 0]) ∧
          probe (.pageInvFail g d a) = some (((s.revoke ia).pageFailed (s.pageOf ia)).1,
            [word 0 ((s.revoke ia).waiters fun q => (s.pageOf ia).1 ≤ q && q < (s.pageOf ia).1 + (s.pageOf ia).2).length])))) ∧
  (∀ (s : State) ia c, (∀ x ∈ ((s.revoke ia).core c).grants, ¬((s.pageOf ia).1 ≤ x.page ∧ x.page < (s.pageOf ia).1 + (s.pageOf ia).2)) ∧
    ∀ gl, inPage (s.pageOf ia) gl = true → ((s.revoke ia).l1 c gl).cells = [])

/-! ## Traps, handlers and counters (spec/18_trap.md R487 to R493) -/

/-- R483, R485, R490, R491: `TRAP` and `BKPT` of some lane make the whole group take SWTRAP or BKPT, with the code as detail and, for `TRAP`, the
next instruction as the resume PC. `ERET.FAULT` ends the kernel with the frame's cause and PC. `ERET` with a further cause in the frame turns every
lane of the frame to the handler with that cause, or faults the kernel where no handler is set; with none, its lanes leave handler mode and resume,
each register of the error set full with 0; errors of earlier accesses that arrived in the handler are the error set then. -/
def Obligations.TrapsAndReturns : Prop :=
  (∀ (s : State) g code, s.Issuable (.trap g code) → s.active (.trap g code) ≠ [] → exec (.trap g code) s =
    .next (s.trapIssue { cause := Cause.swtrap, mask := s.active (.trap g code), detail := code.toNat, pc := some s.nextPc })) ∧
  (∀ (s : State) g code, s.Issuable (.bkpt g code) → s.active (.bkpt g code) ≠ [] → exec (.bkpt g code) s =
    .next (s.trapIssue { cause := Cause.bkpt, mask := s.active (.bkpt g code), detail := code.toNat })) ∧
  (∀ (s : State) g, s.Issuable (.eretFault g) → s.active (.eretFault g) ≠ [] →
    let f := (s.iwg.slot s.issue.slot).frame
    exec (.eretFault g) s = .next ((s.advance.kernelFault s.iwg.kernel f.cause f.pc).counted 1)) ∧
  (∀ (s : State) g, let i := Instr.eret g
    let f := (s.iwg.slot s.issue.slot).frame
    let back := fun n => if f.done.getLsbD (n % 64) = true ∧ f.kind = 0 ∧ f.pc = f.ipc then (f.ipc + 4 * f.insn.length) % 2 ^ 57 else f.pc
    s.Issuable i → s.active i ≠ [] → f.next = 0 → (∀ n ∈ s.active i, back n % 4 = 0) →
    s.Completes i fun t => (∀ a, Memory.read t.mem a = Memory.read s.mem a) ∧ s.Threads t i (fun n u v =>
        v = { u with regs := v.regs, pc := back n, handler := false, bank := ⟨[], [], 0⟩, bpend := 0, errs := u.later,
                     later := ⟨0, 0, false, false, 0⟩ } ∧
        v.regs.p = u.regs.p ∧
        (∀ k, k < 64 → v.regs.getX k = if u.errs.x.getLsbD k then ⟨0, ⟨0, 0⟩, true⟩ else u.regs.getX k) ∧
        (∀ k, k < 64 → v.regs.getV k = if u.errs.v.getLsbD k then ⟨0, true⟩ else u.regs.getV k)) ∧
      (t.iwg.slot s.issue.slot).frame = f ∧ ((s.iwg.threads.map Prod.fst).Pairwise (· < ·) →
        ((t.iwg.slot s.issue.slot).busy = true ↔ (s.iwg.slot s.issue.slot).busy = true ∧
          ∃ e ∈ s.iwg.threads, e.1 / 64 = s.issue.slot ∧ e.2.live = true ∧ e.2.handler = true ∧ e.1 ∉ s.active i))) ∧
  (∀ (s : State) g, let i := Instr.eret g
    let f := (s.iwg.slot s.issue.slot).frame
    s.Issuable i → s.active i ≠ [] → f.next = 0 →
    (∃ n ∈ s.active i, ¬(f.done.getLsbD (n % 64) = true ∧ f.kind = 0 ∧ f.pc = f.ipc) ∧ f.pc % 4 ≠ 0) →
    exec i s = .next ((s.advance.ctxFault s.iwg.ctx Cause.align s.iwg.kernel s.issue.pc).counted 1)) ∧
  (∀ (s : State) g, let i := Instr.eret g
    let f := (s.iwg.slot s.issue.slot).frame
    let x := (s.ctx s.iwg.ctx).trapPc
    let c := if f.next % 2 = 1 then Cause.page else Cause.ue
    s.Issuable i → s.active i ≠ [] → f.next ≠ 0 → x ≠ 0 →
    s.Completes i fun t => (∀ a, Memory.read t.mem a = Memory.read s.mem a) ∧
      (let h := (t.iwg.slot s.issue.slot).frame
       h.cause = c ∧ h.detail = 0 ∧ h.mask = (if f.next % 2 = 1 then f.npMask else f.nuMask) ∧
       h.addr = (if f.next % 2 = 1 then f.npAddr else f.nuAddr) ∧ h.next = (if f.next % 2 = 1 then f.next - 1 else 0) ∧
       h.pc = f.pc ∧ h.lanes = f.lanes) ∧
      ∀ n ∈ s.iwg.live, n / 64 = s.issue.slot → f.lanes.getLsbD (n % 64) = true → (s.ithread n).handler = true →
        (t.ithread n).handler = true ∧ (t.ithread n).pc = x ∧ (t.ithread n).bank.getX 0 = ⟨.ofNat 32 c, ⟨c, c⟩, true⟩ ∧
        (t.ithread n).bank.getX 1 = ⟨.ofNat 32 (n % 64), ⟨n % 64, n % 64⟩, true⟩ ∧ (t.ithread n).regs = (s.ithread n).regs) ∧
  (∀ (s : State) g, let i := Instr.eret g
    let f := (s.iwg.slot s.issue.slot).frame
    s.Issuable i → s.active i ≠ [] → f.next ≠ 0 → (s.ctx s.iwg.ctx).trapPc = 0 →
    exec i s = .next ((s.advance.kernelFault s.iwg.kernel (if f.next % 2 = 1 then Cause.page else Cause.ue) f.pc).counted 1))

/-- R488, R489: `HRD` reads a trapped thread's own registers, intervals, predicates, operand file, last results, full bits and error bits, or a word
of the frame; `HWR` writes a register full with the widest interval and out of the error set, the predicates, an operand or last result, or a word
of the frame's resume PC. -/
def Obligations.HandlerAccess : Prop :=
  (∀ g d kind idx, Lanes (.hrd g d kind idx) 1 fun s _ u v => ∃ w : Word, u.Wrote v d w full ∧
    (kind = 0 → w = (u.regs.getX idx).val) ∧ (kind = 1 → w = .ofInt 32 (u.regs.getX idx).iv.lo) ∧
    (kind = 2 → w = .ofInt 32 (u.regs.getX idx).iv.hi) ∧ (kind = 3 → w = (u.regs.getV idx).val) ∧
    (kind = 4 → w = .ofNat 32 u.regs.p.toNat) ∧ (kind = 5 → w = (u.getO idx).val) ∧
    (kind = 6 → w = if idx = 0 then u.l0.val else u.l1.val) ∧
    (kind = 7 → ∀ j, j < 32 → w.getLsbD j = if idx < 2 then (u.regs.getX (32 * (idx % 2) + j)).ful else (u.regs.getV (32 * (idx % 2) + j)).ful) ∧
    (kind = 8 → ∀ j, j < 32 → w.getLsbD j = if idx < 2 then u.errs.x.getLsbD (32 * (idx % 2) + j) else u.errs.v.getLsbD (32 * (idx % 2) + j)) ∧
    (kind = 9 → w = .ofNat 32 ((s.iwg.slot s.issue.slot).frame.num / 2 ^ (32 * idx)))) ∧
  (∀ g kind idx a, kind ≠ 9 → Lanes (.hwr g kind idx a) 1 fun _ _ u v =>
    let w := u.val a
    v.bank = u.bank ∧ v.pc = u.pc ∧ v.handler = u.handler ∧ v.hold = u.hold ∧
    (∀ k, v.regs.getX k = if kind = 0 ∧ k = idx then ⟨w, full, true⟩ else u.regs.getX k) ∧
    (∀ k, v.regs.getV k = if kind = 3 ∧ k = idx then ⟨w, true⟩ else u.regs.getV k) ∧
    (∀ k, k < 64 → v.errs.x.getLsbD k = (u.errs.x.getLsbD k && !decide (kind = 0 ∧ k = idx))) ∧
    (∀ k, k < 64 → v.errs.v.getLsbD k = (u.errs.v.getLsbD k && !decide (kind = 3 ∧ k = idx))) ∧
    v.regs.p = (if kind = 4 then .ofNat 7 w.toNat else u.regs.p) ∧
    (∀ k, v.getO k = if kind = 5 ∧ k = idx then ⟨w, full⟩ else u.getO k) ∧
    v.l0 = (if kind = 6 ∧ idx = 0 then ⟨w, full⟩ else u.l0) ∧ v.l1 = (if kind = 6 ∧ idx ≠ 0 then ⟨w, full⟩ else u.l1)) ∧
  (∀ (s : State) g idx a l, let i := Instr.hwr g 9 idx a
    let f := (s.iwg.slot s.issue.slot).frame
    let w := ((s.ithread l).val a).toNat
    s.Issuable i → s.active i = [l] → s.Completes i fun t => s.Threads t i (fun _ u v => v = u) ∧
      (∀ x, Memory.read t.mem x = Memory.read s.mem x) ∧
      (t.iwg.slot s.issue.slot).frame = { f with pc := if idx = 8 then f.pc / 2 ^ 32 * 2 ^ 32 + w
        else if idx = 9 then f.pc % 2 ^ 32 + w % 2 ^ 25 * 2 ^ 32 else f.pc })

/-- R493: `CLK` writes the 64-bit clk, with `.ORD` where the thread's producers have ended and its stores are performed; `PERF` a counter of the
core, or the workgroup's progress; `PREEMPT.CHK` whether a pre-emption of the workgroup is requested. R35: an instruction of a slot without meaning
makes its active lanes take UNIMPL. -/
def Obligations.Counters : Prop :=
  (∀ g d, Lanes (.clk g false d) 1 fun s _ u v => u.WroteN v d 2 (s.clk % 2 ^ 64)) ∧
  (∀ (s : State) g d, s.Issuable (.clk g true d) → (∀ n ∈ s.active (.clk g true d), (s.ithread n).prods = [] ∧
      ∀ e ∈ (s.core s.iwg.core).siding, ¬(e.wid = s.issue.wid ∧ e.t = n)) →
    s.Runs (.clk g true d) 1 fun _ u v => u.WroteN v d 2 (s.clk % 2 ^ 64)) ∧
  (∀ g d n, Lanes (.perf g d n) 1 fun s _ u v => ∃ w, u.WroteN v d 2 w ∧ (n ≤ 4 → w = ((s.core s.iwg.core).perf.getD n 0).toNat) ∧
    (n = 5 → w = ((s.core s.iwg.core).perf.getD 5 0).toNat + ((s.core s.iwg.core).fullAt.map fun b => s.clk - b).getD 0) ∧
    (n = 6 → w = (s.core s.iwg.core).dlmT.toNat) ∧ (n = 7 → w = s.iwg.progress)) ∧
  (∀ g pd, Lanes (.preemptChk g pd) 1 fun s _ u v => u.WroteP v pd s.iwg.preempt.isSome) ∧
  (∀ (s : State) g words rest, ∀ i ∈ [Instr.idiv g words rest, .irem g words rest], s.Issuable i →
    (s.active i ≠ [] → exec i s = .next (s.trapIssue { cause := Cause.unimpl, mask := s.active i })) ∧
    (s.active i = [] → s.Runs i 1 fun _ u v => v = u))

/-! ## Steps of threads outside issue -/

/-- R157, R161, R164, R187, R189, R209, R304, R307, R342, R440, R441, R479, R480, R485, R489: the steps that threads take without issuing. A sleep
that is over and a `JOIN` that is due go on. A known result is written, its registers full and its predicate settled, or still pending while lanes
of its group wait; a failed one leaves its registers empty in the error set, or, in handler mode, among the errors that wait for its end; one whose
registers have all been written since counts for nothing. A settled report and a deferred error are taken as traps of kinds 1 and 2; the address of
a deferred PAGE, where the rules differ, is the model's reading (notes/assumptions/50.md). Threads that wait for each other at barriers for 256,
1,024 or 65,536 clk take BAR with detail 6 or 4, but not those of a workgroup whose save or flush has begun; while the frame of their slot is busy
they hold the trap as a report, which is the model's form of it (notes/assumptions/67.md). A slot that has starved takes the window entry of the
lowest priority. -/
def Obligations.ThreadEvents : Prop :=
  (∀ (s : State) w n till, s.wgs.has w = true → (s.thread w n).hold = .sleep till → till ≤ s.clk →
    s.Completes (.sleepExpiry w n) fun t =>
      s.ThreadSet t w n { s.thread w n with pc := ((s.thread w n).pc + 8) % 2 ^ 57, hold := .none }) ∧
  (∀ (s : State) w g, s.wgs.has w = true →
    (∃ n ∈ (s.wg w).gangLive g, ∃ a start, (s.thread w n).hold = .join a start ∧ start + 256 ≤ s.clk) →
    s.Completes (.joinTimeout w g) fun t => (∀ a, Memory.read t.mem a = Memory.read s.mem a) ∧
      (∀ v, v ≠ w → t.wgs.get? v = s.wgs.get? v) ∧
      (∀ n ∈ (s.wg w).gangLive g, ∀ a start, (s.thread w n).hold = .join a start → t.thread w n = { s.thread w n with hold := .none }) ∧
      (∀ n, (n ∉ (s.wg w).gangLive g ∨ ∀ a start, (s.thread w n).hold ≠ .join a start) → t.thread w n = s.thread w n)) ∧
  (∀ (s : State) w n seq p vals iv ok, let x := s.thread w n
    s.wgs.has w = true → (s.wg w).ended = false → x.prod? seq = some p → p.work = .done vals iv ok → p.bank = false →
    (p.stat ≠ none → s.unsettledGroup w p.born = false) → x.hold ≠ .kjoin p.seq →
    s.Completes (.producerComplete w n seq) fun t => ∃ y, s.ThreadSet t w n y ∧
      y = { x with regs := y.regs, pend := y.pend, prods := x.prods.filter fun q => q.seq != p.seq } ∧
      (∀ k, y.regs.getX k = if ∃ g, p.tgt = some g ∧ g.cls = .x ∧ g.idx ≤ k ∧ k < g.idx + g.n ∧ k ∉ g.skip
        then ⟨vals.getD 0 0, iv, true⟩ else x.regs.getX k) ∧
      (∀ k, (∀ g, p.tgt = some g → g.cls = .v → ¬(g.idx ≤ k ∧ k < g.idx + g.n ∧ k ∉ g.skip)) → y.regs.getV k = x.regs.getV k) ∧
      (∀ g k, p.tgt = some g → g.cls = .v → g.idx ≤ k → k < g.idx + g.n → k ∉ g.skip → y.regs.getV k = ⟨vals.getD (k - g.idx) 0, true⟩) ∧
      (∀ j, j < 7 → y.regs.p.getLsbD j = if p.stat = some j then ok else x.regs.p.getLsbD j) ∧
      (∀ j, j < 7 → y.pend.getLsbD j = (x.pend.getLsbD j && !decide (p.stat = some j)))) ∧
  (∀ (s : State) w n seq p ue, let x := s.thread w n
    s.wgs.has w = true → x.live = true → x.prod? seq = some p → p.work = .failed ue → p.bank = false → p.stat = none → p.discarded = false →
    s.Completes (.producerComplete w n seq) fun t => ∃ y, s.ThreadSet t w n y ∧
      y = { x with errs := y.errs, later := y.later, prods := x.prods.filter fun q => q.seq != p.seq } ∧
      (if x.handler then y.errs = x.errs else y.later = x.later) ∧
      (let old := if x.handler then x.later else x.errs
       let new := if x.handler then y.later else y.errs
       new.ue = (old.ue || ue) ∧ new.page = (old.page || !ue) ∧
       (∀ k, k < 64 → new.x.getLsbD k = (old.x.getLsbD k ||
         decide (∃ g, p.tgt = some g ∧ g.cls = .x ∧ g.idx ≤ k ∧ k < g.idx + g.n ∧ k ∉ g.skip))) ∧
       ∀ k, k < 64 → new.v.getLsbD k = (old.v.getLsbD k ||
         decide (∃ g, p.tgt = some g ∧ g.cls = .v ∧ g.idx ≤ k ∧ k < g.idx + g.n ∧ k ∉ g.skip)))) ∧
  (∀ (s : State) w n seq p ue, let x := s.thread w n
    s.wgs.has w = true → x.live = true → x.prod? seq = some p → p.work = .failed ue → p.bank = false → p.stat = none → p.discarded = true →
    s.Completes (.producerComplete w n seq) fun t => s.ThreadSet t w n { x with prods := x.prods.filter fun q => q.seq != p.seq }) ∧
  (∀ (s : State) w n seq p vals iv ok, let x := s.thread w n
    s.wgs.has w = true → x.prod? seq = some p → p.work = .done vals iv ok → p.bank = false → p.stat.isSome = true →
    s.unsettledGroup w p.born = true →
    s.Completes (.producerComplete w n seq) fun t => ∃ y, s.ThreadSet t w n y ∧
      y = { x with regs := y.regs, prods := listSet x.prods (fun q => q.seq == p.seq) fun q => { q with tgt := none } } ∧ y.regs.p = x.regs.p ∧
      (∀ k, y.regs.getX k = if ∃ g, p.tgt = some g ∧ g.cls = .x ∧ g.idx ≤ k ∧ k < g.idx + g.n ∧ k ∉ g.skip
        then ⟨vals.getD 0 0, iv, true⟩ else x.regs.getX k) ∧
      (∀ g k, p.tgt = some g → g.cls = .v → g.idx ≤ k → k < g.idx + g.n → k ∉ g.skip → y.regs.getV k = ⟨vals.getD (k - g.idx) 0, true⟩)) ∧
  (∀ (s : State) w n r, let x := s.thread w n
    x.report = [r] → r.cause ≠ Cause.bar → s.canTrap w n = true → (s.wg w).unsettled n r.orig = false → (s.wg w).standing n = [n] →
    (s.ctx (s.wg w).ctx).trapPc ≠ 0 →
    s.Completes (.settledTrap w n) fun t => t.thread w n =
        { (s.takeTrap w [n] r.orig.ipc r.orig.insn
            { cause := r.cause, mask := [n], detail := r.detail, addr := r.addr, kind := 1, pc := some x.pc, done := [n] }).thread w n with
          report := [] } ∧
      (t.thread w n).handler = true ∧ (t.thread w n).pc = (s.ctx (s.wg w).ctx).trapPc ∧
      (let f := ((t.wg w).slot (n / 64)).frame
       f.cause = r.cause ∧ f.kind = 1 ∧ f.detail = r.detail ∧ f.addr = r.addr ∧ f.pc = x.pc ∧ f.ipc = r.orig.ipc ∧ f.next = 0)) ∧
  (∀ (s : State) w n, let x := s.thread w n
    x.report = [] → x.errs.any = true → s.canTrap w n = true → (s.wg w).standing n = [n] →
    exec (.deferredTrap w n) s = .next (s.takeTrap w [n] 0 []
      { cause := if x.errs.ue then Cause.ue else Cause.page, mask := [n], detail := 1, kind := 2, pc := some x.pc,
        addr := if x.errs.ue then 0 else x.errs.va })) ∧
  (∀ (s : State) w n r, let x := s.thread w n
    x.report = [r] → r.cause = Cause.bar → s.canTrap w n = true → (s.wg w).standing n = [n] → (s.ctx (s.wg w).ctx).trapPc ≠ 0 →
    s.Completes (.settledTrap w n) fun t => (t.thread w n).handler = true ∧ (t.thread w n).report = [] ∧
      (let f := ((t.wg w).slot (n / 64)).frame
       f.cause = Cause.bar ∧ f.kind = 0 ∧ f.detail = r.detail ∧ f.pc = x.pc ∧ f.ipc = r.orig.ipc)) ∧
  (∀ (s : State) w g, let live := (s.wg w).gangLive g
    (s.wg w).stopped = false → live ≠ [] → (∀ n ∈ live, ∃ k : Word, (s.thread w n).hold = .barWait k ∧ k.toNat / 2 % 8 = 0) →
    (∀ n ∈ live, s.wouldEnd w n = false) → (∀ e ∈ (s.wg w).threads, (s.wg w).gangOf e.1 = g → e.2.last + 256 ≤ s.clk) → 256 ≤ s.clk →
    exec (.gangDeadlock w g) s = .next ((s.barTrap w live 6).joinCheck w g true)) ∧
  (∀ (s : State) w, let live := (s.wg w).live
    (s.wg w).stopped = false → live ≠ [] → (∀ n ∈ live, ∃ k : Word, (s.thread w n).hold = .barWait k ∧ k.toNat / 2 % 8 ≤ 1) →
    (∀ n ∈ live, s.wouldEnd w n = false) → (∀ e ∈ (s.wg w).threads, e.2.last + 1024 ≤ s.clk) → 1024 ≤ s.clk →
    exec (.barrierDeadlockWg w) s = .next (s.barTrap w live 4)) ∧
  (∀ (s : State) h b unit w, let live := (s.wg w).live
    (b.lvl = .clu ∨ b.lvl = .stk ∨ b.lvl = .grid) → b.num < Krec.bars (s.kern h).krec b.lvl → s.memberWgs h b.lvl unit = [w] →
    (∀ v ∈ s.saved, v.kernel ≠ h) → (s.wg w).stopped = false → stirredIn (s.kern h) b.lvl unit + 65536 ≤ s.clk → live ≠ [] →
    (∀ n ∈ live, ∃ k : Word, (s.thread w n).hold = .barWait k ∧ k.toNat / 2 % 8 ≤ 4) →
    (∀ n ∈ live, s.wouldEnd w n = false) → (∀ e ∈ (s.wg w).threads, e.2.last + 65536 ≤ s.clk) → 65536 ≤ s.clk →
    exec (.barrierDeadlockUpper h b unit) s = .next (s.barTrap w live 4)) ∧
  (∀ (s : State) w n kind (k : Word), (s.thread w n).hold = .barWait k → k ≠ 0 → ((s.wg w).slot (n / 64)).busy = false →
    s.barTrap w [n] kind = s.takeTrap w [n] (s.thread w n).pc (s.wordsAt w (s.thread w n).pc)
      { cause := Cause.bar, mask := [n], detail := kind + 16 * (k.toNat / 2 % 8) + 256 * (k.toNat / 16 % 16) }) ∧
  (∀ (s : State) w n kind (k : Word), let x := s.thread w n
    x.hold = .barWait k → k ≠ 0 → ((s.wg w).slot (n / 64)).busy = true → x.handler = false →
    s.barTrap w [n] kind = s.setThread w n fun y => { y with hold := .none, report := y.report ++
      [⟨Cause.bar, kind + 16 * (k.toNat / 2 % 8) + 256 * (k.toNat / 16 % 16), 0, ⟨x.pc, s.wordsAt w x.pc, laneMask [n]⟩⟩] }) ∧
  (∀ (s : State) c b o v, let l := s.baySlots c b
    (l.filter fun r => r.sl.place == .eligible && decide (r.sl.since + 1024 ≤ s.clk)) = [o] →
    v ∈ l.filter (fun r => r.sl.place == .window) → (∀ r ∈ l.filter (fun r => r.sl.place == .window), r ≠ v → v.prio < r.prio) →
    8 ≤ (l.filter fun r => r.sl.place == .window).length →
    exec (.eligibleStarvation c b) s = .next ((s.place v .eligible).place o .window))

/-! ## Steps of memory (spec/12_ordering.md, spec/17_page.md) -/

/-- R314, R321 to R329, R332, R342, R345 to R347, R451, R454 to R457, R466: the steps that the memory side takes. A line's dirty bytes go to the
coherent level and stay as clean ones, and its page's count of accesses rises; a release record is registered at the home slice; an ordered drain
writes its lines back and takes the core's records registered before its order. A load of one piece is answered by the bytes of the L1, which
changes nothing else, the page's counts included, by the model's reading (notes/assumptions/7.md), or, for an acquire, by those of the coherent
level; that a step performs one piece of an access is the model's choice (notes/assumptions/8.md). A grant lets its siding entries replay into the
L1. An atomic stores its result and answers the value before. The release part of a fence, its promotion, and the reads of `WAITA` end as their
rules say, and a request past its deadline is counted. A dropped event of a page that is still waited for is posted again. -/
def Obligations.MemoryEvents : Prop :=
  (∀ (s : State) c gl, (s.l1 c gl).held = none → (s.l1 c gl).dirty ≠ [] →
    s.Completes (.l1WriteBack c gl) fun t => (t.l1 c gl).dirty = [] ∧
      (∀ j, ((t.l1 c gl).cells.get? j).map Cell1.val = ((s.l1 c gl).cells.get? j).map Cell1.val) ∧
      ∀ pa, s.HomeOnly c gl pa →
        t.mem = (({ s with mem := (s.l1 c gl).dirty.foldl (fun m e => Memory.write m (pa + e.1) e.2) s.mem } : State).countPte (128 * gl) 80).mem) ∧
  (∀ (s : State) c gl sc, let n := s.home ((s.l1 c gl).addr gl)
    (s.l1 c gl).held = some sc → s.sliceUp n = true → (s.slice n).records.get? gl = none → (s.slice n).records.length < 2048 →
    (s.slice n).monitors.has gl = false →
    s.Completes (.recordRegister c gl) fun t => (t.l1 c gl).held = none ∧ (t.slice n).records.get? gl = some [⟨c, sc, (s.slice n).recNo + 1⟩] ∧
      (t.slice n).recNo = (s.slice n).recNo + 1 ∧ t.mem = s.mem) ∧
  (∀ (s : State) n c d, ((s.core c).drains.find? fun d => d.slice == n) = some d → (∀ gl ∈ d.lines, (s.l1 c gl).held = none) →
    s.Completes (.drainComplete n c) fun t => (t.core c).drains = (s.core c).drains.erase d ∧ (∀ gl ∈ d.lines, (t.l1 c gl).dirty = []) ∧
      ∀ gl l, (t.slice n).records.get? gl = some l → ∀ k ∈ l, ¬(k.core = c ∧ k.no ≤ d.upTo)) ∧
  (∀ (s : State) w n seq p (r : Req) a (b : Nat → Byte), let x := s.thread w n
    let c := (s.wg w).core
    x.prod? seq = some p → p.work = .load r [] → r.atHome = false → r.xs = false → r.uni = none → 0 < r.size → r.va % 128 + r.size ≤ 128 →
    s.split (s.wg w).ctx r.va r.size = [(r.va, 0, r.size)] →
    (s.together w p.born fun q => match q with
      | .load r' _ => r'.near == r.near && r'.svc == r.svc
      | _ => false) = [(n, p)] → x.earlier (s.ctx (s.wg w).ctx) p.seq r.va r.size = false → (s.core c).siding = [] →
    (s.ctx (s.wg w).ctx).resolve .rd (128 * (r.va / 128)) = some a →
    (∀ i, i < r.size → s.l1Byte c (128 * lineOf a.gia + (r.va + i) % 128) = some (b i)) →
    s.Completes (.translateRequest w n seq) fun t => s.ThreadSet t w n (x.setWork p.seq
      (.done (loadWords r.size r.sgn (ofBytes ((List.range r.size).map b))) (loadIv r.size r.sgn) true))) ∧
  (∀ (s : State) w n seq p (r : Req) s1 (d : Nat → Byte), let x := s.thread w n
    let g := s.wg w
    x.prod? seq = some p → p.work = .load r [] → r.atHome = true → r.xs = false → r.uni = none → 0 < r.size → r.va % 128 + r.size ≤ 128 →
    s.split (s.wg w).ctx r.va r.size = [(r.va, 0, r.size)] →
    (s.together w p.born fun q => match q with
      | .load r' _ => r'.near == r.near && r'.svc == r.svc
      | _ => false) = [(n, p)] →
    (s.together w p.born fun q => match q with
      | .load r' _ => r'.va / 128 == r.va / 128
      | _ => false) = [(n, p)] → x.earlier (s.ctx g.ctx) p.seq r.va r.size = false → (∀ k, (s.core k).siding = []) → (∀ k, (s1.core k).siding = []) →
    (∀ a, (s.ctx g.ctx).resolve .rd (128 * (r.va / 128)) = some a →
      s.orderCover (s.home a) (lineOf a.gia) g.core ⟨r.order, r.scope⟩ r.remote (w, n, some p.seq) = none) →
    s.readCoherent g.core g.ctx (128 * (r.va / 128)) r.near = .bytes s1 d →
    exec (.acquireAtHome w n seq) s = .next (((s1.late g.core g.kernel p.born r.svc).setThread w n fun y => y.setWork p.seq
      (.done (loadWords r.size r.sgn (ofBytes ((List.range r.size).map fun i => d ((r.va + i) % 128)))) (loadIv r.size r.sgn) true)).acquire
        g.core r.scope)) ∧
  (∀ (s : State) c id e s1, ((s.core c).siding.find? fun e => e.id == id) = some e → e.state = .grant →
    s.ask e.ctx c e.addr .wr e.near true false false = .go s1 →
    exec (.grantRequest c id) s = .next ((s1.addGrant c ⟨(s1.pageOf e.gia).1, e.ctx, s1.isFar e.gia⟩).sideTo c id .replay)) ∧
  (∀ (s : State) c id e gr, ((s.core c).siding.find? fun e => e.id == id) = some e → e.state = .replay →
    (((s.core c).siding.find? fun f => f.wid == e.wid && f.t == e.t).map Side.id = some id) → s.fetching e.wid e.t (lineOf e.gia) (e.marks.headD 0) = false →
    s.sideBlocked c e = false → s.grantOf c e.ctx e.gia = some gr → (e.near && gr.far) = false → e.red = none → e.rel = none →
    (e.bytes.map Prod.fst).Nodup → e.bytes ≠ [] →
    s.Completes (.sidingReplay c id) fun t => (t.core c).siding = (s.core c).siding.filter (fun f => f.id != id) ∧ t.mem = s.mem ∧
      ∀ j, (t.l1 c (lineOf e.gia)).cells.get? j = match e.bytes.get? j with
        | some b => some ⟨b, true⟩
        | none => (s.l1 c (lineOf e.gia)).cells.get? j) ∧
  (∀ (s : State) w n seq p r a recd s1 old, let x := s.thread w n
    let g := s.wg w
    x.prod? seq = some p → p.work = .atom r a recd → p.tgt ≠ none → g.ended = false → (s1.wg w).ended = false →
    (s.together w p.born fun q => match q with
      | .atom r' _ _ => r'.va / 128 == r.va / 128
      | _ => false) = [(n, p)] → s.atomBlocked w (n, p) = false →
    s.atomLine g.core g.ctx r.va r.near ⟨r.order, r.scope⟩ r.remote recd [(r.va, a)] (w, n, some p.seq) = .done s1 [old] →
    exec (.atomicPerform w n seq) s = .next (((s1.late g.core g.kernel p.born r.svc).setThread w n fun y =>
      y.setWork p.seq (.done (wordList old (r.size / 4)) full true)).atomAcquire w p.born r)) ∧
  (∀ (s : State) c ctx va near remote recd (a : AtomReq) who ga s1 pa, (s.ctx ctx).resolve .wr va = some ga → s.draining who = false →
    (∀ p t, s.translate ctx ga .wr near true = .ok p t → t = 0) → s.ask ctx c ga .wr near true false false = .go s1 →
    s1.isPoison (lineOf ga.gia) = false → s1.lineAddr (lineOf ga.gia) = some pa → peerOf ga.gia = 0 →
    s1.reachable (128 * lineOf ga.gia) = true → s1.via ga = s1 → (s1.dirOf (lineOf ga.gia)).state = .i →
    (s1.dirOf (lineOf ga.gia)).busy = false → (∀ q ∈ s1.dirQueue, q.line ≠ lineOf ga.gia) → s1.l1 c (lineOf ga.gia) = .zero →
    va % 128 + nBytes a.size ≤ 128 →
    let n := nBytes a.size
    let at_ := pa + va % 128
    let old := Memory.readLE s1.mem at_ n
    ∃ t, s.atomLine c ctx va near .relaxed remote recd [(va, a)] who = .done t [old] ∧ ∀ x, Memory.read t.mem x = match a.new old with
      | some v => if at_ ≤ x ∧ x < at_ + n then (bytesOf v n).getD (x - at_) 0 else Memory.read s1.mem x
      | none => Memory.read s1.mem x) ∧
  (∀ (s : State) w n o sc remote, (o = .rel ∨ o = .acqrel) → 2 ≤ scopeRank sc → (s.thread w n).hold = .fence o sc remote 0 →
    s.releaseReady w n true = true →
    exec (.eagerDrainComplete w n) s =
      .next ((s.drainCore (s.wg w).core).setThread w n fun x => { x with hold := .fence o sc remote 1 })) ∧
  (∀ (s : State) w n o sc, s.wgs.has w = true → (s.thread w n).hold = .fence o sc true 2 → (∀ e ∈ s.cores, e.2.drains = []) →
    s.Completes (.remotePromotion w n) fun t => s.ThreadSet t w n { s.thread w n with hold := .fence o sc true 3 }) ∧
  (∀ (s : State) w n o sc, s.wgs.has w = true → (s.thread w n).hold = .fence o sc true 1 →
    (∀ p ∈ (s.thread w n).prods, p.work.isAccess = false) → s.ticketsOut w n = false →
    (∀ e ∈ s.slices, e.2.records = []) → (∀ e ∈ s.cores, e.2.drains = []) →
    s.Completes (.remotePromotion w n) fun t => s.ThreadSet t w n { s.thread w n with hold := .fence o sc true 3 }) ∧
  (∀ (s : State) w n r cond b d k till st next pg o, (s.thread w n).hold = .waita r cond b d k till st false next pg o → next ≤ s.clk →
    exec (.waitaPoll w n) s = .next (s.waitRead w n)) ∧
  (∀ (s : State) w n r cond b d k q st mon next pg o, (s.thread w n).hold = .waita r cond b d k (some q) st mon next pg o → q ≤ s.clk →
    exec (.waitaTimeout w n) s = .next (s.waitRead w n)) ∧
  (∀ (s : State) w n r cond b d k till st mon next pg o s1 (e : Nat → Byte), let x := s.thread w n
    let g := s.wg w
    let v := ofBytes ((List.range r.size).map fun i => e ((r.va + i) % 128))
    let due := ∃ q, till = some q ∧ q ≤ s1.clk
    x.hold = .waita r cond b d k till st mon next pg o → r.order = .none → r.got = [] → 0 < r.size → r.va % 128 + r.size ≤ 128 →
    s.split g.ctx r.va r.size = [(r.va, 0, r.size)] → x.busyAt (s.ctx g.ctx) r.va r.size = false → s.draining (w, n, none) = false →
    (∀ c, (s.core c).siding = []) → (∀ c, (s1.core c).siding = []) → s.readCoherent g.core g.ctx r.va r.near = .bytes s1 e →
    (waitHolds cond r.size v b = true ∨ due) →
    s.waitRead w n = ((s1.late g.core g.kernel (if mon then s.clk else next) r.svc).setThread w n fun y => y.waitEnd d k (some v) st (waitHolds cond r.size v b) o.len).unmonitor (· == (w, n))) ∧
  (∀ (s : State) n pg m, ((s.slice n).misses.find? fun m => m.page == pg) = some m → s.waiters (· == pg) ≠ [] → m.dropped = true →
    m.posted + 110000 ≤ s.clk →
    let s1 := s.post m.ctx m.kind m.info pg
    exec (.pageMissRepost n pg) s = .next (s1.setSlice n fun x => { x with misses := listSet x.misses (fun m => m.page == pg) fun m =>
      { m with dropped := (s1.ctx m.ctx).evLost != (s.ctx m.ctx).evLost, posted := s.clk } }))

/-! ## The interchange directory (spec/13_line.md R350 to R358) -/

/-- R121, R351, R352, R354, R355, R357, R507: what each event of the directory does to the entry of its line and to the copies: RD takes the line
EXCLUSIVE or joins the SHARED holders; RDX makes its agent the owner of a MODIFIED line and drops the others; WB leaves the ways for the write-back
buffer, and from there goes home when its version is the entry's, or stays while an open forward needs it; DROP leaves the map, and with the last
holder the entry goes; a home-side read of a visited line makes the line SHARED without an owner, a home-side write ends the entry; a request that
cannot be taken waits in the queue of its half, or tries again 64 clk later, and a queued one is served when it can be taken. That a transaction is
one step, but for the acknowledgement of a forward, is the model's choice (notes/assumptions/27.md), and so are the versions and the copies of
agents outside the device (notes/assumptions/18.md). The host's accesses act so at a line's home; that its snoop acts as HOMER or HOMEW is the
model's reading (notes/assumptions/45.md). Of the launch window's range they reach the first 4 MiB, the rest reads zero and ignores writes. -/
def Obligations.DirectoryEvents : Prop :=
  (∀ (s : State) v gl s1, s.peerWakes v = s → s.visits v gl = true → (s.dirOf gl).busy = false → (∀ q ∈ s.dirQueue, q.line ≠ gl) → (s.dirOf gl).state = .i →
    s.allocDir gl = some s1 →
    let e := s1.dirOf gl
    s.Completes (.dirRd v gl) fun t => t.mem = s1.mem ∧
      t.dirOf gl = { e.setAgents [v] with state := .e, owner := some (agentOf v), ver := (e.ver + 1) % 65536 } ∧
      (v < 64 → (t.slice v).visitors.get? gl = some { data := lineMap (s1.homeLine gl), dirty := false, ver := (e.ver + 1) % 65536 })) ∧
  (∀ (s : State) v gl, let e := s.dirOf gl
    s.peerWakes v = s → s.visits v gl = true → e.busy = false → (∀ q ∈ s.dirQueue, q.line ≠ gl) → e.state = .s →
    s.Completes (.dirRd v gl) fun t => t.mem = s.mem ∧ t.dirOf gl = { e.setAgents (dedup (e.agents ++ [v])) with used := s.dirUse } ∧
      (v < 64 → (t.slice v).visitors.get? gl = some { data := lineMap (s.homeLine gl), dirty := false, ver := e.ver })) ∧
  (∀ (s : State) v gl, let e := s.dirOf gl
    s.peerWakes v = s → s.visits v gl = true → e.busy = false → (∀ q ∈ s.dirQueue, q.line ≠ gl) → e.state = .s →
    s.Completes (.dirRdx v gl) fun t => t.mem = s.mem ∧
      t.dirOf gl = { e.setAgents [v] with state := .m, owner := some (agentOf v), ver := (e.ver + 1) % 65536, used := s.dirUse } ∧
      (∃ x, (t.slice v).visitors.get? gl = some x ∧ x.dirty = true ∧ x.ver = (e.ver + 1) % 65536 ∧
        (v < 64 → x.data = (match if e.agents.contains v then (s.slice v).visitors.get? gl else none with
          | some c => c.data
          | none => lineMap (s.homeLine gl)))) ∧
      ∀ n ∈ e.agents, n ≠ v → t.visitor n gl = none) ∧
  (∀ (s : State) rdx v gl, let q : DirReq := ⟨rdx, v, gl⟩
    let i : Instr := if rdx then .dirRdx v gl else .dirRd v gl
    s.peerWakes v = s → s.visits v gl = true → ((s.dirOf gl).busy = true ∨ ∃ r ∈ s.dirQueue, r.line = gl) →
    exec i s = .next (if (s.dirQueue.filter fun r => r.line % 2 == gl % 2).length < 4096 then { s with dirQueue := s.dirQueue ++ [q] }
      else { s with dirRetry := s.dirRetry ++ [(q, s.clk + 64)] })) ∧
  (∀ (s : State) v gl c, (s.slice v).visitors.get? gl = some c → c.dirty = true →
    s.Completes (.dirWb v gl) fun t => t.mem = s.mem ∧ t.dir = s.dir ∧ (t.slice v).visitors.get? gl = none ∧
      (t.slice v).wbuf.get? gl = some c) ∧
  (∀ (s : State) v gl c pa, let e := s.dirOf gl
    (s.slice v).visitors.get? gl = none → (s.slice v).wbuf.get? gl = some c → e.state = .m → e.busy = false → e.owner = some (agentOf v) →
    c.ver = e.ver → s.reachable (128 * gl) = true → s.lineAddr gl = some pa → s.isPoison gl = false → (c.data.map Prod.fst).Nodup →
    s.Completes (.dirWb v gl) fun t => t.dir.get? gl = none ∧ t.visitor v gl = none ∧
      (∀ j b, c.data.get? j = some b → Memory.read t.mem (pa + j) = b) ∧
      ∀ a, (∀ j b, c.data.get? j = some b → a ≠ pa + j) → Memory.read t.mem a = Memory.read s.mem a) ∧
  (∀ (s : State) v gl c, let e := s.dirOf gl
    (s.slice v).visitors.get? gl = none → (s.slice v).wbuf.get? gl = some c → e.state = .m → e.owner ≠ some (agentOf v) →
    (e.busy = true → exec (.dirWb v gl) s = .next s) ∧
    (e.busy = false → s.Completes (.dirWb v gl) fun t => t.mem = s.mem ∧ t.dir = s.dir ∧ (t.slice v).wbuf.get? gl = none)) ∧
  (∀ (s : State) gl, let e := s.dirOf gl
    let t := s.dirClose gl
    e.busy = true → (t.dirOf gl).busy = false ∧ t.mem = s.mem ∧
      ∀ n, t.slices.get? n = (s.slices.get? n).map fun x => if e.agents.contains n then x else { x with wbuf := x.wbuf.erase gl }) ∧
  (∀ (s : State) v gl c, let e := s.dirOf gl
    let rest := e.agents.filter (· != v)
    s.visitor v gl = some c → c.dirty = false → e.busy = false → e.state = .s →
    s.Completes (.dirDrop v gl) fun t => t.mem = s.mem ∧ t.visitor v gl = none ∧
      (if rest = [] then t.dir.get? gl = none else t.dirOf gl = e.setAgents rest)) ∧
  (∀ (s : State) gl, let e := s.dirOf gl
    s.visited gl = true → e.busy = false → (∀ q ∈ s.dirQueue, q.line ≠ gl) →
    (e.state = .e ∨ e.state = .m ∨ e.state = .o →
      s.Completes (.dirHomeR gl) fun t => t.dirOf gl = { e with state := .s, owner := none, ver := (e.ver + 1) % 65536 }) ∧
    (e.state = .i ∨ e.state = .s → s.peerHome gl = none → exec (.dirHomeR gl) s = .next s) ∧
    (e.state ≠ .i → s.Completes (.dirHomeW gl) fun t => t.dir.get? gl = none ∧ ∀ n ∈ e.agents, t.visitor n gl = none)) ∧
  (∀ (s : State) gl, s.visited gl = false → exec (.dirHomeW gl) s = .next s ∧ (s.peerHome gl = none → exec (.dirHomeR gl) s = .next s)) ∧
  (∀ (s : State) half q, let s1 := ((s.dir.filter fun e => e.1 % 2 == half && e.2.busy).map Prod.fst).foldl State.dirClose s
    (s1.dirQueue.find? fun q => q.line % 2 == half && s1.dirTakes q.line) = some q →
    exec (.dirQueueRetry half) s = .next ({ s1 with dirQueue := s1.dirQueue.erase q }.dirServe q)) ∧
  (∀ (s : State) off bytes, s.regs.hlCxl = true → s.inRecovery = false →
    s.Completes (.hostDeviceAccess (.window off) (.write bytes)) fun t => ∀ a, Memory.read t.mem a =
      if 2 ^ 59 + off ≤ a ∧ a < 2 ^ 59 + off + bytes.length ∧ a < 2 ^ 59 + 2 ^ 22 then bytes.getD (a - (2 ^ 59 + off)) 0
      else Memory.read s.mem a) ∧
  (∀ (s : State) off bytes n, (2 ^ 22 ≤ off → exec (.hostDeviceAccess (.window off) (.write bytes)) s = .next s) ∧
    exec (.hostDeviceAccess (.window off) (.read n)) s = .next s ∧
    ∀ i, i < n → (s.windowRead off n).getD i 0 = if off + i < 2 ^ 22 then Memory.read s.mem (2 ^ 59 + off + i) else 0) ∧
  (∀ (s : State) ia ilv set (bytes : List Byte), s.regs.hlCxl = true → s.inRecovery = false → bytes ≠ [] → ia % 128 + bytes.length ≤ 128 →
    s.answers ⟨ia, ilv, set⟩ = true → s.via ⟨ia, ilv, set⟩ = s →
    exec (.hostDeviceAccess (.mem ia ilv set) (.write bytes)) s = .next (((s.homeW (lineOf ia)).putHome (lineOf ia) none
      ((List.range bytes.length).map fun i => (ia % 128 + i, bytes.getD i 0))).countPte ia 80)) ∧
  (∀ (s : State) ia ilv set n, s.regs.hlCxl = true → s.inRecovery = false → 0 < n → ia % 128 + n ≤ 128 → s.answers ⟨ia, ilv, set⟩ = true →
    s.via ⟨ia, ilv, set⟩ = s → exec (.hostDeviceAccess (.mem ia ilv set) (.read n)) s = .next ((s.homeR (lineOf ia)).countPte ia 80)) ∧
  (∀ (s : State) gl excl pa, s.regs.hlCxl = true → s.lineAddr gl = some pa → hostPa 0 ≤ pa → pa < peerPa 1 0 →
    exec (.hostSnoop ⟨gl, excl⟩) s = .next (if excl then s.homeW gl else s.homeR gl))

/-! ## Tickets at their slices, and the engines (spec/11_ticket.md, spec/14_tile.md, spec/15_transfer.md) -/

/-- R294, R295, R296, R300, R304 to R306, R310: the events of the ticket table. An allocation takes a free entry, PENDING with its lines to read,
and answers a ticket of the entry; one that finds the table full answers 0, or waits in the order of arrival. A line is read in its single-copy
atomic pieces, one a step, in an order of the model's choice (notes/assumptions/8.md), and so is which entry never used is taken first
(notes/assumptions/17.md); with the last piece of the last line the entry is READY, with the status and poison of its reads. A redeem takes it
REDEEMING, or fails; the delivery gives the bytes and frees the entry with the next generation; a drop frees a READY entry and orphans a PENDING
one; the age scan orphans what is too old and counts it, where no redeem is on its way to it. -/
def Obligations.TicketEvents : Prop :=
  (∀ (s : State) w n seq p (r : Req) lines try_ o a e s2, let x := s.thread w n
    let g := s.wg w
    let k := s.home a
    x.prod? seq = some p → p.work = .ticket r lines try_ o → p.tgt ≠ none → g.ended = false →
    (s.ctx g.ctx).resolve .rd r.va = some a → s.blockBusy w n seq r.va (128 * lines) a = false → s.sliceUp k = true →
    ((w, n, seq) ∉ (s.slice k).waiting ∨ (s.slice k).waiting.head? = some (w, n, seq)) →
    (∀ i, i < lines → (s.l1 g.core (lineOf a.gia + i)).dirty = [] ∧ (s.l1 g.core (lineOf a.gia + i)).held = none) →
    s.allocTicket k g.ctx lines a r.near r.svc g.core g.kernel w n p.born = some (e, s2) →
    s.Completes (.ticketAlloc w n seq) fun t =>
      t.thread w n = x.setWork seq (.done (wordList (makeTicket (s.ctx g.ctx).secret k e (t.ticket k e).gen.toNat g.ctx lines).toNat 2) full true) ∧
      (t.ticket k e).state = .pending ∧ (t.ticket k e).lines = lines ∧ (t.ticket k e).ctx = g.ctx ∧ (t.ticket k e).inflight = true ∧
      (t.ticket k e).left = List.range lines ∧ (t.ticket k e).got = [] ∧ t.mem = s.mem) ∧
  (∀ (s : State) w n seq p (r : Req) lines o a, let x := s.thread w n
    let g := s.wg w
    let k := s.home a
    x.prod? seq = some p → p.work = .ticket r lines true o → p.tgt ≠ none → g.ended = false →
    (s.ctx g.ctx).resolve .rd r.va = some a → s.blockBusy w n seq r.va (128 * lines) a = false → s.sliceUp k = true →
    ((w, n, seq) ∉ (s.slice k).waiting ∨ (s.slice k).waiting.head? = some (w, n, seq)) →
    (∀ i, i < lines → (s.l1 g.core (lineOf a.gia + i)).dirty = [] ∧ (s.l1 g.core (lineOf a.gia + i)).held = none) →
    s.allocTicket k g.ctx lines a r.near r.svc g.core g.kernel w n p.born = none →
    s.Completes (.ticketAlloc w n seq) fun t => t.thread w n = x.setWork seq (.done [0, 0] full false) ∧ t.slices = s.slices) ∧
  (∀ (s : State) w n seq p (r : Req) lines o a, let x := s.thread w n
    let g := s.wg w
    let k := s.home a
    x.prod? seq = some p → p.work = .ticket r lines false o → g.ended = false →
    (s.ctx g.ctx).resolve .rd r.va = some a → s.blockBusy w n seq r.va (128 * lines) a = false → s.sliceUp k = true →
    (w, n, seq) ∉ (s.slice k).waiting →
    (∀ i, i < lines → (s.l1 g.core (lineOf a.gia + i)).dirty = [] ∧ (s.l1 g.core (lineOf a.gia + i)).held = none) →
    s.allocTicket k g.ctx lines a r.near r.svc g.core g.kernel w n p.born = none →
    s.Completes (.ticketAlloc w n seq) fun t => (t.slice k).waiting = (s.slice k).waiting ++ [(w, n, seq)] ∧ (t.slice k).tickets = (s.slice k).tickets ∧
      t.thread w n = x.setWork seq (.ticket { r with queued := true } lines false o) ∧ t.mem = s.mem) ∧
  (∀ (s : State) n e, (s.ticket n e).inflight = true → (s.ticket n e).left = [] → (s.ticket n e).state = .pending →
    s.Completes (.ticketServiced n e) fun t => t.ticket n e =
        { s.ticket n e with state := .ready, inflight := false, svc := (s.ticket n e).svcNew, poison := (s.ticket n e).poisonNew, ready := s.clk } ∧
      t.mem = s.mem ∧ t.wgs = s.wgs) ∧
  (∀ (s : State) n e j s1, let k := s.ticket n e
    k.inflight = true → k.left = [j] → k.state = .pending → s.ask k.ctx k.core (k.addr j) .rd k.near false false true = .go s1 →
    s1.isPoison (lineOf (k.addr j).gia) = false → s1.ticket n e = k →
    let u := atomUnit (s.tierOf (k.addr j).gia)
    let rest := (s1.linePieces k j).filter fun o => !k.got.contains o
    let reads := fun (t : State) (s2 : State) (o : Nat) => ∀ b, (t.ticket n e).data.get? b =
      if o ≤ b ∧ b < o + u then some (((s2.readHome (k.addr j)).homeLine (lineOf (k.addr j).gia)).getD (b % 128) 0) else k.data.get? b
    (∀ o, rest = [o] → s.Completes (.ticketServiced n e) fun t => (t.ticket n e).state = .ready ∧ (t.ticket n e).inflight = false ∧
      (t.ticket n e).svc = k.svcNew ∧ (t.ticket n e).poison = k.poisonNew ∧ reads t s1 o) ∧
    (2 ≤ rest.length → s.Completes (.ticketServiced n e) fun t => ∃ o ∈ rest, (t.ticket n e).got = k.got ++ [o] ∧ (t.ticket n e).left = [j] ∧
      (t.ticket n e).state = .pending ∧ (t.ticket n e).inflight = true ∧ reads t (s1.pick rest.length).2 o)) ∧
  (∀ (s : State) (k : Ticket) j i, (s.linePieces k j).length = 128 / atomUnit (s.tierOf (k.addr j).gia) ∧
    (i < 128 / atomUnit (s.tierOf (k.addr j).gia) → (s.linePieces k j).getD i 0 = 128 * j + atomUnit (s.tierOf (k.addr j).gia) * i)) ∧
  (∀ (s : State) w n r, s.wgs.has w = true → (s.thread w n).hold = .redeem r → r.acc = false → r.rds = none → s.redeemers w n r = [(n, r)] →
    s.ticketCode (s.wg w).ctx r.tkt = 0 →
    s.Completes (.ticketRedeem w n) fun t => t.thread w n = { s.thread w n with hold := .redeem { r with acc := true } } ∧
      t.ticket (Tkt.slice r.tkt) (Tkt.entry r.tkt) =
        { s.ticket (Tkt.slice r.tkt) (Tkt.entry r.tkt) with state := .redeeming, redeemer := some ((s.wg w).core, w, n) }) ∧
  (∀ (s : State) w n r, let c := s.ticketCode (s.wg w).ctx r.tkt
    (s.thread w n).hold = .redeem r → r.acc = false → r.rds = none → s.redeemers w n r = [(n, r)] → c ≠ 0 →
    exec (.ticketRedeem w n) s = .next (s.rdvEnd w n r ⟨0, false, some (Cause.tkt, c, r.tkt.toNat)⟩)) ∧
  (∀ (s : State) n e w l r, let k := s.ticket n e
    k.state = .redeeming → k.inflight = false → k.byCmd = none → s.awaiting n e = [(w, l, r)] → k.svc = 0 →
    k.poison.getLsbD (r.off / 128) = false →
    exec (.ticketDelivered n e) s = .next ((s.rdvEnd w l r
      ⟨ofBytes ((List.range (nBytes r.size)).map fun i => k.data.getD (r.off + i) 0), true, none⟩).freeTicket n e)) ∧
  (∀ (s : State) n e, (s.freeTicket n e).ticket n e = { s.ticket n e with
      state := .free, rekeyed := false, dropped := false, inflight := false, gen := (s.ticket n e).gen + 1, data := [], wait := none, left := [],
      got := [], freedAt := (s.slice n).freeNo + 1, redeemer := none, byCmd := none }) ∧
  (∀ (s : State) w n seq p tk, let k := s.ticket (Tkt.slice tk) (Tkt.entry tk)
    (s.thread w n).prod? seq = some p → p.work = .drop tk → s.ticketCode (s.wg w).ctx tk = 0 → (k.state = .ready ∨ k.state = .pending) →
    s.Completes (.ticketDropEvent w n seq) fun t => let k' := t.ticket (Tkt.slice tk) (Tkt.entry tk)
      (k.state = .ready → k'.state = .free ∧ k'.gen = k.gen + 1) ∧ (k.state = .pending → k' = { k with state := .orphaned, dropped := true }) ∧
      t.mem = s.mem) ∧
  (∀ (s : State) n e k, (s.slice n).tickets = [(e, k)] → k.state = .pending ∨ k.state = .ready →
    (∀ w ∈ s.wgs, ∀ u ∈ w.2.live, ∀ r, (s.thread w.1 u).hold = .redeem r → r.acc = true ∨ Tkt.slice r.tkt ≠ n) →
    (s.ctx k.ctx).ageLimit * 1100 ≤ s.clk - k.alloc →
    s.Completes (.ticketAgeScan n) fun t => (t.ticket n e).state = .orphaned ∧ (t.slice n).lastScan = s.clk ∧
      (t.ctx k.ctx).orphans = ((s.ctx k.ctx).orphans + 1) % 2 ^ 32)

/-- R86, R374, R376, R382, R383, R391, R394, R409, R411, R425, R335: the steps of the engines. The command at the front of the transfer queue starts
when its first range is free and fewer than 8 run, prefetches apart; its movement, `Mov.run`, is done when all its ranges are free and the earlier
accesses of its thread are over, after the dirty bytes of its core have gone to the coherent level. One that is over leaves the tables and its
queue, and its status word, bit 31 with the cause and the units, is written. A page of `XFER.PAGEIN` is looked at. The matrix engine starts the
command at its head, `State.runMat`, and ends it; a party of a multicast that waits 65,536 clk ends with cause 0x47. That a movement, and all blocks
of a matrix command, are done in one step is the model's choice (notes/assumptions/33.md). A workgroup whose threads are parked is watched for 1,024
clk. A codebook that was read lets its waiters go on. -/
def Obligations.EngineEvents : Prop :=
  (∀ (s : State) k c, (s.core k).nextCmd = some c → ((s.core k).xq.filter fun d => d.started && !d.isPrefetch).length < 8 →
    s.firstBlocked c = false → (waitsEmpty c.instr = true → s.granulesEmpty c.id = true) →
    let s1 := (s.setCmd k c.id fun d => { d with started := true, begun := s.clk }).setWg c.wid fun g => { g with engStuck := none }
    exec (.xferStart k) s = .next (if moveOf c.instr = .pagein ∨ moveOf c.instr = .rds ∨ moveOf c.instr = .page ∨
        s.cmdWaits c = true then s1
      else s1.tryMove k { c with started := true, begun := s.clk })) ∧
  (∀ (s : State) k c m, let s0 := ((s.globalOf k c.id).map fun l => s.l1Lines k c.ctx l.lo l.hi).flatten.foldl (fun s gl => s.writeBack k gl) s
    ({ s := s0, causes := [], units := 0, miss := none } : Mov).run k c = m → m.miss = none →
    s.tryMove k c = m.s.setCmd k c.id fun d => { d with moved := true, cause := (lowest m.causes).getD 0, info := m.units, wait := none }) ∧
  (∀ (s : State) k id c, ((s.core k).xq.find? fun d => d.id == id) = some c → c.started = true → c.moved = true →
    moveOf c.instr ≠ .pagein → moveOf c.instr ≠ .page →
    exec (.xferComplete k id) s = .next (s.endXfer k c)) ∧
  (∀ (s : State) k c, c.wid ∉ s.wgs.keys ∨ (s.wg c.wid).ended = false →
    let t := s.endXfer k c
    (t.core k).xq = (s.core k).xq.filter (fun d => d.id != c.id) ∧ (∀ q, (t.core q).locks = (s.core q).locks.filter fun l => l.cmd != c.id) ∧
      t.mem = s.mem ∧
      ∀ p, (s.thread c.wid c.t).prod? c.seq = some p → p.work = .engine → c.isPrefetch = false →
        t.thread c.wid c.t = (s.thread c.wid c.t).land p [.ofNat 32 (2 ^ 31 + c.cause * 2 ^ 24 + c.info % 2 ^ 24)] full (c.cause == 0)) ∧
  (∀ (s : State) k id c s1 span bad, ((s.core k).xq.find? fun d => d.id == id) = some c → c.started = true → moveOf c.instr = .pagein →
    c.pagesDone = false → s.ordered c = true → s.pageIn c (c.args.getD 0 0) = (s1, span, bad) →
    exec (.pageMigrate k id) s = .next (s1.setCmd k id fun d =>
      { d with args := [c.args.getD 0 0 + span], cause := if bad = [] then d.cause else 0x66, info := d.info + (if s1 = s then 0 else 1) })) ∧
  (∀ (s : State) k c, s.matHead k = some c → (s.core k).mcast = none → isSender c.instr = false → isReceiver c.instr = false →
    exec (.mmaStart k) s = .next (s.runMat k c c)) ∧
  (∀ (s : State) k c s1 n bad, (∃ g d x a b mc, c.instr = .mma g d x a b mc) → s.runMma c c = (s1, n, bad) →
    s.runMat k c c = ({ s1 with freeCtr := s1.freeCtr + 256 } : State).setCmd k c.id fun d =>
      { d with started := true, moved := true, begun := s1.clk, cause := if bad then 0x4A else 0, info := n, vals := [] }) ∧
  (∀ (s : State) k c rest, (s.core k).mq = c :: rest → c.started = true →
    exec (.mmaComplete k) s = .next ((s.finishCmd k c (.ofNat 32 (2 ^ 31 + c.cause * 2 ^ 24 + c.info % 2 ^ 24) :: c.vals) true).setCore k
      fun x => { x with mcast := none })) ∧
  (∀ (s : State) k c since, s.matHead k = some c → (s.core k).mcast = some since → since + 65536 ≤ s.clk → isSender c.instr = false →
    exec (.multicastTimeout k) s = .next ((s.finishCmd k c (.ofNat 32 (2 ^ 31 + 0x47 * 2 ^ 24 + c.info % 2 ^ 24) :: c.vals) true).setCore k
      fun x => { x with mcast := none })) ∧
  (∀ (s : State) k c w, s.wgs.keys = [w] → ((s.core k).xq.find? fun d => !d.started && !d.isPrefetch) = some c →
    waitsEmpty c.instr = true → (s.granuleWgs c.id).contains w = true → ((s.wg w).live.any (s.parked w)) = true →
    (∀ n ∈ (s.wg w).live, s.parked w n = true ∨ (s.thread w n).answered = true) →
    ((s.wg w).engStuck = none →
      exec (.engineDeadlock k) s = .next (s.setWg w fun g => { g with engStuck := some s.clk })) ∧
    (∀ since, (s.wg w).engStuck = some since → since + 1024 ≤ s.clk → (∀ n ∈ (s.wg w).live, (s.thread w n).last < since) →
      exec (.engineDeadlock k) s = .next (s.engTrap w))) ∧
  (∀ (s : State) k h slot w n mat start o s1 l, s.bookWaiters k h slot = [(w, n)] → (s.thread w n).hold = .codebook slot mat start none o →
    s.readBook k (s.kern h).ctx (Krec.codebook (s.kern h).krec slot) = .bytes s1 l →
    exec (.codebookRead k h slot) s = .next (((s1.setCore k fun c => { c with books := c.books ++ [(h, slot, l)] }).bookLate k h start mat).setThread
      w n fun x => { x with hold := .none }))

/-- R398 to R408, R411, R466: the bytes that a movement copies. A read of global memory gives the bytes of the line's home, or zeros with the cause
that the access meets, marked where they are unusable; a write changes the bytes of the home's frame that it names and no others; a tile row is
written in whole granules, which it sets full, and a granule that an unusable byte feeds stays. A row from memory holds the elements in range and
zeros otherwise, padded with zeros; a row to memory writes the elements in range. `XFER` and `XFER.MCAST` move the box's rows, `XFER.GATH` and
`XFER.SCAT` the rows that the index list names, `XFER.IM2C` patches, `XFER.UNPK` and `XFER.PACK` chunks of 128 elements, and `XFER.PREF` asks for
lines. -/
def Obligations.MoveEffects : Prop :=
  (∀ (m : Mov) core (c : Cmd) va n, m.miss = none → 0 < n → va % 128 + n ≤ 128 →
    let rd := m.read core c va n
    let none_ := List.replicate n ((0 : Byte), false)
    ((m.s.ctx c.ctx).resolve .rd va = none → rd = (m.cause 0x66, none_)) ∧
    (∀ a, (m.s.ctx c.ctx).resolve .rd va = some a → a.gia % 128 = va % 128 →
      let q := m.s.ask c.ctx core a .rd (Tl.near c.record) false true false
      (q = .fail → rd = (m.cause 0x66, none_)) ∧
      (∀ s1, q = .tier s1 → rd = (({ m with s := s1 } : Mov).cause 0x67, none_)) ∧
      (q = .dead → rd = (m.cause 0x69, List.replicate n (0, true))) ∧
      (∀ s1 pg, q = .wait s1 pg → pg ∉ c.bad → rd.1 = { m with miss := some (a, .rd) }) ∧
      (∀ s1, q = .go s1 → let s2 := s1.lateX c core
        (s2.isPoison (lineOf a.gia) = true → rd = (({ m with s := s2 } : Mov).cause 0x69, List.replicate n (0, true))) ∧
        (s2.isPoison (lineOf a.gia) = false → rd = ({ m with s := s2.readHome a },
          (List.range n).map fun i => (((s2.readHome a).homeLine (lineOf a.gia)).getD (va % 128 + i) 0, false)))))) ∧
  (∀ (m : Mov) core (c : Cmd) va (b : List Byte) a s1 pa, m.miss = none → b ≠ [] → va % 128 + b.length ≤ 128 →
    (m.s.ctx c.ctx).resolve .wr va = some a → a.gia % 128 = va % 128 → m.s.ask c.ctx core a .wr (Tl.near c.record) true true false = .go s1 →
    let s2 := s1.lateX c core
    let gl := lineOf a.gia
    s2.via a = s2 → s2.visited gl = false → s2.lineAddr gl = some pa → s2.reachable (128 * gl) = true → s2.isPoison gl = false →
    let w := m.write core c va (b.map fun x => (255, x.toNat))
    w.2 = List.replicate b.length true ∧ w.1.causes = m.causes ∧ w.1.units = m.units ∧ w.1.miss = none ∧
      ∀ x, Memory.read w.1.s.mem x = if pa + va % 128 ≤ x ∧ x < pa + va % 128 + b.length then b.getD (x - (pa + va % 128)) 0
        else Memory.read s2.mem x) ∧
  (∀ (m : Mov) w at_ (row : List Got1), m.s.wgs.has w = true → at_ % 16 = 0 → row.length % 16 = 0 →
    let t := m.putRow [w] at_ row
    ((∀ b ∈ row, b.2 = false) → t.units = m.units + row.length / 16 ∧ t.causes = m.causes ∧ t.miss = m.miss ∧ t.s.mem = m.s.mem ∧
      (∀ i, Memory.read (t.s.wg w).scratch i = if at_ ≤ i ∧ i < at_ + row.length then (row.getD (i - at_) (0, false)).1
        else Memory.read (m.s.wg w).scratch i) ∧
      (∀ k, k ∈ (t.s.wg w).empty ↔ k ∈ (m.s.wg w).empty ∧ ¬(at_ / 16 ≤ k ∧ k < (at_ + row.length) / 16)) ∧
      ∀ v, v ≠ w → t.s.wgs.get? v = m.s.wgs.get? v) ∧
    (row.length = 16 → (∃ b ∈ row, b.2 = true) → t = m)) ∧
  (∀ (m : Mov) ws vs at_ row, m.putRow (ws ++ vs) at_ row = (m.putRow ws at_ row).putRow vs at_ row) ∧
  (∀ dim (c0 : Int) n, (clipDim dim c0 n = none → ∀ g : Int, ¬(0 ≤ g ∧ g < dim ∧ c0 ≤ g ∧ g < c0 + n)) ∧
    ∀ lo hi, clipDim dim c0 n = some (lo, hi) → ∀ g : Int, (lo : Int) ≤ g ∧ g ≤ hi ↔ 0 ≤ g ∧ g < dim ∧ c0 ≤ g ∧ g < c0 + n) ∧
  (∀ (m : Mov) core (c : Cmd) (c0 : Int) g ws at_ pad, let l := c.record
    let u := Tl.unit l
    (g = none ∨ clipDim (Tl.dim l 0) c0 (Tl.box l 0) = none → m.rowIn core c c0 g ws at_ pad = m.putRow ws at_ (List.replicate pad (0, false))) ∧
    (∀ h lo hi, g = some h → clipDim (Tl.dim l 0) c0 (Tl.box l 0) = some (lo, hi) → Tl.half l = false →
      let rd := m.read core c (Tl.addr l (lo :: h)) ((hi + 1 - lo) * u)
      ∃ row : List Got1, m.rowIn core c c0 g ws at_ pad = rd.1.putRow ws at_ row ∧ row.length = pad ∧ ∀ k, k < pad →
        row.getD k (0, true) = if k / u < Tl.box l 0 ∧ (lo : Int) ≤ c0 + (k / u : Nat) ∧ c0 + (k / u : Nat) ≤ hi
          then rd.2.getD (((c0 + (k / u : Nat)).toNat - lo) * u + k % u) (0, false) else (0, false)) ∧
    (∀ h lo hi, g = some h → clipDim (Tl.dim l 0) c0 (Tl.box l 0) = some (lo, hi) → Tl.half l = true →
      let rd := m.read core c (Tl.addr l (lo :: h)) (hi / 2 + 1 - lo / 2)
      ∃ row : List Got1, m.rowIn core c c0 g ws at_ pad = rd.1.putRow ws at_ row ∧ row.length = pad ∧ ∀ i, i < 2 * pad →
        (row.getD (i / 2) (0, true)).1.toNat / 2 ^ (4 * (i % 2)) % 16 =
          if i < Tl.box l 0 ∧ (lo : Int) ≤ c0 + (i : Nat) ∧ c0 + (i : Nat) ≤ hi
          then let e := (c0 + (i : Nat)).toNat; (rd.2.getD (e / 2 - lo / 2) (0, false)).1.toNat / 2 ^ (4 * (e % 2)) % 16 else 0)) ∧
  (∀ (m : Mov) core (c : Cmd) (c0 : Int) g at_, let l := c.record
    let u := Tl.unit l
    (g = none ∨ clipDim (Tl.dim l 0) c0 (Tl.box l 0) = none → m.rowOut core c c0 g at_ = m) ∧
    (∀ h lo hi, g = some h → clipDim (Tl.dim l 0) c0 (Tl.box l 0) = some (lo, hi) → Tl.half l = false →
      (∀ k, k < Tl.box l 0 * u → at_ + k ∉ (m.s.wg c.wid).badScratch) →
      let w := m.write core c (Tl.addr l (lo :: h)) ((List.range ((hi + 1 - lo) * u)).map fun k =>
        (255, (Memory.read (m.s.wg c.wid).scratch (at_ + (((lo + k / u : Nat) : Int) - c0).toNat * u + k % u)).toNat))
      ((∀ b ∈ w.2, b = true) → m.rowOut core c c0 g at_ = { w.1 with units := w.1.units + (hi + 1 - lo) }) ∧
      ((∀ b ∈ w.2, b = false) → m.rowOut core c c0 g at_ = w.1))) ∧
  (∀ (l : List Dword) (co : List Int) r, r < Tl.box l 1 * Tl.box l 2 * Tl.box l 3 →
    let i := [r % Tl.box l 1, r / Tl.box l 1 % Tl.box l 2, r / Tl.box l 1 / Tl.box l 2]
    let g := fun d => co.getD (d + 1) 0 + (i.getD d 0 : Nat)
    (boxRows l co).length = Tl.box l 1 * Tl.box l 2 * Tl.box l 3 ∧ ∃ h, (boxRows l co)[r]? = some (r, h) ∧
      (h = none ↔ ∃ d, d < Tl.rank l - 1 ∧ ¬(0 ≤ g d ∧ g d < Tl.dim l (d + 1))) ∧
      ∀ x, h = some x → x = (List.range (Tl.rank l - 1)).map fun d => (g d).toNat) ∧
  (∀ (m : Mov) core (c : Cmd), let l := c.record
    let co := (c.args.take 4).map fun (x : Nat) => sext x 32
    let at_ := fun r => Tl.spOff l + r * Tl.spStride l
    let index := fun j => sext (Memory.readLE (m.s.wg c.wid).scratch (Tl.auxOff l + 4 * j) 4) 32
    let named := fun j => if 0 ≤ index j ∧ index j < Tl.dim l 1 then some [(index j).toNat] else none
    (moveOf c.instr = .copy ∨ moveOf c.instr = .mcast →
      (Tl.dir l = 0 → m.run core c = (boxRows l co).foldl (fun m r =>
        m.rowIn core c (co.getD 0 0) r.2 (c.args.drop 4) (at_ r.1) (roundUp (Tl.bytes l (Tl.box l 0)) 16)) m) ∧
      (Tl.dir l ≠ 0 → m.run core c = (boxRows l co).foldl (fun m r => m.rowOut core c (co.getD 0 0) r.2 (at_ r.1)) m)) ∧
    ((∀ k, k < 4 * Tl.box l 1 → Tl.auxOff l + k ∉ (m.s.wg c.wid).badScratch) →
      (moveOf c.instr = .gath → m.run core c = (List.range (Tl.box l 1)).foldl (fun m j =>
        m.rowIn core c (co.getD 0 0) (named j) [c.wid] (at_ j) (roundUp (Tl.bytes l (Tl.box l 0)) 16)) m) ∧
      (moveOf c.instr = .scat → m.run core c = (List.range (Tl.box l 1)).foldl (fun m j =>
        m.rowOut core c (co.getD 0 0) (named j) (at_ j)) m)) ∧
    (moveOf c.instr = .pref → c.isPrefetch = false → let lines := boxLines l co
      (m.run core c).units = lines.length ∧ (m.run core c).causes = m.causes ∧
      ∀ w, ((m.run core c).s.wg w).scratch = (m.s.wg w).scratch)) ∧
  (∀ (m : Mov) core (c : Cmd), let l := c.record
    let u := Tl.unit l
    let j := ((c.args.take 4).map fun (x : Nat) => sext x 32).getD 0 0
    moveOf c.instr = .unpk → Tl.box l 0 = 1 →
    (j < 0 ∨ (chunks l : Int) ≤ j → m.run core c = m.putRow [c.wid] (Tl.spOff l) (List.replicate (128 * u) (0, false))) ∧
    (0 ≤ j → j < chunks l →
      let tw := m.read core c (Tl.aux l + 4 * j.toNat) 4
      let o := ofBytes (tw.2.map Prod.fst)
      (∀ b ∈ tw.2, b.2 = false) → (o % 16 ≠ 0 → m.run core c = (tw.1.cause 0x6C).putRow [c.wid] (Tl.spOff l) (List.replicate (128 * u) (0, false))) ∧
      (o % 16 = 0 → let bm := tw.1.read core c (Tl.base l + o) 16
        let bit := fun i => (ofBytes (bm.2.map Prod.fst)).testBit i
        let before := fun i => ((List.range i).filter bit).length
        let rd := bm.1.read core c (Tl.base l + o + 16) (before 128 * u)
        (∀ b ∈ bm.2, b.2 = false) → ∃ row : List Got1, m.run core c = rd.1.putRow [c.wid] (Tl.spOff l) row ∧ row.length = 128 * u ∧
          ∀ k, k < 128 * u → row.getD k (0, true) =
            if bit (k / u) = true ∧ 128 * j.toNat + k / u < Tl.dim l 0 then rd.2.getD (before (k / u) * u + k % u) (0, false) else (0, false)))) ∧
  (∀ (m : Mov) core (c : Cmd), let l := c.record
    let u := Tl.unit l
    let j := (((c.args.take 4).map fun (x : Nat) => sext x 32).getD 0 0).toNat
    let o := c.args.getD 1 0
    let byte := fun k => Memory.read (m.s.wg c.wid).scratch (Tl.spOff l + k)
    let kept := (List.range 128).filter fun i => decide (128 * j + i < Tl.dim l 0) && (List.range u).any fun b => byte (u * i + b) != 0
    let before := fun i => (kept.filter fun x => decide (x < i)).length
    let len := 16 + (kept.length * u + 15) / 16 * 16
    moveOf c.instr = .pack → Tl.box l 0 = 1 → (∀ k, k < 128 * u → Tl.spOff l + k ∉ (m.s.wg c.wid).badScratch) →
    ∃ out : List Byte, out.length = len ∧ (∀ i, i < 128 → ((ofBytes (out.take 16)).testBit i = true ↔ i ∈ kept)) ∧
      (∀ i ∈ kept, ∀ b, b < u → out.getD (16 + before i * u + b) 0 = byte (u * i + b)) ∧ (∀ k, 16 + kept.length * u ≤ k → out.getD k 0 = 0) ∧
      let full := fun (l : List Byte) => l.map fun b => ((255, b.toNat) : Put1)
      let w1 := m.write core c (Tl.base l + o) (full out)
      let w2 := w1.1.write core c (Tl.aux l + 4 * j) (full (bytesOf o 4))
      let w3 := { w2.1 with units := w2.1.units + (if ∀ b ∈ w1.2, b = true then 1 else 0) }.write core c (Tl.aux l + 4 * (j + 1))
        (full (bytesOf (o + len) 4))
      m.run core c = w3.1) ∧
  (∀ (m : Mov) core (c : Cmd), let l := c.record
    let u := Tl.unit l
    let co := (c.args.take 4).map fun (x : Nat) => sext x 32
    let kept := fun (p : Mov) bufs => { p with s := p.s.setCore core fun x => { x with lbufs := bufs } }
    moveOf c.instr = .im2c →
    (imChan l co = none ∨ imBatch l co = none → ∃ bufs, m.run core c = kept ((List.range (Tl.box l 1)).foldl (fun m p =>
      m.putRow [c.wid] (Tl.spOff l + p * Tl.spStride l) (List.replicate (tilePad .im2c l) (0, false))) m) bufs) ∧
    (∀ lo hi nb w h, imChan l co = some (lo, hi) → imBatch l co = some nb → Tl.box l 1 = 1 → Im.kh l = 1 → Im.kw l = 1 → isFresh c.instr = true →
      imWs l co = [w] → imHs l co = [h] → co.getD 1 0 * Im.sw l - Im.pw l = w → co.getD 2 0 * Im.sh l - Im.ph l = h → w < Tl.dim l 1 → h < Tl.dim l 2 →
      Tl.half l = false →
      let rd := m.read core c (Tl.addr l (lo :: w :: h :: nb)) ((hi + 1 - lo) * u)
      rd.2.length = (hi + 1 - lo) * u → ∃ row bufs, m.run core c = kept (rd.1.putRow [c.wid] (Tl.spOff l) row) bufs ∧
        row.length = tilePad .im2c l ∧ ∀ k, k < tilePad .im2c l → row.getD k (0, true) =
          let e := co.getD 0 0 + (k / u : Nat)
          if k / u < Tl.box l 0 ∧ (lo : Int) ≤ e ∧ e ≤ hi then rd.2.getD ((e.toNat - lo) * u + k % u) (0, false) else (0, false)))

/-- R92, R93, R368, R381, R384 to R386: the words that a matrix command writes. Each word of the accumulator tile is the old word, or 0, with the
groups of terms of its row and column added in ascending K; the words of a block that reads an uncorrectable byte are the canonical NaN; no other word
changes. A term is the product of the elements that both operands have at a position. `ACC.ZERO`, `ACC.LD` write the words of a tile, `ACC.ST` and
`ACC.CVT` the scratchpad bytes of its rows, and `ACC.AMAX` answers the largest magnitude. -/
def Obligations.MatrixEffects : Prop :=
  (∀ (s : State) (c cb : Cmd), let r := (s.kern c.kernel).krec
    let l := c.record
    let k := Mp.k l
    let a := c.opnd r false
    let b := cb.opnd r true
    let wa := c.args.getD 0 c.wid
    let wb := cb.args.getD 1 cb.wid
    let size := if a.fmt = .bf16 ∨ a.fmt = .f16 ∨ b.fmt = .bf16 ∨ b.fmt = .f16 then 16 else 32
    let word := fun x y => Mp.accOff l + x * Mp.accStride l + y
    let old := fun x y => if Mp.accum l then (s.wg c.wid).acc.getD (word x y) 0 else 0
    let bad := fun x y => s.opndBad a wa c.wid k (x / 16) = true ∨ s.opndBad b wb cb.wid k (y / 16) = true ∨
      (Mp.accum l = true ∧ ∃ i j, i < 16 ∧ j < 16 ∧ word (x / 16 * 16 + i) (y / 16 * 16 + j) ∈ (s.wg c.wid).badAcc)
    s.wgs.has c.wid = true → Mp.n l ≤ Mp.accStride l →
    let z := s.runMma c cb
    (∀ x y, x < Mp.m l → y < Mp.n l → (¬bad x y → (z.1.wg c.wid).acc.getD (word x y) 0 =
        accumulate (old x y) (termGroups size k (s.opndRow c a wa c.wid k x) (s.opndRow c b wb cb.wid k y))) ∧
      (bad x y → (z.1.wg c.wid).acc.getD (word x y) 0 = 0x7FC00000)) ∧
    (∀ i, (∀ x y, x < Mp.m l → y < Mp.n l → i ≠ word x y) → (z.1.wg c.wid).acc.get? i = (s.wg c.wid).acc.get? i) ∧
    z.2.1 = Mp.m l / 16 * (Mp.n l / 16) ∧ (z.2.2 = true ↔ ∃ x y, x < Mp.m l ∧ y < Mp.n l ∧ bad x y) ∧
    z.1 = s.setWg c.wid fun g => { g with acc := (z.1.wg c.wid).acc, badAcc := (z.1.wg c.wid).badAcc }) ∧
  (∀ (s : State) (c : Cmd) (o : Opnd) wd wo k i p, p < k → let f := o.fmt
    let r := (s.kern c.kernel).krec
    let block := if o.scaled then some (byteAt (s.wg wo).scratch (o.soff + i * o.sst + p / 32)) else none
    let at_ := fun v => scaled v block (f32 (Krec.tensor r o.slot))
    (o.nm = true → (s.opndRow c o wd wo k i)[p]? = some (some (at_ (decodeFmt f (elemAt (s.wg wd).scratch (o.off + p * o.st) (fmtWidth f) i))))) ∧
    (o.nm = false → f ≠ .vq2 → (s.opndRow c o wd wo k i)[p]? = some ((storedAt o.kind (s.wg wo).scratch (o.moff + i * o.mst) p).map fun e =>
      at_ (decodeFmt f (elemAt (s.wg wd).scratch (o.off + i * o.st) (fmtWidth f) e))))) ∧
  (∀ g k (a b : List (Option Machine.Num)) j, 0 < g → j < k / g → a.length = k → b.length = k →
    (termGroups g k a b).length = k / g ∧ (termGroups g k a b)[j]? = some (((List.range g).map fun i => g * j + i).filterMap fun p =>
      match a.getD p none, b.getD p none with
      | some x, some y => some (x.mul y)
      | _, _ => none)) ∧
  (∀ (a : Word) g l, accumulate a [] = a ∧ accumulate a (g :: l) = accumulate (w32 (addRnd fp32 .rn (f32 a) (groupSum g))) l) ∧
  (∀ t : List Machine.Num, ((∃ x ∈ t, x.isNan = true) ∨ (.inf true ∈ t ∧ .inf false ∈ t) → groupSum t = .nan) ∧
    (∀ b, (∀ x ∈ t, x.isNan = false) → .inf b ∈ t → .inf (!b) ∉ t → groupSum t = .inf b)) ∧
  (∀ (s : State) (c : Cmd), let l := c.record
    let g := s.wg c.wid
    let word := fun x y => Ad.off l + x * Ad.stride l + y
    let val := fun x y => if word x y ∈ g.badAcc then (0x7FC00000 : Word) else g.acc.getD (word x y) 0
    let z := s.runAcc c
    s.wgs.has c.wid = true →
    ((∃ gd d x, c.instr = .accZero gd d x) → (∀ x y, x < Ad.rows l → y < Ad.cols l → (z.1.wg c.wid).acc.getD (word x y) 0 = 0) ∧
      ∀ i, (∀ x y, x < Ad.rows l → y < Ad.cols l → i ≠ word x y) → (z.1.wg c.wid).acc.get? i = g.acc.get? i) ∧
    ((∃ gd d x, c.instr = .accLd gd d x) → Ad.cols l ≤ Ad.stride l → let at_ := fun x y => Ad.spOff l + x * Ad.spStride l + 4 * y
      (∀ x y, x < Ad.rows l → y < Ad.cols l → (z.1.wg c.wid).acc.getD (word x y) 0 =
        if ∃ b ∈ g.badScratch, at_ x y ≤ b ∧ b < at_ x y + 4 then 0x7FC00000 else .ofNat 32 (Memory.readLE g.scratch (at_ x y) 4)) ∧
      ∀ i, (∀ x y, x < Ad.rows l → y < Ad.cols l → i ≠ word x y) → (z.1.wg c.wid).acc.get? i = g.acc.get? i) ∧
    ((∃ gd d x, c.instr = .accSt gd d x) → let n := (4 * Ad.cols l + 15) / 16 * 16
      let at_ := fun x => Ad.spOff l + x * Ad.spStride l
      n ≤ Ad.spStride l → (∀ x y, x < Ad.rows l → y < Ad.cols l → .ofNat 32 (Memory.readLE (z.1.wg c.wid).scratch (at_ x + 4 * y) 4) = val x y) ∧
        (∀ x k, x < Ad.rows l → 4 * Ad.cols l ≤ k → k < n → Memory.read (z.1.wg c.wid).scratch (at_ x + k) = 0) ∧
        ∀ i, (∀ x, x < Ad.rows l → i < at_ x ∨ at_ x + n ≤ i) → Memory.read (z.1.wg c.wid).scratch i = Memory.read g.scratch i) ∧
    (∀ gd d x k rnd sat, c.instr = .accCvt gd d x k rnd sat → let r := (s.kern c.kernel).krec
      let f := fmtOfCode (Krec.fslot r k % 16)
      let t := f32 (Krec.tensor r k)
      let n := (Ad.cols l + 15) / 16 * 16
      fmtWidth f = 8 → Krec.fslot r k / 16 % 4 ≠ 1 → n ≤ Ad.spStride l →
      ∀ x y, x < Ad.rows l → y < n → (Memory.read (z.1.wg c.wid).scratch (Ad.spOff l + x * Ad.spStride l + y)).toNat =
        if y < Ad.cols l then trunc (convert f rnd sat false (divIeee (f32 (val x y)) t)) 8 else 0) ∧
    ((∃ gd d x, c.instr = .accAmax gd d x) → z.1 = s ∧ ∃ w, z.2.1 = [w] ∧
      w = amaxWord (((List.range (Ad.rows l)).map fun x => (List.range (Ad.cols l)).map fun y => f32 (val x y)).flatten) 0))

/-! ## The dispatcher (spec/05_queue.md, spec/06_kernel.md, spec/07_group.md) -/

/-- R122 to R127, R134, R141 to R143, R150 to R153, R168, R171, R172, R175, R177: a record is parsed from the posted ones, or from its window slot
when its tag matches, the seal cleared behind it; another tag halts the queue. Its kernel enters the table under a number of its own: the handle, or
one 2^32 apart from it, which is the model's choice (notes/assumptions/62.md). A kernel that fits has its workgroup placed, its threads at the code
and its scratchpad zero, by the model's choice (notes/assumptions/14.md); one that is refused faults; one that has drained completes. A workgroup is
requested for pre-emption, its drain abandoned at the bound, its state written out, flushed once its requests are over, or placed again. -/
def Obligations.DispatchEvents : Prop :=
  (∀ (s : State) q r l, let x := s.queue q
    let c := x.cfgCtx.toNat
    let h := s.newKid (2 ^ 23 * q + x.index % (2 ^ 23 - 1) + 1)
    x.state = .running → s.tableFull = false → x.src = true → x.posted = r :: l →
    (∀ d ∈ [Krec.dep0 r, Krec.dep1 r], d ≠ 0 → ∀ e, s.kidOf? c d = some e → s.depFailed e = false ∧ s.depOpen e = false) →
    s.Completes (.recordParse q) fun t => t.mem = s.mem ∧ (t.kern h).krec = r ∧ (t.kern h).state = .queued ∧ (t.kern h).ctx = c ∧
      (t.kern h).queue = some q ∧ (t.kern h).prio = min x.prio.toNat (Krec.prio r) ∧ (t.queue q).posted = l ∧
      (t.queue q).parsed = x.parsed + 1 ∧ (t.queue q).index = x.index + 1) ∧
  (∀ (s : State) q, let x := s.queue q
    let pa := windowPa q (x.parsed.toNat % 64)
    let r : BitVec 2048 := .ofNat 2048 (Memory.readLE s.mem pa 256)
    let c := x.cfgCtx.toNat
    let h := s.newKid (2 ^ 23 * q + x.index % (2 ^ 23 - 1) + 1)
    let k := (Memory.read s.mem (pa + 255)).toNat
    x.state = .running → s.tableFull = false → x.src = false → k ≠ 0 →
    ((k = x.tag ∧ (Memory.read s.mem (pa + 254)).toNat = k ∧ ∀ d ∈ [Krec.dep0 r, Krec.dep1 r], d ≠ 0 →
        ∀ e, s.kidOf? c d = some e → s.depFailed e = false ∧ s.depOpen e = false) →
      s.Completes (.recordParse q) fun t => (t.kern h).krec = r ∧ (t.kern h).state = .queued ∧ (t.queue q).tag = x.tag % 255 + 1 ∧
        (t.queue q).parsed = x.parsed + 1 ∧ (∀ a, Memory.read t.mem a = if a = pa + 255 then 0 else Memory.read s.mem a)) ∧
    (¬(k = x.tag ∧ (Memory.read s.mem (pa + 254)).toNat = k) →
      exec (.recordParse q) s = .next (s.setQueue q fun x => { x with state := .halted, err := 4 }))) ∧
  (∀ (s : State) h, s.kernels.has (s.newKid h) = false ∧ s.newKid h % 2 ^ 32 = h % 2 ^ 32) ∧
  (∀ (s : State) h c k s1, s.kernels.get? h = some k → k.state ≠ .dispatching → s.candidateKern k = true → k.queue = none →
    Krec.coresident k.krec = false → s.admitCause k.ctx k.krec = 0 → s.roomFor k = true →
    (∀ e ∈ s.kernels, ¬(s.servable e.2 = true ∧ s.before e.2 k = true)) → s.placeOn h c = some s1 →
    exec (.kernelSelect h [c]) s = .next s1) ∧
  (∀ (s : State) h c t, let k := s.kern h
    s.placeOn h c = some t → s.kernels.has h = true →
    let g := t.wg s.wgSerial
    g.kernel = h ∧ g.ctx = k.ctx ∧ g.core = c ∧ g.width = Krec.width k.krec ∧ g.ended = false ∧ g.scratch = [] ∧
      g.lin = (match k.ret with
        | w :: _ => w
        | [] => k.next) ∧
      (∀ n, n < Krec.threads k.krec → g.thread n = { Thread.zero with pc := Krec.codeVa k.krec, live := true, last := s.clk }) ∧
      t.wgSerial = s.wgSerial + 1) ∧
  (∀ (s : State) h cores k, s.kernels.get? h = some k → k.state ≠ .dispatching → s.candidateKern k = true → s.admitCause k.ctx k.krec ≠ 0 →
    (∀ e ∈ s.kernels, ¬(s.servable e.2 = true ∧ s.before e.2 k = true)) →
    exec (.kernelSelect h cores) s = .next (s.kernelEnd h .faulted (s.admitCause k.ctx k.krec) 0 false)) ∧
  (∀ (s : State) h k, s.kernels.get? h = some k → k.donePend = false → k.stop = none → k.state = .draining → s.quiet h = true →
    exec (.kernelQuiet h) s = .next (s.kernelEnd h .complete 0 0 false)) ∧
  (∀ (s : State) h k since w, s.kernels.get? h = some k → s.regs.pcEnable = true → k.state = .queued → k.stop = none → Krec.coresident k.krec = false →
    k.roomless = some since → since + max 1 s.regs.pcWait.toNat * 1100 ≤ s.clk → s.coreRoom k = false → s.dispatcherBusy = false →
    s.preemptVictim k.prio = some w → s.wgs.has w = true → (s.wg w).preempt = none → (s.wg w).ended = false →
    s.Completes (.dispatchPreempt h) fun t => t.mem = s.mem ∧ (∀ v, v ≠ w → t.wgs.get? v = s.wgs.get? v) ∧
      (let b := max 1 s.regs.pcBound.toNat * 1100
       t.wg w = { s.wg w with preempt := some ⟨false, s.mechFor w b 0, s.clk, b, none, false⟩ }) ∧ t.regs.prRequests = s.regs.prRequests + 1) ∧
  (∀ (s : State) w p, s.wgs.has w = true → (s.wg w).preempt = some p → p.mech = .drain → p.start + p.bound ≤ s.clk →
    s.Completes (.drainTimeout w) fun t => t.wg w = { s.wg w with preempt := some { p with mech := .save, missed := true } } ∧ t.regs.prMech = 2 ∧
      t.mem = s.mem ∧ ∀ v, v ≠ w → t.wgs.get? v = s.wgs.get? v) ∧
  (∀ (s : State) w p s5, let s1 := ((s.settle w).withdrawTickets w).withdrawCmds w
    let s2 := s1.setThreads w (s1.wg w).live fun _ x => x.withdrawJoin
    let g := s2.wg w
    let s3 := g.live.foldl (fun s t => s.withdrawBar w t) s2
    let s4 := s3.setThreads w g.live fun _ x => { x.leaveRds with hold := .none }
    let img := s4.regionImage w p.bySuspend
    (s.wg w).preempt = some p → p.mech = .save → (s.wg w).ended = false → p.wait = none → s2.quiesced w = true → s2.matesStopped w = true →
    s2.storeRegion g.ctx g.core ((s2.ctx g.ctx).saveVa + g.saveAt) img (List.range (img.length / 128)) s4 = .ok s5 →
    exec (.wgSave w) s = .next (s5.savedOut w p)) ∧
  (∀ (s : State) w p, let g := s.wg w
    let k := s.kern g.kernel
    g.preempt = some p → p.mech = .flush → g.ended = false → s.kernels.has g.kernel = true → s.wgs.has w = true →
    ((∃ e ∈ g.threads, ∃ q ∈ e.2.prods, s.inFlight w e.1 q = true) → exec (.wgFlush w) s = .next (s.flushStart w)) ∧
    ((∀ e ∈ g.threads, e.2.hold.inFlight = false ∧ ∀ q ∈ e.2.prods, s.inFlight w e.1 q = false) →
      s.Completes (.wgFlush w) fun t => t.wgs.has w = false ∧ (t.kern g.kernel).ret = k.ret ++ [g.lin] ∧
      (t.kern g.kernel).state = (if k.state = .running then .dispatching else k.state) ∧ t.mem = s.mem)) ∧
  (∀ (s : State) w t, s.restorable [w] = true → s.restoreOne w = some t →
    exec (.wgRestore [w]) s = .next t ∧ t.wgs.has w = true ∧ t.saved = s.saved.filter fun x => x.wid != w)

/-! ## The host's registers (spec/04_context.md, spec/05_queue.md) -/

/-- R97 to R101, R103, R104, R106, R118 to R120, R170, R499, R510, R514, R517: a host write wakes the device and acts on its register. CREATE reads
the record that `CTXARG` names into a FREE context, or ends BADRECORD with the lowest failing selector; ACTIVATE, SUSPEND, RESUME, TEARDOWN and
RELEASE change the context's state from the states that they need, and end BADSTATE from any other; while a command runs, another is ignored.
`ctxsts.detail` is 0 with every status but BADREC, which is the model's choice (notes/assumptions/64.md). SUSPEND requests every resident workgroup
of the context under the bound; those that it saves first on the core count in the latency of the next, in the order of the model's choice
(notes/assumptions/66.md); when none is left the context is SUSPENDED and its running queues stop. TEARDOWN ends in TORN_DOWN, with every ticket of
the context free, its page table entries removed and its slot released. BIND, START, STOP and UNBIND change a queue's state; UNBIND clears
`qsts.armed`, which is the model's choice (notes/assumptions/47.md). A register write puts its fields. -/
def Obligations.ContextCommands : Prop :=
  (∀ (s : State) id l, let w := s.wakeUp
    let a := s.regs.ctxarg.toNat
    let c : Ctx := { state := .built, held := false,
                     words := ((List.range 128).filter fun n => !([6, 7, 10, 11, 12].contains n)).map fun n => (n, .ofNat 64 (bytesAt l (8 * n) 8)),
                     fault := none }
    id < 4096 → s.inRecovery = false → s.regs.ctxBusy = false → (s.ctx id).state = .free → a % 64 = 0 → w.readCtxRecord a = some l →
    (w.badRecord c = [] → s.Completes (.ctxCreate id) fun t => t = { w with ctxs := t.ctxs, regs := t.regs } ∧ t.ctx id = c ∧
      (∀ k, k ≠ id → t.ctx k = s.ctx k) ∧ t.regs = { s.regs with ctxStatus := 0, ctxDetail := 0 }) ∧
    (∀ n, lowest (w.badRecord c) = some n → s.Completes (.ctxCreate id) fun t =>
      t = { w with regs := { s.regs with ctxStatus := 3, ctxDetail := n } })) ∧
  (∀ (s : State) id, let w := s.wakeUp
    id < 4096 → s.inRecovery = false → s.regs.ctxBusy = false → (s.ctx id).state = .free →
    (s.regs.ctxarg.toNat % 64 ≠ 0 → s.Completes (.ctxCreate id) fun t => t = { w with regs := { s.regs with ctxStatus := 3, ctxDetail := 0x80 } }) ∧
    (s.regs.ctxarg.toNat % 64 = 0 → w.readCtxRecord s.regs.ctxarg.toNat = none →
      s.Completes (.ctxCreate id) fun t => t = { w with regs := { s.regs with ctxStatus := 3, ctxDetail := 0x81 } })) ∧
  (∀ (s : State) id, let w := s.wakeUp
    id < 4096 → s.inRecovery = false → s.regs.ctxBusy = false →
    ((s.ctx id).state = .built → (s.ctxs.filter fun e => e.2.held).length < 256 → s.Completes (.ctxActivate id) fun t =>
      t = { w with ctxs := t.ctxs, queues := t.queues, regs := t.regs } ∧ t.ctx id = { s.ctx id with state := .active, held := true } ∧
      (∀ k, k ≠ id → t.ctx k = s.ctx k) ∧ t.regs = { s.regs with ctxStatus := 0, ctxDetail := 0 } ∧
      ∀ q, t.queue q = if q ∈ s.queuesOf id ∧ (s.queue q).state = .stopped ∧ (s.queue q).armed = true then { s.queue q with state := .running }
        else s.queue q) ∧
    ((s.ctx id).state = .built → 256 ≤ (s.ctxs.filter fun e => e.2.held).length → s.Completes (.ctxActivate id) fun t =>
      t = { w with regs := { s.regs with ctxStatus := 4, ctxDetail := 0 } }) ∧
    ((s.ctx id).state = .active → let b := s.regs.ctxarg.toNat % 2 ^ 32 * 1100
      let asked := fun (u : State) (v : Nat) (g : Wg) (y : Nat) =>
        if g.ctx = id ∧ g.ended = false ∧ g.preempt = none then { g with preempt := some ⟨true, u.mechFor v b y, s.clk, b, none, false⟩ } else g
      s.Completes (.ctxSuspend id) fun t => t = { w with wgs := t.wgs, regs := t.regs } ∧ t.regs.ctxBusy = true ∧ t.regs.suspending = some id ∧
        (∀ v g, s.wgs.get? v = some g → ∃ y, t.wgs.get? v = some (asked w v g y)) ∧
        (∀ v g, s.wgs = [(v, g)] → t.wgs = [(v, asked w v g 0)]) ∧
        ∀ u f v g, s.wgs = [(u, f), (v, g)] → u < v → f.ctx = id → f.ended = false → f.preempt = none → f.core = g.core →
          t.wgs = [(u, asked w u f 0), (v, asked w v g (if w.mechFor u b 0 = .save then Region.size (s.krecOf u) else 0))]) ∧
    ((s.ctx id).state = .suspended → s.Completes (.ctxResume id) fun t =>
      t = { w with ctxs := t.ctxs, queues := t.queues, regs := t.regs } ∧ t.ctx id = { s.ctx id with state := .active } ∧
      (∀ k, k ≠ id → t.ctx k = s.ctx k) ∧ t.regs = { s.regs with ctxStatus := 0, ctxDetail := 0 } ∧
      ∀ q, t.queue q = if q ∈ s.queuesOf id ∧ (s.queue q).state = .stopped ∧ (s.queue q).armed = true then { s.queue q with state := .running }
        else s.queue q) ∧
    ((s.ctx id).state = .built ∨ (s.ctx id).state = .active ∨ (s.ctx id).state = .suspended ∨ (s.ctx id).state = .faulted →
      s.Completes (.ctxTeardown id) fun t => t = w.teardown id ∧ (t.ctx id).state = .tornDown ∧ (t.ctx id).held = false ∧ t.regs.ctxStatus = 0 ∧
        t.regs.ctxDetail = 0 ∧ t.regs.ctxBusy = false ∧ (∀ n e, (t.ticket n e).ctx = id → (t.ticket n e).state = .free) ∧
        ((∀ e ∈ s.wgs, e.2.ctx ≠ id) → (∀ e ∈ s.kernels, e.2.ctx ≠ id) → s.cores = [] → s.dir = [] → s.queuesOf id = [] → (s.ctx id).fault = none →
          (∀ e ∈ w.allPtes, Pte.ctx (w.pte e.1) = id → t.pte e.1 = 0) ∧
          ∀ b, (∀ e ∈ w.allPtes, Pte.ctx (w.pte e.1) = id → b < e.1 ∨ e.1 + 16 ≤ b) → Memory.read t.mem b = Memory.read s.mem b)) ∧
    ((s.ctx id).state = .tornDown → s.Completes (.ctxRelease id) fun t =>
      t = { w with ctxs := t.ctxs, regs := t.regs } ∧ t.ctx id = .zero ∧ (∀ k, k ≠ id → t.ctx k = s.ctx k) ∧
      t.regs = { s.regs with ctxStatus := 0, ctxDetail := 0 }) ∧
    (∀ i, ((i = .ctxCreate id ∧ (s.ctx id).state ≠ .free) ∨ (i = .ctxActivate id ∧ (s.ctx id).state ≠ .built) ∨
        (i = .ctxSuspend id ∧ (s.ctx id).state ≠ .active) ∨ (i = .ctxResume id ∧ (s.ctx id).state ≠ .suspended) ∨
        (i = .ctxTeardown id ∧ (s.ctx id).state.torn = false) ∨ (i = .ctxRelease id ∧ (s.ctx id).state ≠ .tornDown)) →
      s.Completes i fun t => t = { w with regs := { s.regs with ctxStatus := 2, ctxDetail := 0 } })) ∧
  (∀ (s : State) id i, i ∈ [Instr.ctxCreate id, .ctxActivate id, .ctxSuspend id, .ctxResume id, .ctxTeardown id, .ctxRelease id] → id < 4096 →
    s.inRecovery = false → s.regs.ctxBusy = true → exec i s = .next s.wakeUp) ∧
  (∀ (s : State) id, (∀ e ∈ (s.killCtx id).wgs, e.2.ctx ≠ id) ∧ ∀ e ∈ (s.killCtx id).saved, e.ctx ≠ id) ∧
  (∀ (s : State) id, ∀ q ∈ s.queuesOf id, (((s.ctxOff id).ctxEnd id).queue q).state = .free) ∧
  (∀ (s : State) e, let p := s.pte e.1
    (s.dropPage e).pte e.1 = 0 ∧ (Pte.tier p < 2 → ∀ i, i < pageSpan e.2.2 → let n := poolOf (Pte.tier p) (Pte.frame p)
      let f := frameNo (Pte.tier p) (Pte.frame p) + i
      ((s.dropPage e).pool n).count f = ((s.revoke e.2.1).pool n).count f - 1)) ∧
  (∀ (s : State) id, s.regs.suspending = some id → (∀ e ∈ s.wgs, e.2.ctx ≠ id) → s.Completes (.ctxSuspendDone id) fun t =>
    t = { s with ctxs := t.ctxs, queues := t.queues, regs := t.regs } ∧ t.ctx id = { s.ctx id with state := .suspended } ∧
    (∀ k, k ≠ id → t.ctx k = s.ctx k) ∧
    (∀ q, t.queue q = if q ∈ s.queuesOf id ∧ (s.queue q).state = .running then { s.queue q with state := .stopped } else s.queue q) ∧
    t.regs = { s.regs with ctxStatus := 0, ctxDetail := 0, ctxBusy := false, suspending := none }) ∧
  (∀ (s : State) id sel v t, id < 4096 → s.inRecovery = false → (s.ctx id).state ≠ .free → s.wakeUp.ctxWrite id sel v = some t →
    exec (.ctxRecordHostWrite id sel v) s = .next t) ∧
  (∀ (s : State) q, let w := s.wakeUp
    let x := s.queue q
    q < 256 → s.inRecovery = false →
    (x.state = .free → x.cfgRes = 0 → (s.ctx x.cfgCtx.toNat).state.bindable = true → s.Completes (.queueBind q) fun t =>
      t = { w with queues := t.queues, mem := t.mem } ∧ (∀ k, k ≠ q → t.queue k = s.queue k) ∧
      t.queue q = { x with state := .stopped, src := x.cfgSrc, prio := x.cfgPrio, tag := 1, parsed := 0, index := 0, armed := false, posted := [],
                           err := 0 } ∧
      ∀ a, Memory.read t.mem a = if a ∈ (List.range 64).map (fun i => windowPa q i + 255) then 0 else Memory.read s.mem a) ∧
    (x.state = .free → x.cfgRes ≠ 0 → s.Completes (.queueBind q) fun t => t.queue q = { x with err := 3 } ∧ t = { w with queues := t.queues }) ∧
    (x.state = .stopped ∨ x.state = .halted → s.Completes (.queueStart q) fun t => t = { w with queues := t.queues } ∧
      (∀ k, k ≠ q → t.queue k = s.queue k) ∧
      t.queue q = { x with state := if (s.ctx x.cfgCtx.toNat).state = .active then .running else .stopped, armed := true, err := 0 }) ∧
    (x.state = .running → s.Completes (.queueStart q) fun t => t = { w with queues := t.queues } ∧ (∀ k, k ≠ q → t.queue k = s.queue k) ∧
      t.queue q = { x with err := 0 }) ∧
    (x.state ≠ .free → s.Completes (.queueStop q) fun t => t = { w with queues := t.queues } ∧ (∀ k, k ≠ q → t.queue k = s.queue k) ∧
      t.queue q = { x with state := .stopped, armed := false, err := 0 }) ∧
    (x.state = .stopped ∨ x.state = .halted → s.Completes (.queueUnbind q) fun t => t = (w.queueFree q).queueErr q 0 ∧
      (t.queue q).state = .free ∧ (t.queue q).armed = false ∧ (t.queue q).posted = (if x.src then [] else x.posted) ∧ (t.queue q).err = 0) ∧
    (∀ i, ((i = .queueBind q ∧ x.state ≠ .free) ∨ (i = .queueStart q ∧ x.state = .free) ∨ (i = .queueStop q ∧ x.state = .free) ∨
        (i = .queueUnbind q ∧ (x.state = .free ∨ x.state = .running))) →
      s.Completes i fun t => t = { w with queues := t.queues } ∧ t.queue q = { x with err := 2 })) ∧
  (∀ (s : State) v, let w := s.wakeUp
    s.inRecovery = false →
    exec (.registerWrite 0x108 v) s = .next { w with regs := { s.regs with ctxarg := v } } ∧
    exec (.registerWrite 0x200 v) s = .next { w with regs :=
      { s.regs with pcEnable := v.getLsbD 0, pcRes := (v >>> 1).setWidth 31, pcWait := (v >>> 32).setWidth 16, pcBound := (v >>> 48).setWidth 16 } } ∧
    exec (.registerWrite 0x70000 v) s = .next { w with power :=
      { w.power with tol := v.setWidth 32, retain := v.getLsbD 32, res := (v >>> 33).setWidth 31 } } ∧
    exec (.registerWrite 0x70108 v) s = .next { w with fw := { s.fw with addr := v } } ∧
    exec (.registerWrite 0x70110 v) s = .next { w with fw := { s.fw with len := v } } ∧
    (∀ q, q < 256 → (s.queue q).state = .free → s.Completes (.registerWrite (0x10000 + 32 * q) v) fun t => t = { w with queues := t.queues } ∧
      (∀ k, k ≠ q → t.queue k = s.queue k) ∧
      t.queue q = { s.queue q with cfgCtx := v.setWidth 12, cfgPrio := (v >>> 12).setWidth 3, cfgSrc := v.getLsbD 15,
                                   cfgRes := (v >>> 16).setWidth 48 }) ∧
    (∀ n, n < 12 → (s.link n).state = .down ∨ (s.link n).state = .failed → s.Completes (.registerWrite (0x60000 + 32 * n) v) fun t =>
      t = { w with links := t.links } ∧ (∀ k, k ≠ n → t.link k = s.link k) ∧
      t.link n = { s.link n with peer := v.setWidth 4, res := (v >>> 4).setWidth 60 })) ∧
  (∀ (s : State) id, id < 4096 →
    exec (.registerWrite 0x100 (.ofNat 64 (16 * id + 1))) s = exec (.ctxCreate id) s ∧
    exec (.registerWrite 0x100 (.ofNat 64 (16 * id + 5))) s = exec (.ctxTeardown id) s) ∧
  (∀ (s : State) q, q < 256 → exec (.registerWrite (0x10008 + 32 * q) 1) s = exec (.queueBind q) s ∧
    exec (.registerWrite (0x10008 + 32 * q) 4) s = exec (.queueUnbind q) s) ∧
  (∀ (s : State) n, n < 12 → exec (.registerWrite (0x60008 + 32 * n) 1) s = exec (.linkTrain n) s) ∧
  (∀ (s : State) v, exec (.registerWrite 0x70010 v) s = exec (.hlthWrite v) s) ∧
  (∀ (s : State) v, s.Completes (.hlthWrite v) fun t => t = { s.wakeUp with regs := t.regs } ∧
    t.regs = { s.regs with hUnit := s.regs.hUnit && !v.getLsbD 0, hThermal := s.regs.hThermal && !v.getLsbD 1,
                           hPeer := s.regs.hPeer && !v.getLsbD 2, hChannel := s.regs.hChannel && !v.getLsbD 3 })

/-! ## The links (spec/19_link.md R496 to R508) -/

/-- R497 to R504, R506, R507: TRAIN, RETIRE and RESET move a link as the table of its states says, an error elsewhere; that TRAIN of a FAILED link
tests the reserved bits alone is the model's reading (notes/assumptions/59.md). A link in TRAINING comes UP on eight lanes or DEGRADED on four to
seven, of which the four lowest-numbered run, or fails with the code of its reason; one that was up fails, the lanes that it dropped counted, and
its unanswered requests are sent again, with their identifiers, on the links that their IA now names; with the last link of its peer the peer is
lost. A frame in its turn is delivered; a bad one is replayed and counted, at either side; frames stay in the buffer of 64 until they are
acknowledged; after sixteen replays the bad lanes go. That numbers begin at 0 and frames come in whole steps (notes/assumptions/12.md), and that one
refused frame is one replay (notes/assumptions/64.md), are the model's choices. A retiring link goes DOWN when neither side has a request
unanswered. A peer's request is performed once, and its response kept until the peer acknowledges it. The host link comes up at a rate and a width
of PCI Express, with CXL from 32 GT/s on, and goes down. -/
def Obligations.LinkEvents : Prop :=
  (∀ (s : State) n, let l := s.link n
    let w := s.wakeUp
    n < 12 → s.inRecovery = false →
    (s.Completes (.linkTrain n) fun t => t = { w with links := t.links } ∧ (∀ k, k ≠ n → t.link k = s.link k) ∧
      t.link n = if l.state = .down ∧ (l.peer = 0 ∨ l.res ≠ 0) ∨ l.state = .failed ∧ l.res ≠ 0 then { l with err := 3 }
        else if l.state = .down ∨ l.state = .failed then { l with state := .training, err := 0 }
        else { l with err := 2 }) ∧
    (s.Completes (.linkRetire n) fun t => t = { w with links := t.links } ∧ (∀ k, k ≠ n → t.link k = s.link k) ∧
      t.link n = if l.state = .training then { l with state := .down, err := 0 }
        else if l.state = .up ∨ l.state = .degraded ∨ l.state = .retiring then { l with state := .retiring, err := 0 }
        else { l with err := 2 }) ∧
    (s.Completes (.linkReset n) fun t => t = { w with links := t.links } ∧ (∀ k, k ≠ n → t.link k = s.link k) ∧
      t.link n = if l.state = .failed then { l with state := .down, lanes := 0, err := 0 }
        else if l.state = .down ∨ l.state = .training then { l with state := .down, err := 0 }
        else { l with err := 2 })) ∧
  (∀ (s : State) n, let l := s.link n
    n < 12 → l.state = .training → s.icUp (linkDie n) = true →
    (s.Completes (.upOk n) fun t => t = { s with links := t.links } ∧ (∀ k, k ≠ n → t.link k = s.link k) ∧
      t.link n = { l with state := .up, lanes := 0xFF, rxSeq := 0, replayRun := 0, txSeq := 0, txBuf := [], txRun := 0, opn := [] }) ∧
    ∀ lanes, 4 ≤ goodLanes lanes → goodLanes lanes < 8 → s.Completes (.upHalf n lanes) fun t =>
      t = { s with links := t.links } ∧ (∀ k, k ≠ n → t.link k = s.link k) ∧
      t.link n = { l with state := .degraded, lanes := lanes, rxSeq := 0, replayRun := 0, txSeq := 0, txBuf := [], txRun := 0,
                           opn := [] }) ∧
  (∀ l : Link, l.state = .degraded → 4 ≤ goodLanes l.lanes → l.running.length = 4 ∧
    ∀ i ∈ l.running, l.lanes.getLsbD i = true ∧ ∀ j, j < i → l.lanes.getLsbD j = true → j ∈ l.running) ∧
  (∀ (s : State) n, let l := s.link n
    let fails := fun (why : LinkWhy) (x : Link) => s.Completes (.linkFail n why) fun t => t = { s with links := t.links } ∧
      (∀ k, k ≠ n → t.link k = s.link k) ∧ t.link n = x
    n < 12 → l.state = .training →
    fails .noPartner { l with state := .failed, err := 4 } ∧
    (∀ lanes, goodLanes lanes < 4 → fails (.fewLanes lanes) { l with state := .failed, lanes := lanes, err := 5 }) ∧
    ((∃ k, k < 12 ∧ k ≠ n ∧ (s.link k).peer = l.peer) → fails .peerClash { l with state := .failed, err := 6 })) ∧
  (∀ (s : State) n lanes, let l := s.link n
    n < 12 → l.state = .up ∨ l.state = .degraded ∨ l.state = .retiring → goodLanes lanes < 4 →
    exec (.linkFail n (.lost lanes)) s = .next ((s.setLink n fun l =>
      { l with losses := min (l.losses + goodLanes (l.lanes &&& ~~~lanes)) 65535 }).linkDead n lanes)) ∧
  (∀ (s : State) n lanes, let l := s.link n
    let s1 := s.setLink n fun l => { l with state := .failed, lanes := lanes, txBuf := [], txRun := 0, opn := [] }
    (l.peer = 0 → s.linkDead n lanes = s1) ∧
    (l.peer ≠ 0 → s1.routes l.peer.toNat ≠ [] → s.linkDead n lanes = s1.moveOpen l.opn) ∧
    (l.peer ≠ 0 → s1.routes l.peer.toNat = [] → s.linkDead n lanes = s1.peerLost l.peer.toNat ∧ (s.linkDead n lanes).regs.hPeer = true)) ∧
  (∀ (s : State) txn p ia l m, s.moveOpen [] = s ∧ s.moveOpen (l ++ m) = (s.moveOpen l).moveOpen m ∧
    (s.routes p ≠ [] → ∃ k ∈ s.routes p, (s.routes p)[ia / 2 ^ 8 % 256 % (s.routes p).length]? = some k ∧
      s.moveOpen [(txn, p, ia)] = s.setLink k fun x => ({ x with opn := x.opn ++ [(txn, p, ia)] } : Link).send 1)) ∧
  (∀ (s : State) n, let l := s.link n
    n < 12 → l.state = .retiring →
    (l.txBuf = [] → l.opn = [] → (s.routes l.peer.toNat ≠ [] ∨ (s.dir = [] ∧ s.dirQueue = [] ∧ s.dirRetry = [])) →
      s.Completes (.linkQuiet n) fun t => t = { s with links := t.links } ∧ (∀ k, k ≠ n → t.link k = s.link k) ∧ t.link n = { l with state := .down }) ∧
    (l.txBuf ≠ [] ∨ l.opn ≠ [] ∨ (s.routes l.peer.toNat = [] ∧ ∃ q ∈ s.dirQueue, q.slice = 63 + l.peer.toNat) → exec (.linkQuiet n) s = .next s)) ∧
  (∀ (s : State) n seq good sent ack nak ids, let l := s.link n
    n < 12 → l.state.carries = true → s.Completes (.skoenFrameReceive n ⟨seq, sent, ack, nak, ids⟩ good) fun t =>
      t = { s with links := t.links } ∧ (∀ k, k ≠ n → t.link k = s.link k) ∧
      t.link n = (let l1 := (l.send sent).received seq good
        let l2 := l1.acked ack nak
        if good then { l2 with opn := if seq = l.rxSeq then l2.opn.filter (fun e => !ids.contains e.1) else l2.opn } else l1)) ∧
  (∀ (l : Link) seq good, (seq ≠ l.rxSeq → l.received seq good = l) ∧
    l.received l.rxSeq good = if good then { l with rxSeq := (l.rxSeq + 1) % 4096, replayRun := 0 }
      else { l with replays := min (l.replays + 1) 65535, replayRun := l.replayRun + 1 }) ∧
  (∀ (l : Link) k, l.txSeq < 4096 → l.txBuf.length + k ≤ 64 →
    l.send k = { l with txBuf := l.txBuf ++ (List.range k).map (fun i => (l.txSeq + i) % 4096), txSeq := (l.txSeq + k) % 4096 }) ∧
  (∀ (l : Link) k, l.txBuf.length ≤ 64 → (l.send k).txBuf.length ≤ 64) ∧
  (∀ (l : Link) a ack b nak, l.txBuf = a ++ ack :: b → ack ∉ a → (l.acked ack nak).txBuf = ack :: b ∧
    (l.acked ack nak).replays = if nak then min (l.replays + 1) 65535 else l.replays) ∧
  (∀ (s : State) n bad, let l := s.link n
    let left := l.lanes &&& ~~~bad
    let s1 := s.setLink n fun _ => { l with
      lanes := left, losses := min (l.losses + goodLanes (l.lanes &&& bad)) 65535, replayRun := 0, txRun := 0,
      state := if l.state = .up ∧ goodLanes (l.lanes &&& bad) ≠ 0 then .degraded else l.state }
    n < 12 → l.state.carries = true → (16 ≤ l.replayRun ∨ 16 ≤ l.txRun) →
    (4 ≤ goodLanes left → exec (.linkRecalibrate n bad) s = .next s1) ∧
    (goodLanes left < 4 → exec (.linkRecalibrate n bad) s = .next (s1.linkDead n left))) ∧
  (∀ (s : State) p txn, s.inRecovery = false → s.routes p ≠ [] → exec (.peerRequest p txn .ack) s =
    .next { s.wakeUp with peerDone := s.peerDone.filter fun e => !(e.1 == p && e.2.1 == txn) }) ∧
  (∀ (s : State) p txn o, s.inRecovery = false → s.routes p ≠ [] → o ≠ .ack →
    ((∃ r, (p, txn, r) ∈ s.peerDone) → exec (.peerRequest p txn o) s = .next s.wakeUp) ∧
    (∀ s1 r, (∀ r', (p, txn, r') ∉ s.peerDone) → s.wakeUp.peerDo o = (s1, r) →
      exec (.peerRequest p txn o) s = .next { s1 with peerDone := s1.peerDone ++ [(p, txn, r)] })) ∧
  (∀ (s : State) rate width, 1 ≤ rate → rate ≤ 6 → width ∈ [1, 2, 4, 8, 16] → s.icUp 0 = true →
    s.Completes (.hostLinkUp rate width) fun t =>
      t = { s with regs := { s.regs with hlRate := rate, hlWidth := width, hlCxl := decide (5 ≤ rate) && !s.inRecovery } }) ∧
  (∀ (s : State), exec .hostLinkDown s = .next s.hostDown) ∧
  (∀ (s : State), s.dir = [] → s.hostDown = { s with regs := { s.regs with hlRate := 0, hlWidth := 0, hlCxl := false } })

/-! ## Firmware, power, units and reset (spec/20_power.md) -/

/-- R28, R29, R359, R465, R508, R509, R511 to R515, R517 to R520: INSTALL starts when no context is in use, and ends with the new version or a
status (what spoils a stored image is the model's choice: notes/assumptions/11.md); ARM and DISARM set the bit. An idle device begins to enter the
deepest power state that its tolerance allows; the entry goes on step by step, the cores' copies first, then die by die, until the state is reached;
a wake event stops it, or makes the device leave its state, for no longer than the exit latency. These steps, the bytes that a core loses and which
crossings are counted are the model's choices (notes/assumptions/56.md). A threshold is crossed upward or downward, and counted upward. The archive
is stored, and not under the fixed loader. Reset keeps memory but for the root node, the poison marks, the archive and the stored firmware
(notes/assumptions/26.md); a loss of power clears local memory and counts a reset. A unit, a channel or a port leaves service, with its health bit
set; what else goes with a unit is the model's choice (notes/assumptions/46.md). -/
def Obligations.PowerEvents : Prop :=
  (∀ (s : State), let w := s.wakeUp
    (s.fw.state = .running → (∀ e ∈ s.ctxs, e.2.state = .free) →
      exec .fwInstall s = .next { w with fw := { s.fw with state := .installing, began := .running, busy := true } }) ∧
    (s.fw.state = .recovery → exec .fwInstall s = .next { w with fw := { s.fw with state := .installing, began := .recovery, busy := true } }) ∧
    (s.fw.state = .installing ∨ (s.fw.state = .running ∧ ∃ e ∈ s.ctxs, e.2.state ≠ .free) →
      exec .fwInstall s = .next { w with fw := { s.fw with status := 2 } }) ∧
    exec .fwArm s = .next { w with fw := { s.fw with armed := true, status := 0 } } ∧
    exec .fwDisarm s = .next { w with fw := { s.fw with armed := false, status := 0 } }) ∧
  (∀ (s : State), s.fw.state = .installing →
    (s.imageReadable = true → s.imageGood = true → exec .fwWritten s =
      .next { s with fw :=
        { s.fw with state := s.fw.began, busy := false, status := 0, version := bytesAt s.imageBytes 4 4, image := bytesAt s.imageBytes 4 4,
                    valid := true } }) ∧
    (s.imageReadable = true → s.imageGood = false →
      exec (.fwFailed .badImage) s = .next { s with fw := { s.fw with state := s.fw.began, busy := false, status := 3 } }) ∧
    exec (.fwFailed .readFail) s = .next { s with fw := { s.fw with state := s.fw.began, busy := false, status := 4 } } ∧
    (s.imageGood = true → exec (.fwFailed .storeFail) s =
      .next { s with fw := { s.fw with state := s.fw.began, busy := false, status := 5, version := 0, valid := false } })) ∧
  (∀ (s : State), s.inRecovery = false → s.power.moving = false → let n := s.power.tol.toNat
    let enters := fun k => exec .powerStateEntry s = .next { s with power := { s.power with moving := true, goal := k } }
    (s.idle = false ∨ s.power.state ≠ 0 ∨ n = 0 → exec .powerStateEntry s = .next s) ∧
    (s.idle = true → s.power.state = 0 → (1 ≤ n → n < 50 → enters 1) ∧ (50 ≤ n → n < 2000 → enters 2) ∧
      (2000 ≤ n → n < 200000 ∨ s.power.retain = false ∨ s.emptyDies = none → enters 3) ∧
      (200000 ≤ n → s.power.retain = true → s.emptyDies ≠ none → enters 4))) ∧
  (∀ (s : State), s.inRecovery = false → s.power.moving = true →
    let reached := { s with power := { s.power with state := s.power.goal, moving := false, goal := 0 } }
    (s.power.goal = 0 → exec .powerStateEntry s = .next { s with power := { s.power with moving := false } }) ∧
    (s.power.goal ≠ 0 → s.idle = false → exec .powerStateEntry s = .next s.wakeUp) ∧
    (s.idle = true → (s.power.goal = 1 → exec .powerStateEntry s = .next reached) ∧
      (2 ≤ s.power.goal → (∃ e ∈ s.cores, e.2.powered = true) → exec .powerStateEntry s = .next s.coresOff) ∧
      ((∀ e ∈ s.cores, e.2.powered = false) → (s.power.goal = 2 ∨ s.power.goal = 3 → exec .powerStateEntry s = .next reached) ∧
        (s.power.goal = 4 → s.diesLeft = [] → exec .powerStateEntry s = .next reached) ∧
        (∀ d l, s.power.goal = 4 → s.diesLeft = d :: l → (∀ t, s.emptyDie d.1 d.2 = some t → exec .powerStateEntry s = .next t) ∧
          (s.emptyDie d.1 d.2 = none → s.Completes .powerStateEntry fun t => t.power.goal = 3 ∧ t.power.moving = true ∧ t.power.off = []))))) ∧
  (∀ (s : State), ∀ e ∈ s.coresOff.cores, e.2.l1 = [] ∧ e.2.icache = [] ∧ e.2.books = []) ∧
  (∀ (s : State) k l t, l < 16 → s.emptyDie k l = some t → t.power.off = s.power.off ++ [16 * k + l] ∧
    ∃ e, t.cxlEvents = s.cxlEvents ++ [e] ∧ e.add = false ∧ e.pool = k) ∧
  (∀ (s : State), (s.power.state = 0 → s.power.goal = 0 → exec .wakeEvent s = .next s) ∧
    (s.power.state ≠ 0 ∨ s.power.goal ≠ 0 → s.Completes .wakeEvent fun t =>
      t = { s with pools := t.pools, cxlEvents := t.cxlEvents, power :=
        { s.power with state := 0, moving := true, goal := 0, due := s.clk + exitLatency (max s.power.state s.power.goal) * 1100, off := [] } } ∧
      (s.power.off = [] → t.pools = s.pools ∧ t.cxlEvents = s.cxlEvents) ∧ t.cxlEvents.length = s.cxlEvents.length + s.power.off.length)) ∧
  (exitLatency 1 = 1 ∧ exitLatency 2 = 50 ∧ exitLatency 3 = 2000 ∧ exitLatency 4 = 200000) ∧
  (∀ (s : State) die thr, die < 512 → 1 ≤ thr → thr ≤ 3 →
    (s.power.thr.getD die 0 + 1 = thr → s.Completes (.thermalCrossing die thr true) fun t => t.power.thr.getD die 0 = thr ∧ t.mem = s.mem ∧
      (thr = 3 → t.power.cattemp = true) ∧ (2 ≤ thr → t.regs.hThermal = true) ∧ (thr = 1 → t.regs = s.regs ∧ t.msi = s.msi) ∧
      (s.inRecovery = false → t.arch.cross.getD thr 0 = min (s.arch.cross.getD thr 0 + 1) (2 ^ 64 - 1))) ∧
    (s.power.thr.getD die 0 = thr → s.Completes (.thermalCrossing die thr false) fun t => t.power.thr.getD die 0 = thr - 1 ∧
      t = { s with power := { s.power with thr := t.power.thr, cattemp := t.power.cattemp } })) ∧
  (∀ (s : State), s.inRecovery = false → s.Completes .archiveWrite fun t => t.archStored = t.arch ∧
    t = { s with arch := { s.arch with bands := t.arch.bands, soft := t.arch.soft }, archStored := t.archStored, freeCtr := s.freeCtr + 33 } ∧
    (s.arch.soft < 2 ^ 64 → s.arch.soft ≤ t.arch.soft ∧ t.arch.soft < 2 ^ 64)) ∧
  (∀ (s : State), s.inRecovery = true → exec .archiveWrite s = .next s ∧ ∀ k ch, exec (.channelRetire k ch) s = .next s) ∧
  (∀ (s : State) stks dies ics, s.Completes (.deviceReset stks dies ics) fun t => t = s.resetWith stks dies ics ∧ t.regs = .fresh stks dies ics ∧
    t.ctxs = [] ∧ t.queues = [] ∧ t.kernels = [] ∧ t.wgs = [] ∧ t.poison = s.poison ∧ t.arch = s.arch ∧ t.fw.version = 0 ∧ t.fw.image = s.fw.image ∧
    ∀ a, Memory.read t.mem a = if rootLpa stks * 4096 ≤ a ∧ a < rootLpa stks * 4096 + 65536 then 0 else Memory.read s.mem a) ∧
  (∀ (s : State), s.Completes .suddenPowerLoss fun t => t.regs = .fresh 0xFFFFFFFF 0xFF 3 ∧ t.ctxs = [] ∧ t.wgs = [] ∧
    t.arch = (if t.inRecovery then s.archStored else { s.archStored with resets := min (s.archStored.resets + 1) (2 ^ 64 - 1) }) ∧
    (∀ a, a < 2 ^ 44 ∨ (2 ^ 59 ≤ a ∧ a < 2 ^ 60) → Memory.read t.mem a = 0) ∧ ∀ a, 2 ^ 60 ≤ a → Memory.read t.mem a = Memory.read s.mem a) ∧
  (∀ (s : State) k, exec (.unitFailure (.stack k)) s = .next (s.loseStack k) ∧ exec (.unitFailure (.die k)) s = exec (.computeDieLoss k) s ∧
    exec (.unitFailure (.interchange k)) s = exec (.interchangeDieLoss k) s) ∧
  (∀ (s : State) k, k < 32 → s.regs.stacksUp.getLsbD k = true → (s.loseStack k).regs.hUnit = true) ∧
  (∀ (s : State) n, (s.sliceLost n).slice n = .zero) ∧
  (∀ (s : State) d, (s.dieUp d = false → exec (.computeDieLoss d) s = .next s) ∧
    (s.dieUp d = true → s.Completes (.computeDieLoss d) fun t => t = s.loseDie d ∧ t.regs.hUnit = true)) ∧
  (∀ (s : State) i, (s.icUp i = false → exec (.interchangeDieLoss i) s = .next s) ∧
    (s.icUp i = true → s.Completes (.interchangeDieLoss i) fun t => t = s.loseInterchange i ∧ t.regs.hUnit = true)) ∧
  (∀ (s : State) k ch, s.inRecovery = false → k < 32 → ch < 96 → s.regs.stacksUp.getLsbD k = true → ch ∉ s.arch.maps.getD (16 * k) [] →
    s.Completes (.channelRetire k ch) fun t => t.regs.hChannel = true ∧ 
      t.arch.retired = min ((s.retireFrames k ch).arch.retired + 1) (2 ^ 64 - 1) ∧
      t.pools = (s.retireFrames k ch).pools ∧ ch ∈ t.arch.maps.getD (16 * k) []) ∧
  (∀ (s : State) p, p < 2 → s.Completes (.capacityPortDown p) fun t => t = { s with pools := t.pools } ∧
    t.pool (32 + p) = { s.pool (32 + p) with up := false } ∧ ∀ k, k ≠ 32 + p → t.pool k = s.pool k)
end

