-- ==== Sys2Proof/Laws/State.lean ====
section
/-!
SUPPORT. What each update of the state leaves as it is, field by field, and reading a map after an update.
-/
namespace Sys2Proof

/-! ### Maps -/

namespace NMap
variable {α : Type}

@[simp] theorem get?_nil (k : Nat) : get? ([] : NMap α) k = none := rfl

theorem get?_cons (e : Nat × α) (m : NMap α) (k : Nat) : get? (e :: m) k = if e.1 = k then some e.2 else get? m k := rfl

theorem get?_set (m : NMap α) (k j : Nat) (a : α) : (m.set k a).get? j = if k = j then some a else m.get? j := by
  induction m with
  | nil => simp [set, get?]
  | cons e m ih =>
    obtain ⟨i, b⟩ := e
    simp only [set]
    split
    · simp [get?]
    · split
      · subst k; simp only [get?]; split <;> simp_all
      · simp only [get?, ih]; split <;> split <;> simp_all

@[simp] theorem get?_set_same (m : NMap α) (k : Nat) (a : α) : (m.set k a).get? k = some a := by simp [get?_set]

theorem get?_set_other (m : NMap α) {k j : Nat} (a : α) (h : k ≠ j) : (m.set k a).get? j = m.get? j := by simp [get?_set, h]

theorem getD_set (m : NMap α) (k j : Nat) (a d : α) : (m.set k a).getD j d = if k = j then a else m.getD j d := by
  simp only [getD, get?_set]; split <;> rfl

theorem getD_update (m : NMap α) (k j : Nat) (d : α) (f : α → α) :
    (m.update k d f).getD j d = if k = j then f (m.getD k d) else m.getD j d := by
  simp [update, getD_set]

theorem get?_erase (m : NMap α) (k j : Nat) : get? (m.erase k) j = if k = j then none else m.get? j := by
  induction m with
  | nil => simp [erase]
  | cons e m ih =>
    simp only [erase, List.filter_cons] at ih ⊢
    by_cases h : e.1 = k <;> by_cases h2 : k = j <;> simp_all [get?]

theorem has_set (m : NMap α) (k j : Nat) (a : α) : (m.set k a).has j = (decide (k = j) || m.has j) := by
  simp only [has, get?_set]; split <;> simp_all

end NMap

namespace Machine

/-! ### What an update leaves -/

@[simp] theorem State.setWg_clk (s : State) (w : Nat) (f : Wg → Wg) : (s.setWg w f).clk = s.clk := rfl
@[simp] theorem State.setWg_regs (s : State) (w : Nat) (f : Wg → Wg) : (s.setWg w f).regs = s.regs := rfl
@[simp] theorem State.setWg_ctxs (s : State) (w : Nat) (f : Wg → Wg) : (s.setWg w f).ctxs = s.ctxs := rfl
@[simp] theorem State.setWg_queues (s : State) (w : Nat) (f : Wg → Wg) : (s.setWg w f).queues = s.queues := rfl
@[simp] theorem State.setWg_kernels (s : State) (w : Nat) (f : Wg → Wg) : (s.setWg w f).kernels = s.kernels := rfl
@[simp] theorem State.setWg_saved (s : State) (w : Nat) (f : Wg → Wg) : (s.setWg w f).saved = s.saved := rfl
@[simp] theorem State.setWg_cores (s : State) (w : Nat) (f : Wg → Wg) : (s.setWg w f).cores = s.cores := rfl
@[simp] theorem State.setWg_slices (s : State) (w : Nat) (f : Wg → Wg) : (s.setWg w f).slices = s.slices := rfl
@[simp] theorem State.setWg_dir (s : State) (w : Nat) (f : Wg → Wg) : (s.setWg w f).dir = s.dir := rfl
@[simp] theorem State.setWg_dirVers (s : State) (w : Nat) (f : Wg → Wg) : (s.setWg w f).dirVers = s.dirVers := rfl
@[simp] theorem State.setWg_dirQueue (s : State) (w : Nat) (f : Wg → Wg) : (s.setWg w f).dirQueue = s.dirQueue := rfl
@[simp] theorem State.setWg_dirRetry (s : State) (w : Nat) (f : Wg → Wg) : (s.setWg w f).dirRetry = s.dirRetry := rfl
@[simp] theorem State.setWg_dirUse (s : State) (w : Nat) (f : Wg → Wg) : (s.setWg w f).dirUse = s.dirUse := rfl
@[simp] theorem State.setWg_pools (s : State) (w : Nat) (f : Wg → Wg) : (s.setWg w f).pools = s.pools := rfl
@[simp] theorem State.setWg_mem (s : State) (w : Nat) (f : Wg → Wg) : (s.setWg w f).mem = s.mem := rfl
@[simp] theorem State.setWg_poison (s : State) (w : Nat) (f : Wg → Wg) : (s.setWg w f).poison = s.poison := rfl
@[simp] theorem State.setWg_links (s : State) (w : Nat) (f : Wg → Wg) : (s.setWg w f).links = s.links := rfl
@[simp] theorem State.setWg_peerDone (s : State) (w : Nat) (f : Wg → Wg) : (s.setWg w f).peerDone = s.peerDone := rfl
@[simp] theorem State.setWg_txn (s : State) (w : Nat) (f : Wg → Wg) : (s.setWg w f).txn = s.txn := rfl
@[simp] theorem State.setWg_cxlEvents (s : State) (w : Nat) (f : Wg → Wg) : (s.setWg w f).cxlEvents = s.cxlEvents := rfl
@[simp] theorem State.setWg_homes (s : State) (w : Nat) (f : Wg → Wg) : (s.setWg w f).homes = s.homes := rfl
@[simp] theorem State.setWg_power (s : State) (w : Nat) (f : Wg → Wg) : (s.setWg w f).power = s.power := rfl
@[simp] theorem State.setWg_fw (s : State) (w : Nat) (f : Wg → Wg) : (s.setWg w f).fw = s.fw := rfl
@[simp] theorem State.setWg_arch (s : State) (w : Nat) (f : Wg → Wg) : (s.setWg w f).arch = s.arch := rfl
@[simp] theorem State.setWg_archStored (s : State) (w : Nat) (f : Wg → Wg) : (s.setWg w f).archStored = s.archStored := rfl
@[simp] theorem State.setWg_msi (s : State) (w : Nat) (f : Wg → Wg) : (s.setWg w f).msi = s.msi := rfl
@[simp] theorem State.setWg_wgSerial (s : State) (w : Nat) (f : Wg → Wg) : (s.setWg w f).wgSerial = s.wgSerial := rfl
@[simp] theorem State.setWg_kernOrder (s : State) (w : Nat) (f : Wg → Wg) : (s.setWg w f).kernOrder = s.kernOrder := rfl
@[simp] theorem State.setWg_agenda (s : State) (w : Nat) (f : Wg → Wg) : (s.setWg w f).agenda = s.agenda := rfl
@[simp] theorem State.setWg_turnNo (s : State) (w : Nat) (f : Wg → Wg) : (s.setWg w f).turnNo = s.turnNo := rfl
@[simp] theorem State.setWg_freeCtr (s : State) (w : Nat) (f : Wg → Wg) : (s.setWg w f).freeCtr = s.freeCtr := rfl
@[simp] theorem State.setWg_issue (s : State) (w : Nat) (f : Wg → Wg) : (s.setWg w f).issue = s.issue := rfl

@[simp] theorem State.setThread_clk (s : State) (w t : Nat) (f : Thread → Thread) : (s.setThread w t f).clk = s.clk := rfl
@[simp] theorem State.setThread_regs (s : State) (w t : Nat) (f : Thread → Thread) : (s.setThread w t f).regs = s.regs := rfl
@[simp] theorem State.setThread_ctxs (s : State) (w t : Nat) (f : Thread → Thread) : (s.setThread w t f).ctxs = s.ctxs := rfl
@[simp] theorem State.setThread_queues (s : State) (w t : Nat) (f : Thread → Thread) : (s.setThread w t f).queues = s.queues := rfl
@[simp] theorem State.setThread_kernels (s : State) (w t : Nat) (f : Thread → Thread) : (s.setThread w t f).kernels = s.kernels := rfl
@[simp] theorem State.setThread_saved (s : State) (w t : Nat) (f : Thread → Thread) : (s.setThread w t f).saved = s.saved := rfl
@[simp] theorem State.setThread_cores (s : State) (w t : Nat) (f : Thread → Thread) : (s.setThread w t f).cores = s.cores := rfl
@[simp] theorem State.setThread_slices (s : State) (w t : Nat) (f : Thread → Thread) : (s.setThread w t f).slices = s.slices := rfl
@[simp] theorem State.setThread_dir (s : State) (w t : Nat) (f : Thread → Thread) : (s.setThread w t f).dir = s.dir := rfl
@[simp] theorem State.setThread_dirVers (s : State) (w t : Nat) (f : Thread → Thread) : (s.setThread w t f).dirVers = s.dirVers := rfl
@[simp] theorem State.setThread_dirQueue (s : State) (w t : Nat) (f : Thread → Thread) : (s.setThread w t f).dirQueue = s.dirQueue := rfl
@[simp] theorem State.setThread_dirRetry (s : State) (w t : Nat) (f : Thread → Thread) : (s.setThread w t f).dirRetry = s.dirRetry := rfl
@[simp] theorem State.setThread_dirUse (s : State) (w t : Nat) (f : Thread → Thread) : (s.setThread w t f).dirUse = s.dirUse := rfl
@[simp] theorem State.setThread_pools (s : State) (w t : Nat) (f : Thread → Thread) : (s.setThread w t f).pools = s.pools := rfl
@[simp] theorem State.setThread_mem (s : State) (w t : Nat) (f : Thread → Thread) : (s.setThread w t f).mem = s.mem := rfl
@[simp] theorem State.setThread_poison (s : State) (w t : Nat) (f : Thread → Thread) : (s.setThread w t f).poison = s.poison := rfl
@[simp] theorem State.setThread_links (s : State) (w t : Nat) (f : Thread → Thread) : (s.setThread w t f).links = s.links := rfl
@[simp] theorem State.setThread_peerDone (s : State) (w t : Nat) (f : Thread → Thread) : (s.setThread w t f).peerDone = s.peerDone := rfl
@[simp] theorem State.setThread_txn (s : State) (w t : Nat) (f : Thread → Thread) : (s.setThread w t f).txn = s.txn := rfl
@[simp] theorem State.setThread_cxlEvents (s : State) (w t : Nat) (f : Thread → Thread) : (s.setThread w t f).cxlEvents = s.cxlEvents := rfl
@[simp] theorem State.setThread_homes (s : State) (w t : Nat) (f : Thread → Thread) : (s.setThread w t f).homes = s.homes := rfl
@[simp] theorem State.setThread_power (s : State) (w t : Nat) (f : Thread → Thread) : (s.setThread w t f).power = s.power := rfl
@[simp] theorem State.setThread_fw (s : State) (w t : Nat) (f : Thread → Thread) : (s.setThread w t f).fw = s.fw := rfl
@[simp] theorem State.setThread_arch (s : State) (w t : Nat) (f : Thread → Thread) : (s.setThread w t f).arch = s.arch := rfl
@[simp] theorem State.setThread_archStored (s : State) (w t : Nat) (f : Thread → Thread) : (s.setThread w t f).archStored = s.archStored := rfl
@[simp] theorem State.setThread_msi (s : State) (w t : Nat) (f : Thread → Thread) : (s.setThread w t f).msi = s.msi := rfl
@[simp] theorem State.setThread_wgSerial (s : State) (w t : Nat) (f : Thread → Thread) : (s.setThread w t f).wgSerial = s.wgSerial := rfl
@[simp] theorem State.setThread_kernOrder (s : State) (w t : Nat) (f : Thread → Thread) : (s.setThread w t f).kernOrder = s.kernOrder := rfl
@[simp] theorem State.setThread_agenda (s : State) (w t : Nat) (f : Thread → Thread) : (s.setThread w t f).agenda = s.agenda := rfl
@[simp] theorem State.setThread_turnNo (s : State) (w t : Nat) (f : Thread → Thread) : (s.setThread w t f).turnNo = s.turnNo := rfl
@[simp] theorem State.setThread_freeCtr (s : State) (w t : Nat) (f : Thread → Thread) : (s.setThread w t f).freeCtr = s.freeCtr := rfl
@[simp] theorem State.setThread_issue (s : State) (w t : Nat) (f : Thread → Thread) : (s.setThread w t f).issue = s.issue := rfl

@[simp] theorem State.setThreads_clk (s : State) (w : Nat) (l : List Nat) (f : Nat → Thread → Thread) : (s.setThreads w l f).clk = s.clk := rfl
@[simp] theorem State.setThreads_regs (s : State) (w : Nat) (l : List Nat) (f : Nat → Thread → Thread) : (s.setThreads w l f).regs = s.regs := rfl
@[simp] theorem State.setThreads_ctxs (s : State) (w : Nat) (l : List Nat) (f : Nat → Thread → Thread) : (s.setThreads w l f).ctxs = s.ctxs := rfl
@[simp] theorem State.setThreads_queues (s : State) (w : Nat) (l : List Nat) (f : Nat → Thread → Thread) : (s.setThreads w l f).queues = s.queues := rfl
@[simp] theorem State.setThreads_kernels (s : State) (w : Nat) (l : List Nat) (f : Nat → Thread → Thread) : (s.setThreads w l f).kernels = s.kernels := rfl
@[simp] theorem State.setThreads_saved (s : State) (w : Nat) (l : List Nat) (f : Nat → Thread → Thread) : (s.setThreads w l f).saved = s.saved := rfl
@[simp] theorem State.setThreads_cores (s : State) (w : Nat) (l : List Nat) (f : Nat → Thread → Thread) : (s.setThreads w l f).cores = s.cores := rfl
@[simp] theorem State.setThreads_slices (s : State) (w : Nat) (l : List Nat) (f : Nat → Thread → Thread) : (s.setThreads w l f).slices = s.slices := rfl
@[simp] theorem State.setThreads_dir (s : State) (w : Nat) (l : List Nat) (f : Nat → Thread → Thread) : (s.setThreads w l f).dir = s.dir := rfl
@[simp] theorem State.setThreads_dirVers (s : State) (w : Nat) (l : List Nat) (f : Nat → Thread → Thread) : (s.setThreads w l f).dirVers = s.dirVers := rfl
@[simp] theorem State.setThreads_dirQueue (s : State) (w : Nat) (l : List Nat) (f : Nat → Thread → Thread) : (s.setThreads w l f).dirQueue = s.dirQueue := rfl
@[simp] theorem State.setThreads_dirRetry (s : State) (w : Nat) (l : List Nat) (f : Nat → Thread → Thread) : (s.setThreads w l f).dirRetry = s.dirRetry := rfl
@[simp] theorem State.setThreads_dirUse (s : State) (w : Nat) (l : List Nat) (f : Nat → Thread → Thread) : (s.setThreads w l f).dirUse = s.dirUse := rfl
@[simp] theorem State.setThreads_pools (s : State) (w : Nat) (l : List Nat) (f : Nat → Thread → Thread) : (s.setThreads w l f).pools = s.pools := rfl
@[simp] theorem State.setThreads_mem (s : State) (w : Nat) (l : List Nat) (f : Nat → Thread → Thread) : (s.setThreads w l f).mem = s.mem := rfl
@[simp] theorem State.setThreads_poison (s : State) (w : Nat) (l : List Nat) (f : Nat → Thread → Thread) : (s.setThreads w l f).poison = s.poison := rfl
@[simp] theorem State.setThreads_links (s : State) (w : Nat) (l : List Nat) (f : Nat → Thread → Thread) : (s.setThreads w l f).links = s.links := rfl
@[simp] theorem State.setThreads_peerDone (s : State) (w : Nat) (l : List Nat) (f : Nat → Thread → Thread) : (s.setThreads w l f).peerDone = s.peerDone := rfl
@[simp] theorem State.setThreads_txn (s : State) (w : Nat) (l : List Nat) (f : Nat → Thread → Thread) : (s.setThreads w l f).txn = s.txn := rfl
@[simp] theorem State.setThreads_cxlEvents (s : State) (w : Nat) (l : List Nat) (f : Nat → Thread → Thread) : (s.setThreads w l f).cxlEvents = s.cxlEvents := rfl
@[simp] theorem State.setThreads_homes (s : State) (w : Nat) (l : List Nat) (f : Nat → Thread → Thread) : (s.setThreads w l f).homes = s.homes := rfl
@[simp] theorem State.setThreads_power (s : State) (w : Nat) (l : List Nat) (f : Nat → Thread → Thread) : (s.setThreads w l f).power = s.power := rfl
@[simp] theorem State.setThreads_fw (s : State) (w : Nat) (l : List Nat) (f : Nat → Thread → Thread) : (s.setThreads w l f).fw = s.fw := rfl
@[simp] theorem State.setThreads_arch (s : State) (w : Nat) (l : List Nat) (f : Nat → Thread → Thread) : (s.setThreads w l f).arch = s.arch := rfl
@[simp] theorem State.setThreads_archStored (s : State) (w : Nat) (l : List Nat) (f : Nat → Thread → Thread) : (s.setThreads w l f).archStored = s.archStored := rfl
@[simp] theorem State.setThreads_msi (s : State) (w : Nat) (l : List Nat) (f : Nat → Thread → Thread) : (s.setThreads w l f).msi = s.msi := rfl
@[simp] theorem State.setThreads_wgSerial (s : State) (w : Nat) (l : List Nat) (f : Nat → Thread → Thread) : (s.setThreads w l f).wgSerial = s.wgSerial := rfl
@[simp] theorem State.setThreads_kernOrder (s : State) (w : Nat) (l : List Nat) (f : Nat → Thread → Thread) : (s.setThreads w l f).kernOrder = s.kernOrder := rfl
@[simp] theorem State.setThreads_agenda (s : State) (w : Nat) (l : List Nat) (f : Nat → Thread → Thread) : (s.setThreads w l f).agenda = s.agenda := rfl
@[simp] theorem State.setThreads_turnNo (s : State) (w : Nat) (l : List Nat) (f : Nat → Thread → Thread) : (s.setThreads w l f).turnNo = s.turnNo := rfl
@[simp] theorem State.setThreads_freeCtr (s : State) (w : Nat) (l : List Nat) (f : Nat → Thread → Thread) : (s.setThreads w l f).freeCtr = s.freeCtr := rfl
@[simp] theorem State.setThreads_issue (s : State) (w : Nat) (l : List Nat) (f : Nat → Thread → Thread) : (s.setThreads w l f).issue = s.issue := rfl

@[simp] theorem State.setCore_clk (s : State) (c : Nat) (f : Core → Core) : (s.setCore c f).clk = s.clk := rfl
@[simp] theorem State.setCore_regs (s : State) (c : Nat) (f : Core → Core) : (s.setCore c f).regs = s.regs := rfl
@[simp] theorem State.setCore_ctxs (s : State) (c : Nat) (f : Core → Core) : (s.setCore c f).ctxs = s.ctxs := rfl
@[simp] theorem State.setCore_queues (s : State) (c : Nat) (f : Core → Core) : (s.setCore c f).queues = s.queues := rfl
@[simp] theorem State.setCore_kernels (s : State) (c : Nat) (f : Core → Core) : (s.setCore c f).kernels = s.kernels := rfl
@[simp] theorem State.setCore_wgs (s : State) (c : Nat) (f : Core → Core) : (s.setCore c f).wgs = s.wgs := rfl
@[simp] theorem State.setCore_saved (s : State) (c : Nat) (f : Core → Core) : (s.setCore c f).saved = s.saved := rfl
@[simp] theorem State.setCore_slices (s : State) (c : Nat) (f : Core → Core) : (s.setCore c f).slices = s.slices := rfl
@[simp] theorem State.setCore_dir (s : State) (c : Nat) (f : Core → Core) : (s.setCore c f).dir = s.dir := rfl
@[simp] theorem State.setCore_dirVers (s : State) (c : Nat) (f : Core → Core) : (s.setCore c f).dirVers = s.dirVers := rfl
@[simp] theorem State.setCore_dirQueue (s : State) (c : Nat) (f : Core → Core) : (s.setCore c f).dirQueue = s.dirQueue := rfl
@[simp] theorem State.setCore_dirRetry (s : State) (c : Nat) (f : Core → Core) : (s.setCore c f).dirRetry = s.dirRetry := rfl
@[simp] theorem State.setCore_dirUse (s : State) (c : Nat) (f : Core → Core) : (s.setCore c f).dirUse = s.dirUse := rfl
@[simp] theorem State.setCore_pools (s : State) (c : Nat) (f : Core → Core) : (s.setCore c f).pools = s.pools := rfl
@[simp] theorem State.setCore_mem (s : State) (c : Nat) (f : Core → Core) : (s.setCore c f).mem = s.mem := rfl
@[simp] theorem State.setCore_poison (s : State) (c : Nat) (f : Core → Core) : (s.setCore c f).poison = s.poison := rfl
@[simp] theorem State.setCore_links (s : State) (c : Nat) (f : Core → Core) : (s.setCore c f).links = s.links := rfl
@[simp] theorem State.setCore_peerDone (s : State) (c : Nat) (f : Core → Core) : (s.setCore c f).peerDone = s.peerDone := rfl
@[simp] theorem State.setCore_txn (s : State) (c : Nat) (f : Core → Core) : (s.setCore c f).txn = s.txn := rfl
@[simp] theorem State.setCore_cxlEvents (s : State) (c : Nat) (f : Core → Core) : (s.setCore c f).cxlEvents = s.cxlEvents := rfl
@[simp] theorem State.setCore_homes (s : State) (c : Nat) (f : Core → Core) : (s.setCore c f).homes = s.homes := rfl
@[simp] theorem State.setCore_power (s : State) (c : Nat) (f : Core → Core) : (s.setCore c f).power = s.power := rfl
@[simp] theorem State.setCore_fw (s : State) (c : Nat) (f : Core → Core) : (s.setCore c f).fw = s.fw := rfl
@[simp] theorem State.setCore_arch (s : State) (c : Nat) (f : Core → Core) : (s.setCore c f).arch = s.arch := rfl
@[simp] theorem State.setCore_archStored (s : State) (c : Nat) (f : Core → Core) : (s.setCore c f).archStored = s.archStored := rfl
@[simp] theorem State.setCore_msi (s : State) (c : Nat) (f : Core → Core) : (s.setCore c f).msi = s.msi := rfl
@[simp] theorem State.setCore_wgSerial (s : State) (c : Nat) (f : Core → Core) : (s.setCore c f).wgSerial = s.wgSerial := rfl
@[simp] theorem State.setCore_kernOrder (s : State) (c : Nat) (f : Core → Core) : (s.setCore c f).kernOrder = s.kernOrder := rfl
@[simp] theorem State.setCore_agenda (s : State) (c : Nat) (f : Core → Core) : (s.setCore c f).agenda = s.agenda := rfl
@[simp] theorem State.setCore_turnNo (s : State) (c : Nat) (f : Core → Core) : (s.setCore c f).turnNo = s.turnNo := rfl
@[simp] theorem State.setCore_freeCtr (s : State) (c : Nat) (f : Core → Core) : (s.setCore c f).freeCtr = s.freeCtr := rfl
@[simp] theorem State.setCore_issue (s : State) (c : Nat) (f : Core → Core) : (s.setCore c f).issue = s.issue := rfl

@[simp] theorem State.setSlice_clk (s : State) (n : Nat) (f : Slice → Slice) : (s.setSlice n f).clk = s.clk := rfl
@[simp] theorem State.setSlice_regs (s : State) (n : Nat) (f : Slice → Slice) : (s.setSlice n f).regs = s.regs := rfl
@[simp] theorem State.setSlice_ctxs (s : State) (n : Nat) (f : Slice → Slice) : (s.setSlice n f).ctxs = s.ctxs := rfl
@[simp] theorem State.setSlice_queues (s : State) (n : Nat) (f : Slice → Slice) : (s.setSlice n f).queues = s.queues := rfl
@[simp] theorem State.setSlice_kernels (s : State) (n : Nat) (f : Slice → Slice) : (s.setSlice n f).kernels = s.kernels := rfl
@[simp] theorem State.setSlice_wgs (s : State) (n : Nat) (f : Slice → Slice) : (s.setSlice n f).wgs = s.wgs := rfl
@[simp] theorem State.setSlice_saved (s : State) (n : Nat) (f : Slice → Slice) : (s.setSlice n f).saved = s.saved := rfl
@[simp] theorem State.setSlice_cores (s : State) (n : Nat) (f : Slice → Slice) : (s.setSlice n f).cores = s.cores := rfl
@[simp] theorem State.setSlice_dir (s : State) (n : Nat) (f : Slice → Slice) : (s.setSlice n f).dir = s.dir := rfl
@[simp] theorem State.setSlice_dirVers (s : State) (n : Nat) (f : Slice → Slice) : (s.setSlice n f).dirVers = s.dirVers := rfl
@[simp] theorem State.setSlice_dirQueue (s : State) (n : Nat) (f : Slice → Slice) : (s.setSlice n f).dirQueue = s.dirQueue := rfl
@[simp] theorem State.setSlice_dirRetry (s : State) (n : Nat) (f : Slice → Slice) : (s.setSlice n f).dirRetry = s.dirRetry := rfl
@[simp] theorem State.setSlice_dirUse (s : State) (n : Nat) (f : Slice → Slice) : (s.setSlice n f).dirUse = s.dirUse := rfl
@[simp] theorem State.setSlice_pools (s : State) (n : Nat) (f : Slice → Slice) : (s.setSlice n f).pools = s.pools := rfl
@[simp] theorem State.setSlice_mem (s : State) (n : Nat) (f : Slice → Slice) : (s.setSlice n f).mem = s.mem := rfl
@[simp] theorem State.setSlice_poison (s : State) (n : Nat) (f : Slice → Slice) : (s.setSlice n f).poison = s.poison := rfl
@[simp] theorem State.setSlice_links (s : State) (n : Nat) (f : Slice → Slice) : (s.setSlice n f).links = s.links := rfl
@[simp] theorem State.setSlice_peerDone (s : State) (n : Nat) (f : Slice → Slice) : (s.setSlice n f).peerDone = s.peerDone := rfl
@[simp] theorem State.setSlice_txn (s : State) (n : Nat) (f : Slice → Slice) : (s.setSlice n f).txn = s.txn := rfl
@[simp] theorem State.setSlice_cxlEvents (s : State) (n : Nat) (f : Slice → Slice) : (s.setSlice n f).cxlEvents = s.cxlEvents := rfl
@[simp] theorem State.setSlice_homes (s : State) (n : Nat) (f : Slice → Slice) : (s.setSlice n f).homes = s.homes := rfl
@[simp] theorem State.setSlice_power (s : State) (n : Nat) (f : Slice → Slice) : (s.setSlice n f).power = s.power := rfl
@[simp] theorem State.setSlice_fw (s : State) (n : Nat) (f : Slice → Slice) : (s.setSlice n f).fw = s.fw := rfl
@[simp] theorem State.setSlice_arch (s : State) (n : Nat) (f : Slice → Slice) : (s.setSlice n f).arch = s.arch := rfl
@[simp] theorem State.setSlice_archStored (s : State) (n : Nat) (f : Slice → Slice) : (s.setSlice n f).archStored = s.archStored := rfl
@[simp] theorem State.setSlice_msi (s : State) (n : Nat) (f : Slice → Slice) : (s.setSlice n f).msi = s.msi := rfl
@[simp] theorem State.setSlice_wgSerial (s : State) (n : Nat) (f : Slice → Slice) : (s.setSlice n f).wgSerial = s.wgSerial := rfl
@[simp] theorem State.setSlice_kernOrder (s : State) (n : Nat) (f : Slice → Slice) : (s.setSlice n f).kernOrder = s.kernOrder := rfl
@[simp] theorem State.setSlice_agenda (s : State) (n : Nat) (f : Slice → Slice) : (s.setSlice n f).agenda = s.agenda := rfl
@[simp] theorem State.setSlice_turnNo (s : State) (n : Nat) (f : Slice → Slice) : (s.setSlice n f).turnNo = s.turnNo := rfl
@[simp] theorem State.setSlice_freeCtr (s : State) (n : Nat) (f : Slice → Slice) : (s.setSlice n f).freeCtr = s.freeCtr := rfl
@[simp] theorem State.setSlice_issue (s : State) (n : Nat) (f : Slice → Slice) : (s.setSlice n f).issue = s.issue := rfl

@[simp] theorem State.setCtx_clk (s : State) (c : Nat) (f : Ctx → Ctx) : (s.setCtx c f).clk = s.clk := rfl
@[simp] theorem State.setCtx_regs (s : State) (c : Nat) (f : Ctx → Ctx) : (s.setCtx c f).regs = s.regs := rfl
@[simp] theorem State.setCtx_queues (s : State) (c : Nat) (f : Ctx → Ctx) : (s.setCtx c f).queues = s.queues := rfl
@[simp] theorem State.setCtx_kernels (s : State) (c : Nat) (f : Ctx → Ctx) : (s.setCtx c f).kernels = s.kernels := rfl
@[simp] theorem State.setCtx_wgs (s : State) (c : Nat) (f : Ctx → Ctx) : (s.setCtx c f).wgs = s.wgs := rfl
@[simp] theorem State.setCtx_saved (s : State) (c : Nat) (f : Ctx → Ctx) : (s.setCtx c f).saved = s.saved := rfl
@[simp] theorem State.setCtx_cores (s : State) (c : Nat) (f : Ctx → Ctx) : (s.setCtx c f).cores = s.cores := rfl
@[simp] theorem State.setCtx_slices (s : State) (c : Nat) (f : Ctx → Ctx) : (s.setCtx c f).slices = s.slices := rfl
@[simp] theorem State.setCtx_dir (s : State) (c : Nat) (f : Ctx → Ctx) : (s.setCtx c f).dir = s.dir := rfl
@[simp] theorem State.setCtx_dirVers (s : State) (c : Nat) (f : Ctx → Ctx) : (s.setCtx c f).dirVers = s.dirVers := rfl
@[simp] theorem State.setCtx_dirQueue (s : State) (c : Nat) (f : Ctx → Ctx) : (s.setCtx c f).dirQueue = s.dirQueue := rfl
@[simp] theorem State.setCtx_dirRetry (s : State) (c : Nat) (f : Ctx → Ctx) : (s.setCtx c f).dirRetry = s.dirRetry := rfl
@[simp] theorem State.setCtx_dirUse (s : State) (c : Nat) (f : Ctx → Ctx) : (s.setCtx c f).dirUse = s.dirUse := rfl
@[simp] theorem State.setCtx_pools (s : State) (c : Nat) (f : Ctx → Ctx) : (s.setCtx c f).pools = s.pools := rfl
@[simp] theorem State.setCtx_mem (s : State) (c : Nat) (f : Ctx → Ctx) : (s.setCtx c f).mem = s.mem := rfl
@[simp] theorem State.setCtx_poison (s : State) (c : Nat) (f : Ctx → Ctx) : (s.setCtx c f).poison = s.poison := rfl
@[simp] theorem State.setCtx_links (s : State) (c : Nat) (f : Ctx → Ctx) : (s.setCtx c f).links = s.links := rfl
@[simp] theorem State.setCtx_peerDone (s : State) (c : Nat) (f : Ctx → Ctx) : (s.setCtx c f).peerDone = s.peerDone := rfl
@[simp] theorem State.setCtx_txn (s : State) (c : Nat) (f : Ctx → Ctx) : (s.setCtx c f).txn = s.txn := rfl
@[simp] theorem State.setCtx_cxlEvents (s : State) (c : Nat) (f : Ctx → Ctx) : (s.setCtx c f).cxlEvents = s.cxlEvents := rfl
@[simp] theorem State.setCtx_homes (s : State) (c : Nat) (f : Ctx → Ctx) : (s.setCtx c f).homes = s.homes := rfl
@[simp] theorem State.setCtx_power (s : State) (c : Nat) (f : Ctx → Ctx) : (s.setCtx c f).power = s.power := rfl
@[simp] theorem State.setCtx_fw (s : State) (c : Nat) (f : Ctx → Ctx) : (s.setCtx c f).fw = s.fw := rfl
@[simp] theorem State.setCtx_arch (s : State) (c : Nat) (f : Ctx → Ctx) : (s.setCtx c f).arch = s.arch := rfl
@[simp] theorem State.setCtx_archStored (s : State) (c : Nat) (f : Ctx → Ctx) : (s.setCtx c f).archStored = s.archStored := rfl
@[simp] theorem State.setCtx_msi (s : State) (c : Nat) (f : Ctx → Ctx) : (s.setCtx c f).msi = s.msi := rfl
@[simp] theorem State.setCtx_wgSerial (s : State) (c : Nat) (f : Ctx → Ctx) : (s.setCtx c f).wgSerial = s.wgSerial := rfl
@[simp] theorem State.setCtx_kernOrder (s : State) (c : Nat) (f : Ctx → Ctx) : (s.setCtx c f).kernOrder = s.kernOrder := rfl
@[simp] theorem State.setCtx_agenda (s : State) (c : Nat) (f : Ctx → Ctx) : (s.setCtx c f).agenda = s.agenda := rfl
@[simp] theorem State.setCtx_turnNo (s : State) (c : Nat) (f : Ctx → Ctx) : (s.setCtx c f).turnNo = s.turnNo := rfl
@[simp] theorem State.setCtx_freeCtr (s : State) (c : Nat) (f : Ctx → Ctx) : (s.setCtx c f).freeCtr = s.freeCtr := rfl
@[simp] theorem State.setCtx_issue (s : State) (c : Nat) (f : Ctx → Ctx) : (s.setCtx c f).issue = s.issue := rfl

@[simp] theorem State.setQueue_clk (s : State) (q : Nat) (f : Queue → Queue) : (s.setQueue q f).clk = s.clk := rfl
@[simp] theorem State.setQueue_regs (s : State) (q : Nat) (f : Queue → Queue) : (s.setQueue q f).regs = s.regs := rfl
@[simp] theorem State.setQueue_ctxs (s : State) (q : Nat) (f : Queue → Queue) : (s.setQueue q f).ctxs = s.ctxs := rfl
@[simp] theorem State.setQueue_kernels (s : State) (q : Nat) (f : Queue → Queue) : (s.setQueue q f).kernels = s.kernels := rfl
@[simp] theorem State.setQueue_wgs (s : State) (q : Nat) (f : Queue → Queue) : (s.setQueue q f).wgs = s.wgs := rfl
@[simp] theorem State.setQueue_saved (s : State) (q : Nat) (f : Queue → Queue) : (s.setQueue q f).saved = s.saved := rfl
@[simp] theorem State.setQueue_cores (s : State) (q : Nat) (f : Queue → Queue) : (s.setQueue q f).cores = s.cores := rfl
@[simp] theorem State.setQueue_slices (s : State) (q : Nat) (f : Queue → Queue) : (s.setQueue q f).slices = s.slices := rfl
@[simp] theorem State.setQueue_dir (s : State) (q : Nat) (f : Queue → Queue) : (s.setQueue q f).dir = s.dir := rfl
@[simp] theorem State.setQueue_dirVers (s : State) (q : Nat) (f : Queue → Queue) : (s.setQueue q f).dirVers = s.dirVers := rfl
@[simp] theorem State.setQueue_dirQueue (s : State) (q : Nat) (f : Queue → Queue) : (s.setQueue q f).dirQueue = s.dirQueue := rfl
@[simp] theorem State.setQueue_dirRetry (s : State) (q : Nat) (f : Queue → Queue) : (s.setQueue q f).dirRetry = s.dirRetry := rfl
@[simp] theorem State.setQueue_dirUse (s : State) (q : Nat) (f : Queue → Queue) : (s.setQueue q f).dirUse = s.dirUse := rfl
@[simp] theorem State.setQueue_pools (s : State) (q : Nat) (f : Queue → Queue) : (s.setQueue q f).pools = s.pools := rfl
@[simp] theorem State.setQueue_mem (s : State) (q : Nat) (f : Queue → Queue) : (s.setQueue q f).mem = s.mem := rfl
@[simp] theorem State.setQueue_poison (s : State) (q : Nat) (f : Queue → Queue) : (s.setQueue q f).poison = s.poison := rfl
@[simp] theorem State.setQueue_links (s : State) (q : Nat) (f : Queue → Queue) : (s.setQueue q f).links = s.links := rfl
@[simp] theorem State.setQueue_peerDone (s : State) (q : Nat) (f : Queue → Queue) : (s.setQueue q f).peerDone = s.peerDone := rfl
@[simp] theorem State.setQueue_txn (s : State) (q : Nat) (f : Queue → Queue) : (s.setQueue q f).txn = s.txn := rfl
@[simp] theorem State.setQueue_cxlEvents (s : State) (q : Nat) (f : Queue → Queue) : (s.setQueue q f).cxlEvents = s.cxlEvents := rfl
@[simp] theorem State.setQueue_homes (s : State) (q : Nat) (f : Queue → Queue) : (s.setQueue q f).homes = s.homes := rfl
@[simp] theorem State.setQueue_power (s : State) (q : Nat) (f : Queue → Queue) : (s.setQueue q f).power = s.power := rfl
@[simp] theorem State.setQueue_fw (s : State) (q : Nat) (f : Queue → Queue) : (s.setQueue q f).fw = s.fw := rfl
@[simp] theorem State.setQueue_arch (s : State) (q : Nat) (f : Queue → Queue) : (s.setQueue q f).arch = s.arch := rfl
@[simp] theorem State.setQueue_archStored (s : State) (q : Nat) (f : Queue → Queue) : (s.setQueue q f).archStored = s.archStored := rfl
@[simp] theorem State.setQueue_msi (s : State) (q : Nat) (f : Queue → Queue) : (s.setQueue q f).msi = s.msi := rfl
@[simp] theorem State.setQueue_wgSerial (s : State) (q : Nat) (f : Queue → Queue) : (s.setQueue q f).wgSerial = s.wgSerial := rfl
@[simp] theorem State.setQueue_kernOrder (s : State) (q : Nat) (f : Queue → Queue) : (s.setQueue q f).kernOrder = s.kernOrder := rfl
@[simp] theorem State.setQueue_agenda (s : State) (q : Nat) (f : Queue → Queue) : (s.setQueue q f).agenda = s.agenda := rfl
@[simp] theorem State.setQueue_turnNo (s : State) (q : Nat) (f : Queue → Queue) : (s.setQueue q f).turnNo = s.turnNo := rfl
@[simp] theorem State.setQueue_freeCtr (s : State) (q : Nat) (f : Queue → Queue) : (s.setQueue q f).freeCtr = s.freeCtr := rfl
@[simp] theorem State.setQueue_issue (s : State) (q : Nat) (f : Queue → Queue) : (s.setQueue q f).issue = s.issue := rfl

@[simp] theorem State.setKern_clk (s : State) (h : Nat) (f : Kern → Kern) : (s.setKern h f).clk = s.clk := rfl
@[simp] theorem State.setKern_regs (s : State) (h : Nat) (f : Kern → Kern) : (s.setKern h f).regs = s.regs := rfl
@[simp] theorem State.setKern_ctxs (s : State) (h : Nat) (f : Kern → Kern) : (s.setKern h f).ctxs = s.ctxs := rfl
@[simp] theorem State.setKern_queues (s : State) (h : Nat) (f : Kern → Kern) : (s.setKern h f).queues = s.queues := rfl
@[simp] theorem State.setKern_wgs (s : State) (h : Nat) (f : Kern → Kern) : (s.setKern h f).wgs = s.wgs := rfl
@[simp] theorem State.setKern_saved (s : State) (h : Nat) (f : Kern → Kern) : (s.setKern h f).saved = s.saved := rfl
@[simp] theorem State.setKern_cores (s : State) (h : Nat) (f : Kern → Kern) : (s.setKern h f).cores = s.cores := rfl
@[simp] theorem State.setKern_slices (s : State) (h : Nat) (f : Kern → Kern) : (s.setKern h f).slices = s.slices := rfl
@[simp] theorem State.setKern_dir (s : State) (h : Nat) (f : Kern → Kern) : (s.setKern h f).dir = s.dir := rfl
@[simp] theorem State.setKern_dirVers (s : State) (h : Nat) (f : Kern → Kern) : (s.setKern h f).dirVers = s.dirVers := rfl
@[simp] theorem State.setKern_dirQueue (s : State) (h : Nat) (f : Kern → Kern) : (s.setKern h f).dirQueue = s.dirQueue := rfl
@[simp] theorem State.setKern_dirRetry (s : State) (h : Nat) (f : Kern → Kern) : (s.setKern h f).dirRetry = s.dirRetry := rfl
@[simp] theorem State.setKern_dirUse (s : State) (h : Nat) (f : Kern → Kern) : (s.setKern h f).dirUse = s.dirUse := rfl
@[simp] theorem State.setKern_pools (s : State) (h : Nat) (f : Kern → Kern) : (s.setKern h f).pools = s.pools := rfl
@[simp] theorem State.setKern_mem (s : State) (h : Nat) (f : Kern → Kern) : (s.setKern h f).mem = s.mem := rfl
@[simp] theorem State.setKern_poison (s : State) (h : Nat) (f : Kern → Kern) : (s.setKern h f).poison = s.poison := rfl
@[simp] theorem State.setKern_links (s : State) (h : Nat) (f : Kern → Kern) : (s.setKern h f).links = s.links := rfl
@[simp] theorem State.setKern_peerDone (s : State) (h : Nat) (f : Kern → Kern) : (s.setKern h f).peerDone = s.peerDone := rfl
@[simp] theorem State.setKern_txn (s : State) (h : Nat) (f : Kern → Kern) : (s.setKern h f).txn = s.txn := rfl
@[simp] theorem State.setKern_cxlEvents (s : State) (h : Nat) (f : Kern → Kern) : (s.setKern h f).cxlEvents = s.cxlEvents := rfl
@[simp] theorem State.setKern_homes (s : State) (h : Nat) (f : Kern → Kern) : (s.setKern h f).homes = s.homes := rfl
@[simp] theorem State.setKern_power (s : State) (h : Nat) (f : Kern → Kern) : (s.setKern h f).power = s.power := rfl
@[simp] theorem State.setKern_fw (s : State) (h : Nat) (f : Kern → Kern) : (s.setKern h f).fw = s.fw := rfl
@[simp] theorem State.setKern_arch (s : State) (h : Nat) (f : Kern → Kern) : (s.setKern h f).arch = s.arch := rfl
@[simp] theorem State.setKern_archStored (s : State) (h : Nat) (f : Kern → Kern) : (s.setKern h f).archStored = s.archStored := rfl
@[simp] theorem State.setKern_msi (s : State) (h : Nat) (f : Kern → Kern) : (s.setKern h f).msi = s.msi := rfl
@[simp] theorem State.setKern_wgSerial (s : State) (h : Nat) (f : Kern → Kern) : (s.setKern h f).wgSerial = s.wgSerial := rfl
@[simp] theorem State.setKern_kernOrder (s : State) (h : Nat) (f : Kern → Kern) : (s.setKern h f).kernOrder = s.kernOrder := rfl
@[simp] theorem State.setKern_agenda (s : State) (h : Nat) (f : Kern → Kern) : (s.setKern h f).agenda = s.agenda := rfl
@[simp] theorem State.setKern_turnNo (s : State) (h : Nat) (f : Kern → Kern) : (s.setKern h f).turnNo = s.turnNo := rfl
@[simp] theorem State.setKern_freeCtr (s : State) (h : Nat) (f : Kern → Kern) : (s.setKern h f).freeCtr = s.freeCtr := rfl
@[simp] theorem State.setKern_issue (s : State) (h : Nat) (f : Kern → Kern) : (s.setKern h f).issue = s.issue := rfl

@[simp] theorem State.setPool_clk (s : State) (k : Nat) (f : Pool → Pool) : (s.setPool k f).clk = s.clk := rfl
@[simp] theorem State.setPool_regs (s : State) (k : Nat) (f : Pool → Pool) : (s.setPool k f).regs = s.regs := rfl
@[simp] theorem State.setPool_ctxs (s : State) (k : Nat) (f : Pool → Pool) : (s.setPool k f).ctxs = s.ctxs := rfl
@[simp] theorem State.setPool_queues (s : State) (k : Nat) (f : Pool → Pool) : (s.setPool k f).queues = s.queues := rfl
@[simp] theorem State.setPool_kernels (s : State) (k : Nat) (f : Pool → Pool) : (s.setPool k f).kernels = s.kernels := rfl
@[simp] theorem State.setPool_wgs (s : State) (k : Nat) (f : Pool → Pool) : (s.setPool k f).wgs = s.wgs := rfl
@[simp] theorem State.setPool_saved (s : State) (k : Nat) (f : Pool → Pool) : (s.setPool k f).saved = s.saved := rfl
@[simp] theorem State.setPool_cores (s : State) (k : Nat) (f : Pool → Pool) : (s.setPool k f).cores = s.cores := rfl
@[simp] theorem State.setPool_slices (s : State) (k : Nat) (f : Pool → Pool) : (s.setPool k f).slices = s.slices := rfl
@[simp] theorem State.setPool_dir (s : State) (k : Nat) (f : Pool → Pool) : (s.setPool k f).dir = s.dir := rfl
@[simp] theorem State.setPool_dirVers (s : State) (k : Nat) (f : Pool → Pool) : (s.setPool k f).dirVers = s.dirVers := rfl
@[simp] theorem State.setPool_dirQueue (s : State) (k : Nat) (f : Pool → Pool) : (s.setPool k f).dirQueue = s.dirQueue := rfl
@[simp] theorem State.setPool_dirRetry (s : State) (k : Nat) (f : Pool → Pool) : (s.setPool k f).dirRetry = s.dirRetry := rfl
@[simp] theorem State.setPool_dirUse (s : State) (k : Nat) (f : Pool → Pool) : (s.setPool k f).dirUse = s.dirUse := rfl
@[simp] theorem State.setPool_mem (s : State) (k : Nat) (f : Pool → Pool) : (s.setPool k f).mem = s.mem := rfl
@[simp] theorem State.setPool_poison (s : State) (k : Nat) (f : Pool → Pool) : (s.setPool k f).poison = s.poison := rfl
@[simp] theorem State.setPool_links (s : State) (k : Nat) (f : Pool → Pool) : (s.setPool k f).links = s.links := rfl
@[simp] theorem State.setPool_peerDone (s : State) (k : Nat) (f : Pool → Pool) : (s.setPool k f).peerDone = s.peerDone := rfl
@[simp] theorem State.setPool_txn (s : State) (k : Nat) (f : Pool → Pool) : (s.setPool k f).txn = s.txn := rfl
@[simp] theorem State.setPool_cxlEvents (s : State) (k : Nat) (f : Pool → Pool) : (s.setPool k f).cxlEvents = s.cxlEvents := rfl
@[simp] theorem State.setPool_homes (s : State) (k : Nat) (f : Pool → Pool) : (s.setPool k f).homes = s.homes := rfl
@[simp] theorem State.setPool_power (s : State) (k : Nat) (f : Pool → Pool) : (s.setPool k f).power = s.power := rfl
@[simp] theorem State.setPool_fw (s : State) (k : Nat) (f : Pool → Pool) : (s.setPool k f).fw = s.fw := rfl
@[simp] theorem State.setPool_arch (s : State) (k : Nat) (f : Pool → Pool) : (s.setPool k f).arch = s.arch := rfl
@[simp] theorem State.setPool_archStored (s : State) (k : Nat) (f : Pool → Pool) : (s.setPool k f).archStored = s.archStored := rfl
@[simp] theorem State.setPool_msi (s : State) (k : Nat) (f : Pool → Pool) : (s.setPool k f).msi = s.msi := rfl
@[simp] theorem State.setPool_wgSerial (s : State) (k : Nat) (f : Pool → Pool) : (s.setPool k f).wgSerial = s.wgSerial := rfl
@[simp] theorem State.setPool_kernOrder (s : State) (k : Nat) (f : Pool → Pool) : (s.setPool k f).kernOrder = s.kernOrder := rfl
@[simp] theorem State.setPool_agenda (s : State) (k : Nat) (f : Pool → Pool) : (s.setPool k f).agenda = s.agenda := rfl
@[simp] theorem State.setPool_turnNo (s : State) (k : Nat) (f : Pool → Pool) : (s.setPool k f).turnNo = s.turnNo := rfl
@[simp] theorem State.setPool_freeCtr (s : State) (k : Nat) (f : Pool → Pool) : (s.setPool k f).freeCtr = s.freeCtr := rfl
@[simp] theorem State.setPool_issue (s : State) (k : Nat) (f : Pool → Pool) : (s.setPool k f).issue = s.issue := rfl

@[simp] theorem State.setLink_clk (s : State) (n : Nat) (f : Link → Link) : (s.setLink n f).clk = s.clk := rfl
@[simp] theorem State.setLink_regs (s : State) (n : Nat) (f : Link → Link) : (s.setLink n f).regs = s.regs := rfl
@[simp] theorem State.setLink_ctxs (s : State) (n : Nat) (f : Link → Link) : (s.setLink n f).ctxs = s.ctxs := rfl
@[simp] theorem State.setLink_queues (s : State) (n : Nat) (f : Link → Link) : (s.setLink n f).queues = s.queues := rfl
@[simp] theorem State.setLink_kernels (s : State) (n : Nat) (f : Link → Link) : (s.setLink n f).kernels = s.kernels := rfl
@[simp] theorem State.setLink_wgs (s : State) (n : Nat) (f : Link → Link) : (s.setLink n f).wgs = s.wgs := rfl
@[simp] theorem State.setLink_saved (s : State) (n : Nat) (f : Link → Link) : (s.setLink n f).saved = s.saved := rfl
@[simp] theorem State.setLink_cores (s : State) (n : Nat) (f : Link → Link) : (s.setLink n f).cores = s.cores := rfl
@[simp] theorem State.setLink_slices (s : State) (n : Nat) (f : Link → Link) : (s.setLink n f).slices = s.slices := rfl
@[simp] theorem State.setLink_dir (s : State) (n : Nat) (f : Link → Link) : (s.setLink n f).dir = s.dir := rfl
@[simp] theorem State.setLink_dirVers (s : State) (n : Nat) (f : Link → Link) : (s.setLink n f).dirVers = s.dirVers := rfl
@[simp] theorem State.setLink_dirQueue (s : State) (n : Nat) (f : Link → Link) : (s.setLink n f).dirQueue = s.dirQueue := rfl
@[simp] theorem State.setLink_dirRetry (s : State) (n : Nat) (f : Link → Link) : (s.setLink n f).dirRetry = s.dirRetry := rfl
@[simp] theorem State.setLink_dirUse (s : State) (n : Nat) (f : Link → Link) : (s.setLink n f).dirUse = s.dirUse := rfl
@[simp] theorem State.setLink_pools (s : State) (n : Nat) (f : Link → Link) : (s.setLink n f).pools = s.pools := rfl
@[simp] theorem State.setLink_mem (s : State) (n : Nat) (f : Link → Link) : (s.setLink n f).mem = s.mem := rfl
@[simp] theorem State.setLink_poison (s : State) (n : Nat) (f : Link → Link) : (s.setLink n f).poison = s.poison := rfl
@[simp] theorem State.setLink_peerDone (s : State) (n : Nat) (f : Link → Link) : (s.setLink n f).peerDone = s.peerDone := rfl
@[simp] theorem State.setLink_txn (s : State) (n : Nat) (f : Link → Link) : (s.setLink n f).txn = s.txn := rfl
@[simp] theorem State.setLink_cxlEvents (s : State) (n : Nat) (f : Link → Link) : (s.setLink n f).cxlEvents = s.cxlEvents := rfl
@[simp] theorem State.setLink_homes (s : State) (n : Nat) (f : Link → Link) : (s.setLink n f).homes = s.homes := rfl
@[simp] theorem State.setLink_power (s : State) (n : Nat) (f : Link → Link) : (s.setLink n f).power = s.power := rfl
@[simp] theorem State.setLink_fw (s : State) (n : Nat) (f : Link → Link) : (s.setLink n f).fw = s.fw := rfl
@[simp] theorem State.setLink_arch (s : State) (n : Nat) (f : Link → Link) : (s.setLink n f).arch = s.arch := rfl
@[simp] theorem State.setLink_archStored (s : State) (n : Nat) (f : Link → Link) : (s.setLink n f).archStored = s.archStored := rfl
@[simp] theorem State.setLink_msi (s : State) (n : Nat) (f : Link → Link) : (s.setLink n f).msi = s.msi := rfl
@[simp] theorem State.setLink_wgSerial (s : State) (n : Nat) (f : Link → Link) : (s.setLink n f).wgSerial = s.wgSerial := rfl
@[simp] theorem State.setLink_kernOrder (s : State) (n : Nat) (f : Link → Link) : (s.setLink n f).kernOrder = s.kernOrder := rfl
@[simp] theorem State.setLink_agenda (s : State) (n : Nat) (f : Link → Link) : (s.setLink n f).agenda = s.agenda := rfl
@[simp] theorem State.setLink_turnNo (s : State) (n : Nat) (f : Link → Link) : (s.setLink n f).turnNo = s.turnNo := rfl
@[simp] theorem State.setLink_freeCtr (s : State) (n : Nat) (f : Link → Link) : (s.setLink n f).freeCtr = s.freeCtr := rfl
@[simp] theorem State.setLink_issue (s : State) (n : Nat) (f : Link → Link) : (s.setLink n f).issue = s.issue := rfl

@[simp] theorem State.count_clk (s : State) (c k : Nat) : (s.count c k).clk = s.clk := rfl
@[simp] theorem State.count_regs (s : State) (c k : Nat) : (s.count c k).regs = s.regs := rfl
@[simp] theorem State.count_ctxs (s : State) (c k : Nat) : (s.count c k).ctxs = s.ctxs := rfl
@[simp] theorem State.count_queues (s : State) (c k : Nat) : (s.count c k).queues = s.queues := rfl
@[simp] theorem State.count_kernels (s : State) (c k : Nat) : (s.count c k).kernels = s.kernels := rfl
@[simp] theorem State.count_wgs (s : State) (c k : Nat) : (s.count c k).wgs = s.wgs := rfl
@[simp] theorem State.count_saved (s : State) (c k : Nat) : (s.count c k).saved = s.saved := rfl
@[simp] theorem State.count_slices (s : State) (c k : Nat) : (s.count c k).slices = s.slices := rfl
@[simp] theorem State.count_dir (s : State) (c k : Nat) : (s.count c k).dir = s.dir := rfl
@[simp] theorem State.count_dirVers (s : State) (c k : Nat) : (s.count c k).dirVers = s.dirVers := rfl
@[simp] theorem State.count_dirQueue (s : State) (c k : Nat) : (s.count c k).dirQueue = s.dirQueue := rfl
@[simp] theorem State.count_dirRetry (s : State) (c k : Nat) : (s.count c k).dirRetry = s.dirRetry := rfl
@[simp] theorem State.count_dirUse (s : State) (c k : Nat) : (s.count c k).dirUse = s.dirUse := rfl
@[simp] theorem State.count_pools (s : State) (c k : Nat) : (s.count c k).pools = s.pools := rfl
@[simp] theorem State.count_mem (s : State) (c k : Nat) : (s.count c k).mem = s.mem := rfl
@[simp] theorem State.count_poison (s : State) (c k : Nat) : (s.count c k).poison = s.poison := rfl
@[simp] theorem State.count_links (s : State) (c k : Nat) : (s.count c k).links = s.links := rfl
@[simp] theorem State.count_peerDone (s : State) (c k : Nat) : (s.count c k).peerDone = s.peerDone := rfl
@[simp] theorem State.count_txn (s : State) (c k : Nat) : (s.count c k).txn = s.txn := rfl
@[simp] theorem State.count_cxlEvents (s : State) (c k : Nat) : (s.count c k).cxlEvents = s.cxlEvents := rfl
@[simp] theorem State.count_homes (s : State) (c k : Nat) : (s.count c k).homes = s.homes := rfl
@[simp] theorem State.count_power (s : State) (c k : Nat) : (s.count c k).power = s.power := rfl
@[simp] theorem State.count_fw (s : State) (c k : Nat) : (s.count c k).fw = s.fw := rfl
@[simp] theorem State.count_arch (s : State) (c k : Nat) : (s.count c k).arch = s.arch := rfl
@[simp] theorem State.count_archStored (s : State) (c k : Nat) : (s.count c k).archStored = s.archStored := rfl
@[simp] theorem State.count_msi (s : State) (c k : Nat) : (s.count c k).msi = s.msi := rfl
@[simp] theorem State.count_wgSerial (s : State) (c k : Nat) : (s.count c k).wgSerial = s.wgSerial := rfl
@[simp] theorem State.count_kernOrder (s : State) (c k : Nat) : (s.count c k).kernOrder = s.kernOrder := rfl
@[simp] theorem State.count_agenda (s : State) (c k : Nat) : (s.count c k).agenda = s.agenda := rfl
@[simp] theorem State.count_turnNo (s : State) (c k : Nat) : (s.count c k).turnNo = s.turnNo := rfl
@[simp] theorem State.count_freeCtr (s : State) (c k : Nat) : (s.count c k).freeCtr = s.freeCtr := rfl
@[simp] theorem State.count_issue (s : State) (c k : Nat) : (s.count c k).issue = s.issue := rfl

@[simp] theorem State.advance_clk (s : State) : (s.advance).clk = s.clk := rfl
@[simp] theorem State.advance_regs (s : State) : (s.advance).regs = s.regs := rfl
@[simp] theorem State.advance_ctxs (s : State) : (s.advance).ctxs = s.ctxs := rfl
@[simp] theorem State.advance_queues (s : State) : (s.advance).queues = s.queues := rfl
@[simp] theorem State.advance_kernels (s : State) : (s.advance).kernels = s.kernels := rfl
@[simp] theorem State.advance_saved (s : State) : (s.advance).saved = s.saved := rfl
@[simp] theorem State.advance_cores (s : State) : (s.advance).cores = s.cores := rfl
@[simp] theorem State.advance_slices (s : State) : (s.advance).slices = s.slices := rfl
@[simp] theorem State.advance_dir (s : State) : (s.advance).dir = s.dir := rfl
@[simp] theorem State.advance_dirVers (s : State) : (s.advance).dirVers = s.dirVers := rfl
@[simp] theorem State.advance_dirQueue (s : State) : (s.advance).dirQueue = s.dirQueue := rfl
@[simp] theorem State.advance_dirRetry (s : State) : (s.advance).dirRetry = s.dirRetry := rfl
@[simp] theorem State.advance_dirUse (s : State) : (s.advance).dirUse = s.dirUse := rfl
@[simp] theorem State.advance_pools (s : State) : (s.advance).pools = s.pools := rfl
@[simp] theorem State.advance_mem (s : State) : (s.advance).mem = s.mem := rfl
@[simp] theorem State.advance_poison (s : State) : (s.advance).poison = s.poison := rfl
@[simp] theorem State.advance_links (s : State) : (s.advance).links = s.links := rfl
@[simp] theorem State.advance_peerDone (s : State) : (s.advance).peerDone = s.peerDone := rfl
@[simp] theorem State.advance_txn (s : State) : (s.advance).txn = s.txn := rfl
@[simp] theorem State.advance_cxlEvents (s : State) : (s.advance).cxlEvents = s.cxlEvents := rfl
@[simp] theorem State.advance_homes (s : State) : (s.advance).homes = s.homes := rfl
@[simp] theorem State.advance_power (s : State) : (s.advance).power = s.power := rfl
@[simp] theorem State.advance_fw (s : State) : (s.advance).fw = s.fw := rfl
@[simp] theorem State.advance_arch (s : State) : (s.advance).arch = s.arch := rfl
@[simp] theorem State.advance_archStored (s : State) : (s.advance).archStored = s.archStored := rfl
@[simp] theorem State.advance_msi (s : State) : (s.advance).msi = s.msi := rfl
@[simp] theorem State.advance_wgSerial (s : State) : (s.advance).wgSerial = s.wgSerial := rfl
@[simp] theorem State.advance_kernOrder (s : State) : (s.advance).kernOrder = s.kernOrder := rfl
@[simp] theorem State.advance_agenda (s : State) : (s.advance).agenda = s.agenda := rfl
@[simp] theorem State.advance_turnNo (s : State) : (s.advance).turnNo = s.turnNo := rfl
@[simp] theorem State.advance_freeCtr (s : State) : (s.advance).freeCtr = s.freeCtr := rfl
@[simp] theorem State.advance_issue (s : State) : (s.advance).issue = s.issue := rfl

@[simp] theorem State.enterHandler_clk (s : State) (w : Nat) (l : List Nat) (pc cause : Nat) : (s.enterHandler w l pc cause).clk = s.clk := rfl
@[simp] theorem State.enterHandler_regs (s : State) (w : Nat) (l : List Nat) (pc cause : Nat) : (s.enterHandler w l pc cause).regs = s.regs := rfl
@[simp] theorem State.enterHandler_ctxs (s : State) (w : Nat) (l : List Nat) (pc cause : Nat) : (s.enterHandler w l pc cause).ctxs = s.ctxs := rfl
@[simp] theorem State.enterHandler_queues (s : State) (w : Nat) (l : List Nat) (pc cause : Nat) : (s.enterHandler w l pc cause).queues = s.queues := rfl
@[simp] theorem State.enterHandler_kernels (s : State) (w : Nat) (l : List Nat) (pc cause : Nat) : (s.enterHandler w l pc cause).kernels = s.kernels := rfl
@[simp] theorem State.enterHandler_saved (s : State) (w : Nat) (l : List Nat) (pc cause : Nat) : (s.enterHandler w l pc cause).saved = s.saved := rfl
@[simp] theorem State.enterHandler_cores (s : State) (w : Nat) (l : List Nat) (pc cause : Nat) : (s.enterHandler w l pc cause).cores = s.cores := rfl
@[simp] theorem State.enterHandler_slices (s : State) (w : Nat) (l : List Nat) (pc cause : Nat) : (s.enterHandler w l pc cause).slices = s.slices := rfl
@[simp] theorem State.enterHandler_dir (s : State) (w : Nat) (l : List Nat) (pc cause : Nat) : (s.enterHandler w l pc cause).dir = s.dir := rfl
@[simp] theorem State.enterHandler_dirVers (s : State) (w : Nat) (l : List Nat) (pc cause : Nat) : (s.enterHandler w l pc cause).dirVers = s.dirVers := rfl
@[simp] theorem State.enterHandler_dirQueue (s : State) (w : Nat) (l : List Nat) (pc cause : Nat) : (s.enterHandler w l pc cause).dirQueue = s.dirQueue := rfl
@[simp] theorem State.enterHandler_dirRetry (s : State) (w : Nat) (l : List Nat) (pc cause : Nat) : (s.enterHandler w l pc cause).dirRetry = s.dirRetry := rfl
@[simp] theorem State.enterHandler_dirUse (s : State) (w : Nat) (l : List Nat) (pc cause : Nat) : (s.enterHandler w l pc cause).dirUse = s.dirUse := rfl
@[simp] theorem State.enterHandler_pools (s : State) (w : Nat) (l : List Nat) (pc cause : Nat) : (s.enterHandler w l pc cause).pools = s.pools := rfl
@[simp] theorem State.enterHandler_mem (s : State) (w : Nat) (l : List Nat) (pc cause : Nat) : (s.enterHandler w l pc cause).mem = s.mem := rfl
@[simp] theorem State.enterHandler_poison (s : State) (w : Nat) (l : List Nat) (pc cause : Nat) : (s.enterHandler w l pc cause).poison = s.poison := rfl
@[simp] theorem State.enterHandler_links (s : State) (w : Nat) (l : List Nat) (pc cause : Nat) : (s.enterHandler w l pc cause).links = s.links := rfl
@[simp] theorem State.enterHandler_peerDone (s : State) (w : Nat) (l : List Nat) (pc cause : Nat) : (s.enterHandler w l pc cause).peerDone = s.peerDone := rfl
@[simp] theorem State.enterHandler_txn (s : State) (w : Nat) (l : List Nat) (pc cause : Nat) : (s.enterHandler w l pc cause).txn = s.txn := rfl
@[simp] theorem State.enterHandler_cxlEvents (s : State) (w : Nat) (l : List Nat) (pc cause : Nat) : (s.enterHandler w l pc cause).cxlEvents = s.cxlEvents := rfl
@[simp] theorem State.enterHandler_homes (s : State) (w : Nat) (l : List Nat) (pc cause : Nat) : (s.enterHandler w l pc cause).homes = s.homes := rfl
@[simp] theorem State.enterHandler_power (s : State) (w : Nat) (l : List Nat) (pc cause : Nat) : (s.enterHandler w l pc cause).power = s.power := rfl
@[simp] theorem State.enterHandler_fw (s : State) (w : Nat) (l : List Nat) (pc cause : Nat) : (s.enterHandler w l pc cause).fw = s.fw := rfl
@[simp] theorem State.enterHandler_arch (s : State) (w : Nat) (l : List Nat) (pc cause : Nat) : (s.enterHandler w l pc cause).arch = s.arch := rfl
@[simp] theorem State.enterHandler_archStored (s : State) (w : Nat) (l : List Nat) (pc cause : Nat) : (s.enterHandler w l pc cause).archStored = s.archStored := rfl
@[simp] theorem State.enterHandler_msi (s : State) (w : Nat) (l : List Nat) (pc cause : Nat) : (s.enterHandler w l pc cause).msi = s.msi := rfl
@[simp] theorem State.enterHandler_wgSerial (s : State) (w : Nat) (l : List Nat) (pc cause : Nat) : (s.enterHandler w l pc cause).wgSerial = s.wgSerial := rfl
@[simp] theorem State.enterHandler_kernOrder (s : State) (w : Nat) (l : List Nat) (pc cause : Nat) : (s.enterHandler w l pc cause).kernOrder = s.kernOrder := rfl
@[simp] theorem State.enterHandler_agenda (s : State) (w : Nat) (l : List Nat) (pc cause : Nat) : (s.enterHandler w l pc cause).agenda = s.agenda := rfl
@[simp] theorem State.enterHandler_turnNo (s : State) (w : Nat) (l : List Nat) (pc cause : Nat) : (s.enterHandler w l pc cause).turnNo = s.turnNo := rfl
@[simp] theorem State.enterHandler_freeCtr (s : State) (w : Nat) (l : List Nat) (pc cause : Nat) : (s.enterHandler w l pc cause).freeCtr = s.freeCtr := rfl
@[simp] theorem State.enterHandler_issue (s : State) (w : Nat) (l : List Nat) (pc cause : Nat) : (s.enterHandler w l pc cause).issue = s.issue := rfl

@[simp] theorem State.stay_issue (s : State) : s.stay.issue = { s.issue with held := true } := rfl
@[simp] theorem State.stay_mem (s : State) : s.stay.mem = s.mem := rfl

/-! ### Reading what was updated -/

theorem State.setWg_get? (s : State) (w j : Nat) (f : Wg → Wg) :
    (s.setWg w f).wgs.get? j = if w = j then (s.wgs.get? j).map f else s.wgs.get? j := by
  simp only [State.setWg]
  cases h : s.wgs.get? w with
  | none => simp only; split <;> simp_all
  | some g => simp only [NMap.get?_set]; split <;> simp_all

theorem State.setWg_has (s : State) (w j : Nat) (f : Wg → Wg) : (s.setWg w f).wgs.has j = s.wgs.has j := by
  simp only [NMap.has, State.setWg_get?]; split <;> simp

theorem State.setWg_same (s : State) (w : Nat) (f : Wg → Wg) (h : s.wgs.has w = true) : (s.setWg w f).wg w = f (s.wg w) := by
  simp only [NMap.has, Option.isSome_iff_exists] at h
  obtain ⟨g, h⟩ := h
  simp [State.wg, NMap.getD, State.setWg_get?, h]

theorem State.setWg_other (s : State) {w j : Nat} (f : Wg → Wg) (h : w ≠ j) : (s.setWg w f).wg j = s.wg j := by
  simp [State.wg, NMap.getD, State.setWg_get?, h]

theorem State.setCore_core (s : State) (c j : Nat) (f : Core → Core) :
    (s.setCore c f).core j = if c = j then f (s.core j) else s.core j := by
  simp only [State.core, State.setCore, NMap.getD_update]; split <;> simp_all

theorem State.setSlice_slice (s : State) (c j : Nat) (f : Slice → Slice) :
    (s.setSlice c f).slice j = if c = j then f (s.slice j) else s.slice j := by
  simp only [State.slice, State.setSlice, NMap.getD_update]; split <;> simp_all

theorem State.setCtx_ctx (s : State) (c j : Nat) (f : Ctx → Ctx) :
    (s.setCtx c f).ctx j = if c = j then f (s.ctx j) else s.ctx j := by
  simp only [State.ctx, State.setCtx, NMap.getD_update]; split <;> simp_all

theorem State.setQueue_queue (s : State) (c j : Nat) (f : Queue → Queue) :
    (s.setQueue c f).queue j = if c = j then f (s.queue j) else s.queue j := by
  simp only [State.queue, State.setQueue, NMap.getD_update]; split <;> simp_all

theorem State.setPool_pool (s : State) (c j : Nat) (f : Pool → Pool) :
    (s.setPool c f).pool j = if c = j then f (s.pool j) else s.pool j := by
  simp only [State.pool, State.setPool, NMap.getD_update]; split <;> simp_all

theorem State.setLink_link (s : State) (c j : Nat) (f : Link → Link) :
    (s.setLink c f).link j = if c = j then f (s.link j) else s.link j := by
  simp only [State.link, State.setLink, NMap.getD_update]; split <;> simp_all

theorem Wg.setThread_thread (w : Wg) (t n : Nat) (f : Thread → Thread) :
    (w.setThread t f).thread n = if t = n then f (w.thread n) else w.thread n := by
  simp only [Wg.thread, Wg.setThread, NMap.getD_update]; split <;> simp_all

theorem Wg.setSlot_slot (w : Wg) (t n : Nat) (f : Slot → Slot) :
    (w.setSlot t f).slot n = if t = n then f (w.slot n) else w.slot n := by
  simp only [Wg.slot, Wg.setSlot, NMap.getD_update]; split <;> simp_all

theorem Wg.setGang_gang (w : Wg) (t n : Nat) (f : Gang → Gang) :
    (w.setGang t f).gang n = if t = n then f (w.gang n) else w.gang n := by
  simp only [Wg.gang, Wg.setGang, NMap.getD_update]; split <;> simp_all

/-- The fold of `State.setThreads` over distinct threads. -/
theorem Wg.fold_thread (l : List Nat) (f : Nat → Thread → Thread) (hl : l.Nodup) (w : Wg) (n : Nat) :
    (l.foldl (fun g t => g.setThread t (f t)) w).thread n = if n ∈ l then f n (w.thread n) else w.thread n := by
  induction l generalizing w with
  | nil => simp
  | cons a l ih =>
    simp only [List.nodup_cons] at hl
    simp only [List.foldl_cons, ih hl.2, Wg.setThread_thread, List.mem_cons]
    by_cases h : n = a
    · subst h; simp [hl.1]
    · simp [h, Ne.symm h]

theorem Wg.fold_rest (l : List Nat) (f : Nat → Thread → Thread) (w : Wg) :
    l.foldl (fun g t => g.setThread t (f t)) w = { w with threads := (l.foldl (fun g t => g.setThread t (f t)) w).threads } := by
  induction l generalizing w with
  | nil => rfl
  | cons a l ih => simp only [List.foldl_cons]; rw [ih]; rfl

theorem State.setThreads_has (s : State) (w j : Nat) (l : List Nat) (f : Nat → Thread → Thread) :
    (s.setThreads w l f).wgs.has j = s.wgs.has j := State.setWg_has _ _ _ _

theorem State.setThreads_get? (s : State) {w j : Nat} (l : List Nat) (f : Nat → Thread → Thread) (h : w ≠ j) :
    (s.setThreads w l f).wgs.get? j = s.wgs.get? j := by simp [State.setThreads, State.setWg_get?, h]

theorem State.setThreads_thread (s : State) (w : Nat) (l : List Nat) (f : Nat → Thread → Thread) (hw : s.wgs.has w = true)
    (hl : l.Nodup) (n : Nat) :
    (s.setThreads w l f).thread w n = if n ∈ l then f n (s.thread w n) else s.thread w n := by
  simp only [State.thread, State.setThreads, State.setWg_same _ _ _ hw, Wg.fold_thread _ _ hl]

theorem State.setThreads_wg (s : State) (w : Nat) (l : List Nat) (f : Nat → Thread → Thread) (hw : s.wgs.has w = true) :
    (s.setThreads w l f).wg w = { s.wg w with threads := ((s.setThreads w l f).wg w).threads } := by
  simp only [State.setThreads, State.setWg_same _ _ _ hw]; exact Wg.fold_rest _ _ _

end Machine
end Sys2Proof
end

