-- ==== Sys2Proof/Laws/Issue.lean ====
section
/-!
SUPPORT. What issuing does, said once: the course of `issue` where the group can issue, the threads after an instruction that acts on each
active lane alone, and what a thread's write of a register or a predicate changes.
-/
namespace Sys2Proof.Machine
open Sys2Proof

/-! ### The course of an issue -/

theorem feTrap_none {s : State} {i : Instr} (enc : Field → Nat)
    (h : ∀ n ∈ s.active i, ∀ u, i.uses = some u → ∀ x ∈ u.srcs, srcTraps (s.ithread n) x = false) :
    feTrap s i (s.active i) enc = none := by
  unfold feTrap
  cases hu : i.uses with
  | none => rfl
  | some u =>
    have : (s.active i).filter (fun t => u.srcs.any (srcTraps (s.ithread t))) = [] := by
      rw [List.filter_eq_nil_iff]
      intro n hn
      simpa using h n hn u hu
    simp only [this]

theorem issue_of_issuable {s : State} {i : Instr} (h : s.Issuable i) (cost : Nat) (body : List Nat → State → Res) :
    issue i cost body s = match body (s.active i) s.advance with
      | .ok s' => .next (s'.counted cost)
      | .trap r => .next (s.trapIssue r)
      | .trapIn s' r => .next (if s.frameBusy (r.lanes.getD s.issue.lanes) then s.trapIssue r else s'.trapIssue r)
      | .wait s' => .next s'
      | .hold => .next s.stay
      | .full => .next (s.stand s.issue.lanes false) := by
  have h1 : (s.issue.lanes.all fun t => (s.ithread t).ready i) = true := by simpa using h.ready
  have h2 : (s.issue.lanes.all fun t => limitsOk s.ikrec (s.ithread t).handler i) = true := by simpa using h.legal
  unfold issue
  simp only [h1, h2, h.format, feTrap_none fieldBits h.full, Bool.not_true, Bool.false_eq_true, if_false]
  try simp only [Bool.true_eq_false, and_false, if_false]
  all_goals cases body (s.active i) s.advance <;> rfl

theorem issue_ok {s s' : State} {i : Instr} {cost : Nat} {body : List Nat → State → Res} (h : s.Issuable i)
    (hb : body (s.active i) s.advance = .ok s') : issue i cost body s = .next (s'.counted cost) := by
  rw [issue_of_issuable h, hb]

theorem issue_trap {s : State} {i : Instr} {cost : Nat} {body : List Nat → State → Res} {r : TrapReq} (h : s.Issuable i)
    (hb : body (s.active i) s.advance = .trap r) : issue i cost body s = .next (s.trapIssue r) := by
  rw [issue_of_issuable h, hb]

theorem issue_wait {s s' : State} {i : Instr} {cost : Nat} {body : List Nat → State → Res} (h : s.Issuable i)
    (hb : body (s.active i) s.advance = .wait s') : issue i cost body s = .next s' := by
  rw [issue_of_issuable h, hb]

theorem active_sub (s : State) (i : Instr) : ∀ n ∈ s.active i, n ∈ s.issue.lanes := by
  intro n; unfold State.active; split
  · exact id
  · exact fun h => (List.mem_filter.mp h).1

theorem active_nodup (s : State) (i : Instr) (h : s.issue.lanes.Nodup) : (s.active i).Nodup := by
  unfold State.active; split
  · exact h
  · exact h.filter _

/-! ### The PCs after an issue -/

theorem advance_has (s : State) (w : Nat) : s.advance.wgs.has w = s.wgs.has w := State.setThreads_has _ _ _ _ _

theorem advance_ithread {s : State} (hw : s.wgs.has s.issue.wid = true) (hl : s.issue.lanes.Nodup) (n : Nat) :
    s.advance.ithread n = if n ∈ s.issue.lanes then s.stepped n else s.ithread n := by
  show (s.setThreads _ _ _).thread s.issue.wid n = _
  rw [State.setThreads_thread _ _ _ _ hw hl]
  rfl

theorem advance_wg {s : State} (hw : s.wgs.has s.issue.wid = true) :
    s.advance.iwg = { s.iwg with threads := s.advance.iwg.threads } := State.setThreads_wg _ _ _ _ hw

/-! ### Counting -/

@[simp] theorem counted_issue (s : State) (c : Nat) : (s.counted c).issue = s.issue := by
  unfold State.counted; simp only; split <;> rfl
@[simp] theorem counted_mem (s : State) (c : Nat) : (s.counted c).mem = s.mem := by
  unfold State.counted; simp only; split <;> rfl
@[simp] theorem counted_clk (s : State) (c : Nat) : (s.counted c).clk = s.clk + c := by
  unfold State.counted; simp only; split <;> rfl

theorem counted_rest (s : State) (c : Nat) :
    s.counted c = { s with clk := s.clk + c, wgs := (s.counted c).wgs, cores := (s.counted c).cores } := by
  unfold State.counted; simp only; split <;> rfl

theorem counted_eq {s : State} (hw : s.wgs.has s.issue.wid = true) (c : Nat) :
    s.counted c = { (s.count s.issue.core 0).setWg s.issue.wid fun g =>
        { g.setSlot s.issue.slot fun sl => { sl with last := s.clk } with progress := min (g.progress + 1) (2 ^ 32 - 1) } with
      clk := s.clk + c } := by
  have h : (s.count s.issue.core 0).wgs.has s.issue.wid = true := hw
  unfold State.counted; simp only [hw, State.count_wgs, if_true]; rfl

theorem counted_wg {s : State} (hw : s.wgs.has s.issue.wid = true) (c : Nat) :
    (s.counted c).iwg = { s.iwg.setSlot s.issue.slot fun sl => { sl with last := s.clk } with
      progress := min (s.iwg.progress + 1) (2 ^ 32 - 1) } := by
  have h : (s.count s.issue.core 0).wgs.has s.issue.wid = true := hw
  rw [counted_eq hw]
  exact State.setWg_same _ _ _ h

theorem counted_slot {s : State} (hw : s.wgs.has s.issue.wid = true) (c k : Nat) :
    (s.counted c).iwg.slot k = if s.issue.slot = k then { s.iwg.slot k with last := s.clk } else s.iwg.slot k := by
  have := congrArg (fun g => Wg.slot g k) (counted_wg hw c)
  refine this.trans ?_
  show (s.iwg.setSlot s.issue.slot fun sl => { sl with last := s.clk }).slot k = _
  rw [Wg.setSlot_slot]

theorem counted_ithread {s : State} (hw : s.wgs.has s.issue.wid = true) (c n : Nat) : (s.counted c).ithread n = s.ithread n := by
  have := congrArg (fun g => Wg.thread g n) (counted_wg hw c)
  exact this

theorem counted_other {s : State} (c : Nat) {w : Nat} (h : w ≠ s.issue.wid) : (s.counted c).wgs.get? w = s.wgs.get? w := by
  unfold State.counted; simp only; split
  · show (State.setWg _ _ _).wgs.get? w = _
    rw [State.setWg_get?, if_neg (by simpa using Ne.symm h)]; rfl
  · rfl

theorem counted_core (s : State) (c k : Nat) :
    (s.counted c).core k = (s.count s.issue.core 0).core k := by
  unfold State.counted; simp only; split <;> rfl

theorem count_core (s : State) (c k j : Nat) : (s.count c k).core j =
    if c = j then { s.core j with perf := (s.core j).perf.update k 0 (· + 1) } else s.core j := by
  unfold State.count; rw [State.setCore_core]

/-! ### Instructions that act on each active lane -/

/-- An issue whose body changes only active lanes' threads, each for itself. -/
theorem runs_threads {s : State} {i : Instr} {cost : Nat} {body : List Nat → State → Res} {R : Nat → Thread → Thread → Prop}
    (f : Nat → Thread → Thread) (h : s.Issuable i) (he : exec i s = issue i cost body s)
    (hb : body (s.active i) s.advance = .ok (s.advance.setThreads s.issue.wid (s.active i) f))
    (hR : ∀ n ∈ s.active i, R n (s.stepped n) (f n (s.stepped n))) : s.Runs i cost R := by
  have hw : s.advance.wgs.has s.issue.wid = true := by rw [advance_has]; exact h.placed
  have hw2 : (s.advance.setThreads s.issue.wid (s.active i) f).wgs.has s.issue.wid = true := by
    rw [State.setThreads_has]; exact hw
  have hn := active_nodup s i h.distinct
  have ht : ∀ n, ((s.advance.setThreads s.issue.wid (s.active i) f).counted cost).ithread n =
      if n ∈ s.active i then f n (s.advance.ithread n) else s.advance.ithread n := by
    intro n
    rw [counted_ithread (s := s.advance.setThreads s.issue.wid (s.active i) f) hw2]
    show (State.setThreads _ _ _ _).thread s.issue.wid n = _
    rw [State.setThreads_thread _ _ _ _ hw hn]; rfl
  refine ⟨_, by rw [he, issue_ok h hb], ⟨?_, ?_, ?_, ?_, ?_, ?_, ?_, ?_⟩, ?_, ?_⟩
  · rw [counted_rest]; rfl
  · intro a; rw [counted_mem]; rfl
  · intro w hne
    rw [counted_other _ (s := s.advance.setThreads s.issue.wid (s.active i) f) hne, State.setThreads_get? _ _ _ (Ne.symm hne)]
    exact State.setThreads_get? _ _ _ (Ne.symm hne)
  · rw [counted_wg (s := s.advance.setThreads s.issue.wid (s.active i) f) hw2]
    have e1 : (s.advance.setThreads s.issue.wid (s.active i) f).iwg = _ := State.setThreads_wg s.advance s.issue.wid (s.active i) f hw
    have e2 := advance_wg h.placed
    rw [e1]
    show _ = _
    have e3 : (s.advance.wg s.issue.wid) = { s.iwg with threads := s.advance.iwg.threads } := e2
    simp only [e3, Wg.setSlot]
  · intro n hnl
    rw [ht, if_neg (fun hc => hnl (active_sub s i n hc)), advance_ithread h.placed h.distinct, if_neg hnl]
  · intro k
    rw [counted_slot (s := s.advance.setThreads s.issue.wid (s.active i) f) hw2]
    have e1 : (s.advance.setThreads s.issue.wid (s.active i) f).iwg = _ := State.setThreads_wg s.advance s.issue.wid (s.active i) f hw
    have e3 : (s.advance.wg s.issue.wid) = { s.iwg with threads := s.advance.iwg.threads } := advance_wg h.placed
    have e5 : (s.advance.setThreads s.issue.wid (s.active i) f).iwg.slot k = s.iwg.slot k := by
      rw [e1, e3]; rfl
    rw [e5]
    show (if s.issue.slot = k then { s.iwg.slot k with last := s.clk } else s.iwg.slot k) = _
    by_cases hk : s.issue.slot = k
    · subst hk; simp only [if_true]
    · rw [if_neg hk, if_neg (Ne.symm hk)]
  · intro c
    rw [counted_core, count_core]
    split
    · rfl
    · rfl
  · intro c k
    rw [counted_core, count_core]
    show (Core.perf (if s.issue.core = c then { s.core c with perf := (s.core c).perf.update 0 0 (· + 1) } else s.core c)).getD k 0 = _
    by_cases hc : s.issue.core = c
    · subst hc
      rw [if_pos rfl]
      simp only [true_and, NMap.getD_update]
      by_cases hk : 0 = k
      · subst hk; simp
      · simp [hk, Ne.symm hk]
    · rw [if_neg hc, if_neg (fun hh => hc hh.1.symm)]
  · intro n hnl hna
    rw [ht, if_neg hna, advance_ithread h.placed h.distinct, if_pos hnl]
  · intro n hna
    rw [ht, if_pos hna, advance_ithread h.placed h.distinct, if_pos (active_sub s i n hna)]
    exact hR n hna

/-- An instruction that is `perLane`. -/
theorem runs_perLane {i : Instr} {cost : Nat} {f : Thread → Thread} {R : State → Nat → Thread → Thread → Prop}
    (he : ∀ s, exec i s = perLane i cost f s) (hR : ∀ s n u, R s n u (f u)) : Lanes i cost R := fun s h =>
  runs_threads (fun _ => f) h (he s) rfl fun n _ => hR s n _

/-- An instruction whose body writes threads by number. -/
theorem runs_each {i : Instr} {cost : Nat} {body : State → List Nat → State → Res} {f : State → Nat → Thread → Thread}
    {R : State → Nat → Thread → Thread → Prop} (he : ∀ s, exec i s = issue i cost (body s) s)
    (hb : ∀ s, s.Issuable i → body s (s.active i) s.advance = .ok (s.advance.setThreads s.issue.wid (s.active i) (f s)))
    (hR : ∀ s n, R s n (s.stepped n) (f s n (s.stepped n))) : Lanes i cost R := fun s h =>
  runs_threads (f s) h (he s) (hb s h) fun n _ => hR s n

/-! ### Writes of a thread -/

theorem Thread.setCur_cur (t : Thread) (f : Regs → Regs) : (t.setCur f).cur = f t.cur := by
  unfold Thread.setCur Thread.cur; cases t.handler <;> simp

theorem Thread.setCur_same (t : Thread) (f : Regs → Regs) : t.SameButRegs (t.setCur f) := by
  unfold Thread.SameButRegs Thread.setCur; split <;> rfl

theorem Thread.setCur_bank (t : Thread) (f : Regs → Regs) : t.OtherBank (t.setCur f) := by
  unfold Thread.OtherBank Thread.setCur; cases h : t.handler <;> simp

@[simp] theorem Thread.setCur_o (t : Thread) (f : Regs → Regs) : (t.setCur f).o = t.o := by unfold Thread.setCur; split <;> rfl
@[simp] theorem Thread.setCur_l0 (t : Thread) (f : Regs → Regs) : (t.setCur f).l0 = t.l0 := by unfold Thread.setCur; split <;> rfl
@[simp] theorem Thread.setCur_l1 (t : Thread) (f : Regs → Regs) : (t.setCur f).l1 = t.l1 := by unfold Thread.setCur; split <;> rfl
@[simp] theorem Thread.setCur_handler (t : Thread) (f : Regs → Regs) : (t.setCur f).handler = t.handler := by
  unfold Thread.setCur; split <;> rfl

theorem Thread.pushLast_cur (t : Thread) (v : Word) (e : Intv) : (t.pushLast v e).cur = t.cur := by
  unfold Thread.pushLast Thread.cur; split <;> rfl
@[simp] theorem Thread.pushLast_o (t : Thread) (v : Word) (e : Intv) : (t.pushLast v e).o = t.o := by
  unfold Thread.pushLast; split <;> rfl
@[simp] theorem Thread.pushLast_regs (t : Thread) (v : Word) (e : Intv) : (t.pushLast v e).regs = t.regs := by
  unfold Thread.pushLast; split <;> rfl
@[simp] theorem Thread.pushLast_bank (t : Thread) (v : Word) (e : Intv) : (t.pushLast v e).bank = t.bank := by
  unfold Thread.pushLast; split <;> rfl

theorem Thread.pushLast_shifted (t u : Thread) (v : Word) (e : Intv) (h : u.handler = t.handler) (h0 : u.l0 = t.l0) (h1 : u.l1 = t.l1) :
    t.Shifted (u.pushLast v e) v e := by
  unfold Thread.Shifted Thread.pushLast
  rw [h]; cases t.handler <;> simp [h0, h1]

theorem Thread.put_main_x (t : Thread) (d : Field) (v : Word) (e : Intv) (h : d.tier = .main) (h2 : d.cls = .x) :
    t.put d v e = t.setCur fun r => r.setX d.idx ⟨v, e, true⟩ := by
  obtain ⟨tier, fe, cls, idx⟩ := d; subst h; subst h2; rfl

theorem Thread.put_wrote (t : Thread) (d : Field) (v : Word) (e : Intv) : t.Wrote (t.write d v e) d v e := by
  obtain ⟨tier, fe, cls, idx⟩ := d
  unfold Thread.write
  cases tier <;> cases cls <;> simp only [Thread.put]
  all_goals
    constructor
    case rest => unfold Thread.SameButRegs Thread.pushLast; (try simp only [Thread.setCur]); split <;> (try split) <;> rfl
    case bank => unfold Thread.OtherBank Thread.pushLast; (try simp only [Thread.setCur]); cases t.handler <;> simp
    case last => exact Thread.pushLast_shifted _ _ _ _ (by simp) (by simp) (by simp)
    case xs =>
      intro k; rw [Thread.pushLast_cur]
      first
        | (rw [Thread.setCur_cur]; simp [Regs.setX, Regs.setV, Regs.getX, NMap.getD_set, eq_comm]; done)
        | (simp [Thread.cur]; done)
    case vs =>
      intro k; rw [Thread.pushLast_cur]
      first
        | (rw [Thread.setCur_cur]; simp [Regs.setX, Regs.setV, Regs.getV, NMap.getD_set, eq_comm]; done)
        | (simp [Thread.cur]; done)
    case preds => rw [Thread.pushLast_cur]; (try rw [Thread.setCur_cur]); (try rfl)
    case opnds =>
      intro k; simp [Thread.getO, NMap.getD_set, eq_comm]

theorem Thread.write_wrote (t : Thread) (d : Field) (v : Word) (e : Intv) : t.Wrote (t.write d v e) d v e := t.put_wrote d v e

theorem setBit_get {n : Nat} (x : BitVec n) (k j : Nat) (b : Bool) (hj : j < n) :
    (setBit x k b).getLsbD j = if j = k then b else x.getLsbD j := by
  have h1 : (BitVec.ofNat n (1 <<< k)).getLsbD j = decide (j = k) := by
    rw [BitVec.getLsbD_ofNat, Nat.one_shiftLeft, Nat.testBit_two_pow]
    simp [hj, eq_comm]
  unfold setBit
  cases b
  · simp only [Bool.false_eq_true, if_false]
    show (x &&& ~~~(BitVec.ofNat n (1 <<< k))).getLsbD j = _
    rw [BitVec.getLsbD_and, BitVec.getLsbD_not, h1]
    by_cases h : j = k <;> simp [h, hj]
  · simp only [if_true]
    show (x ||| (BitVec.ofNat n (1 <<< k))).getLsbD j = _
    rw [BitVec.getLsbD_or, h1]
    by_cases h : j = k <;> simp [h]

theorem Thread.setPred_wrote (t : Thread) (k : Nat) (b : Bool) : t.WroteP (t.setPred k b) k b := by
  unfold Thread.setPred
  refine ⟨t.setCur_same _, t.setCur_bank _, ?_, ?_, ?_, by simp, by simp⟩
  · rw [Thread.setCur_cur]
  · rw [Thread.setCur_cur]
  · intro j hj; rw [Thread.setCur_cur]; exact setBit_get _ _ _ _ hj

theorem wordList_getD (v n i : Nat) (h : i < n) : (wordList v n).getD i 0 = .ofNat 32 (v / 2 ^ (32 * i)) := by
  induction n generalizing v i with
  | zero => omega
  | succ n ih =>
    cases i with
    | zero => simp [wordList]
    | succ i =>
      have e : (2:Nat) ^ (32 * (i + 1)) = 2 ^ 32 * 2 ^ (32 * i) := by rw [Nat.mul_succ, Nat.pow_add, Nat.mul_comm]
      simp only [wordList, List.getD_cons_succ, ih (v / 2 ^ 32) i (by omega), Nat.div_div_eq_div_mul, e]

theorem Regs.fold_setV (r : Regs) (g : Nat → VReg) (idx n k : Nat) :
    ((List.range n).foldl (fun r i => r.setV (idx + i) (g i)) r).getV k = if idx ≤ k ∧ k < idx + n then g (k - idx) else r.getV k := by
  induction n with
  | zero => simp <;> omega
  | succ n ih =>
    rw [List.range_succ, List.foldl_append]
    simp only [List.foldl_cons, List.foldl_nil]
    unfold Regs.setV Regs.getV at *
    simp only [NMap.getD_set, ih]
    by_cases h : idx + n = k
    · subst h; simp
    · rw [if_neg h]; congr 1; simp only [eq_iff_iff]; omega

theorem Regs.fold_setV_rest (r : Regs) (g : Nat → VReg) (idx n : Nat) :
    ((List.range n).foldl (fun r i => r.setV (idx + i) (g i)) r).x = r.x ∧
    ((List.range n).foldl (fun r i => r.setV (idx + i) (g i)) r).p = r.p := by
  induction n with
  | zero => simp
  | succ n ih => rw [List.range_succ, List.foldl_append]; exact ih

theorem Thread.writeN_wrote (t : Thread) (d : Field) (n v : Nat) (hn : 0 < n) : t.WroteN (t.writeN d n v) d n v := by
  unfold Thread.writeN
  have hw : (wordList v n).getD 0 0 = BitVec.ofNat 32 v := by rw [wordList_getD v n 0 hn]; simp
  simp only [hw]
  constructor
  case rest => unfold Thread.SameButRegs Thread.pushLast; simp only [Thread.setCur]; split <;> (try split) <;> rfl
  case bank => unfold Thread.OtherBank Thread.pushLast; simp only [Thread.setCur]; cases t.handler <;> simp
  case last => exact Thread.pushLast_shifted _ _ _ _ (by simp) (by simp) (by simp)
  case xs => intro k; simp only [Thread.pushLast_cur, Thread.setCur_cur, Regs.getX, (Regs.fold_setV_rest _ _ _ _).1]
  case vs =>
    intro k
    simp only [Thread.pushLast_cur, Thread.setCur_cur]
    rw [Regs.fold_setV t.cur (fun i => ⟨(wordList v n).getD i 0, true⟩)]
    split
    next h => rw [wordList_getD]; omega
    next => rfl
  case preds => simp only [Thread.pushLast_cur, Thread.setCur_cur, (Regs.fold_setV_rest _ _ _ _).2]
  case opnds => intro k; simp only [Thread.getO, Thread.pushLast_o, Thread.setCur_o]

end Sys2Proof.Machine
end

