-- ==== Sys2Proof/Laws/Memory.lean ====
section
/-!
SUPPORT. Memory as a canonical list of cells: a read after a write, and that every operation keeps the canonical form.
-/
namespace Sys2Proof

/-! ### The canonical form -/

/-- Addresses rise, and no entry equals the unlisted value. -/
theorem Memory.wf_iff (m : List Host.Cell) :
    Memory.wf m = true ↔ m.Pairwise (fun a b => a.1 < b.1) ∧ ∀ c ∈ m, c.2 ≠ Memory.unlisted := by
  induction m with
  | nil => simp [Memory.wf]
  | cons c m ih =>
    cases m with
    | nil => simp [Memory.wf]
    | cons d m =>
      rw [Memory.wf, Bool.and_eq_true, Bool.and_eq_true, ih, List.pairwise_cons (a := c)]
      simp only [bne_iff_ne, decide_eq_true_eq, List.mem_cons, forall_eq_or_imp, List.pairwise_cons]
      constructor
      · rintro ⟨⟨h, h'⟩, ⟨p, q⟩, r, t⟩
        exact ⟨⟨⟨h', fun e he => Nat.lt_trans h' (p e he)⟩, p, q⟩, h, r, t⟩
      · rintro ⟨⟨⟨h', _⟩, p, q⟩, h, r, t⟩
        exact ⟨⟨h, h'⟩, ⟨p, q⟩, r, t⟩

theorem Memory.wf_filter {m : List Host.Cell} (p : Host.Cell → Bool) (h : Memory.wf m = true) : Memory.wf (m.filter p) = true := by
  rw [Memory.wf_iff] at h ⊢
  exact ⟨h.1.filter p, fun c hc => h.2 c (List.mem_filter.mp hc).1⟩

theorem Memory.wf_erase {m : List Host.Cell} (a : Nat) (h : Memory.wf m = true) : Memory.wf (NMap.erase m a) = true :=
  Memory.wf_filter _ h

theorem NMap.mem_set {α : Type} (m : NMap α) (k : Nat) (v : α) : ∀ e ∈ m.set k v, e = (k, v) ∨ e ∈ m := by
  induction m with
  | nil => simp [NMap.set]
  | cons c m ih =>
    intro e he
    simp only [NMap.set] at he
    split at he
    · simpa using he
    · split at he
      · rcases List.mem_cons.mp he with h | h
        · exact .inl h
        · exact .inr (List.mem_cons_of_mem _ h)
      · rcases List.mem_cons.mp he with h | h
        · exact .inr (h ▸ List.mem_cons_self)
        · rcases ih e h with h | h
          · exact .inl h
          · exact .inr (List.mem_cons_of_mem _ h)

theorem NMap.pairwise_set {α : Type} (m : NMap α) (k : Nat) (v : α) (h : m.Pairwise fun a b => a.1 < b.1) :
    (m.set k v).Pairwise fun a b => a.1 < b.1 := by
  induction m with
  | nil => simp [NMap.set]
  | cons c m ih =>
    rw [List.pairwise_cons] at h
    simp only [NMap.set]
    split
    · rename_i hk
      refine List.pairwise_cons.mpr ⟨fun e he => ?_, List.pairwise_cons.mpr h⟩
      rcases List.mem_cons.mp he with rfl | he
      · exact hk
      · exact Nat.lt_trans hk (h.1 e he)
    · split
      · rename_i hk
        subst hk
        exact List.pairwise_cons.mpr h
      · rename_i h1 h2
        refine List.pairwise_cons.mpr ⟨fun e he => ?_, ih h.2⟩
        rcases NMap.mem_set m k v e he with rfl | he
        · simp only; omega
        · exact h.1 e he

theorem Memory.wf_set {m : List Host.Cell} (a : Nat) (b : Byte) (hb : b ≠ Memory.unlisted) (h : Memory.wf m = true) :
    Memory.wf (NMap.set m a b) = true := by
  rw [Memory.wf_iff] at h ⊢
  refine ⟨NMap.pairwise_set m a b h.1, fun c hc => ?_⟩
  rcases NMap.mem_set m a b c hc with rfl | hc
  · exact hb
  · exact h.2 c hc

/-- A write keeps the canonical form. -/
theorem Memory.wf_write {m : List Host.Cell} (a : Nat) (b : Byte) (h : Memory.wf m = true) : Memory.wf (Memory.write m a b) = true := by
  unfold Memory.write
  split
  · exact Memory.wf_erase a h
  · exact Memory.wf_set a b ‹_› h

theorem Memory.wf_writeN {m : List Host.Cell} (a : Nat) (l : List Byte) (h : Memory.wf m = true) : Memory.wf (Memory.writeN m a l) = true := by
  induction l generalizing m a with
  | nil => exact h
  | cons b l ih => exact ih (a + 1) (Memory.wf_write a b h)

theorem Memory.wf_writeLE {m : List Host.Cell} (a n v : Nat) (h : Memory.wf m = true) : Memory.wf (Memory.writeLE m a n v) = true :=
  Memory.wf_writeN a _ h

theorem Memory.wf_zero {m : List Host.Cell} (a n : Nat) (h : Memory.wf m = true) : Memory.wf (Memory.zero m a n) = true :=
  Memory.wf_filter _ h

theorem Memory.wf_move {m : List Host.Cell} (a b n : Nat) (h : Memory.wf m = true) : Memory.wf (Memory.move m a b n) = true := by
  have aux : ∀ (src : List Host.Cell) (r : List Host.Cell), Memory.wf r = true →
      Memory.wf (src.foldl (fun r c => Memory.write r (b + (c.1 - a)) c.2) r) = true := by
    intro src
    induction src with
    | nil => exact fun r h => h
    | cons c src ih => exact fun r h => ih _ (Memory.wf_write _ _ h)
  exact aux _ _ (Memory.wf_zero b n h)

theorem Memory.wf_reset : Memory.wf Machine.State.reset.mem = true := rfl

/-! ### Reads -/

theorem NMap.get?_erase_same {α : Type} (m : NMap α) (k : Nat) : (m.erase k).get? k = none := by
  induction m with
  | nil => rfl
  | cons c m ih =>
    unfold NMap.erase at *
    rw [List.filter_cons]
    split
    · rename_i h
      rw [NMap.get?_cons, if_neg (by simpa using h), ih]
    · exact ih

theorem NMap.get?_erase_ne {α : Type} (m : NMap α) (k j : Nat) (h : k ≠ j) : (m.erase k).get? j = m.get? j := by
  induction m with
  | nil => rfl
  | cons c m ih =>
    unfold NMap.erase at *
    rw [List.filter_cons]
    split
    · rw [NMap.get?_cons, NMap.get?_cons, ih]
    · rename_i hc
      have : c.1 = k := by simpa using hc
      rw [ih, NMap.get?_cons, if_neg (by omega)]

/-- A read after a write to the same address gives the byte written. -/
@[simp] theorem Memory.read_write_same (m : List Host.Cell) (a : Nat) (b : Byte) : Memory.read (Memory.write m a b) a = b := by
  unfold Memory.read Memory.write NMap.getD
  split
  · rw [NMap.get?_erase_same]; simp_all
  · simp

/-- A write leaves every other address as it is. -/
theorem Memory.read_write_ne (m : List Host.Cell) (a c : Nat) (b : Byte) (h : a ≠ c) :
    Memory.read (Memory.write m a b) c = Memory.read m c := by
  unfold Memory.read Memory.write NMap.getD
  split
  · rw [NMap.get?_erase_ne m a c h]
  · rw [NMap.get?_set, if_neg h]

/-- A store of bytes leaves every address outside them as it is. -/
theorem Memory.read_writeN_out (m : List Host.Cell) (a c : Nat) (l : List Byte) (h : c < a ∨ a + l.length ≤ c) :
    Memory.read (Memory.writeN m a l) c = Memory.read m c := by
  induction l generalizing m a with
  | nil => rfl
  | cons b l ih =>
    simp only [List.length_cons] at h
    rw [Memory.writeN, ih _ _ (by omega), Memory.read_write_ne _ _ _ _ (by omega)]

/-- A store of bytes gives them back. -/
theorem Memory.read_writeN_in (m : List Host.Cell) (a i : Nat) (l : List Byte) (h : i < l.length) :
    Memory.read (Memory.writeN m a l) (a + i) = l[i] := by
  induction l generalizing m a i with
  | nil => simp at h
  | cons b l ih =>
    rw [Memory.writeN]
    cases i with
    | zero => rw [Memory.read_writeN_out _ _ _ _ (by omega)]; simp
    | succ i =>
      have := ih (m := Memory.write m a b) (a := a + 1) (i := i) (by simpa using h)
      rw [show a + (i + 1) = a + 1 + i by omega, this]; simp

theorem NMap.get?_none_of {α : Type} (m : NMap α) (k : Nat) (h : ∀ e ∈ m, e.1 ≠ k) : m.get? k = none := by
  induction m with
  | nil => rfl
  | cons c m ih =>
    rw [NMap.get?_cons, if_neg (h c List.mem_cons_self), ih fun e he => h e (List.mem_cons_of_mem _ he)]

/-- A zeroed range reads as nothing was written. -/
theorem Memory.read_zero_in (m : List Host.Cell) (a n c : Nat) (h : a ≤ c ∧ c < a + n) : Memory.read (Memory.zero m a n) c = Memory.unlisted := by
  unfold Memory.read NMap.getD
  rw [NMap.get?_none_of]
  · rfl
  · intro e he
    have := (List.mem_filter.mp he).2
    simp at this
    omega

end Sys2Proof
end

