-- ==== Sys2Proof/Machine/Loader.lean ====
section
/-!
DEFINITION. The loader of object files, software of the host (spec/02_encoding.md R58, R68 to R70, spec/04_context.md R110): the maps of a context
from logical to physical units, the object file, and its relocation. No step of the module runs it (notes/assumptions/61.md).
-/
namespace Sys2Proof.Machine
open Sys2Proof

/-- A map from logical to physical numbers: the units in service in ascending order, and 0xFF where there is no unit (R110). -/
def unitMap (n : Nat) (up : Nat → Bool) : List Nat :=
  let l := (List.range n).filter up
  l ++ List.replicate (n - l.length) 255

def State.sliceMap (s : State) : List Nat := unitMap 64 s.sliceUp
def State.stackMap (s : State) : List Nat := unitMap 32 fun k => s.regs.stacksUp.getLsbD k

/-- The physical unit of a logical number in the maps of a context (R104, R110). -/
def Ctx.unitOf (c : Ctx) (stack : Bool) (n : Nat) : Nat :=
  let i := if stack then 88 else 80
  c.fld (i + n / 8) (8 * (n % 8)) 8

/-- The header of an object file (R68). -/
structure Obj where
  textOff : Nat
  textLen : Nat
  dataOff : Nat
  dataLen : Nat
  kinfos  : Nat
  relocs  : Nat
  syms    : Nat
deriving DecidableEq, Repr

def numAt (f : List Byte) (at_ n : Nat) : Nat := ofBytes ((f.drop at_).take n)
def align16 (n : Nat) : Nat := (n + 15) / 16 * 16
def Obj.kinfoAt (o : Obj) : Nat := align16 (o.dataOff + o.dataLen)
def Obj.relocAt (o : Obj) : Nat := align16 (o.kinfoAt + 256 * o.kinfos)
def Obj.symAt (o : Obj) : Nat := align16 (o.relocAt + 16 * o.relocs)

/-- The header of a file; none when the file has a reserved value in it, or is shorter than its sections. -/
def objOf (f : List Byte) : Option Obj :=
  let o : Obj := { textOff := numAt f 8 4, textLen := numAt f 12 4, dataOff := numAt f 16 4, dataLen := numAt f 20 4, kinfos := numAt f 24 2,
                   relocs := numAt f 26 2, syms := numAt f 28 2 }
  if numAt f 0 4 = 0x4F4C4547 ∧ numAt f 4 2 = 1 ∧ numAt f 6 2 = 0 ∧ numAt f 30 2 = 0 ∧ o.textOff % 32 = 0 ∧ o.textLen % 32 = 0 ∧
     o.textOff + o.textLen ≤ f.length ∧ o.symAt + 16 * o.syms ≤ f.length then some o
  else none

/-- A symbol entry (R68): its section offset, section code, kind (0 kernel, 1 handler, 2 label) and the offset of its name.  R68 gives the sizes of
the fields; their places are the model's (DESIGN CHOICE, notes/assumptions/61.md). -/
structure Sym where
  off  : Nat
  sect : Nat
  kind : Nat
  name : Nat
deriving DecidableEq, Repr

def Obj.sym (o : Obj) (f : List Byte) (i : Nat) : Sym :=
  let a := o.symAt + 16 * i
  { off := numAt f a 4, sect := numAt f (a + 4) 1 % 16, kind := numAt f (a + 4) 1 / 16, name := numAt f (a + 8) 4 }

/-- The string block follows the symbols; a name ends before a zero byte (DESIGN CHOICE, notes/assumptions/61.md). -/
def Obj.strAt (o : Obj) : Nat := o.symAt + 16 * o.syms
def Obj.name (o : Obj) (f : List Byte) (i : Nat) : List Byte := (f.drop (o.strAt + (o.sym f i).name)).takeWhile (· != 0)

/-- A kernel-information record: a launch record whose VAs are offsets. -/
def Obj.kinfo (o : Obj) (f : List Byte) (i : Nat) : BitVec 2048 := .ofNat 2048 (numAt f (o.kinfoAt + 256 * i) 256)

/-- The launch record that it makes with the sections at these addresses: the code's VA counts from the code section, the others from the data
section; a completion word or a codebook that is not asked for stays so (DESIGN CHOICE, notes/assumptions/61.md). -/
def launchOf (k : BitVec 2048) (textVa dataVa : Nat) : BitVec 2048 :=
  let books := ((List.range 8).map fun n => if Krec.fslot k n % 16 = 10 then 2 ^ (512 + 128 * n + 64) * dataVa else 0).foldl (· + ·) 0
  .ofNat 2048 (k.toNat + textVa + 2 ^ 64 * dataVa + (if Krec.doneVa k = 0 then 0 else 2 ^ 320 * dataVa) + books)

/-- A relocation entry (R69). -/
structure Reloc where
  off    : Nat
  data   : Nat
  kind   : Nat
  bit    : Nat
  res    : Nat
  sym    : Nat
  addend : Nat
deriving DecidableEq, Repr

def Obj.reloc (o : Obj) (f : List Byte) (i : Nat) : Reloc :=
  let a := o.relocAt + 16 * i
  let w := numAt f (a + 4) 2
  { off := numAt f a 4, data := w % 16, kind := w / 16 % 16, bit := w / 256 % 128, res := w / 2 ^ 15, sym := numAt f (a + 6) 2,
    addend := numAt f (a + 8) 8 }

/-- Bits of the field that an entry names. -/
def Reloc.width (r : Reloc) : Nat := if r.kind = 0 then 57 else 8

/-- Bits of the instruction or item at the place of an entry; zero when there is none. The file does not say how long an item of data is: it ends
with the section, or after 16 bytes (notes/assumptions/61.md). -/
def Reloc.room (r : Reloc) (text data : List Byte) : Nat :=
  if r.data = 0 then
    if r.off % 4 = 0 then match decode (wordList (ofBytes ((text.drop r.off).take 16)) (min 4 ((text.length - r.off) / 4))) with
      | .ok _ n => 32 * n
      | _ => 0
    else 0
  else 8 * min 16 (data.length - r.off)

/-- The number that an entry puts into its field; none when the loader refuses the file (R70). -/
def Reloc.value (r : Reloc) (c : Ctx) (o : Obj) (f text data : List Byte) (textVa dataVa : Nat) : Option Nat :=
  if 1 < r.data ∨ 2 < r.kind ∨ r.res ≠ 0 ∨ (r.kind ≠ 0 ∧ r.addend ≠ 0) ∨ r.room text data < r.bit + r.width then none
  else if r.kind = 0 then
    if o.syms ≤ r.sym then none
    else
      let y := o.sym f r.sym
      if 1 < y.sect then none else some (((if y.sect = 0 then textVa else dataVa) + y.off + r.addend) % 2 ^ 57)
  else
    let old := ofBytes ((if r.data = 0 then text else data).drop r.off |>.take 16) / 2 ^ r.bit % 256
    let n := old % 64
    let u := if r.kind = 2 ∧ 32 ≤ n then 255 else c.unitOf (r.kind == 2) n
    if old / 64 ≠ r.kind - 1 ∨ u = 255 then none else some (old / 64 * 64 + u)

/-- Bits [lo + w - 1:lo] of bytes replaced. -/
def putBits (l : List Byte) (off lo w v : Nat) : List Byte :=
  let n := ofBytes ((l.drop off).take 16)
  let m := n - 2 ^ lo * (n / 2 ^ lo % 2 ^ w) + 2 ^ lo * (v % 2 ^ w)
  l.take off ++ bytesOf m (min 16 (l.length - off)) ++ l.drop (off + 16)

/-- Code and data of an object file as the loader gives them to a context, its sections at these addresses; none when it refuses the file. -/
def State.loadObject (s : State) (id : Nat) (f : List Byte) (textVa dataVa : Nat) : Option (List Byte × List Byte) :=
  match objOf f with
  | none => none
  | some o =>
    (List.range o.relocs).foldl (fun (b : Option (List Byte × List Byte)) i => b.bind fun (text, data) =>
      let r := o.reloc f i
      (r.value (s.ctx id) o f text data textVa dataVa).map fun v =>
        if r.data = 0 then (putBits text r.off r.bit r.width v, data) else (text, putBits data r.off r.bit r.width v))
      (some ((f.drop o.textOff).take o.textLen, (f.drop o.dataOff).take o.dataLen))

/-- The loader's answer to a context: a refusal is reported as a creation that failed, so that the context made for the file is FREE (R70, R100).
`ctxsts.detail` is then 0, as no selector of the record fails (DESIGN CHOICE, notes/assumptions/61.md). -/
def State.loadInto (s : State) (id : Nat) (f : List Byte) (textVa dataVa : Nat) : State × Option (List Byte × List Byte) :=
  match s.loadObject id f textVa dataVa with
  | none =>
    let s1 := if (s.ctx id).state = .built then (s.ctxEnd id).setCtx id fun _ => .zero else s
    (s1.ctxDone stBadRec 0, none)
  | some r => (s, some r)

end Sys2Proof.Machine
end

