-- ==== Sys2Proof/Tests/Slice0.lean ====
section
/-!
SUPPORT. Tests: words written out from the encodings of the manual and the instructions that they are, terms that the well-formedness check
refuses, one step of the machine, and for each statement states and operands that meet its hypotheses.
-/
namespace Sys2Proof.Tests
open Sys2Proof Sys2Proof.Machine
set_option Elab.async false

def p7 : Guard := ⟨7, false⟩
def p2n : Guard := ⟨2, true⟩
def x (n : Nat) : Field := ⟨.main, false, .x, n⟩
def v (n : Nat) : Field := ⟨.main, false, .v, n⟩
def o (n : Nat) : Field := ⟨.opnd, false, .x, n⟩
def l (n : Nat) : Field := ⟨.last, false, .x, n⟩
def k (n : Nat) : Field := ⟨.const, false, .x, n⟩

/-! ### Decoding: words assembled by hand from the tables of R32, R38 to R57 and of each group -/

def readsAs (e : Instr × List Word) : Bool := decide (decode e.2 = .ok e.1 e.2.length) && e.1.isThread && e.1.wf
def controlWords : List (Instr × List Word) := [
  (.blockEnd, [0x00000003]),
  (.nop p7, [0x0001C000, 0x00000000]),
  (.bra p7 (.s16 0xFFFE), [0x0001C004, 0xFFFE0000]),
  (.bra p2n (.s32 0x12345678), [0x00028005, 0x00000000, 0x12345678]),
  (.brc p7 .lt (x 3) (.reg (x 4) (.s16 0x10)), [0x3001C808, 0x00100100]),
  (.brc p7 .geu (x 3) (.imm 0xFFFFFFFF 0x8000), [0x3001FC09, 0x80000000, 0xFFFFFFFF]),
  (.brp p7 true 5 (.s16 9), [0x5001C40C, 0x00090000]),
  (.brx p7 (x 2) 0xFF00, [0x2001C010, 0xFF000000]),
  (.brxAbs p7 (v 2), [0x2001C410, 0x00000004]),
  (.call p7 (v 6) (.s16 0x40), [0x0119C014, 0x00400000]),
  (.callx p7 (v 6) (v 8), [0x8119C018, 0x00000004]),
  (.ret p7 (v 62), [0xE001C01C, 0x00000007]),
  (.join p7, [0x0001C020, 0x00000000]),
  (.exit p2n, [0x00028024, 0x00000000]),
  (.yield p7, [0x0001C028, 0x00000000]),
  (.sleep p7 (.imm 0xFFFF), [0x0001C02C, 0xFFFF0000]),
  (.sleep p7 (.reg (x 1)), [0x1001C42C, 0x00000000])]

theorem test_decode_control : controlWords.all readsAs = true := by decide +kernel

def integerWords : List (Instr × List Word) := [
  (.iadd p7 ⟨x 5, v 6, .reg (x 7)⟩, [0x6015C040, 0x000001C4]),
  (.isub p7 ⟨x 5, v 6, .reg (x 7)⟩, [0x6015C044, 0x000001C4]),
  (.imul p7 ⟨x 5, v 6, .reg (x 7)⟩, [0x6015C048, 0x000001C4]),
  (.imin p7 ⟨x 5, v 6, .reg (x 7)⟩, [0x6015C05C, 0x000001C4]),
  (.imax p7 ⟨x 5, v 6, .reg (x 7)⟩, [0x6015C060, 0x000001C4]),
  (.iminu p7 ⟨x 5, v 6, .reg (x 7)⟩, [0x6015C064, 0x000001C4]),
  (.imaxu p7 ⟨x 5, v 6, .reg (x 7)⟩, [0x6015C068, 0x000001C4]),
  (.iadd p7 ⟨o 3, l 1, .imm16 0x8000⟩, [0x140DE040, 0x80000020]),
  (.isub p7 ⟨x 5, k 63, .imm32 0x80000001⟩, [0xF015E045, 0x00000033, 0x80000001]),
  (.imulh p7 false ⟨x 5, x 6, .reg (x 7)⟩, [0x6015C04C, 0x000001C0]),
  (.imulh p7 true ⟨x 5, x 6, .reg (x 7)⟩, [0x6015C44C, 0x000001C0]),
  (.imad p7 ⟨x 1, x 2, .reg (x 3), x 4⟩, [0x2005C050, 0x000400C0]),
  (.ineg p7 ⟨x 1, x 2⟩, [0x2005C054, 0x00000000]),
  (.iabs p7 ⟨x 1, x 2⟩, [0x2005C058, 0x00000000]),
  (.isad p7 ⟨x 1, x 2, .imm32 9, x 4⟩, [0x2005E06D, 0x00040000, 0x00000009])]

theorem test_decode_integer : integerWords.all readsAs = true := by decide +kernel

def logicWords : List (Instr × List Word) := [
  (.and p7 ⟨v 5, x 6, .reg (k 7)⟩, [0x6115C080, 0x0000C1C0]),
  (.or p7 ⟨v 5, x 6, .reg (k 7)⟩, [0x6115C084, 0x0000C1C0]),
  (.xor p7 ⟨v 5, x 6, .reg (k 7)⟩, [0x6115C088, 0x0000C1C0]),
  (.andn p7 ⟨v 5, x 6, .reg (k 7)⟩, [0x6115C08C, 0x0000C1C0]),
  (.shl p7 ⟨v 5, x 6, .reg (k 7)⟩, [0x6115C098, 0x0000C1C0]),
  (.shr p7 ⟨v 5, x 6, .reg (k 7)⟩, [0x6115C09C, 0x0000C1C0]),
  (.sar p7 ⟨v 5, x 6, .reg (k 7)⟩, [0x6115C0A0, 0x0000C1C0]),
  (.rol p7 ⟨v 5, x 6, .reg (k 7)⟩, [0x6115C0A4, 0x0000C1C0]),
  (.not p7 ⟨x 5, x 6⟩, [0x6015C090, 0x00000000]),
  (.bcnt p7 ⟨x 5, x 6⟩, [0x6015C0A8, 0x00000000]),
  (.clz p7 ⟨x 5, x 6⟩, [0x6015C0AC, 0x00000000]),
  (.ctz p7 ⟨x 5, x 6⟩, [0x6015C0B0, 0x00000000]),
  (.bitrev p7 ⟨x 5, x 6⟩, [0x6015C0B4, 0x00000000]),
  (.blut p7 ⟨x 1, x 2, .wide (x 3), x 4⟩ 0xE8, [0x2005C095, 0x000400C0, 0x000000E8]),
  (.bfe p7 true ⟨x 1, x 2, .reg (x 3)⟩, [0x2005C4B8, 0x000000C0]),
  (.bfi p7 ⟨x 1, x 2, .reg (x 3), x 4⟩, [0x2005C0BC, 0x000400C0])]

theorem test_decode_logic : logicWords.all readsAs = true := by decide +kernel

def intervalWords : List (Instr × List Word) := [
  (.icmp p7 .ge 3 (x 1) (.reg (v 2)), [0x100DD4C0, 0x00001080]),
  (.icmpu p7 .lt 6 (x 1) (.imm16 7), [0x1019E8C4, 0x00070000]),
  (.pset p7 0x8 1 2 3, [0x2005E0C8, 0x000000C0]),
  (.pmov p7 (x 9), [0x0025C0CC, 0x00000000]),
  (.pmovW p7 (x 9) 0x7F, [0x9001C4CC, 0x007F0000]),
  (.clamp p7 (x 1) (x 2) (.regs (x 3) (x 4)), [0x2005C0D0, 0x000400C0]),
  (.clamp p7 (v 1) (x 2) (.imms 0xFFFFFFF6 10), [0x2105E0D2, 0x00000000, 0xFFFFFFF6, 0x0000000A]),
  (.widen p7 (x 3) 0xFFFFFFFF 5, [0x000DC0D6, 0x00000000, 0xFFFFFFFF, 0x00000005]),
  (.intvGet p7 (v 4) (l 0), [0x0111C0D8, 0x00000020]),
  (.intvSet p7 (x 3) (x 4) (x 5), [0x400DC0DC, 0x00000140]),
  (.intvChk p7 (x 3) 1 2, [0x000DC0E2, 0x00000000, 0x00000001, 0x00000002]),
  (.intvUn p7 (v 4) (x 5), [0x5111C0E4, 0x00000000])]

theorem test_decode_interval : intervalWords.all readsAs = true := by decide +kernel

def movesWords : List (Instr × List Word) := [
  (.mov p7 .w1 (x 1) (v 2), [0x2005C100, 0x00000004]),
  (.mov p7 .w2 (v 2) (v 4), [0x4109C500, 0x00000004]),
  (.mov p7 .w4 (v 4) (v 8), [0x8111C900, 0x00000004]),
  (.movi p7 (x 1) (.s16 0x8001), [0x0005C104, 0x80010000]),
  (.movi p7 (x 1) (.hi16 0x8001), [0x0005C504, 0x80010000]),
  (.movi p7 (v 2) (.d64 0x1122334455667788), [0x0109C106, 0x00000000, 0x55667788, 0x11223344]),
  (.sel p7 ⟨x 1, x 2, .imm32 5⟩ 6, [0x2005E109, 0x00060000, 0x00000005]),
  (.cvt p7 .e4m3 .f32 .rn false 0 (v 1) (v 2), [0x2105CD0C, 0x00000004]),
  (.cvt p7 .bf16 .e2m1 .rp true 7 (v 1) (v 2), [0x2105C50C, 0x03F70004]),
  (.cvtq p7 (v 2) (v 4) 5, [0x4109C110, 0x00000144]),
  (.xlane p7 .rot (v 1) (v 2) (k 1) (.imm 0xF0000000F), [0x2105C516, 0x0000C044, 0x0000000F, 0x0000000F]),
  (.xlane p7 .seg (v 1) (v 2) (x 1) (.pair (v 10)), [0x2105CD14, 0x004A0044]),
  (.pcoll p7 .some 3 (x 0) 2 (.imm 0xFF), [0x200DC11A, 0x00000000, 0x000000FF, 0x00000000]),
  (.pcoll p7 .count 0 (v 4) 2 (.imm 0xFF), [0x2111D11A, 0x00000000, 0x000000FF, 0x00000000]),
  (.lreduce p7 .fmax (v 1) (v 2) (.imm 0xFF), [0x2105DD1E, 0x00000004, 0x000000FF, 0x00000000]),
  (.lscan p7 .iadd true (v 1) (v 2) (.imm 0xFF), [0x2105E122, 0x00000004, 0x000000FF, 0x00000000]),
  (.xeq p7 true (v 2) (v 4) (.pair (v 10)), [0x4109C524, 0x004A0004]),
  (.sread p7 (x 1) 0, [0x0005C128, 0x00000000]),
  (.getf p7 (x 1) 7 3, [0x7005C12C, 0x00030000])]

theorem test_decode_moves : movesWords.all readsAs = true := by decide +kernel

def floatingWords : List (Instr × List Word) := [
  (.fadd p7 .rm ⟨v 1, v 2, .reg (v 3)⟩, [0x2105C940, 0x000010C4]),
  (.fsub p7 .rm ⟨v 1, v 2, .reg (v 3)⟩, [0x2105C944, 0x000010C4]),
  (.fmul p7 .rm ⟨v 1, v 2, .reg (v 3)⟩, [0x2105C948, 0x000010C4]),
  (.ffma p7 .rz ⟨v 1, v 2, .imm32 0x3F800000, v 4⟩, [0x2105E54D, 0x00440004, 0x3F800000]),
  (.fmin p7 ⟨v 1, v 2, .reg (v 3)⟩, [0x2105C150, 0x000010C4]),
  (.fmax p7 ⟨v 1, v 2, .imm16 0x3F80⟩, [0x2105E154, 0x3F800004]),
  (.fcmp p7 .uno 4 (v 1) (.reg (v 2)), [0x1011DD58, 0x00001084]),
  (.frnd p7 .rp ⟨v 1, v 2⟩, [0x2105CD5C, 0x00000004]),
  (.frcp p7 ⟨v 1, v 2⟩, [0x2105C160, 0x00000004]),
  (.frsq p7 ⟨v 1, v 2⟩, [0x2105C560, 0x00000004]),
  (.fsqrt p7 ⟨v 1, v 2⟩, [0x2105C960, 0x00000004]),
  (.fexp2 p7 ⟨v 1, v 2⟩, [0x2105CD60, 0x00000004]),
  (.flog2 p7 ⟨v 1, v 2⟩, [0x2105D160, 0x00000004]),
  (.fsin p7 ⟨v 1, v 2⟩, [0x2105D560, 0x00000004]),
  (.fcos p7 ⟨v 1, v 2⟩, [0x2105D960, 0x00000004]),
  (.ftanh p7 ⟨v 1, v 2⟩, [0x2105DD60, 0x00000004]),
  (.dadd p7 .rn true (v 2) (v 4) (v 6), [0x4109C164, 0x04001184]),
  (.dmul p7 .rz (v 2) (v 4) (v 6), [0x4109C568, 0x00001184]),
  (.dfma p7 .rn (v 2) (v 4) (v 6) (v 8), [0x4109C16C, 0x00481184]),
  (.dcmp p7 .ord 4 (v 2) (v 6), [0x2011D970, 0x00001184])]

theorem test_decode_floating : floatingWords.all readsAs = true := by decide +kernel

def packedWords : List (Instr × List Word) := [
  (.h2add p7 .rz (v 1) (v 2) (v 3), [0x2105C580, 0x000010C4]),
  (.h2mul p7 .rz (v 1) (v 2) (v 3), [0x2105C584, 0x000010C4]),
  (.h2fma p7 .rz (v 1) (v 2) (v 3) (v 4), [0x2105C588, 0x004410C4]),
  (.b2add p7 .rz (v 1) (v 2) (v 3), [0x2105C58C, 0x000010C4]),
  (.b2mul p7 .rz (v 1) (v 2) (v 3), [0x2105C590, 0x000010C4]),
  (.b2fma p7 .rz (v 1) (v 2) (v 3) (v 4), [0x2105C594, 0x004410C4]),
  (.pkminmax p7 true false (v 1) (v 2) (v 3), [0x2105C598, 0x000010C4]),
  (.f8dot p7 false true (v 1) (v 2) (v 3) (v 4), [0x2105C99C, 0x004410C4]),
  (.i8dot p7 true false (v 1) (x 2) (x 3) (x 4), [0x2105C5A0, 0x000400C0]),
  (.vqdec p7 true false (v 4) (v 9) (v 10) 2, [0x9111C5A4, 0x00021284]),
  (.amax p7 .f16x2 (v 1) (v 2) (v 3), [0x2105C9A8, 0x000010C4])]

theorem test_decode_packed : packedWords.all readsAs = true := by decide +kernel

def memoryWords : List (Instr × List Word) := [
  (.ld p7 .b16 true (x 1) ⟨3, x 2, .a64 0xFFF⟩, [0x2005E5C0, 0xFFF30000]),
  (.ld p7 .b64 false (v 2) ⟨3, x 2, .a96 1 ⟨.acq, .dev, some 6⟩⟩, [0x2109CDC1, 0x00130000, 0x000001AD]),
  (.ld p7 .b128 false (v 4) ⟨15, x 2, .a128 0xFFFFFF00 ⟨.none, .gang, none⟩⟩, [0x2111D1C2, 0x000F0000, 0x00000000, 0xFFFFFF00]),
  (.st p7 .b16 ⟨3, x 2, .a96 0 ⟨.rel, .sys, none⟩⟩ (x 4), [0x2001C5C5, 0x00030100, 0x00000012]),
  (.ldu p7 .b8 false (x 1) ⟨3, x 2, .a64 0⟩, [0x2005C1C8, 0x00030000]),
  (.lds p7 .b32 false (x 1) (x 2) 0x8000 (some ⟨.none, .gang, .clr⟩), [0x2005C9CD, 0x80000000, 0x00000040]),
  (.sts p7 .b32 (x 2) 4 none (x 5), [0x2001C9D0, 0x00040140]),
  (.ldp p7 .b32 false (x 1) (x 2) 4 3 ⟨.acq, .clu, .none⟩, [0x2005C9D5, 0x00040000, 0x00000983]),
  (.stp p7 .b32 (x 2) 4 1 ⟨.none, .gang, .none⟩ (x 5), [0x2001C9D9, 0x00040140, 0x00000081]),
  (.ldXs p7 (x 1) ⟨2, x 2, .a64 1⟩, [0x2005C1DC, 0x00120000]),
  (.stXs p7 ⟨2, x 2, .a64 1⟩ (x 3), [0x2001C1E0, 0x001200C0]),
  (.lda p7 .b32 false (x 1) (v 2) 8 none, [0x2005C9E4, 0x00080004]),
  (.sta p7 .b32 (v 2) 8 none (x 3), [0x2001C9E8, 0x000800C4]),
  (.pref p7 true ⟨2, x 3, .a64 0⟩, [0x3001C5EC, 0x00020000]),
  (.resv p7 ⟨2, x 3, .a64 5⟩, [0x3001C1F0, 0x00520000]),
  (.resvClr p7 ⟨2, x 0, .a64 0⟩, [0x0001C5F0, 0x00020000]),
  (.cctl p7 .wbinv (v 2) 4095, [0x2001C9F4, 0x0FFF0004]),
  (.arraySet p7 9 (v 4), [0x4025C1F8, 0x00000004]),
  (.arrayGet p7 (v 4) 9, [0x9111C5F8, 0x00000000]),
  (.arrayChk p7 true (v 4), [0x0111C9F8, 0x00010000])]

theorem test_decode_memory : memoryWords.all readsAs = true := by decide +kernel

def ticketsWords : List (Instr × List Word) := [
  (.tktLd p7 true (v 4) ⟨1, x 2, .a96 2 ⟨16, some 3⟩⟩, [0x2111E201, 0x00210000, 0x0000007F]),
  (.tktRdv p7 .b64 (some 2) (v 4) (v 6) (x 1), [0x6111EE04, 0x00020044]),
  (.tktRds p7 none (v 8) (v 4) (x 6), [0x4121C208, 0x00000184]),
  (.tktPoll p7 3 (v 4), [0x400DC20C, 0x00000004]),
  (.tktWaitany p7 (x 3) (x 4) 32 5, [0x400DC210, 0x00BF0000]),
  (.tktDrop p7 (some 1) (v 4), [0x4001E214, 0x00010004]),
  (.tktStat p7 (v 2) (v 4), [0x4109C218, 0x00000004])]

theorem test_decode_tickets : ticketsWords.all readsAs = true := by decide +kernel

def atomicsWords : List (Instr × List Word) := [
  (.atom p7 .mask (v 2) ⟨1, x 3, .a96 2 ⟨.acqrel, .dev, true, .b32, some 4, none⟩⟩ (v 6), [0x3109F241, 0x00211180, 0x000012AF]),
  (.red p7 .add ⟨1, x 3, .a96 0 ⟨.none, .gang, false, .b32, none, none⟩⟩ (x 6), [0x3001C245, 0x00010180, 0x00000080]),
  (.cas p7 (v 4) 9 (x 3) 0x10 ⟨.acq, .sys, false, .b64, none, none⟩ (v 6) (v 8), [0x3111C24A, 0x24481180, 0x000000D1, 0x00000010]),
  (.atoms p7 .xchg (x 4) (x 3) (.s96 0xFFF8) ⟨.none, .gang, false, .b32, none, some 2⟩ (x 6), [0x3011E24D, 0xFFF80180, 0x0000A080]),
  (.cass p7 (x 4) (x 3) 8 ⟨.none, .gang, false, .b32, none, none⟩ (x 6) (x 8), [0x3011C252, 0x00080180, 0x00000080, 0x00000008]),
  (.fence p7 .acqrel .dev false, [0x0001CE54, 0x00030000]),
  (.waita p7 (x 4) 2 (x 3) (x 5) 0xFFFFFFFC ⟨.acq, .dev, true, .b32, .geu, some 1, 4095⟩, [0x3011C25A, 0x00020140, 0x0FFF1EAD, 0xFFFFFFFC]),
  (.lineClr p7 ⟨2, x 9, .a64 0⟩, [0x9001C25C, 0x00020000])]

theorem test_decode_atomics : atomicsWords.all readsAs = true := by decide +kernel

def matrixWords : List (Instr × List Word) := [
  (.mma p7 (v 1) (x 2) 3 4 true, [0x2105C280, 0x00630000]),
  (.mmaSp p7 (v 1) (x 2) .s24 .s14 3 4 false, [0x2105E684, 0x00230000]),
  (.mmaMcr p7 (v 1) (x 2) .dense .s24 3 4, [0x2105D288, 0x00230000]),
  (.accZero p7 (v 1) (x 2), [0x2105C28C, 0x00000000]),
  (.accLd p7 (v 1) (x 2), [0x2105C290, 0x00000000]),
  (.accSt p7 (v 1) (x 2), [0x2105C294, 0x00000000]),
  (.accCvt p7 (v 1) (x 2) 6 .rm true, [0x2105DA98, 0x00060000]),
  (.accAmax p7 (v 2) (x 2), [0x2109C29C, 0x00000000])]

theorem test_decode_matrix : matrixWords.all readsAs = true := by decide +kernel

def transferWords : List (Instr × List Word) := [
  (.xfer p7 (v 1) (x 2) (v 4) true, [0x2105C2C0, 0x04001100]),
  (.xferIm2c p7 (v 1) (x 2) (v 4) false true, [0x2105C2C4, 0x08001100]),
  (.xferGath p7 (v 1) (x 2) (v 4) true, [0x2105C2C8, 0x04001100]),
  (.xferScat p7 (v 1) (x 2) (v 4), [0x2105C2CC, 0x00001100]),
  (.xferUnpk p7 (v 1) (x 2) (v 4) false, [0x2105C2D0, 0x00001100]),
  (.xferPack p7 (v 1) (x 2) (v 4), [0x2105C2D4, 0x00001100]),
  (.xferMcast p7 (v 1) (x 2) (v 4) true 0xA, [0x2105C2D8, 0xA4001100]),
  (.xferPref p7 (v 1) (x 2) (v 4) (.slice 63), [0x2105C2DE, 0x00001100, 0x0000003F, 0x00000000]),
  (.xferPagein p7 (v 1) (x 2) (.stack 31), [0x2105C2E2, 0x00000000, 0x0000005F, 0x00000000]),
  (.lockQ p7 (v 1) (.global (v 2)) 65535, [0x2105C6E4, 0xFFFF0004]),
  (.granFill p7 (x 2) 5, [0x2001C2E8, 0x00050000]),
  (.granEmpty p7 (x 2) 5, [0x2001C2EC, 0x00050000])]

theorem test_decode_transfer : transferWords.all readsAs = true := by decide +kernel

def barriersWords : List (Instr × List Word) := [
  (.barArr p7 (x 9) ⟨.wg, 3⟩, [0x0025C300, 0x00190000]),
  (.barWait p7 (x 9), [0x9001C304, 0x00000000]),
  (.barSync p7 ⟨.grid, 1⟩, [0x0001C308, 0x000C0000]),
  (.barTry p7 2 (x 9), [0x9009C30C, 0x00000000]),
  (.barCnt p7 (v 2) ⟨.clu, 0⟩, [0x0109C310, 0x00020000]),
  (.elect p7 2 none, [0x0009C314, 0x00000000]),
  (.elect p7 2 (some (.imm 0xFF)), [0x0009C716, 0x00000000, 0x000000FF, 0x00000000])]

theorem test_decode_barriers : barriersWords.all readsAs = true := by decide +kernel

def kernelsWords : List (Instr × List Word) := [
  (.klaunch p7 (v 2) (v 4), [0x4109C340, 0x00000004]),
  (.kjoin p7 true (v 2) (v 5), [0x5109C744, 0x00000004]),
  (.kkill p7 (v 2) (v 5), [0x5109C348, 0x00000004]),
  (.qpost p7 (x 2) (x 3) (v 4), [0x3009C34C, 0x00001100]),
  (.qstat p7 (v 2) (x 3), [0x3109C350, 0x00000000]),
  (.ctxRd p7 (v 2) 127, [0x0109C354, 0x007F0000]),
  (.ctxWr p7 3 (v 2), [0x2001C358, 0x00030004])]

theorem test_decode_kernels : kernelsWords.all readsAs = true := by decide +kernel

def pagesWords : List (Instr × List Word) := [
  (.pageMap p7 (v 1) (v 2) (v 4), [0x2105C35C, 0x00001104]),
  (.pageMapAlloc p7 (v 1) (v 2) (v 4), [0x2105C75C, 0x00001104]),
  (.pageMapUpd p7 (v 1) (v 2) (v 4), [0x2105CB5C, 0x00001104]),
  (.pageMapRgn p7 (v 1) (v 2) true, [0x2105CF5C, 0x00010004]),
  (.pageUnmap p7 (v 1) (v 2), [0x2105C360, 0x00000004]),
  (.pageUnmapRgn p7 (v 1) (v 2), [0x2105C760, 0x00000004]),
  (.pageRef p7 (v 1) (v 2), [0x2105C364, 0x00000004]),
  (.pageUnref p7 (v 1) (v 2), [0x2105C368, 0x00000004]),
  (.pageProbeFrame p7 (v 1) (v 2), [0x2105CB70, 0x00000004]),
  (.pageInv p7 (v 1) (v 2), [0x2105C374, 0x00000004]),
  (.pageInvFail p7 (v 1) (v 2), [0x2105C774, 0x00000004]),
  (.pagePin p7 (v 1) (v 2), [0x2105C378, 0x00000004]),
  (.pagePinClr p7 (v 1) (v 2), [0x2105C778, 0x00000004]),
  (.pageProbe p7 (v 4) (v 2), [0x2111C370, 0x00000004]),
  (.pageProbeClr p7 (v 4) (v 2), [0x2111C770, 0x00000004]),
  (.pageCopy p7 (v 1) (v 2) 63, [0x2105C36C, 0x003F0004])]

theorem test_decode_pages : pagesWords.all readsAs = true := by decide +kernel

def systemWords : List (Instr × List Word) := [
  (.trap p7 0xBEEF, [0x0001C380, 0xBEEF0000]),
  (.eret p7, [0x0001C384, 0x00000000]),
  (.eretFault p7, [0x0001C784, 0x00000000]),
  (.hrd p7 (v 1) 9 63, [0x0105C388, 0x903F0000]),
  (.hwr p7 0 4 (x 7), [0x7001C38C, 0x00040000]),
  (.hwr p7 9 8 (x 7), [0x7001C38C, 0x90080000]),
  (.getev p7 (v 4) 5, [0x0111C390, 0x00050000]),
  (.bkpt p7 1, [0x0001C394, 0x00010000]),
  (.clk p7 true (v 2), [0x0109C798, 0x00000000]),
  (.perf p7 (v 2) 7, [0x0109C39C, 0x00070000]),
  (.preemptChk p7 6, [0x0019C3A0, 0x00000000]),
  (.idiv ⟨2, false⟩ 2 0x8010140400, [0x101487C4, 0x00000080]),
  (.irem p7 2 0x8010140000, [0x1015C3C8, 0x00000080])]

theorem test_decode_system : systemWords.all readsAs = true := by decide +kernel

/-- What the decoder refuses. -/
def refuses (ws : List Word) : Bool :=
  match decode ws with
  | .bad _ => true
  | _ => false

/-- Reserved bits, an unused mode, a length that a form has not, the predicate field 0b1111 and a word cut short are refused (R35, R40, R41). -/
theorem test_decode_refuses :
    [[0x0001C000, 0x00010000], [0x0001C400, 0], [0x0001C001, 0, 0], [0x0003C000, 0], [0x0001C000]].all refuses = true := by decide +kernel

/-! ### Well-formedness: one ill-formed term for each check -/

def sum (d a : Field) : Instr := .iadd p7 ⟨d, a, .imm16 1⟩

theorem test_wf_guard : (Instr.nop ⟨8, false⟩).wf = false ∧ (Instr.nop ⟨7, true⟩).wf = false ∧ (Instr.nop p7).wf = true := by decide
theorem test_wf_index : (sum (x 1) (x 64)).wf = false ∧ (sum (x 1) (o 8)).wf = false ∧ (sum (x 1) (l 2)).wf = false ∧
    (sum (x 1) (k 64)).wf = false ∧ (sum (x 1) ⟨.const, false, .v, 16⟩).wf = false ∧ (sum (x 1) (k 63)).wf = true := by decide
theorem test_wf_full_empty : (sum (x 1) ⟨.opnd, true, .x, 1⟩).wf = false ∧ (sum ⟨.main, true, .x, 1⟩ (x 1)).wf = false ∧
    (sum (x 1) ⟨.main, true, .x, 1⟩).wf = true := by decide
theorem test_wf_destination : (sum (l 0) (x 1)).wf = false ∧ (sum (k 0) (x 1)).wf = false ∧ (sum (x 64) (x 1)).wf = false ∧
    (sum (o 7) (x 1)).wf = true := by decide
theorem test_wf_class : (Instr.fadd p7 .rn ⟨x 1, v 2, .reg (v 3)⟩).wf = false ∧ (Instr.fadd p7 .rn ⟨v 1, x 2, .reg (v 3)⟩).wf = false := by decide
theorem test_wf_groups : (Instr.dmul p7 .rn (v 1) (v 4) (v 6)).wf = false ∧ (Instr.dmul p7 .rn (v 2) (v 5) (v 6)).wf = false ∧
    (Instr.arrayGet p7 (v 2) 3).wf = false ∧ (Instr.dmul p7 .rn (v 2) (v 4) (v 6)).wf = true := by decide
theorem test_wf_tier : (Instr.widen p7 (o 1) 0 5).wf = false ∧ (Instr.widen p7 (x 1) 0 5).wf = true ∧ (Instr.pmov p7 (o 3)).wf = true := by decide
theorem test_wf_side : (Instr.arrayGet p7 (v 4) 16).wf = false ∧ (Instr.brp p7 true 8 (.s16 0)).wf = false ∧
    (Instr.barArr p7 (x 1) ⟨.gang, 4⟩).wf = false ∧ (Instr.getf p7 (x 1) 8 0).wf = false := by decide
theorem test_wf_group_f : (Instr.idiv p7 1 0).wf = false ∧ (Instr.idiv p7 2 1).wf = false ∧ (Instr.idiv ⟨15, false⟩ 2 0).wf = false ∧
    (Instr.irem ⟨7, false⟩ 2 0).wf = true := by decide

/-! ### States that meet hypotheses -/

/-- The state that `withFetchWord` places, with format slots for every kind of use, barriers at every level and an issue group of these lanes. -/
def grp (lanes : List Nat) : State :=
  let r := placeRec ||| (.ofNat 2048 ((2 ^ 264 * 8) + (2 ^ 268 * 4) + (2 ^ 271 * 4) +
    (2 ^ 512 * 0x001) + 2 ^ 640 * 0x001 + 2 ^ 768 * 10 + 2 ^ 896 * 0x13 + 2 ^ 1024 * 0x13 + 2 ^ 1152 * 0x13 + 2 ^ 1280 * 1 + 2 ^ 1408 * 1))
  ((State.reset.placed []).setKern 1 fun q => { q with krec := r }).withIssue 0 0 0 lanes placeVa [0x0001C000, 0]

def s1 : State := grp [0]
def s2 : State := grp [0, 1]
def s8 : State := grp (List.range 8)

def setV (s : State) (n j : Nat) (w : Word) : State := s.setThread 0 n fun t => { t with regs := t.regs.setV j ⟨w, true⟩ }
def setX (s : State) (n j : Nat) (w : Word) : State := s.setThread 0 n fun t => { t with regs := t.regs.setX j ⟨w, ⟨w.toInt, w.toInt⟩, true⟩ }
/-- A 64-bit value in a V pair. -/
def setP (s : State) (n j : Nat) (w : BitVec 64) : State := setV (setV s n j (w.setWidth 32)) n (j + 1) ((w >>> 32).setWidth 32)
/-- An array of a space in register j of gang 0: 64 elements of 4 bytes. -/
def setA (s : State) (j base space : Nat) : State :=
  s.setWg 0 fun g => g.setGang 0 fun y => { y with arr := y.arr.set j (.ofNat 128 (base + 2 ^ 64 * 64 + 2 ^ 96 * 2 + 2 ^ 99 * space + 2 ^ 104)) }
/-- The slot's threads in handler mode. -/
def handling (s : State) : State := s.setThreads 0 (List.range 8) fun _ t => { t with handler := true }

def issuableB (s : State) (i : Instr) : Bool :=
  s.wgs.has s.issue.wid && decide s.issue.lanes.Nodup && (s.issue.lanes.all fun n => (s.ithread n).ready i) &&
  (s.issue.lanes.all fun n => limitsOk s.ikrec (s.ithread n).handler i) && slotOk s.ikrec i &&
  ((s.active i).all fun n => match i.uses with
    | some u => u.srcs.all fun x => !srcTraps (s.ithread n) x
    | none => true)

theorem issuable_of {s : State} {i : Instr} (h : issuableB s i = true) : s.Issuable i := by
  simp only [issuableB, Bool.and_eq_true, List.all_eq_true, decide_eq_true_eq] at h
  obtain ⟨⟨⟨⟨⟨h1, h2⟩, h3⟩, h4⟩, h5⟩, h6⟩ := h
  refine ⟨h1, h2, h3, h4, h5, fun n hn u hu x hx => ?_⟩
  have := h6 n hn
  rw [hu] at this
  simpa using List.all_eq_true.mp this x hx

/-- The premises of `Lanes` hold in a state with an active lane (`Issuable`, and a slot of group 0xF without one). -/
def goes (i : Instr) : Bool :=
  let s := if onlyHandler i then handling s2 else s2
  issuableB s i && (s.active i != [] || i.guard? == some ⟨2, false⟩)

theorem witness_issue_control : controlWords.all (fun e => goes e.1) = true := by decide +kernel
theorem witness_issue_integer : integerWords.all (fun e => goes e.1) = true := by decide +kernel
theorem witness_issue_logic : logicWords.all (fun e => goes e.1) = true := by decide +kernel
theorem witness_issue_interval : intervalWords.all (fun e => goes e.1) = true := by decide +kernel
theorem witness_issue_moves : movesWords.all (fun e => goes e.1) = true := by decide +kernel
theorem witness_issue_floating : floatingWords.all (fun e => goes e.1) = true := by decide +kernel
theorem witness_issue_packed : packedWords.all (fun e => goes e.1) = true := by decide +kernel
theorem witness_issue_memory : memoryWords.all (fun e => goes e.1) = true := by decide +kernel
theorem witness_issue_tickets : ticketsWords.all (fun e => goes e.1) = true := by decide +kernel
theorem witness_issue_atomics : atomicsWords.all (fun e => goes e.1) = true := by decide +kernel
theorem witness_issue_matrix : matrixWords.all (fun e => goes e.1) = true := by decide +kernel
theorem witness_issue_transfer : transferWords.all (fun e => goes e.1) = true := by decide +kernel
theorem witness_issue_barriers : barriersWords.all (fun e => goes e.1) = true := by decide +kernel
theorem witness_issue_kernels : kernelsWords.all (fun e => goes e.1) = true := by decide +kernel
theorem witness_issue_pages : pagesWords.all (fun e => goes e.1) = true := by decide +kernel
theorem witness_issue_system : systemWords.all (fun e => goes e.1) = true := by decide +kernel

/-- The premises of `LanesIf`. -/
def lanesIf (s : State) (i : Instr) (P : Thread → Bool) : Bool := issuableB s i && s.active i != [] && (s.active i).all fun n => P (s.ithread n)

/-- The premises of `TrapsAt`, with one lane at fault among two. -/
def trapsOne (s : State) (i : Instr) (bad : Thread → Bool) : Bool :=
  issuableB s i && (s.active i).length == 2 && ((s.active i).filter fun n => bad (s.ithread n)) == [1]

def jump (t : Thread) : Bool := t.pair (v 2) % 4 == 0 && t.pair (v 2) < 2 ^ 57

/-- `CallsAndReturns`: the last aligned target, the first beyond the address space, and a misaligned one. -/
theorem witness_targets :
    ([Instr.callx p7 (v 6) (v 2), .brxAbs p7 (v 2), .ret p7 (v 2)].all fun i =>
      lanesIf (setP s2 1 2 (2 ^ 57 - 4)) i jump && trapsOne (setP s2 1 2 2) i (fun t => t.pair (v 2) % 4 != 0) &&
      trapsOne (setP s2 1 2 (2 ^ 57)) i (fun t => !jump t)) = true := by decide +kernel

/-- `IntervalsAndMoves`: values at both ends, and just outside. -/
theorem witness_intervals :
    (let P := fun (t : Thread) => decide (0 ≤ (t.val (x 3)).toInt ∧ (t.val (x 3)).toInt ≤ 5)
     ([Instr.widen p7 (x 3) 0 5, .intvChk p7 (x 3) 0 5, .intvSet p7 (x 3) (x 4) (x 5)].all fun i =>
       let s := setX (setX s2 0 5 5) 1 5 5
       lanesIf (setX s 1 3 5) i P && trapsOne (setX s 1 3 6) i (!P ·) && trapsOne (setX s 1 3 (-1)) i (!P ·))) = true := by decide +kernel

/-- `CompareAndBranch`: an immediate against a main-tier register in a lane that branches and one that does not. -/
theorem witness_refines :
    (let i := Instr.brc p7 .lt (x 3) (.imm 5 0x10)
     let s := setX s2 1 3 5
     issuableB s i && (s.active i).map (fun n => condHolds .lt ((s.ithread n).val (x 3)) 5) == [true, false]) = true := by decide +kernel

/-- `MovesAndReads`: selectors of both widths. -/
theorem witness_selectors : [0, 0x19].map Use.sreadRegs = [1, 1] ∧ [0x20, 0x22].map Use.sreadRegs = [2, 2] ∧
    goes (.sread p7 (x 1) 0x19) = true ∧ goes (.sread p7 (v 2) 0x22) = true := by decide +kernel

/-! ### Lanes -/

def meetsB (s : State) (mask : Nat → Thread → BitVec 64) : Bool :=
  let set := fun n => s.iwg.crossSet n (mask n (s.ithread n))
  (s.issue.lanes.all fun n => s.meeting.contains n) && decide s.meeting.Nodup && s.meeting != [] &&
  s.meeting.all fun n => (set n).all fun u => s.meeting.contains u && decide (set u = set n)

theorem meets_of {s : State} {mask : Nat → Thread → BitVec 64} (h : meetsB s mask = true) : s.Meets mask := by
  simp only [meetsB, Bool.and_eq_true, List.all_eq_true, decide_eq_true_eq, List.contains_iff_mem, bne_iff_ne] at h
  obtain ⟨⟨⟨h1, h2⟩, h3⟩, h4⟩ := h
  exact ⟨h1, h2, h3, fun n hn u hu => (h4 n hn u hu).1, fun n hn u hu => (h4 n hn u hu).2⟩

def crosses (s : State) (i : Instr) (mask : Nat → Thread → BitVec 64) : Bool := issuableB s i && meetsB s mask && s.meeting.any (s.guards i)

/-- `Conversions`, `LaneExchanges`, `BarrierWaits`: all eight lanes of a gang, and two sets named by pairs. -/
theorem witness_crosses :
    (let all := LMask.imm 0xFF
     let two := (List.range 8).foldl (fun s n => setP s n 10 (if n < 4 then 0x0F else 0xF0)) s8
     crosses s8 (.cvtq p7 (v 2) (v 4) 5) (fun n _ => maskOf ((List.range 8).map (n % 8 / 8 * 8 + ·))) &&
     ([Instr.xlane p7 .rot (v 1) (v 2) (k 1) all, .pcoll p7 .some 3 (x 0) 2 all, .lreduce p7 .fmax (v 1) (v 2) all,
       .lscan p7 .iadd true (v 1) (v 2) all, .xeq p7 true (v 2) (v 4) all, .elect p7 2 (some all)].all fun i => crosses s8 i (laneMaskOf all)) &&
     ([Instr.xlane p7 .from (v 1) (v 2) (x 7) (.pair (v 10)), .pcoll p7 .count 0 (v 4) 2 (.pair (v 10)),
       .lreduce p7 .iadd (v 1) (v 2) (.pair (v 10))].all fun i => crosses two i (laneMaskOf (.pair (v 10))))) = true := by decide +kernel

/-- `LaneRendezvous`: sets that stand whole and disagree, and a lane alone. -/
theorem witness_rendezvous :
    (let i := Instr.lreduce p7 .iadd (v 1) (v 2) (.pair (v 10))
     let s := setP (setP s8 0 10 3) 1 10 6
     let set := fun n => s.iwg.crossSet n (laneMaskOf (.pair (v 10)) n (s.ithread n))
     let j := Instr.lreduce p7 .iadd (v 1) (v 2) (.imm 0xFF)
     issuableB s i && (s.meeting.all fun n => (set n).all s.meeting.contains) && (s.meeting.filter fun n => (set n).any fun u => set u != set n) != [] &&
     issuableB s1 j && s1.meeting == [0] && (s1.iwg.crossSet 0 0xFF).any (!s1.meeting.contains ·)) = true := by decide +kernel

/-- `LaneExchanges` on one step: a rotation by one, and a sum over eight lanes. -/
theorem test_lanes_values :
    (let s := (List.range 8).foldl (fun s n => setV s n 2 (.ofNat 32 n)) s8
     (match exec (.xlane p7 .rot (v 1) (v 2) (k 1) (.imm 0xFF)) s, exec (.lreduce p7 .iadd (v 1) (v 2) (.imm 0xFF)) s with
      | .next a, .next b => decide ((a.thread 0 7).val (v 1) = 0 ∧ (a.thread 0 3).val (v 1) = 4 ∧ (b.thread 0 5).val (v 1) = 28)
      | _, _ => false)) = true := by decide +kernel

/-! ### Accesses -/

def hitsB (s : State) (i : Instr) (l k : Nat) (x : Field) (off : Int) (n : Nat) (write : Bool) (p : Nat) : Bool :=
  let a := s.iwg.array l k
  let e := ((s.ithread l).val x).toInt + off
  issuableB s i && s.active i == [l] && decide (0 ≤ e ∧ e + (max 1 (n / 2 ^ a.esize) : Nat) ≤ a.extent ∧ (p : Int) = a.base + e * 2 ^ a.esize) &&
  !s.iwg.acquiring l && (1 < a.space || !s.meets (if a.space = 0 then .glob p else .scr s.issue.wid p) n write)

theorem hits_of {s : State} {i : Instr} {l k : Nat} {x : Field} {off : Int} {n : Nat} {write : Bool} {p : Nat}
    (h : hitsB s i l k x off n write p = true) : s.Hits i l k x off n write (s.iwg.array l k) p := by
  simp only [hitsB, Bool.and_eq_true, Bool.or_eq_true, decide_eq_true_eq, Bool.not_eq_true', beq_iff_eq] at h
  obtain ⟨⟨⟨⟨h1, h2⟩, h3, h4, h5⟩, h6⟩, h7⟩ := h
  exact ⟨issuable_of h1, h2, rfl, h3, h4, h5, h6, fun q => h7.resolve_left (by omega)⟩

def scratchB (s : State) (i : Instr) (l : Nat) (x : Field) (off : Int) (n al o : Nat) (write : Option Bool) (p : Nat) : Bool :=
  issuableB s i && s.active i == [l] && decide ((p : Int) = ((s.ithread l).val x).toInt + off ∧ p % al = 0 ∧ p + n ≤ Krec.scratch s.ikrec) &&
  !s.iwg.acquiring l && (match write with
    | some w => !s.meets (.scr o p) n w
    | none => true) && !(s.ithread l).spotPend s.issue.wid o p n

theorem scratch_of {s : State} {i : Instr} {l : Nat} {x : Field} {off : Int} {n al o : Nat} {write : Option Bool} {p : Nat}
    (h : scratchB s i l x off n al o write p = true) : s.HitsScratch i l x off n al o write p := by
  simp only [scratchB, Bool.and_eq_true, decide_eq_true_eq, Bool.not_eq_true', beq_iff_eq] at h
  obtain ⟨⟨⟨⟨⟨h1, h2⟩, h3, h4, h5⟩, h6⟩, h7⟩, h8⟩ := h
  refine ⟨issuable_of h1, h2, h3, h4, h5, h6, fun w hw => ?_, h8⟩
  subst hw
  simpa using h7

/-- One lane with an index in X2, and arrays of the global space in A2 and of the scratchpad in A3. -/
def idx (n : Int) : State := setX (setA (setA s1 2 placeVa 0) 3 0 1) 0 2 (.ofInt 32 n)
def at2 : ArrOp MemW := ⟨2, x 2, .a64 0⟩
def at3 : ArrOp MemW := ⟨3, x 2, .a64 0⟩

/-- The first two lanes of the gang with these indices in X2. -/
def two (n m : Int) : State := setX (setX (setA (setA s2 2 placeVa 0) 3 0 1) 0 2 (.ofInt 32 n)) 1 2 (.ofInt 32 m)
/-- The same, with an array in A2 that masks. -/
def mask (s : State) : State := s.setWg 0 fun g => g.setGang 0 fun y => { y with arr := y.arr.set 2 (y.arr.getD 2 0 &&& ~~~(1#128 <<< 104)) }

def comesB (s : State) (i : Instr) (f : ArrForm) : Bool :=
  arrForm i == some f && issuableB s i && decide ((s.active i).Pairwise (· < ·)) &&
  (s.active i).all fun l => !s.iwg.acquiring l && (!f.order.rel || s.releaseReady s.issue.wid l true)

theorem comes_of {s : State} {i : Instr} {f : ArrForm} (h : comesB s i f = true) : s.Comes i f := by
  simp only [comesB, Bool.and_eq_true, List.all_eq_true, decide_eq_true_eq, Bool.not_eq_true', Bool.or_eq_true, beq_iff_eq] at h
  obtain ⟨⟨⟨h1, h2⟩, h3⟩, h4⟩ := h
  exact ⟨h1, issuable_of h2, h3, fun l hl => ⟨(h4 l hl).1, fun r => (h4 l hl).2.resolve_left (by simp [r])⟩⟩

def checksB (s : State) (i : Instr) (f : ArrForm) : Bool :=
  comesB s i f && (s.active i).all fun l =>
    let a := s.iwg.array l f.k
    let e := (s.ithread (s.leadOf i f l)).index f.x
    (a.space != 3 || f.acc) && (a.space == 0 || f.scr) && decide (s.elemAt i f l % f.al = 0) && (a.space != 3 || decide (4 ≤ f.n)) &&
    decide (e.2.lo ≤ e.1.toInt) && decide (e.1.toInt ≤ e.2.hi)

theorem checks_of {s : State} {i : Instr} {f : ArrForm} (h : checksB s i f = true) : s.Checks i f := by
  simp only [checksB, Bool.and_eq_true, List.all_eq_true, decide_eq_true_eq, Bool.or_eq_true, beq_iff_eq, bne_iff_ne] at h
  obtain ⟨h1, h2⟩ := h
  have g := fun l hl => h2 l hl
  refine ⟨comes_of h1, fun l hl => ?_, fun l hl => ?_, fun l hl => ?_⟩ <;> obtain ⟨⟨⟨⟨⟨a, b⟩, c⟩, d⟩, e⟩, k⟩ := g l hl
  · exact ⟨fun q => a.resolve_left fun r => r q, fun q => b.resolve_left q⟩
  · exact ⟨c, fun q => d.resolve_left fun r => r q⟩
  · exact ⟨e, k⟩

/-- The places that the good lanes name. -/
def spreadB (s : State) (i : Instr) (f : ArrForm) : Bool :=
  checksB s i f && (s.active i).all fun l =>
    let a := s.iwg.array l f.k
    (s.inside i f l || !a.trap) && (a.space != 2 || (s.peerWg a.peer).isSome) && (s.placeOf i f l).all fun sp => !s.meets sp f.n f.write

theorem spread_of {s : State} {i : Instr} {f : ArrForm} (h : spreadB s i f = true) : s.Spread i f := by
  simp only [spreadB, Bool.and_eq_true, List.all_eq_true, Bool.or_eq_true, bne_iff_ne, Bool.not_eq_true', Option.all_eq_true] at h
  obtain ⟨h1, h2⟩ := h
  have g := fun l hl => h2 l hl
  refine ⟨checks_of h1, fun l hl q => ?_, fun l hl q => ?_, fun l hl sp hp => ?_⟩ <;> obtain ⟨⟨a, b⟩, c⟩ := g l hl
  · exact a.resolve_left (by simp [q])
  · have r := b.resolve_left fun r => r q
    intro e
    rw [e] at r
    cases r
  · exact c sp hp

def form (i : Instr) : ArrForm := (arrForm i).getD ⟨0, x 0, 0, 0, false, false, 0, false, false, .relaxed⟩
def ldW : Instr := .ld p7 .b32 true (x 1) at2
def stW : Instr := .st p7 .b32 at2 (x 5)

/-- `ArrayLoads`: the first and the last element, a lane that its array masks, each load and each space. -/
theorem witness_loads :
    (let ok := fun (s : State) (i : Instr) => spreadB s i (form i)
     ([ldW, .ldu p7 .b32 true (x 1) at2].all fun i =>
       ok (two 0 63) i && ok (two 63 0) i && ok (mask (two 64 64)) i && !(mask (two 64 64)).inside i (form i) 1) && ok (two 60 0) (.ldXs p7 (x 1) at2) && ok (two 63 0) (.ld p7 .b32 true (x 1) at3) &&
     ok (two 62 0) (.ldu p7 .b64 true (v 4) at3) && ok (two 60 0) (.ldXs p7 (x 1) at3) &&
     (let s := (two 63 0).setWg 0 fun g => g.setGang 0 fun y => { y with arr := y.arr.set 2 (.ofNat 128 (2 ^ 64 * 64 + 2 ^ 96 * 2 + 2 ^ 99 * 3 + 2 ^ 104)) }
      spreadB s ldW (form ldW) && s.placeOf ldW (form ldW) 0 == some (.acc 0 252)) &&
     (two 63 0).placeOf (.ld p7 .b32 true (x 1) at3) (form (.ld p7 .b32 true (x 1) at3)) 0 == some (.scr 0 252) &&
     !((two 63 0).ithread 0).spotPend 0 0 252 4 && (s1.wg 0).badScratch == [] && (s1.wg 0).badAcc == [] &&
     (let s := s1.setWg 0 fun g => { g with badScratch := [4] }
      (s.wg 0).badScratch.contains 4) &&
     (let u := setP s1 0 2 (.ofNat 64 (2 ^ 57 - 1))
      let i := Instr.lda p7 .b32 false (x 1) (v 2) 0 none
      issuableB u i && u.ictx.capUnchecked && !u.iwg.acquiring 0 && (u.ithread 0).pair (v 2) == 2 ^ 57 - 1 && !u.meets (.glob (2 ^ 57 - 1)) 4 false)) =
      true := by decide +kernel

def checksScrB (s : State) (i : Instr) (f : ScrForm) : Bool :=
  scrForm s i == some f && issuableB s i && decide ((s.active i).Pairwise (· < ·)) &&
  (s.active i).all fun l =>
    let e := (s.ithread l).index f.x
    !s.iwg.acquiring l && (!f.order.rel || s.releaseReady s.issue.wid l true) && decide (e.2.lo ≤ e.1.toInt) && decide (e.1.toInt ≤ e.2.hi)

theorem checksScr_of {s : State} {i : Instr} {f : ScrForm} (h : checksScrB s i f = true) : s.ChecksScr i f := by
  simp only [checksScrB, Bool.and_eq_true, List.all_eq_true, decide_eq_true_eq, Bool.not_eq_true', Bool.or_eq_true, beq_iff_eq] at h
  obtain ⟨⟨⟨h1, h2⟩, h3⟩, h4⟩ := h
  exact ⟨h1, issuable_of h2, h3, fun l hl => ⟨(h4 l hl).1.1.1, fun r => (h4 l hl).1.1.2.resolve_left (by simp [r])⟩,
    fun l hl => ⟨(h4 l hl).1.2, (h4 l hl).2⟩⟩

def spreadScrB (s : State) (i : Instr) (f : ScrForm) (o : Nat) : Bool :=
  checksScrB s i f && f.wg == some o &&
  (s.active i).all fun l => decide (s.scrAt f l % f.n = 0) && s.scrIn f l && f.write.all fun w => !s.meets (.scr o (s.scrAt f l).toNat) f.n w

theorem spreadScr_of {s : State} {i : Instr} {f : ScrForm} {o : Nat} (h : spreadScrB s i f o = true) : s.SpreadScr i f o := by
  simp only [spreadScrB, Bool.and_eq_true, List.all_eq_true, decide_eq_true_eq, Bool.not_eq_true', Option.all_eq_true, beq_iff_eq] at h
  obtain ⟨⟨h1, h2⟩, h3⟩ := h
  exact ⟨checksScr_of h1, h2, fun l hl => ⟨(h3 l hl).1.1, (h3 l hl).1.2⟩, fun w hw l hl => (h3 l hl).2 w hw⟩

def scrf (s : State) (i : Instr) : ScrForm := (scrForm s i).getD ⟨x 0, 0, 1, none, none, .relaxed⟩
def here : ScrW := ⟨.none, .gang, .none⟩

/-- `ScratchLoads` and `LocalStores`: the first and the last bytes of the allocation by two lanes, directly, through the cluster and through an
array; stores that are one piece, one that is not, lanes that are masked, and lanes that store one byte. -/
theorem witness_scratch :
    (let s := two 0 4092
     let f : ScrW := ⟨.none, .gang, .clr⟩
     ([Instr.lds p7 .b32 false (x 1) (x 2) 0 none, .ldp p7 .b32 false (x 1) (x 2) 0 0 here, .lds p7 .b32 false (x 1) (x 2) 0 (some f),
       .sts p7 .b32 (x 2) 0 none (x 5), .stp p7 .b32 (x 2) 0 0 here (x 5)].all fun i => spreadScrB s i (scrf s i) 0 && spreadScrB (two 8 8) i (scrf (two 8 8) i) 0) &&
     s.peerWg 0 == some 0 && s.wgs.has 0 && s.iwg.badScratch == [] && ([0, 4092].all fun p => !(s.ithread 0).spotPend 0 0 p 4 && !s.iwg.spotBelow 0 0 p 4 s.clk &&
       (cutUnit scratchUnit p 4).length == 1) &&
     ([Instr.st p7 .b32 at3 (x 5), .stXs p7 at3 (x 5)].all fun i => spreadB (two 0 60) i (form i) && spreadB (two 8 8) i (form i)) &&
     (let i := Instr.st p7 .b32 ⟨3, x 2, .a64 2⟩ (x 5)
      let b := s1.setWg 0 fun g => g.setGang 0 fun y => { y with arr := y.arr.set 3 (.ofNat 128 (2 + 2 ^ 64 * 64 + 2 ^ 96 * 2 + 2 ^ 99 + 2 ^ 104)) }
      spreadB b i (form i) && b.active i == [0] && (b.placeOf i (form i) 0).any fun sp => match sp with
        | .scr o p => o == 0 && 1 < (cutUnit scratchUnit p 4).length && !(b.ithread 0).spotPend 0 0 p 4
        | _ => false)) = true := by decide +kernel

/-- The state in which the core holds a grant for the placed page. -/
def granted (s : State) : State := s.setCore 0 fun c => { c with grants := [⟨placeVa, 1, false⟩] }

/-- `GlobalStores`: the last word of a line under a grant, without one, with a full siding, near-only under a far grant, behind an earlier store of
the thread, and a store that is cut; through an array and unchecked. -/
theorem witness_stores :
    (let p := placeVa + 124
     let one := fun (s : State) (p : Nat) => s.ictx.resolve .wr p == some ⟨p, 0, 0⟩ && decide (4 ≤ min (s.unitAt 1 p) (s.unitAt 1 (p + 3))) &&
       !s.fetching 0 0 (lineOf p) s.clk && !(s.ithread 0).busyAt s.ictx p 4 && !s.iwg.pendingBelow s.ictx 0 p 4 s.clk
     let plain := fun (s : State) (p : Nat) => !s.sidedAt 0 0 p 4 && !s.sidedBelow 0 0 p 4 s.clk
     let sta := Instr.sta p7 .b32 (v 2) 0 none (x 3)
     let lone := setX (setA s1 2 placeVa 0) 0 2 31
     spreadB lone stW (form stW) && lone.active stW == [0] && spreadB (granted (two 31 30)) stW (form stW) &&
     (let u := setP s1 0 2 (.ofNat 64 p)
      issuableB u sta && u.ictx.capUnchecked && (u.ithread 0).pair (v 2) == p && !u.meets (.glob p) 4 true && !u.iwg.acquiring 0) &&
     (let s := (granted lone).afterCheck stW (form stW)
      one s p && plain s p && s.grantOf 0 1 p == some ⟨placeVa, 1, false⟩) &&
     (let s := (granted (two 31 30)).afterCheck stW (form stW)
      [p, p - 4].all fun p => one s p && plain s p && (s.grantOf 0 1 p).isSome) &&
     (let s := lone.afterCheck stW (form stW)
      one s p && s.grantOf 0 1 p == none && (s.core 0).siding == [] && !(s.ithread 0).olderStores s.clk) &&
     (let far := (lone.setCore 0 fun c => { c with grants := [⟨placeVa, 1, true⟩] }).afterCheck stW (form stW)
      one far p && plain far p && far.grantOf 0 1 p == some ⟨placeVa, 1, true⟩) &&
     (let busy := lone.setThread 0 0 fun x => { x with seq := 8, prods := [⟨7, none, none, false, .store [⟨p, [1]⟩] false 0 none, none, 0⟩] }
      ((busy.afterCheck stW (form stW)).ithread 0).busyAt busy.ictx p 4) &&
     (let q := setP s1 0 2 (.ofNat 64 (p + 2))
      !(q.advance.ithread 0).busyAt q.ictx (p + 2) 4 && (q.advance.split 1 (p + 2) 4).length == 2)) = true := by decide +kernel

/-- `AccessTraps`: a space that is not allowed, a misaligned atomic, an index on either side of the extent, an absent peer, and a registered range;
the same for offsets, and for an unchecked access. -/
theorem witness_access_traps :
    (let lk := fun (s : State) (sp : Space) (lo : Nat) => s.setCore 0 fun c => { c with locks := [⟨0, sp, true, lo, lo + 4⟩] }
     let acc := fun (n : Nat) (peer : Nat) => (two 0 0).setWg 0 fun g => g.setGang 0 fun y =>
       { y with arr := y.arr.set 2 (.ofNat 128 (2 ^ 64 * 64 + 2 ^ 96 * 2 + 2 ^ 99 * n + 2 ^ 104 + 2 ^ 105 * peer)) }
     let at_ := Instr.atom p7 .add (v 2) (⟨2, x 2, .a96 0 ⟨.none, .gang, false, .b32, none, none⟩⟩ : ArrOp AtW) (v 6)
     comesB (acc 3 0) at_ (form at_) && ((acc 3 0).iwg.array 0 2).space == 3 && !(form at_).acc &&
     (let s := setA (two 0 1) 2 (placeVa + 2) 0
      comesB s at_ (form at_) && decide (s.elemAt at_ (form at_) 0 % 4 ≠ 0)) &&
     ([-1, 64].all fun n => checksB (two 0 n) ldW (form ldW) && ((two 0 n).iwg.array 0 2).trap && !(two 0 n).inside ldW (form ldW) 1) &&
     (let s := lk (two 0 1) (.global 1) (placeVa + 4)
      checksB s ldW (form ldW) && s.inside ldW (form ldW) 1 && (s.placeOf ldW (form ldW) 1).any fun sp => s.meets sp 4 false) &&
     (let i := Instr.sts p7 .b32 (x 2) 0 none (x 5)
      checksScrB (two 0 2) i (scrf (two 0 2) i) && checksScrB (two 0 4096) i (scrf (two 0 4096) i) && !(two 0 4096).scrIn (scrf (two 0 4096) i) 1 &&
      (let s := lk (two 0 4) (.scratch 0) 4
       checksScrB s i (scrf s i) && s.scrIn (scrf s i) 1 && s.meets (.scr 0 4) 4 true)) &&
     (let j := Instr.stp p7 .b32 (x 2) 0 3 here (x 5)
      checksScrB (two 0 4) j (scrf (two 0 4) j) && (scrf (two 0 4) j).wg == none) &&
     (let i := Instr.lda p7 .b32 false (x 1) (v 2) 0 none
      let s := setP s2 0 2 (.ofNat 64 (2 ^ 57))
      issuableB s i && s.ictx.capUnchecked && decide (2 ^ 57 ≤ (s.ithread 0).pair (v 2)) &&
      (let q := lk (setP s2 0 2 (.ofNat 64 placeVa)) (.global 1) placeVa
       issuableB q i && q.meets (.glob placeVa) 4 false))) = true := by decide +kernel

def homeOnlyB (s : State) (c gl pa : Nat) : Bool :=
  let a := (s.l1 c gl).addr gl
  (s.wayOf c a).isNone && peerOf (128 * gl) == 0 && s.sliceUp (s.home a) && decide (s.via a = s) && s.lineAddr gl == some pa &&
  s.reachable (128 * gl) && !s.isPoison gl && (s.dirOf gl).state == .i && !(s.dirOf gl).busy && s.dirQueue.all fun q => q.line != gl

/-- Software has used the first line of the placed page through the interleave set of slice 0. -/
def via2 (s : State) : State := { s with homes := [(placeVa / 128, ⟨s.home ⟨placeVa, 2, 0⟩, []⟩)] }

theorem homeOnly_of {s : State} {c gl pa : Nat} (h : homeOnlyB s c gl pa = true) : s.HomeOnly c gl pa := by
  simp only [homeOnlyB, Bool.and_eq_true, List.all_eq_true, decide_eq_true_eq, Bool.not_eq_true', beq_iff_eq, bne_iff_ne,
    Option.isNone_iff_eq_none] at h
  obtain ⟨⟨⟨⟨⟨⟨⟨⟨⟨h1, h2⟩, h3⟩, h4⟩, h5⟩, h6⟩, h7⟩, h8⟩, h9⟩, h10⟩ := h
  exact ⟨⟨h1, h2, h3⟩, h4, ⟨h5, h6⟩, h7, ⟨h8, h9, h10⟩⟩

/-- `CacheInstructions`: PREF and RESV of the first element, RESV.CLR, and every CCTL operation over the line, one with
dirty bytes of it in the L1. -/
theorem witness_cache :
    (let m : ArrOp Unit := ⟨2, x 2, .a64 0⟩
     let s := idx 0
     let q := setP s1 0 2 (.ofNat 64 placeVa)
     hitsB s (.pref p7 false m) 0 2 (x 2) 0 1 false placeVa && !s.meets (.glob placeVa) 4 false && s.ictx.resolve .rd placeVa == some ⟨placeVa, 0, 0⟩ &&
     (match (s.advance.countFp 1 placeVa (placeVa + 3)).translate 1 ⟨placeVa, 0, 0⟩ .rd false false with
      | .ok pa _ => pa == placePa
      | _ => false) && !s.isPoison (lineOf placeVa) &&
     issuableB (idx 0) (.pref p7 true ⟨3, x 2, .a64 0⟩) && hitsB s (.resv p7 m) 0 2 (x 2) 0 1 false placeVa && (s.core 0).l1 == [] &&
     issuableB s (.resvClr p7 m) &&
     ([CctlOp.wb, .inv, .wbinv, .iinv].all fun op => issuableB q (.cctl p7 op (v 2) 1)) &&
     ((q.cctlLines placeVa 1).all fun g => (q.l1 0 g).held == none) && !q.codeBusy 0 placeVa (placeVa + 32) &&
     q.l1Lines 0 1 placeVa (placeVa + 32) == [] &&
     (let d := via2 (q.setL1 0 (placeVa / 128) ⟨[(0, ⟨7, true⟩), (127, ⟨9, true⟩)], 1, 2, 0, [], none, [1], 0⟩)
      homeOnlyB d 0 (placeVa / 128) placePa && d.cctlLines placeVa 1 == [placeVa / 128])) = true := by decide +kernel

/-- `ArrayRegisters`: an image that R253 allows and one whose reserved bits are set. -/
theorem witness_arrays :
    (let i := Instr.arraySet p7 9 (v 4)
     let s := setV (setV s1 0 6 64) 0 7 0x102
     let bad := setV s 0 7 0x8102
     ([s, bad].all fun s => issuableB s i && s.active i == [0]) &&
     arrOk s.ikrec (.ofNat 128 ((s.ithread 0).wide (v 4) 4)) && !arrOk bad.ikrec (.ofNat 128 ((bad.ithread 0).wide (v 4) 4))) = true := by decide +kernel

/-! ### Tickets, atomics, fences and engines -/

/-- A ticket of slice 5, entry 7, generation 1, four lines, for context 1, and the table entry behind it. -/
def tk : Dword := makeTicket 0 5 7 1 1 4
def ready : Ticket := { Ticket.zero with state := .ready, gen := 1, ctx := 1, lines := 4 }
def tked (s : State) (e : Ticket) : State := s.setTicket 5 7 fun _ => e

/-- `TicketLoads`: a block of one line at the first and at the last line of a granule, with room in the table, with none, and with a load of the
thread to be performed before. -/
theorem witness_ticket_loads :
    (let m : ArrOp TkW := ⟨2, x 2, .a64 0⟩
     let i := Instr.tktLd p7 false (v 4) m
     let t := fun (b : Nat) => setX (s1.setWg 0 fun g => g.setGang 0 fun y =>
       { y with arr := y.arr.set 2 (.ofNat 128 (b + 2 ^ 64 * 64 + 2 ^ 96 * 2 + 2 ^ 104)) }) 0 2 0
     [placeVa, placeVa + 0xF80].all fun b =>
       let s := t b
       let a : GAddr := ⟨b, 0, 0⟩
       let n := s.home a
       let full_ := s.setTicket n 0 fun k => { k with state := .ready, lines := Config.ticketLines }
       let busy := s.setThread 0 0 fun x => { x with seq := 8, prods := [⟨7, none, none, false, .store [⟨b, [1]⟩] false 0 none, none, 0⟩] }
       hitsB s i 0 2 (x 2) 0 128 false b && b % 128 == 0 && b / 4096 == (b + 127) / 4096 && s.ictx.resolve .rd b == some a &&
       ((s.ithread 0).prod? (s.ithread 0).seq).isNone && !s.blockBusy 0 0 (s.ithread 0).seq b 128 a && s.sliceUp n && (s.slice n).waiting == [] &&
       (s.core 0).l1 == [] && decide ((s.slice n).pinned + 1 ≤ 16384) && (s.slice n).freeEntry.isSome && decide (16384 < (full_.slice n).pinned + 1) &&
       hitsB busy i 0 2 (x 2) 0 128 false b && busy.blockBusy 0 0 (busy.ithread 0).seq b 128 a) = true := by decide +kernel

/-- `TicketLoads` and `GlobalAtomics`: two lanes, one of them masked or both good. -/
theorem witness_two_lanes :
    (let i := Instr.tktLd p7 true (v 4) ⟨2, x 2, .a64 0⟩
     let s := two 32 0
     spreadB s i (form i) && s.inside i (form i) 0 && s.inside i (form i) 1 && ([0, 1].all fun l =>
       let p := (s.elemAt i (form i) l).toNat
       p / 4096 == (p + 127) / 4096 && (s.ictx.resolve .rd p).isSome) && spreadB (mask (two 0 64)) i (form i) && !(mask (two 0 64)).inside i (form i) 1 &&
     ([AtW.mk .none .gang false .b32 none none, AtW.mk .rel .sys false .b32 none none].all fun w =>
       [Instr.atom p7 .add (v 2) ⟨2, x 2, .a96 0 w⟩ (v 6), .cas p7 (v 4) 2 (x 2) 0 w (v 6) (v 8)].all fun j =>
         [two 63 63, mask (two 0 64)].all fun s => spreadB s j (form j) && (s.core 0).l1 == [])) = true := by decide +kernel

/-- `TicketUses`: the last redeem of the block, and a list in scratchpad. -/
theorem witness_ticket_redeems :
    (let s := setX (setP s1 0 6 tk) 0 1 504
     lanesIf s (.tktRdv p7 .b64 (some 2) (v 4) (v 6) (x 1)) (fun t => s.ticketLocal 1 (.ofNat 64 (t.pair (v 6))) == 0 &&
       (t.val (x 1)).toNat % 8 == 0 && (t.val (x 1)).toNat + 8 ≤ 128 * Tkt.lines (.ofNat 64 (t.pair (v 6)))) &&
     (let q := setX (setP s1 0 4 tk) 0 6 (4096 - 512)
      lanesIf q (.tktRds p7 none (v 8) (v 4) (x 6)) fun t => q.ticketLocal 1 (.ofNat 64 (t.pair (v 4))) == 0 &&
        t.val (x 6) == 4096 - 512 && 4096 - 512 + 128 * Tkt.lines (.ofNat 64 (t.pair (v 4))) ≤ Krec.scratch q.ikrec) &&
     scratchB (setX s1 0 4 (4096 - 256)) (.tktWaitany p7 (x 3) (x 4) 32 5) 0 (x 4) 0 256 8 0 (some false) (4096 - 256) &&
     (tked s ready).ticketCode 1 tk == 0 && s.ticketCode 1 tk != 0) = true := by decide +kernel

def atw : AtW := ⟨.none, .gang, false, .b32, none, none⟩

/-- `GlobalAtomics` and `ScratchAtomics`: the first and the last element, a release at `.SYS`, a reduction under a grant and one that is sided,
and elements of a scratchpad array. -/
theorem witness_atomics :
    (let rel : AtW := { atw with order := .rel, scope := .sys }
     let m := fun (k : Nat) (w : AtW) => (⟨k, x 2, .a96 0 w⟩ : ArrOp AtW)
     Use.wordOf (m 2 atw) == some atw && Use.wordOf (m 3 atw) == some atw && !(atOrd atw).rel && !(atOrd atw).acq && atw.peer == none &&
     (atOrd rel).rel && (idx 0).releaseReady 0 0 true && (s1.core 0).l1 == [] &&
     ([(0 : Nat), 63].all fun n =>
       let i := idx n
       let g : GAddr := ⟨placeVa + 4 * n, 0, 0⟩
       let red := Instr.red p7 .add (m 2 atw) (x 6)
       let own := some (Spot.scr 0 (4 * n))
       ([atw, rel].all fun w => hitsB i (.atom p7 .add (v 2) (m 2 w) (v 6)) 0 2 (x 2) 0 4 true (placeVa + 4 * n) &&
         hitsB i (.cas p7 (v 4) 2 (x 2) 0 w (v 6) (v 8)) 0 2 (x 2) 0 4 true (placeVa + 4 * n)) &&
       ([granted i, i].all fun s => hitsB s red 0 2 (x 2) 0 4 true (placeVa + 4 * n) && s.ictx.resolve .wr g.gia == some g &&
         !s.fetching 0 0 (lineOf g.gia) (s.clk + 1) && (s.core 0).siding == [] && !(s.ithread 0).busyAt s.ictx g.gia 4 && !(s.ithread 0).olderStores (s.clk + 1)) &&
       ((granted i).countFp 1 g.gia (g.gia + 3)).grantOf 0 1 g.gia == some ⟨placeVa, 1, false⟩ &&
       (i.countFp 1 g.gia (g.gia + 3)).grantOf 0 1 g.gia == none && ((i.ithread 0).index (x 2)).2 == ⟨n, n⟩ &&
       ([Instr.red p7 .add (m 3 atw) (x 6), .atom p7 .add (v 2) (m 3 atw) (v 6), .cas p7 (v 4) 3 (x 2) 0 atw (v 6) (v 8)].all fun j =>
         hitsB i j 0 3 (x 2) 0 4 true (4 * n)) && !(i.ithread 0).spotPend 0 0 (4 * n) 4 && i.spot (i.iwg.array 0 3) (4 * n) == own &&
       (own.all fun sp => !i.meets sp 4 true && !i.spotBusy 0 sp 4) &&
       scratchB (idx (4 * n)) (.atoms p7 .add (x 4) (x 2) (.s96 0) atw (x 6)) 0 (x 2) 0 4 4 0 (some true) (4 * n) &&
       scratchB (idx (4 * n)) (.cass p7 (x 4) (x 2) 0 atw (x 6) (x 8)) 0 (x 2) 0 4 4 0 (some true) (4 * n)) &&
     ([Instr.atoms p7 .add (x 4) (x 2) (.s96 0) atw (x 6), .cass p7 (x 4) (x 2) 0 atw (x 6) (x 8)].all fun j =>
       [two 0 4092, two 8 8].all fun s => spreadScrB s j (scrf s j) 0 && (s.wg 0).badScratch == [])) = true := by decide +kernel

/-- `FencesAndWaits`: an aligned element and a line. -/
theorem witness_waits :
    (let w : WaW := ⟨.acq, .dev, true, .b32, .geu, some 1, 4095⟩
     hitsB (idx 63) (.waita p7 (x 4) 2 (x 2) (x 5) 0 w) 0 2 (x 2) 0 4 false (placeVa + 252) &&
     hitsB (idx 32) (.lineClr p7 ⟨2, x 2, .a64 0⟩) 0 2 (x 2) 0 128 true (placeVa + 128) &&
     (idx 32).ictx.resolve .wr (placeVa + 128) == some ⟨placeVa + 128, 0, 0⟩) = true := by decide +kernel

/-- A parameter block at the start of scratchpad. -/
def blk (s : State) (ws : List Nat) : State :=
  s.setWg 0 fun g => { g with scratch := (List.range ws.length).foldl (fun m i => Memory.writeLE m (8 * i) 8 (ws.getD i 0)) g.scratch }
/-- A tile of 16 rows and 16 columns, and a copy of 16 words. -/
def tileS : State := blk s1 [15 * 2 ^ 20 + 15 * 2 ^ 28 + 16 * 2 ^ 36]
def copyS : State := blk s1 [placeVa + 2 ^ 62, 16 * 2 ^ 32, 0, 0, 0, 15 * 2 ^ 24, 64 * 2 ^ 12, 0]

def takes (s : State) (i : Instr) : Bool :=
  match engineOp i with
  | none => false
  | some (mat, f) => issuableB s i && s.active i == [0] && (!needsPager i || s.ictx.capPager) && s.pending? 0 == none &&
    match f s.advance 0 with
    | .take rs empty record args =>
      let c := s.advance.newCmd i 0 record args
      s.engineRoom 0 mat && !selfMeets rs && s.entriesFit (entriesOf rs) &&
      (!mat || match State.metaCheck ((s.advance.enlist c.id rs empty).setCore 0 fun x => { x with pend := x.pend ++ [c] }) c with
        | .good => true
        | _ => false)
    | _ => false

def refused (s : State) (i : Instr) : Bool :=
  match engineOp i with
  | none => false
  | some (_, f) => issuableB s i && s.active i == [0] && (!needsPager i || s.ictx.capPager) && s.pending? 0 == none &&
    (match f s.advance 0 with
     | .refuse _ => true
     | _ => false) && (match instrDst i with
     | some d => d.f.cls == .v && 0 < d.n
     | none => false)

/-- `EngineCommands`: commands that are taken and commands that are refused, of both engines. -/
theorem witness_engines :
    (takes tileS (.accZero p7 (v 1) (x 2)) && takes tileS (.accAmax p7 (v 2) (x 2)) && takes copyS (.xfer p7 (v 1) (x 2) (v 4) false) &&
     takes s1 (.xferPagein p7 (v 1) (x 2) .home) &&
     (let m : Instr := .accZero p7 (v 1) (x 2)
      [copyS, blk s2 [15 * 2 ^ 20 + 15 * 2 ^ 28 + 16 * 2 ^ 36]].all fun s => issuableB s m && match engineOp m with
        | some (mat, f) => (match acceptLoop m mat f State.metaCheck (s.active m) [] s.advance with
          | .ok _ => mat
          | _ => false)
        | none => false) && refused s1 (.accZero p7 (v 1) (x 2)) && refused s1 (.mma p7 (v 1) (x 2) 3 4 false) &&
     refused s1 (.xfer p7 (v 1) (x 2) (v 4) false)) = true := by decide +kernel

/-- `GranulesAndLocks`: the last granule of the allocation. -/
theorem witness_granules :
    (let s := setX s1 0 2 4080
     scratchB s (.granFill p7 (x 2) 1) 0 (x 2) 0 16 16 0 (some false) 4080 && scratchB s (.granEmpty p7 (x 2) 1) 0 (x 2) 0 16 16 0 none 4080 &&
     scratchB s (.lockQ p7 (v 1) (.scratch (x 2)) 16) 0 (x 2) 0 16 1 0 none 4080 && !(s.ithread 0).granPending) = true := by decide +kernel

/-! ### Threads, barriers, kernels, pages and traps -/

/-- The state with these threads of the workgroup held so. -/
def held (s : State) (l : List Nat) (h : Hold) : State := s.setThreads 0 l fun _ t => { t with hold := h }
/-- The threads with these numbers have ended. -/
def gone (s : State) (l : List Nat) : State := s.setThreads 0 l fun _ t => { t with live := false }

/-- `ThreadControl`: a slot in the eligible set and none; a gang that is not all there and one that is; an exit of some and of the last. -/
theorem witness_threads :
    (let join := Hold.join placeVa 0
     let y := Instr.yield p7
     let j := Instr.join p7
     let e := Instr.exit p7
     let s := held s2 [2, 3, 4, 5, 6, 7] join
     let last := gone s1 [1, 2, 3, 4, 5, 6, 7]
     issuableB s2 y && (s2.wgs.any fun e => e.2.core == 0 && !e.2.ended && e.2.slots.any fun k => k.1 % 4 == 0 && k.2.place == .eligible) &&
     (let w := s2.setWg 0 fun g => g.setSlot 0 fun k => { k with place := .window }
      issuableB w y && w.wgs.all fun e => e.2.slots.all fun k => k.2.place != .eligible) &&
     issuableB s2 j && ((s2.iwg.gangLive 0).any fun u => !(s2.active j).contains u && (s2.ithread u).hold == .none) &&
     issuableB s j && ((s.iwg.gangLive 0).all fun u => (s.active j).contains u || (s.ithread u).hold == join) && (s.active j).all s.iwg.live.contains &&
     issuableB s2 e && !s2.iwg.ended && (s2.iwg.live.any fun u => !(s2.active e).contains u) &&
     issuableB last e && last.active e == [0] && last.kernels.has 1 &&
     (last.advance.iwg.setThread 0 fun t => { t with live := false }).live == []) = true := by decide +kernel

/-- `BarrierArrivals`: every level at its first and last barrier, with a phase that completes and one that does not. -/
theorem witness_arrivals :
    (let arr := fun (s : State) (b : Bar) => [Instr.barArr p7 (x 9) b, .barSync p7 b].all fun i =>
       issuableB s i && s.active i != [] && decide (b.num < Krec.bars s.ikrec b.lvl) && (s.active i).all (s.releaseReady 0 · true) &&
       ((s.core 0).l1 == []) && s.kernels.has 1 && (s.active i).all fun n => !(s.iwg.gangBar 0 b.num).getLsbD n
     ([⟨.gang, 0⟩, ⟨.gang, 3⟩, ⟨.wg, 0⟩, ⟨.wg, 15⟩, ⟨.clu, 7⟩, ⟨.stk, 3⟩, ⟨.grid, 3⟩].all fun b => arr s2 b && arr s8 b) &&
     s8.advance.liveMembers 0 .wg == 8) = true := by decide +kernel

/-- `BarrierWaits`: tokens of the first and the last barrier of a level, and a declared barrier. -/
theorem witness_tokens :
    (let s := fun (w : Word) => setX (setX s2 0 9 w) 1 9 w
     ([0, 0x30, 3, 0xF2].all fun w => [Instr.barWait p7 (x 9), .barTry p7 2 (x 9)].all fun i =>
       lanesIf (s w) i fun t => (tokenBar s2.ikrec (t.val (x 9))).isSome) &&
     ([⟨.gang, 0⟩, ⟨.wg, 15⟩].all fun b => lanesIf s2 (.barCnt p7 (v 2) b) fun _ => decide (b.num < Krec.bars s2.ikrec b.lvl))) = true := by
  decide +kernel

/-- `KernelRequests` and `TrapsByName`: records at the first and the last address, misaligned and beyond the address space. -/
theorem witness_requests :
    (let ok := fun (t : Thread) => t.pair (v 4) % 256 == 0 && t.pair (v 4) < 2 ^ 57
     s2.ictx.capLauncher && s2.ictx.capPager && (s2.core 0).l1 == [] &&
     ([Instr.klaunch p7 (v 2) (v 4), .qpost p7 (x 2) (x 3) (v 4)].all fun i =>
       lanesIf (setP s2 1 4 (2 ^ 57 - 256)) i ok && ((s2.active i).all fun n => s2.releaseReady 0 n true && !s2.iwg.acquiring n) &&
       trapsOne (setP s2 1 4 128) i (fun t => t.pair (v 4) % 256 != 0) && trapsOne (setP s2 1 4 (2 ^ 57)) i (!ok ·)) &&
     ([Instr.kkill p7 (v 2) (v 5), .getev p7 (v 4) 5].all fun i => lanesIf s2 i fun _ => true)) = true := by decide +kernel

/-- `ContextWrites`: each selector, with the handler's address at the end of the address space and a misaligned one. -/
theorem witness_context_writes :
    (s2.ictx.capHandler && ([1, 2, 3, 6].all fun sel => [(0 : Nat), 2 ^ 57 - 4, 2].all fun n =>
       let i := Instr.ctxWr p7 sel (v 2)
       let s := setP s2 1 2 (.ofNat 64 n)
       issuableB s i && (s.active i).getLast? == some 1 && (s.ithread 1).pair (v 2) == n)) = true := by decide +kernel

/-- The context without capabilities. -/
def weak (s : State) : State := s.setCtx 1 fun c => { c with words := c.words.set 0 0 }

/-- `TrapsByName`: missing capabilities, misaligned input addresses, undeclared barriers, double arrivals and bad tokens. -/
theorem witness_named_traps :
    (([Instr.lda p7 .b32 false (x 1) (v 2) 8 none, .sta p7 .b32 (v 2) 8 none (x 3), .klaunch p7 (v 2) (v 4), .qpost p7 (x 2) (x 3) (v 4),
       .kkill p7 (v 2) (v 5), .ctxWr p7 3 (v 2), .getev p7 (v 4) 5, .pageCopy p7 (v 1) (v 2) 63, .xferPagein p7 (v 1) (x 2) .home,
       .pageUnmap p7 (v 1) (v 2)].all fun i => issuableB (weak s2) i && (weak s2).active i != [] && (match capability i with
       | some f => !f (weak s2).ictx && f s2.ictx
       | none => false)) &&
     ([Instr.pageUnmap p7 (v 1) (v 2), .pageCopy p7 (v 1) (v 2) 63].all fun i => [(2 : BitVec 64) ^ 48, 32768].all fun a =>
       trapsOne (setP s2 1 2 a) i fun t => 2 ^ 48 ≤ t.pair (v 2) || t.pair (v 2) % 65536 != 0) &&
     (pageOperands (.pageUnmap p7 (v 1) (v 2))).isSome &&
     (issuableB s2 (.barArr p7 (x 9) ⟨.clu, 8⟩) && decide (Krec.bars s2.ikrec .clu ≤ 8)) &&
     (let b : Bar := ⟨.gang, 3⟩
      let s := s2.setWg 0 fun g => g.setGang 0 fun y => { y with bars := y.bars.set 3 2 }
      issuableB s (.barArr p7 (x 9) b) && (s.active (.barArr p7 (x 9) b)).any fun n => (s.iwg.gangBar (s.iwg.gangOf n) 3).getLsbD (s.iwg.laneOf n)) &&
     trapsOne (setX s2 1 9 0x40) (.barWait p7 (x 9)) fun t => (tokenBar s2.ikrec (t.val (x 9))).isNone) = true := by decide +kernel

/-- `PageRequests`: the first and the last page of the input space. -/
theorem witness_pages :
    (let P := fun (t : Thread) => t.pair (v 2) < 2 ^ 48 && t.pair (v 2) % 65536 == 0
     ([(0 : BitVec 64), 2 ^ 48 - 65536].all fun a => pagesWords.all fun e => [s1, setP s1 0 2 a].all fun s => lanesIf s e.1 P) &&
     pagesWords.all fun e => ((s1.active e.1).all fun n => s1.releaseReady 0 n false && !s1.iwg.acquiring n) && s1.engineRoom 0 false) = true := by decide +kernel

/-- A frame of the slot, for handlers. -/
def framed (f : Frame) : State := handling (s2.setWg 0 fun g => g.setSlot 0 fun k => { k with busy := true, frame := f })

/-- The placed context with a handler. -/
def trapping (s : State) : State := s.setCtx 1 fun c => c.setFld 3 0 57 0x900000

/-- `TrapsAndReturns`: frames with a resume PC, with the instruction done, with a misaligned PC, and with a further cause, with a handler
and without one. -/
theorem witness_returns :
    (let e := Instr.eret p7
     let f := { Frame.zero with lanes := 0xFF, pc := placeVa, ipc := placeVa, insn := [0x0001C000, 0] }
     ([f, { f with done := 1 }, { f with pc := placeVa + 2 }, { f with next := 1 }, { f with next := 2 }].all fun f =>
       issuableB (framed f) e && (framed f).active e != [] && ((framed f).iwg.slot 0).frame == f && (framed f).ictx.trapPc == 0 &&
       issuableB (trapping (framed f)) e && (trapping (framed f)).ictx.trapPc != 0) &&
     issuableB (framed f) (.eretFault p7)) = true := by decide +kernel

/-- `HandlerAccess` and `Counters`: words of the frame, and a thread that has no access under way. -/
theorem witness_handler :
    ((let s := handling s1
      issuableB s (.hwr p7 9 8 (x 7)) && s.active (.hwr p7 9 8 (x 7)) == [0]) &&
     lanesIf s2 (.clk p7 true (v 2)) (fun t => t.prods == []) && (s2.core 0).siding == [] &&
     s2.active (.irem p7 2 0) != [] && s2.active (.idiv ⟨2, false⟩ 2 0) == []) = true := by decide +kernel

/-- `TrapEntry`: with a handler, without one, in handler mode, and with a busy frame. -/
theorem witness_trap_entry :
    (let s := trapping s2
     [0, 1].all (fun n => n / 64 == 0 && !(s.thread 0 n).handler) && s.wgs.has 0 && !((s.wg 0).slot 0).busy &&
     (s.ctx 1).trapPc == 0x900000 && (s2.ctx 1).trapPc == 0 && (s.wg 0).ctx == 1 && ((handling s).thread 0 1).handler &&
     ((framed Frame.zero).iwg.slot 0).busy) = true := by decide +kernel

/-- Threads of the placed workgroup stand at this PC, with these words behind the placed address. -/
def standing (ws : List Word) (pc : Nat) : State :=
  (State.reset.placed ws).setThreads 0 (List.range 8) fun _ t => { t with pc := pc }
/-- A turn of the bay of the placed workgroup: its first group is the only candidate, no thread of it has a trap to take, and this holds of what it
fetches. -/
def turns (s : State) (f : State → Fetch → Bool) : Bool :=
  match s.agenda with
  | .bay c b :: rest =>
    let r := ({ s with agenda := rest } : State).tick.bayReady c b
    match (r.wg 0).groups 0 with
    | [g] => r.bayCands c b == (r.candidate c 0 0 g).toList && g.lanes == List.range 8 && (g.lanes.all fun t => !(r.thread 0 t).hurt) &&
      f r (r.fetch c (r.wg 0).ctx (g.pc / 32 * 32)) && match step s with
        | .next _ => true
        | _ => false
    | _ => false
  | _ => false
def fetches (p : List Word → Bool) (_ : State) : Fetch → Bool
  | .words ws _ => p ws
  | _ => false

/-- `ChecksTrap`: each check of an issue that fails, and each of a bay's turn. -/
theorem witness_checks :
    (let pend := s1.setThread 0 0 fun t => { t with pend := 4 }
     let fe := Instr.iadd p7 ⟨x 1, ⟨.main, true, .x, 3⟩, .imm16 1⟩
     let bare := s2.setThread 0 1 fun t => { t with regs := { t.regs with x := t.regs.x.set 3 { t.regs.getX 3 with ful := false } } }
     (pend.issue.lanes.any fun n => !(pend.ithread n).ready (.nop p2n)) &&
     (s2.issue.lanes.all fun n => (s2.ithread n).ready (.eret p7)) && (s2.issue.lanes.any fun n => !limitsOk s2.ikrec (s2.ithread n).handler (.eret p7)) &&
     (let i := Instr.vqdec p7 false false (v 8) (v 1) (v 2) 0
      (s2.issue.lanes.all fun n => (s2.ithread n).ready i && limitsOk s2.ikrec false i) && s2.active i != [] && !slotOk s2.ikrec i) &&
     (bare.issue.lanes.all fun n => (bare.ithread n).ready fe && limitsOk bare.ikrec false fe) && slotOk bare.ikrec fe && fe.isThread &&
     (fe.uses.any fun u => ((bare.active fe).filter fun m => u.srcs.any (srcTraps (bare.ithread m))) == [1] &&
       ((u.srcs.find? (srcTraps (bare.ithread 1))).map fun y => fieldBits y.f) == some (fieldBits ⟨.main, true, .x, 3⟩))) = true := by decide +kernel

theorem witness_turns :
    (turns (standing [] (2 ^ 40)) (fun _ f => match f with
       | .page _ => true
       | _ => false) &&
     turns { standing [] placeVa with poison := [placePa / 128] } (fun _ f => f == .ue) &&
     turns (match (standing [] placeVa).pteAt placeVa with
       | some (a, _) => (standing [] placeVa).setPte a 0
       | none => standing [] placeVa) (fun _ f => match f with
       | .wait _ _ => true
       | _ => false) &&
     turns (standing [0, 0, 0, 0, 0, 0, 0, 0x0001C002] (placeVa + 28)) (fetches fun ws => decode (ws.drop 7) == .bad .straddle) &&
     turns (standing [0x0001C400, 0] placeVa) (fetches fun ws => match decode ws with
       | .bad e => e != .straddle
       | _ => false) &&
     ([(0x300083CC, 2), (0x3001C3CC, 7)].all fun (e : Word × Nat) => turns (standing [e.1, 0x00000240] placeVa) (fetches fun ws => decode ws == .unimpl ⟨e.2, false⟩ 2)) && decide ((0x0001C002 : Word).toNat % 4 ≠ 3)) = true := by decide +kernel

/-! ### Steps of the device: states in which each clause of the statements about events applies -/

def nexts (i : Instr) (s : State) : Bool := match exec i s with
  | .next _ => true
  | _ => false
def at_ (s : State) (n : Nat) : State := { s with clk := n }
/-- Thread 0 has one producer, at work on this. -/
def pr (w : Work) (tgt : Option Target) (stat : Option Nat) : Prod := ⟨0, tgt, stat, false, w, none, 0⟩
def prod (s : State) (p : Prod) : State := s.setThread 0 0 fun t => { t with prods := [p] }
def tx : Target := ⟨.x, 1, 1, false, []⟩
def tv (n : Nat) : Target := ⟨.v, 4, n, false, []⟩
def og : Origin := ⟨placeVa, [0x0001C000, 0], 1⟩

/-- `StepKeepsMemory`: a turn that passes clocks, after a reset. -/
theorem witness_step : (match step { State.reset with agenda := [.idle 5] } with
  | .next t => t.clk == 5
  | _ => false) && Memory.wf State.reset.mem = true := by decide +kernel

/-- `StepRunsInstruction`: the placed instruction is the first candidate of its bay; its block is fetched; nothing is due. -/
theorem witness_step_runs :
    s1.regs.ptValid && (s1.cores.all fun e => e.2.l1 == []) && (s1.slices.all fun e => decide (s1.clk < e.2.lastScan + 11000)) &&
    s1.dirRetry == [] &&
    (let s := (State.reset.placed [0x0001C000, 0])
     match s.agenda with
     | .bay c b :: rest =>
       let r := ({ s with agenda := rest } : State).tick.bayReady c b
       ((r.wg 0).groups 0 |>.any fun g => r.bayCands c b == (r.candidate c 0 0 g).toList && g.lanes == List.range 8 &&
         (r.bayCands c b).any fun d => d.run == some (.nop p7)) &&
       ((List.range 8).all fun t => (r.thread 0 t).report == [] && !(r.thread 0 t).errs.any) &&
       (match r.fetch c (r.wg 0).ctx placeVa with
        | .words ws _ => decode ws == .ok (.nop p7) 2
        | _ => false) &&
       (match (r.ctx 1).resolve .ex placeVa with
        | some a => !r.isPoison (lineOf a.gia) && (match r.ask 1 c a .ex false false false false with
          | .go s1 => ((s1.cohRead c a).1.core c).icache == []
          | _ => false)
        | none => false)
     | _ => false) = true := by decide +kernel

/-- `ThreadEvents`: a sleep and a join that are over, results, reports and deferred traps. -/
theorem witness_thread_events :
    (nexts (.sleepExpiry 0 0) (at_ (held s1 [0] (.sleep 5)) 5) && ((held s1 [0] (.sleep 5)).thread 0 0).hold == .sleep 5 &&
     ((at_ (held s2 [7] (.join 0 0)) 256).thread 0 7).hold == .join 0 0 && (s2.wg 0).gangLive 0 == List.range 8 &&
     ([pr (.done [5] ⟨5, 5⟩ true) (some tx) none, pr (.done [5, 6] full true) (some (tv 2)) (some 2), pr (.done [5] full false) none (some 6)].all fun p =>
       let s := prod s1 p
       s.wgs.has 0 && !(s.wg 0).ended && (s.thread 0 0).prod? 0 == some p && !s.unsettledGroup 0 0 && (s.thread 0 0).hold == .none &&
       nexts (.producerComplete 0 0 0) s) &&
     ([true, false].all fun ue => let p := pr (.failed ue) (some tx) none
       let q := { p with tgt := some { tx with skip := [1] } }
       ((prod s1 p).thread 0 0).live && !p.discarded && q.discarded && ((prod (handling s1) p).thread 0 0).handler) &&
     (let p := pr (.done [5, 6] full true) (some (tv 2)) (some 2)
      let s := (prod s1 p).setThread 0 1 fun t => { t with prods := [⟨0, none, none, false, .atom
        { va := placeVa, size := 4, sgn := false, xs := false, near := false, svc := 0, order := .none, scope := .dev, remote := false }
        ⟨some .add, .b32, 5, 0, false, og⟩ false, none, 0⟩] }
      s.unsettledGroup 0 0 && (s.thread 0 0).prod? 0 == some p) &&
     (let r : Report := ⟨Cause.page, 1, 0, og⟩
      let s := (trapping (gone s1 [1, 2, 3, 4, 5, 6, 7])).setThread 0 0 fun t => { t with report := [r] }
      s.canTrap 0 0 && !(s.wg 0).unsettled 0 og && (s.wg 0).standing 0 == [0] && (s.ctx (s.wg 0).ctx).trapPc != 0) &&
     (let s := (trapping (gone s1 [1, 2, 3, 4, 5, 6, 7])).setThread 0 0 fun t => { t with report := [⟨Cause.bar, 4, 0, og⟩] }
      s.canTrap 0 0 && (s.wg 0).standing 0 == [0] && (s.ctx (s.wg 0).ctx).trapPc != 0) &&
     (let s := trapping (gone s1 [1, 2, 3, 4, 5, 6, 7]) |>.setThread 0 0 fun t => { t with errs := ⟨2, 0, true, false, 0⟩ }
      s.canTrap 0 0 && (s.thread 0 0).errs.any && (s.thread 0 0).report == [] && (s.wg 0).standing 0 == [0])) = true := by decide +kernel

/-- A slot of the bay 0 for each number below 9, with the last one eligible. -/
def starving : State := at_ ((List.range 9).foldl (fun s n =>
  let w : Wg := { s1.wg 0 with kernel := n, slots := [(0, { Slot.zero with place := if n = 8 then .eligible else .window, num := n })] }
  { s with wgs := s.wgs.set n w, kernels := s.kernels.set n { s1.kern 1 with prio := if n = 3 then 1 else 2 } }) s1) 1024

/-- `ThreadEvents`: the deadlocks of each level after its time, and a slot that has stood in the eligible set for 1,024 clk. -/
theorem witness_deadlocks :
    (([(0x0, 256), (0x2, 1024), (0x4, 65536), (0x30, 256)].all fun (e : Nat × Nat) =>
       let s := at_ (held (s2.setWg 0 fun g => g.setGang 0 fun y => { y with bars := [(0, 0xFF), (3, 0xFF)] }) (List.range 8)
         (.barWait (.ofNat 32 e.1))) e.2
       (s.wg 0).live == List.range 8 && (s.wg 0).gangLive 0 == List.range 8 && ((List.range 8).all fun n => !s.wouldEnd 0 n) &&
       (s.wg 0).threads.all fun t => decide (t.2.last + e.2 ≤ s.clk)) &&
     s2.memberWgs 1 .clu 0 == [0] && s2.saved == [] && stirredIn (s2.kern 1) .clu 0 == 0 && !(s2.wg 0).stopped && decide (0 < Krec.bars (s2.kern 1).krec .clu) && !((s2.wg 0).slot 0).busy && ((s2.setWg 0 fun g => g.setSlot 0 fun k => { k with busy := true }).wg 0 |>.slot 0).busy &&
     (let l := starving.baySlots 0 0
      let o := l.filter fun r => r.sl.place == .eligible && decide (r.sl.since + 1024 ≤ starving.clk)
      let ws := l.filter fun r => r.sl.place == .window
      o.length == 1 && ws.length == 8 && ws.any fun v => ws.all fun r => r == v || decide (v.prio < r.prio))) = true := by decide +kernel

/-- The first step after `withFetchWord` runs the instruction: a `NOP` whose threads go on behind it. -/
theorem test_first_step : (match step (State.reset.withFetchWord 64 0x0001C000) with
  | .next t => (List.range 8).all fun n => (t.thread 0 n).pc == placeVa + 8
  | _ => false) = true := by decide +kernel

/-- The first line of the placed page, and a line of the L1 reached through the interleave set of slice 0. -/
def pl : Nat := placeVa / 128
def lined (cells : NMap Cell1) (held : Option Scope) : State := s1.setL1 0 pl ⟨cells, 1, 2, 0, [], held, [1], 0⟩
def word4 : NMap Cell1 := (List.range 4).map fun i => (124 + i, ⟨.ofNat 8 (i + 1), false⟩)
def rq (va : Nat) (o : Order) : Req :=
  { va := va, size := 4, sgn := false, xs := false, near := false, svc := 0, order := o, scope := .dev, remote := false }
def side (st : SState) : Side := ⟨0, 0, 0, 1, 1, placeVa, placeVa, 0, 0, [(0, 7), (127, 9)], none, false, st, none, 0, 0, [0], false⟩
def sided (st : SState) : State := (granted s1).setCore 0 fun c => { c with siding := [side st] }
def Ask.went : Ask → Option State
  | .go s => some s
  | _ => none
def hasWent (a : Ask) (f : State → Bool) : Bool := ((Ask.went a).map f).getD false

/-- `MemoryEvents`: dirty bytes at both ends of a line, a line held for a release record, and an ordered drain. -/
theorem witness_write_backs :
    (let s := via2 (lined [(0, ⟨7, true⟩), (5, ⟨8, false⟩), (127, ⟨9, true⟩)] none)
     let l := s.l1 0 pl
     l.held == none && l.dirty != [] && homeOnlyB s 0 pl placePa &&
     (let q := lined [(0, ⟨7, false⟩)] (some .clu)
      let n := q.home ((q.l1 0 pl).addr pl)
      (q.l1 0 pl).held == some .clu && q.sliceUp n && (q.slice n).records.get? pl == none && (q.slice n).records.length == 0 &&
      !(q.slice n).monitors.has pl) &&
     nexts (.drainComplete 3 0) (s.setCore 0 fun c => { c with drains := [⟨3, [pl], 0, none⟩] }) && nexts (.l1WriteBack 0 pl) s &&
     nexts (.recordRegister 0 pl) (lined [(0, ⟨7, false⟩)] (some .clu))) = true := by decide +kernel

/-- `MemoryEvents`: a load of the last word of a line in the L1, an acquire, and the siding. -/
theorem witness_loads_served :
    (let r := rq (placeVa + 124) .none
     let p := pr (.load r []) (some tx) none
     let s := prod (lined word4 none) p
     let isLoad : Work → Bool := fun q => match q with
       | .load r' _ => r'.near == r.near && r'.svc == r.svc
       | _ => false
     s.together 0 0 isLoad == [(0, p)] && !(s.thread 0 0).earlier (s.ctx 1) 0 r.va r.size && (s.core 0).siding == [] &&
     s.split 1 r.va 4 == [(r.va, 0, 4)] && (s.ctx 1).resolve .rd placeVa == some ⟨placeVa, 0, 0⟩ && ((List.range 4).all fun i => s.l1Byte 0 (128 * pl + (r.va + i) % 128) == some (.ofNat 8 (i + 1))) &&
     nexts (.translateRequest 0 0 0) s &&
     (let a := rq placeVa .acq
      let pa := pr (.load a []) (some tx) none
      let q := prod s1 pa
      a.atHome && q.together 0 0 isLoad == [(0, pa)] && q.split 1 a.va 4 == [(a.va, 0, 4)] && (q.cores.all fun e => e.2.siding == []) &&
      (q.orderCover (q.home ⟨placeVa, 0, 0⟩) pl 0 ⟨.acq, .dev⟩ false (0, 0, some 0)).isNone && (match q.readCoherent 0 1 placeVa false with
        | .bytes t _ => t.cores.all fun e => e.2.siding == []
        | _ => false) && nexts (.acquireAtHome 0 0 0) q) &&
     hasWent ((sided .grant).ask 1 0 (side .grant).addr .wr false true false false) (fun _ => true) &&
     (let q := sided .replay
      !q.fetching 0 0 pl 0 && !q.sideBlocked 0 (side .replay) && q.grantOf 0 1 placeVa == some ⟨placeVa, 1, false⟩ && nexts (.sidingReplay 0 0) q)) = true := by decide +kernel

/-- `MemoryEvents`: an atomic of the last word of a line. -/
theorem witness_atomic_performed :
    (let a : AtomReq := ⟨some .add, .b32, 5, 0, false, og⟩
     let r := rq (placeVa + 124) .none
     let p := pr (.atom r a false) (some tx) none
     let s := prod s1 p
     let g : GAddr := ⟨placeVa + 124, 0, 0⟩
     s.together 0 0 (fun q => match q with
       | .atom r' _ _ => r'.va / 128 == r.va / 128
       | _ => false) == [(0, p)] && !s.atomBlocked 0 (0, p) && !s.draining (0, 0, some 0) && (s.ctx 1).resolve .wr r.va == some g && (match s.atomLine 0 1 r.va false ⟨.none, .dev⟩ false false [(r.va, a)] (0, 0, some 0) with
       | .done t [old] => old == 0 && !(t.wg 0).ended
       | _ => false) &&
     (match s.translate 1 g .wr false true with
      | .ok _ t => t == 0
      | _ => false) && hasWent (s.ask 1 0 g .wr false true false false) fun t =>
        !t.isPoison pl && t.lineAddr pl == some placePa && peerOf placeVa == 0 && t.reachable placeVa && decide (t.via g = t) && (t.dirOf pl).state == .i && !(t.dirOf pl).busy && t.dirQueue == [] && t.l1 0 pl == .zero) = true := by decide +kernel

/-- `MemoryEvents`: each stage of a release fence, a wait that holds, one that is due, and a page that is waited for. -/
theorem witness_fences :
    (let f := fun (n : Nat) (r : Bool) => held s1 [0] (.fence .rel .dev r n)
     ([Order.rel, .acqrel].all fun o => (held s1 [0] (.fence o .clu false 0)).releaseReady 0 0 true) && nexts (.eagerDrainComplete 0 0) (f 0 false) &&
     ((f 2 true).cores.all fun e => e.2.drains == []) && ((f 1 true).thread 0 0).prods == [] && !(f 1 true).ticketsOut 0 0 && ((f 1 true).slices.all fun e => e.2.records == []) &&
     nexts (.remotePromotion 0 0) (f 2 true) && nexts (.remotePromotion 0 0) (f 1 true) &&
     (let w := fun (b : Nat) (till : Option Nat) => held s1 [0] (.waita (rq (placeVa + 124) .none) .eq b (x 4) 1 till none false 0 none og)
      ([w 0 none, w 1 (some 0)].all fun s => nexts (.waitaPoll 0 0) s && !(s.thread 0 0).busyAt (s.ctx 1) (placeVa + 124) 4 && s.split 1 (placeVa + 124) 4 == [(placeVa + 124, 0, 4)] && !s.draining (0, 0, none) &&
        (s.cores.all fun e => e.2.siding == []) && match s.readCoherent 0 1 placeVa false with
        | .bytes t d => (t.cores.all fun e => e.2.siding == []) && (waitHolds .eq 4 (ofBytes ((List.range 4).map fun i => d (124 + i))) 0)
        | _ => false) && nexts (.waitaTimeout 0 0) (w 1 (some 0))) &&
     (let m : Miss := ⟨placeVa, 3, 1, 0, true, 0⟩
      let s := at_ (((prod s1 { pr (.load (rq placeVa .none) []) (some tx) none with wait := some placeVa }).setSlice 3 fun z => { z with misses := [m] })) 110000
      ((s.slice 3).misses.find? fun m => m.page == placeVa) == some m && (s.waiters (· == placeVa)).length == 1 &&
      nexts (.pageMissRepost 3 placeVa) s)) = true := by decide +kernel

/-- The state after an instruction, and after a list of them. -/
def ran (s : State) (i : Instr) : State := match exec i s with
  | .next t => t
  | _ => s
def visited (st : DState) (ow : Option Agent) (vs : List Nat) (x : Visitor) : State :=
  vs.foldl (fun s n => s.setSlice n fun z => { z with visitors := [(pl, x)] })
    ((s1.setDir pl { Dir.zero with state := st, ver := 4, owner := ow, slices := vs }).setSlice Dir.zero.home fun z =>
      { z with visit := [(visitKey pl, 1)] })
def vis (d : Bool) : Visitor := ⟨[(0, 7), (127, 9)], d, 4⟩

/-- `DirectoryEvents`: a line in each state of the directory, in the ways, in the write-back buffer, and queued. -/
theorem witness_directory :
    (s1.peerWakes 0 == s1 && s1.dirQueue == [] && s1.visits 0 pl && !(s1.dirOf pl).busy && (s1.dirOf pl).state == .i && (s1.allocDir pl).isSome &&
     (let s := visited .s none [0, 8] (vis false)
      (s.visits 0 pl && !(s.dirOf pl).busy && (s.dirOf pl).state == .s && s.visits 16 pl && s.visitor 8 pl == some (vis false)) &&
      (visited .s none [0] (vis false)).visitor 0 pl == some (vis false) && s.visited pl && (s.peerHome pl).isNone) &&
     (let s := visited .m (some (.slice 0)) [0] (vis true)
      s.visited pl && (s.peerHome pl).isNone && !s1.visited pl) &&
     (let s := s1.setDir pl { Dir.zero with state := .m, owner := some (.slice 8), slices := [8], busy := true }
      let b := s.setSlice 0 fun z => { z with wbuf := [(pl, vis true)] }
      s.visits 0 pl && (s.dirOf pl).busy && (b.slice 0).wbuf.get? pl == some (vis true) && (b.slice 0).visitors.get? pl == none &&
      ((b.dirClose pl).dirOf pl).owner == some (.slice 8) && ((b.dirClose pl).slice 0).wbuf == [] &&
      (let o := b.setDir pl { Dir.zero with state := .m, owner := some (.slice 8), slices := [8] }
       (o.dirOf pl).owner != some (.slice 0) && !(o.dirOf pl).busy && ((ran o (.dirWb 0 pl)).slice 0).wbuf == [])) &&
     (let s := visited .m (some (.slice 0)) [0] (vis true)
      let w := ran s (.dirWb 0 pl)
      (s.slice 0).visitors.get? pl == some (vis true) && (w.slice 0).visitors.get? pl == none && (w.slice 0).wbuf.get? pl == some (vis true) &&
      (w.dirOf pl).state == .m && (w.dirOf pl).owner == some (.slice 0) && !(w.dirOf pl).busy && (w.dirOf pl).ver == 4 && w.reachable (128 * pl) && w.lineAddr pl == some placePa && !w.isPoison pl &&
      (ran w (.dirWb 0 pl)).dir.get? pl == none) &&
     (let s := { s1 with dirQueue := [⟨true, 0, pl⟩] }
      (s.dirQueue.find? fun q => q.line % 2 == pl % 2 && s.dirTakes q.line) == some ⟨true, 0, pl⟩) &&
     (let s := { s1 with regs := { s1.regs with hlCxl := true } }
      !s.inRecovery && ([0, 2 ^ 22 - 1].all fun off => nexts (.hostDeviceAccess (.window off) (.write [1, 2])) s) &&
      s.answers ⟨placeVa, 0, 0⟩ && s.answers ⟨placeVa + 127, 0, 0⟩ && decide (s.via ⟨placeVa + 127, 0, 0⟩ = s) &&
      match s.pteAt placeVa with
      | some (a, _) =>
        let h := s.setPte a (Pte.put (s.pte a) 1 2 2)
        h.regs.hlCxl && ((h.lineAddr pl).any fun pa => hostPa 0 ≤ pa && pa < peerPa 1 0)
      | none => false)) = true := by decide +kernel

/-- A block of one line is asked for while the table of its slice is full; the table has room again then. -/
def asked : State := (ran ((idx 0).setTicket 32 0 fun k => { k with state := .ready, lines := Config.ticketLines })
  (.tktLd p7 false (v 4) ⟨2, x 2, .a64 0⟩)).setSlice 32 fun n => { n with tickets := [] }

/-- `TicketEvents`: an allocation with room and without, the last line of a block, a redeem taken and one that fails, a delivery, drops, and the
age limit. -/
theorem witness_tickets :
    (let alloc := ran asked (.ticketAlloc 0 0 0)
     (match (asked.thread 0 0).prods with
      | [p] => (match p.work with
        | .ticket r n _ _ => r.va == placeVa && n == 1 && p.tgt.isSome && !asked.blockBusy 0 0 p.seq r.va 128 ⟨placeVa, 0, 0⟩
        | _ => false)
      | _ => false) && (asked.ctx 1).resolve .rd placeVa == some ⟨placeVa, 0, 0⟩ && asked.sliceUp 32 && asked.home ⟨placeVa, 0, 0⟩ == 32 &&
     (asked.slice 32).waiting.head? == some (0, 0, 0) && (asked.l1 0 pl).dirty == [] && (asked.allocTicket 32 1 1 ⟨placeVa, 0, 0⟩ false 0 0 1 0 0 0).isSome &&
     (let full_ := asked.setTicket 32 0 fun k => { k with state := .ready, lines := Config.ticketLines }
      let none_ := full_.setSlice 32 fun z => { z with waiting := [] }
      (full_.allocTicket 32 1 1 ⟨placeVa, 0, 0⟩ false 0 0 1 0 0 0).isNone && (none_.allocTicket 32 1 1 ⟨placeVa, 0, 0⟩ false 0 0 1 0 0 0).isNone) &&
     (match (alloc.slice 32).tickets with
      | [(e, k)] => k.inflight && k.left == [0] && k.state == .pending && hasWent (alloc.ask k.ctx k.core (k.addr 0) .rd k.near false false true) fun t =>
          !t.isPoison (lineOf (k.addr 0).gia) && t.ticket 32 e == k && (t.linePieces k 0).length == 4 && k.got == [] &&
          (let last := alloc.setTicket 32 e fun x => { x with got := [0, 32, 96] }
           (last.linePieces (last.ticket 32 e) 0).filter (fun o => !(last.ticket 32 e).got.contains o) == [64] &&
           ((last.setTicket 32 e fun x => { x with left := [] }).ticket 32 e).inflight)
      | _ => false) &&
     (let r : Redeem := ⟨tk, 504, .b64, v 4, some 2, false, og, none⟩
      let s := held (tked s1 ready) [0] (.redeem r)
      s.redeemers 0 0 r == [(0, r)] && (s.thread 0 0).hold == .redeem r && s.ticketCode 1 tk == 0 && (held s1 [0] (.redeem r)).ticketCode 1 tk != 0 &&
      (let d := ran s (.ticketRedeem 0 0)
       let k := d.ticket 5 7
       k.state == .redeeming && !k.inflight && k.byCmd == none && d.awaiting 5 7 == [(0, 0, { r with acc := true })] && k.svc == 0 && k.poison == 0 &&
       (ran d (.ticketDelivered 5 7)).ticket 5 7 == { Ticket.zero with gen := 2, ctx := 1, lines := 4, freedAt := 1 })) &&
     ([TState.ready, .pending].all fun st =>
       let s := prod (tked s1 { ready with state := st }) (pr (.drop tk) none none)
       s.ticketCode 1 tk == 0 && nexts (.ticketDropEvent 0 0 0) s) &&
     (let s := at_ (tked s1 ready) 1100000
      (s.slice 5).tickets == [(7, ready)] && decide ((s.ctx 1).ageLimit * 1100 ≤ s.clk - ready.alloc) &&
      (s.wg 0).live.all fun u => (s.thread 0 u).hold == .none)) = true := by decide +kernel

/-- The copy of `copyS` in the queue, and a command of the matrix engine in its. -/
def queued : State := ran copyS (.xfer p7 (v 1) (x 2) (v 4) false)
def mats : State := ran tileS (.accZero p7 (v 1) (x 2))

/-- A record of eight 64-bit words with these. -/
def blk8 (l : List (Nat × Nat)) : List Dword := (List.range 8).map fun i => .ofNat 64 (((l.filter fun e => e.1 == i).map Prod.snd).foldl (· + ·) 0)
def queuedCmd : Cmd := ((queued.core 0).nextCmd).getD
  ⟨0, .xfer p7 (v 1) (x 2) (v 4) false, 0, 0, 1, 1, 0, 0, [], [], false, false, 0, 0, 0, 0, [], none, []⟩
/-- The move with nothing found yet. -/
def mov0 (s : State) : Mov := { s := s, causes := [], units := 0, miss := none }

/-- `MoveEffects`: what a read meets, bytes written at the end of a line, a row in whole granules and one with an unusable byte, a box row in range
and one outside, an index, chunks, and a patch of one element. -/
theorem witness_moves :
    (let c := queuedCmd
     let a : GAddr := ⟨placeVa, 0, 0⟩
     let asks := fun (s : State) (near : Bool) => s.ask 1 0 a .rd near false true false
     let tree := fun (f : Nat → Nat) => match queued.pteAt placeVa with
       | some (at_, _) => queued.setPte at_ (f (queued.pte at_))
       | none => queued
     c.wid == 0 && c.ctx == 1 && (queued.ctx 1).resolve .rd 0 == none && (queued.ctx 1).resolve .rd placeVa == some a &&
     (match asks (tree fun p => Pte.put p 3 3 0) false with
      | .fail => true
      | _ => false) &&
     (match asks (tree fun p => Pte.put p 1 2 1) true with
      | .tier _ => true
      | _ => false) &&
     (match asks { queued with regs := { queued.regs with stacksUp := 0xFFFFFFFE } } false with
      | .dead => true
      | _ => false) &&
     (match asks (tree fun _ => 0) false with
      | .wait _ pg => !c.bad.contains pg
      | _ => false) &&
     hasWent (asks queued false) (fun t => !(t.lateX c 0).isPoison pl) &&
     hasWent (asks { queued with poison := [placePa / 128] } false) (fun t => (t.lateX c 0).isPoison pl) &&
     (queued.ctx 1).resolve .wr (placeVa + 124) == some ⟨placeVa + 124, 0, 0⟩ &&
     hasWent (queued.ask 1 0 ⟨placeVa + 124, 0, 0⟩ .wr false true true false) (fun t => let u := t.lateX c 0
       decide (u.via ⟨placeVa + 124, 0, 0⟩ = u) && !u.visited pl && u.lineAddr pl == some placePa && u.reachable (128 * pl) && !u.isPoison pl &&
       ((mov0 queued).write 0 c (placeVa + 124) [(255, 7)]).2 == [true]) &&
     ((mov0 queued).putRow [0] 16 (List.replicate 16 (5, false))).units == 1 && decide (((mov0 queued).putRow [0] 16 (List.replicate 16 (5, true))).s = queued) &&
     clipDim (Tl.dim c.record 0) 0 (Tl.box c.record 0) == some (0, 15) && clipDim (Tl.dim c.record 0) 16 (Tl.box c.record 0) == none &&
     !Tl.half c.record && Tl.half (blk8 [(0, 5 * 2 ^ 61)]) && decide (0 < Tl.box c.record 1 * Tl.box c.record 2 * Tl.box c.record 3) &&
     (queued.wg 0).badScratch == [] && ((mov0 queued).rowOut 0 c 0 (some []) 0).units == 16 &&
     (let g := { c with record := blk8 [(0, placeVa + 2 ^ 62), (1, 16 * 2 ^ 32), (7, placeVa + 0x100)], args := [0, 0] }
      Tl.box g.record 0 == 1 && chunks g.record == 1 && (((mov0 queued).read 0 g (placeVa + 0x100) 4).2.all fun b => !b.2) &&
      (((mov0 queued).read 0 g placeVa 16).2.all fun b => !b.2)) &&
     (let g := blk8 [(0, placeVa + 2 ^ 62), (1, 2 + 16 * 2 ^ 32), (2, 1 + 2 ^ 32), (5, 15 * 2 ^ 24), (6, 64 * 2 ^ 12)]
      let co : List Int := [0, 0, 0, 0]
      imChan g co == some (0, 15) && imBatch g co == some [] && Tl.box g 1 == 1 && Im.kh g == 1 && Im.kw g == 1 && imWs g co == [0] && imHs g co == [0] &&
      Im.sw g == 1 && Im.pw g == 0 && Im.sh g == 1 && Im.ph g == 0 && Tl.dim g 1 == 1 && Tl.dim g 2 == 1 &&
      ((mov0 queued).read 0 c (Tl.addr g [0, 0, 0]) 64).2.length == 64 && imChan g [16, 0, 0, 0] == none)) = true := by decide +kernel

/-- R78: the canonical NaN, that a block with an uncorrectable byte writes. -/
theorem test_nan_word : w32 .nan = 0x7FC00000 := by decide +kernel

/-- `MatrixEffects`: tiles of 16 rows and columns, whose rows do not meet, and a slot of 8-bit codes without block scales. -/
theorem witness_tiles :
    (let l := blk8 [(0, 15 * 2 ^ 20 + 15 * 2 ^ 28 + 16 * 2 ^ 36), (1, 64 * 2 ^ 20)]
     mats.wgs.has 0 && Ad.rows l == 16 && Ad.cols l == 16 && Ad.stride l == 16 && Ad.spStride l == 64 &&
     ((mats.core 0).mq.any fun c => match c.instr with
       | .accZero _ _ _ => true
       | _ => false) &&
     (let r : BitVec 2048 := .ofNat 2048 (2 ^ 512 * 3)
      fmtWidth (fmtOfCode (Krec.fslot r 0 % 16)) == 8 && Krec.fslot r 0 / 16 % 4 != 1) &&
     (termGroups 32 64 (List.replicate 64 (some (.fin false 1 1))) (List.replicate 64 (some (.fin false 1 1)))).length == 2 &&
     groupSum [.inf true, .fin false 1 1] == .inf true && groupSum [.inf true, .inf false] == .nan) = true := by decide +kernel

/-- `EngineEvents`: a command of each engine at each stage. -/
theorem witness_engine_events :
    (let going := ran queued (.xferStart 0)
     (match (queued.core 0).nextCmd with
      | some c => ((queued.core 0).xq.filter fun d => d.started).length == 0 && queued.ordered c && !queued.firstBlocked c && !queued.blocked c.id (fun _ => true) &&
          !waitsEmpty c.instr && (({ s := queued, causes := [], units := 0, miss := none } : Mov).run 0 c).miss.isNone &&
          (match (going.core 0).xq with
           | [d] => d.id == c.id && d.started && d.moved && (moveOf d.instr == .copy) && !(going.wg d.wid).ended
           | _ => false)
      | none => false) && ((ran going (.xferComplete 0 0)).core 0).xq == [] &&
     (match (mats.core 0).mq, mats.matHead 0 with
      | [c], some d => c == d && !isSender c.instr && !isReceiver c.instr && (match ((ran mats (.mmaStart 0)).core 0).mq with
        | [e] => e.started
        | _ => false)
      | _, _ => false) &&
     (let p := ran copyS (.xferPagein p7 (v 1) (x 2) .home)
      ((ran p (.xferStart 0)).core 0).xq.any fun c => c.started && moveOf c.instr == .pagein && !c.pagesDone && (ran p (.xferStart 0)).ordered c) &&
     (let c : Cmd := { (mats.core 0).mq.headD queuedCmd with instr := .mma p7 (v 1) (x 2) 3 4 false }
      !isSender c.instr && (mats.wgs.has c.wid) && (let l := Cmd.record { c with record := [0, 0, 0, 0, 0, 0, 0, 0] }
        Mp.n l == 16 && decide (Mp.n (blk8 [(2, 16 * 2 ^ 36)]) ≤ Mp.accStride (blk8 [(2, 16 * 2 ^ 36)])))) &&
     (let m := at_ (mats.setCore 0 fun c => { c with mcast := some 0 }) 65536
      (m.matHead 0).any fun c => !isSender c.instr) &&
     (let q := (ran copyS (.xfer p7 (v 1) (x 2) (v 4) true)).setWg 0 fun g => { g with empty := [] }
      let d := held (gone q [1, 2, 3, 4, 5, 6, 7]) [0] (.engine false [] og)
      d.wgs.keys == [0] && (match (d.core 0).xq.find? fun c => !c.started && !c.isPrefetch with
        | some c => waitsEmpty c.instr && (d.granuleWgs c.id).contains 0
        | none => false) && (d.wg 0).live == [0] && d.parked 0 0 && (d.wg 0).engStuck == none &&
      (let e := at_ (d.setWg 0 fun g => { g with engStuck := some 1, threads := g.threads.mapVals fun _ t => { t with last := 0 } }) 1025
       (e.wg 0).live.all fun n => decide ((e.thread 0 n).last < 1))) &&
     (let b := held (s1.setKern 1 fun k => { k with krec := k.krec ||| .ofNat 2048 (2 ^ 576 * placeVa) }) [0] (.codebook 0 false 0 none og)
      b.bookWaiters 0 1 0 == [(0, 0)] && (match b.readBook 0 1 placeVa with
        | .bytes _ l => l.length == 1024
        | _ => false))) = true := by decide +kernel

/-- `DotsAndCodes`: a codebook of slot 2 that the core holds, with spare words. -/
theorem witness_codes :
    (let s := s2.setCore 0 fun c => { c with books := [(1, 2, List.replicate 1024 3)] }
     ([0, 1].all fun (n : Nat) => let i := Instr.vqdec p7 (n == 1) (n == 1) (v 8) (v 1) (v 2) 2
       issuableB s i && s.active i != []) && ((s.core 0).book 1 2).isSome) = true := by decide +kernel

/-- A small launch record of one gang: no scratchpad, one register of each class. -/
def small : BitVec 2048 := .ofNat 2048 (placeVa + 2 ^ 128 + 2 ^ 144 + 2 ^ 160 + 2 ^ 180 + 2 ^ 233 + 2 ^ 240)
/-- Its context can save workgroups: in memory of peer 1, over a link that is UP. -/
def base : State := (((State.reset.placed []).setKern 1 fun k => { k with krec := small }).setCtx 1 fun c =>
  { c with words := c.words ++ [(8, 0x4000000), (9, 0x8000), (20, 0x4000000), (21, 0x8000), (22, 0), (23, 0x807)] }).setLink 0 fun l =>
  { l with peer := 1, state := .up }
def empties (s : State) : State := { s with wgs := [], wgSerial := 0 }
def preempted (m : Mech) (b : Nat) : State := at_ (base.setWg 0 fun g => { g with preempt := some ⟨false, m, 0, b, none, false⟩ }) b
/-- The record with an accumulator store, and the workgroup placed on each core of the first die. -/
def stored (n : Nat) : BitVec 2048 := small ||| .ofNat 2048 (2 ^ 212 * n)
def crowded : State := { base with
  wgs := (List.range 32).foldl (fun m c => m.set c { base.wg 0 with core := c }) base.wgs
  kernels := base.kernels.set 2 (s1.kern 1) }

/-- `DispatchEvents`: records posted and in the window at its first and last slot, a kernel that fits, one that is refused, one that has drained,
and each step of a pre-emption. The region of the save has the header alone, to keep the evaluation short. -/
theorem witness_dispatch :
    (let q := fun (n : Nat) (src : Bool) => base.setQueue 0 fun x =>
       { x with state := .running, cfgCtx := 1, src := src, tag := 5, parsed := .ofNat 32 n, posted := [small] }
     !(q 0 true).tableFull && ([Krec.dep0 small, Krec.dep1 small].all fun d => d == 0) && (base.kidOf? 1 1).isSome && (base.kidOf? 1 7).isNone &&
     nexts (.recordParse 0) (q 0 true) &&
     ([0, 63].all fun (n : Nat) => [5, 6].all fun (k : Nat) =>
       let s := q n false
       let w := { s with mem := Memory.write (Memory.write s.mem (windowPa 0 n + 255) (.ofNat 8 k)) (windowPa 0 n + 254) 5 }
       (Memory.read w.mem (windowPa 0 n + 255)).toNat == k && (w.queue 0).state == .running && nexts (.recordParse 0) w) &&
     (let s := empties (base.setKern 1 fun k => { k with state := .queued, next := 0 })
      let k := s.kern 1
      s.candidateKern k && !Krec.coresident k.krec && s.admitCause 1 k.krec == 0 && s.roomFor k && (s.placeOn 1 0).isSome && !s.before k k &&
      (let r := s.setKern 1 fun k => { k with krec := 0 }
       r.admitCause 1 0 != 0 && r.candidateKern (r.kern 1) && !r.before (r.kern 1) (r.kern 1)) &&
      ((s.setKern 1 fun k => { k with state := .draining }).quiet 1)) &&
     (let s := at_ ((crowded.setKern 1 fun k => { k with krec := stored 128 }).setKern 2 fun _ =>
        { crowded.kern 2 with krec := stored 1048576, state := .queued, prio := 3, roomless := some 0 }) 110000
      let e := { s with regs := { s.regs with pcEnable := true, diesUp := 1 } }
      e.candidateKern (e.kern 2) && !Krec.coresident (e.kern 2).krec && !e.coreRoom (e.kern 2) && e.preemptVictim 3 == some 31 &&
      decide (max 1 e.regs.pcWait.toNat * 1100 ≤ e.clk) && !e.dispatcherBusy && (e.wg 31).preempt.isNone && !(e.wg 31).ended) &&
     nexts (.drainTimeout 0) (preempted .drain 5) &&
     (let s := preempted .flush 0
      (s.wg 0).threads.all (fun e => e.2.prods == [] && !e.2.hold.inFlight) && s.kernels.has 1 &&
      (prod s (pr (.atom (rq placeVa .none) ⟨some .add, .b32, 5, 0, false, og⟩ false) (some tx) none)).inFlight 0 0
        (pr (.atom (rq placeVa .none) ⟨some .add, .b32, 5, 0, false, og⟩ false) (some tx) none) && !(ran s (.wgFlush 0)).wgs.has 0) &&
     (let s := (preempted .save 0).setKern 1 fun k => { k with krec := 0 }
      s.quiesced 0 && s.matesStopped 0 && !(ran s (.wgSave 0)).wgs.has 0) &&
     (let s := empties { base with saved := [⟨0, 1, 1, 0, 0, 0, false, [0], []⟩] }
      s.restorable [0] && (s.restoreOne 0).isSome && (ran s (.wgRestore [0])).wgs.has 0)) = true := by decide +kernel

/-- The record of `small` in memory behind the placed address, and a producer of thread 0 at this work. -/
def asks (w : Work) : State := prod { base with mem := Memory.writeLE base.mem placePa 256 small.toNat } (pr w (some (tv 2)) none)

/-- `RequestEffects`: each request, with the answers of its table. -/
theorem witness_request_effects :
    (let ok := fun (s : State) (va : Nat) (p : State → List Byte → Bool) => match s.readRecord 0 1 1 0 va with
       | .ok t l => p t l
       | _ => false
     let l := asks (.launch placeVa)
     let full_ := (List.range 2).foldl (fun s n => s.setL1 0 (pl + n) ⟨(List.range 128).map fun i => (i, ⟨7, false⟩), 1, 0, 0, [], none, [], 0⟩) s1
     let kid := fun (n : Nat) (st : KState) (w : Work) =>
       { prod base (pr w (some tx) none) with kernels := base.kernels.set n { base.kern 1 with state := st, order := 1 } }
     ([placeVa, placeVa + 128].all fun va => match full_.readLine 0 1 va (List.range 128) false with
       | .hit d => d 5 == 7
       | _ => false) &&
     !l.lowerLane 0 0 0 isLaunch && ok l placeVa (fun t b => let r : BitVec 2048 := .ofNat 2048 (ofBytes b)
       r == small && t.admitCause 1 r == 0 && decide (t.kernels.length < 4096) && Krec.dep0 r == 0 && Krec.dep1 r == 0) &&
     ok (asks (.launch (placeVa + 256))) (placeVa + 256) (fun t b => t.admitCause 1 (.ofNat 2048 (ofBytes b)) != 0) &&
     (match (asks (.launch 0)).readRecord 0 1 1 0 0 with
      | .fail _ ue => !ue
      | _ => false) &&
     (let q := fun (src : Bool) (n : Nat) => (asks (.post 5 placeVa)).setQueue 5 fun x =>
        { x with state := .running, cfgCtx := 1, src := src, posted := List.replicate n small }
      ((q true 0).queueOf? 1 5).isSome && ((q false 0).queueOf? 1 5).isSome && ((q true 0).queueOf? 1 6).isNone && ((q true 0).queueOf? 1 256).isNone &&
      ok (q true 63) placeVa (fun _ b => b.length == 256) && !(q true 64).lowerLane 0 0 0 isPost) &&
     ([KState.running, .complete, .faulted, .killed, .draining].all fun st => (kid 7 st (.kjoin 7 true)).kidOf? 1 7 == some 7 && (base.kidOf? 1 8).isNone) &&
     base.kidOf? 1 1 == some 1 && (base.wg 0).kernel == 1 &&
     ([KState.queued, .waiting, .dispatching, .running, .draining, .complete].all fun st => let s := kid 7 st (.kkill 7 false none)
       !s.lowerLane 0 0 0 isKill && nexts (.producerComplete 0 0 0) s) &&
     (let s := kid 7 .running (.kkill 7 true (some 4))
      !s.stopping 1 7 && (kid 7 .running (.kkill 7 false none)).kernels.has 7 && ((kid 7 .running .getev).kernelStop 7).quiet 7) &&
     (let e := fun (n tail : Nat) => (prod base (pr .getev (some (tv 4)) (some 2))).setCtx 1 fun c =>
        (c.setFld 6 0 32 0).setFld 7 0 32 tail |> fun c => { c with words := (c.words.set 4 (.ofNat 64 placeVa)).set 5 (.ofNat 64 n) }
      ((e 6 0).ctx 1).evqTail == 0 && ((e 6 64).ctx 1).evqTail == 64 && ((e 6 64).ctx 1).evqLog2 == 6 && ((e 6 65).ctx 1).evqTail == 65 &&
      (match ((e 6 1).acquire 0 .sys).readCoherent 0 1 placeVa false with
       | .bytes _ _ => true
       | _ => false) && !(e 6 1).lowerLane 0 0 0 isGetev)) = true := by decide +kernel

/-- `PageEffects`: entries that are valid, absent, another context's, pinned, shared by copy, and large; frames of each kind; an absent leaf with a
frame for it and without. -/
theorem witness_page_effects :
    (let ia := placeVa
     let next := ia + 65536
     let s := s1
     let edit := fun (f : Nat → Nat) => match s.pteAt ia with
       | some (a, _) => s.setPte a (f (s.pte a))
       | none => s
     let img := 1 + 2 ^ 3 * 7 + 2 ^ 32 * 300
     let f := frameNo 0 300
     let counted := fun (n : Nat) => s.setPool 0 fun p => p.setEntry f n false false
     (prod s (pr (.page (.pageRef p7 (x 1) (v 2)) 300 0) (some tx) none)).lowerLane 0 0 0 isPageOp == false && s.sliceUp (s.agent ia) &&
     !({ s with regs := { s.regs with diesUp := 0 } } : State).sliceUp (s.agent ia) &&
     (s.region ia).isSome && (s.region (ia + 2 ^ 23)).isNone && (s.pteAt (ia + 2 ^ 23)).isNone && (s.pool (s.agentStack (ia + 2 ^ 23))).up &&
     (s.popFrame (s.agentStack (ia + 2 ^ 23))).isSome && s.m64 (s.rootNode + 8 * ((ia + 2 ^ 23) / 2 ^ 39 % 512)) % 2 == 1 &&
     (s.pteAt ia).any (fun e => Pte.valid (s.pte e.1) && Pte.ctx (s.pte e.1) == 1 && !Pte.pin (s.pte e.1) && Pte.tier (s.pte e.1) == 0 && !e.2) &&
     (s.pteAt next).any (fun e => !Pte.valid (s.pte e.1)) && s.revokeReady ia && imageOk img false && !imageOk (img + 2 ^ 12) false &&
     s.frameOk 0 300 && !s.frameOk 0 0 && (s.pool 0).up && (s.pool 0).count f == 0 && ((counted 65535).pool 0).count f == 65535 &&
     !((counted 1).pool 0).isTable f && ((counted 1).pool 0).count f == 1 && (s.takeFrames 0 false).isSome &&
     (s.takeFrames 0 false).all (fun e => frameRef 0 e.1 < 2 ^ 40) &&
     ((s.setPool 0 fun p => { p with up := false }).takeFrames 0 false).isNone &&
     ([6, 8].all fun b => match (edit fun p => p ||| 2 ^ b).pteAt ia with
       | some (a, _) => Pte.fld ((edit fun p => p ||| 2 ^ b).pte a) b 1 == 1
       | none => false) &&
     ((edit fun _ => 0).region ia).isSome && Pte.fld (1 + 2 ^ 3 * 7) 3 1 == 1 && Pte.fld 0 3 1 == 0 &&
     ([2 ^ 41, 300, 0].map fun n => decide (n / 2 ^ 40 ≤ 1)) == [false, true, true] && (s.pageOf ia).1 == ia) = true := by decide +kernel

/-! ### The host, links, firmware and power -/

/-- A reset device whose host link is up. -/
def hosted : State := { State.reset with regs := { State.reset.regs with hlRate := 5, hlWidth := 16, hlCxl := true } }
def words64 (s : State) (pa : Nat) (l : List (Nat × Nat)) : State :=
  { s with mem := l.foldl (fun m e => Memory.writeLE m (pa + 8 * e.1) 8 e.2) s.mem }
/-- A context record in host memory with one range, that its event queue lies in, and one whose queue is too short. -/
def recorded (n : Nat) : State := words64 hosted (hostPa 0) [(4, placeVa), (5, n), (16, placeVa), (17, 0x800000), (18, placeVa), (19, 0xF)]
def pick (l : List Byte) : NMap Dword :=
  ((List.range 128).filter fun n => !([6, 7, 10, 11, 12].contains n)).map fun n => (n, .ofNat 64 (bytesAt l (8 * n) 8))
def inState (s : State) (st : CState) : State := s.setCtx 4095 fun c => { c with state := st, held := st == .active }

/-- `ContextCommands`: records that are taken and refused, and every state of a context at its last number. -/
theorem witness_context_commands :
    ((recorded 6).regs.ctxBusy == false && !(recorded 6).inRecovery && ((recorded 6).ctx 4095).state == .free &&
     ([(6, none), (5, some 5)].all fun (e : Nat × Option Nat) =>
       let s := recorded e.1
       match s.wakeUp.readCtxRecord 0 with
       | some l => l.length == 1024 && lowest (s.wakeUp.badRecord { state := .built, held := false, words := pick l, fault := none }) == e.2
       | none => false) && State.reset.wakeUp.readCtxRecord 0 == none &&
     ([CState.built, .active, .suspended, .faulted, .tornDown].all fun st =>
       let s := inState hosted st
       (s.ctx 4095).state == st && !s.inRecovery && !s.regs.ctxBusy && decide ((s.ctxs.filter fun e => e.2.held).length < 256)) &&
     (let s := { (inState hosted .active) with regs := { hosted.regs with suspending := some 4095, ctxBusy := true } }
      s.wgs == [] && nexts (.ctxSuspendDone 4095) s && nexts (.ctxActivate 4095) s) &&
     (let g := { s1.wg 0 with ctx := 4095, core := 3 }
      let s := { (inState hosted .active) with wgs := [(3, g), (5, g)] }
      !g.ended && g.preempt.isNone && (s.ctx 4095).state == .active && (ran s (.ctxSuspend 4095)).regs.ctxBusy &&
      ((ran s (.ctxSuspend 4095)).wgs.all fun e => e.2.preempt.isSome)) &&
     (let s := inState hosted .active
      s.wgs == [] && s.kernels == [] && s.cores == [] && s.dir == [] && s.queuesOf 4095 == [] && (s.ctx 4095).fault.isNone &&
      ((ran s (.ctxTeardown 4095)).ctx 4095).state == .tornDown) && ((inState hosted .active).wakeUp.ctxWrite 4095 3 4).isSome) = true := by decide +kernel

/-- `ContextCommands`: every state of a queue at the first and the last number. -/
theorem witness_queue_commands :
    ([0, 255].all fun q => [QState.free, .stopped, .running, .halted].all fun st =>
      let s := (inState hosted .active).setQueue q fun x => { x with state := st, cfgCtx := 4095 }
      (s.queue q).state == st && (s.queue q).cfgRes == 0 && (s.ctx (s.queue q).cfgCtx.toNat).state.bindable && !s.inRecovery) = true := by decide +kernel

def linked (n : Nat) (st : LState) : State := hosted.setLink n fun l => { l with state := st, peer := 1, lanes := 0xF0, replayRun := 16 }

/-- `LinkEvents`: every state of a link at the first and the last number, one and two links of a peer, lanes around the half, and frames that are
sent and acknowledged. -/
theorem witness_links :
    ([0, 11].all fun n => ([LState.down, .training, .up, .degraded, .retiring, .failed].all fun st => ((linked n st).link n).state == st) &&
       (linked n .training).icUp (linkDie n) && (linked n .retiring).dir == [] &&
       (let one := (linked n .up).setLink n fun l => { l with state := .failed }
        one.routes 1 == [] && (one.setLink 5 fun l => { l with state := .up, peer := 1 }).routes 1 == [5]) &&
       ((linked n .up).link n).state.carries && ((linked n .up).link n).rxSeq == 0 &&
       goodLanes (((linked n .up).link n).lanes &&& ~~~0x0) == 4 && goodLanes (((linked n .up).link n).lanes &&& ~~~0x10) == 3 &&
       goodLanes 0x7F == 7 && ((linked n .retiring).link n).txBuf == [] && ((linked n .up).link n).txSeq == 0 &&
       { (linked n .degraded).link n with lanes := 0x7F }.running == [0, 1, 2, 3] && (linked n .up).peerDone == [] && (linked n .up).routes 1 == [n] &&
       ((linked n .retiring).link n).opn == [] && (linked n .retiring).dirQueue == [] && (linked n .retiring).dirRetry == [] &&
       (let s := { linked n .retiring with dirQueue := [⟨true, 64, 0⟩] }
        s.routes 1 == [] && s.dirQueue.any fun q => q.slice == 63 + ((s.link n).peer).toNat) &&
       (let l := { (linked n .up).link n with txBuf := [4095, 0, 1] }
        (l.acked 0 true).txBuf == [0, 1] && (l.send 61).txBuf.length == 64 && (l.send 62).txBuf.length == 64) &&
       (let s := ((linked n .up).setLink 5 fun l => { l with state := .up, peer := 1 }).moveOpen [(9, 1, 0x200)]
        (List.range 12).any fun k => (s.link k).opn == [(9, 1, 0x200)])) = true := by decide +kernel

/-- An image of the least length in host memory, with this first word: its payload is four bytes of ones, so that the register of the check is zero
from there on. -/
def image (magic : Nat) : State :=
  let s := words64 hosted (hostPa 0) [(0, magic + 2 ^ 32 * 3), (1, 4096 + 2 ^ 32 * 0xFFFFFFFF), (8, 0xFFFFFFFF)]
  { s with fw := { s.fw with addr := 0, len := 4096, state := .installing, busy := true } }
def heads (magic : Nat) : List Byte := bytesOf (magic + 2 ^ 32 * 3 + 2 ^ 64 * 4096 + 2 ^ 96 * 0xFFFFFFFF) 64 ++ [255, 255, 255, 255]

theorem getD_far (m : NMap Byte) (a b : Nat) (d : Byte) (h : ∀ e ∈ m, e.1 < b) (hb : b ≤ a) : m.getD a d = d := by
  induction m with
  | nil => rfl
  | cons e m ih =>
    have := h e (by simp)
    have ih := ih fun e he => h e (by simp [he])
    simp only [NMap.getD, NMap.get?] at ih ⊢
    rw [if_neg (by omega)]
    exact ih

theorem image_bytes : (image 0x4D524946).imageBytes = heads 0x4D524946 ++ List.replicate 4028 0 := by
  have e : (image 0x4D524946).imageBytes = (List.range (68 + 4028)).map fun i => Memory.read (image 0x4D524946).mem (hostPa 0 + i) := rfl
  have h : ((List.range 68).map fun i => Memory.read (image 0x4D524946).mem (hostPa 0 + i)) = heads 0x4D524946 := by decide +kernel
  rw [e, List.range_add, List.map_append, h, List.append_cancel_left_eq]
  rw [List.map_map, List.eq_replicate_iff]
  refine ⟨by simp, fun b hb => ?_⟩
  obtain ⟨i, -, rfl⟩ := List.mem_map.mp hb
  exact getD_far _ _ (hostPa 0 + 68) _ (by decide +kernel) (by simp)

theorem crc_zeros (n : Nat) : (List.replicate n 0).foldl crcByte 0 = 0 := by
  induction n with
  | zero => rfl
  | succ n ih => exact ih

theorem image_good : (image 0x4D524946).imageGood = true := by
  have c : crc32 ((heads 0x4D524946 ++ List.replicate 4028 0).drop 64) = 0xFFFFFFFF := by
    have d : (heads 0x4D524946 ++ List.replicate 4028 0).drop 64 = [255, 255, 255, 255] ++ List.replicate 4028 0 := rfl
    rw [d, crc32, List.foldl_append, show [255, 255, 255, 255].foldl crcByte 0xFFFFFFFF = 0 from by decide +kernel, crc_zeros]
    rfl
  unfold State.imageGood
  rw [image_bytes]
  simp only [c]
  decide +kernel

/-- A reset device whose core 0 holds a fetch copy. -/
def placedIdle : State := State.reset.setCore 0 fun c => { c with icache := [(1, 0, [])] }

/-- `PowerEvents`: images that pass the check and that fail it, the tolerances at which the states change, an entry at each of its
steps, thresholds, channels and ports. -/
theorem witness_power :
    ((image 0x4D524946).imageReadable && (image 0).imageReadable && bytesAt (image 0).imageBytes 0 4 == 0 && (image 0).fw.state == .installing &&
     ([(0 : Nat), 1, 49, 50, 1999, 2000, 199999, 200000].all fun n =>
       let s := { State.reset with power := { State.reset.power with tol := .ofNat 32 n, retain := n == 200000 } }
       s.idle && s.power.state == 0 && !s.inRecovery && !s.power.moving) &&
     (let going := fun (n : Nat) => { State.reset with power := { State.reset.power with moving := true, goal := n } }
      ([0, 1, 2, 3, 4].all fun n => (going n).idle && nexts (if n < 4 then .powerStateEntry else .wakeEvent) (going n)) &&
      (let w := { placedIdle with power := (going 2).power }
       w.idle && (w.cores.any fun e => e.2.powered) && (ran w .powerStateEntry).cores.all fun e => !e.2.powered) &&
      (let w := { s1 with power := (going 2).power }
       !w.idle && (ran w .powerStateEntry).power.goal == 0) &&
      (let r := { going 4 with regs := { State.reset.regs with stacksUp := 0 } }
       r.diesLeft == [] && r.emptyDies.isSome && (ran r .powerStateEntry).power.state == 4) &&
      (let r := { going 4 with regs := { State.reset.regs with stacksUp := 2 } }
       r.diesLeft.head? == some (1, 1) && (r.emptyDie 1 1).isSome) &&
      (let r := { State.reset with power := { State.reset.power with state := 4, off := [16] } }
       (ran r .wakeEvent).power.moving && (ran r .wakeEvent).cxlEvents.length == 1) &&
      (let r := { State.reset with fw := { State.reset.fw with state := .recovery } }
       r.inRecovery)) && State.reset.fw.state == .running && State.reset.ctxs == [] &&
     (inState State.reset .built).ctxs.any (fun e => e.2.state != .free) &&
     ([0, 511].all fun die => [1, 2, 3].all fun thr =>
       let s := { State.reset with power := { State.reset.power with thr := State.reset.power.thr.set die (thr - 1) } }
       s.power.thr.getD die 0 + 1 == thr) &&
     State.reset.regs.stacksUp.getLsbD 31 && !((State.reset.arch.maps.getD (16 * 31) []).contains 95) && State.reset.dieUp 7 && State.reset.icUp 1 &&
     !(State.reset.loseDie 7).dieUp 7 && !(State.reset.loseInterchange 1).icUp 1) = true := by decide +kernel

/-- R167: the pre-emption control register as a reset leaves it, at its offset in BAR0. -/
theorem test_bar0 : State.reset.bar0 0x200 = 0x0032006400000000 := by decide +kernel

/-- The example of R110: stack 13 is retired. -/
def retired : State :=
  let s := { State.reset with regs := { State.reset.regs with stacksUp := 0xFFFFDFFF } }
  s.setCtx 1 fun c => { c with words := (List.range 4).map fun i => (88 + i, .ofNat 64 (ofBytes ((s.stackMap.drop (8 * i)).take 8 |>.map (.ofNat 8)))) }
/-- An object file with one item of data, a stack coordinate, and its relocation. -/
def object (coord : Nat) : List Byte :=
  bytesOf (0x4F4C4547 + 2 ^ 32 + 2 ^ 64 * 32 + 2 ^ 128 * 32 + 2 ^ 160 * 16 + 2 ^ 208) 32 ++ bytesOf coord 16 ++ bytesOf (2 ^ 32 + 2 ^ 37) 16

/-- R110: STK(20), written 0x54, becomes 0x55, and STK(31) is refused. -/
theorem test_loader : retired.loadObject 1 (object 0x54) 0 0 = some ([], bytesOf 0x55 16) ∧ retired.loadObject 1 (object 0x5F) 0 0 = none := by
  decide +kernel

end Sys2Proof.Tests
end

section
/-!
Compares and integer operations (spec/08_thread.md R211, R216, R217): the rules for an instruction that writes one predicate or one result in
each active lane, and the words of the integers that the operations compute.
-/
namespace Sys2Proof.Machine
open Sys2Proof

/-! ### Writes of one predicate -/

theorem lanes_setPred {i : Instr} {cost k : Nat} {b : Thread → Bool} (he : ∀ s, exec i s = perLane i cost (fun t => t.setPred k (b t)) s) :
    Lanes i cost fun _ _ u v => u.WroteP v k (b u) :=
  runs_perLane he fun _ _ u => u.setPred_wrote k (b u)

/-- Settles O13: each of the five instructions sets one predicate in each active lane. -/
theorem predicateWrites : Obligations.PredicateWrites :=
  ⟨fun _ _ _ _ _ => lanes_setPred fun _ => rfl,
   fun _ _ _ _ _ => lanes_setPred fun _ => rfl,
   fun _ _ _ _ _ => lanes_setPred fun _ => rfl,
   fun _ _ _ _ _ => lanes_setPred fun _ => rfl,
   fun _ _ _ _ _ => lanes_setPred fun _ => rfl⟩

/-! ### Integer operations: one value and one interval -/

theorem lanes_result {i : Instr} {cost : Nat} {d : Field} {v : Thread → Int} {w : Thread → Word} {e : Thread → Intv}
    (he : ∀ s, exec i s = perLane i cost (fun t => t.result d (v t) (e t)) s) (hv : ∀ t, toWord (v t) = w t) :
    Lanes i cost fun _ _ t u => t.Wrote u d (w t) (clip (e t)) :=
  runs_perLane he fun _ _ t => hv t ▸ t.write_wrote d (toWord (v t)) (clip (e t))

/-! ### The word of an integer modulo 2^32 (R71, R211) -/

@[simp] theorem toWord_toInt (a : Word) : toWord a.toInt = a := BitVec.ofInt_toInt
@[simp] theorem toWord_natCast (n : Nat) : toWord n = .ofNat 32 n := BitVec.ofInt_natCast 32 n
@[simp] theorem toWord_add (x y : Int) : toWord (x + y) = toWord x + toWord y := BitVec.ofInt_add x y
@[simp] theorem toWord_mul (x y : Int) : toWord (x * y) = toWord x * toWord y := BitVec.ofInt_mul x y
@[simp] theorem toWord_neg (x : Int) : toWord (-x) = -toWord x := BitVec.ofInt_neg
@[simp] theorem toWord_sub (x y : Int) : toWord (x - y) = toWord x - toWord y := by
  rw [Int.sub_eq_add_neg, toWord_add, toWord_neg, BitVec.sub_eq_add_neg]

theorem toWord_natAbs (x : Int) : toWord x.natAbs = if x < 0 then -toWord x else toWord x := by
  split
  next h => rw [Int.ofNat_natAbs_of_nonpos (Int.le_of_lt h), toWord_neg]
  next h => rw [Int.natAbs_of_nonneg (Int.not_lt.mp h)]

theorem toWord_min_toInt (a b : Word) : toWord (min a.toInt b.toInt) = if a.toInt ≤ b.toInt then a else b := by
  rw [Int.min_def, apply_ite toWord, toWord_toInt, toWord_toInt]

theorem toWord_max_toInt (a b : Word) : toWord (max a.toInt b.toInt) = if a.toInt ≤ b.toInt then b else a := by
  rw [Int.max_def, apply_ite toWord, toWord_toInt, toWord_toInt]

theorem toWord_min_toNat (a b : Word) : toWord (min a.toNat b.toNat : Nat) = if a.toNat ≤ b.toNat then a else b := by
  rw [toWord_natCast, Nat.min_def]
  split <;> simp only [BitVec.ofNat_toNat, BitVec.setWidth_eq]

theorem toWord_max_toNat (a b : Word) : toWord (max a.toNat b.toNat : Nat) = if a.toNat ≤ b.toNat then b else a := by
  rw [toWord_natCast, Nat.max_def]
  split <;> simp only [BitVec.ofNat_toNat, BitVec.setWidth_eq]

/-- The absolute difference of `ISAD`: the sign of the exact difference says which way to subtract modulo 2^32. -/
theorem toWord_natAbs_sub (a b : Word) :
    toWord (a.toInt - b.toInt).natAbs = if b.toInt ≤ a.toInt then a - b else b - a := by
  rw [toWord_natAbs]
  by_cases h : b.toInt ≤ a.toInt
  · rw [if_neg (by omega), if_pos h, toWord_sub, toWord_toInt, toWord_toInt]
  · rw [if_pos (by omega), if_neg h, toWord_sub, toWord_toInt, toWord_toInt, BitVec.neg_sub, BitVec.add_comm, BitVec.sub_eq_add_neg]

theorem toWord_natAbs_toInt (a : Word) : toWord a.toInt.natAbs = if a.toInt < 0 then -a else a := by
  rw [toWord_natAbs, toWord_toInt]

theorem toWord_natAbs_sub_add_toInt (a b c : Word) :
    toWord ((a.toInt - b.toInt).natAbs + c.toInt) = (if b.toInt ≤ a.toInt then a - b else b - a) + c := by
  rw [toWord_add, toWord_natAbs_sub, toWord_toInt]

/-- Settles O11: each operation writes the word of its exact result, with the interval of its row in R211. -/
theorem integerResults : Obligations.IntegerResults := by
  refine ⟨fun g o => ?iadd, fun g o => ?isub, fun g o => ?imul, fun g o => ?imulh, fun g o => ?imulhu, fun g o => ?imad, fun g o => ?ineg,
    fun g o => ?iabs, fun g o => ?imin, fun g o => ?imax, fun g o => ?iminu, fun g o => ?imaxu, fun g o => ?isad⟩
  case iadd => exact lanes_result (fun _ => rfl) fun _ => by simp only [Opd.i, toWord_add, toWord_toInt]
  case isub => exact lanes_result (fun _ => rfl) fun _ => by simp only [Opd.i, toWord_sub, toWord_toInt]
  case imul => exact lanes_result (fun _ => rfl) fun _ => by simp only [Opd.i, toWord_mul, toWord_toInt]
  case imulh => exact lanes_result (fun _ => rfl) fun _ => rfl
  case imulhu => exact lanes_result (fun _ => rfl) fun _ => toWord_natCast _
  case imad => exact lanes_result (fun _ => rfl) fun _ => by simp only [Opd.i, toWord_add, toWord_mul, toWord_toInt]
  case ineg => exact lanes_result (fun _ => rfl) fun _ => by simp only [Opd.i, toWord_neg, toWord_toInt]
  case iabs => exact lanes_result (fun _ => rfl) fun _ => toWord_natAbs_toInt _
  case imin => exact lanes_result (fun _ => rfl) fun _ => toWord_min_toInt _ _
  case imax => exact lanes_result (fun _ => rfl) fun _ => toWord_max_toInt _ _
  case iminu => exact lanes_result (fun _ => rfl) fun _ => toWord_min_toNat _ _
  case imaxu => exact lanes_result (fun _ => rfl) fun _ => toWord_max_toNat _ _
  case isad => exact lanes_result (fun _ => rfl) fun _ => toWord_natAbs_sub_add_toInt _ _ _

end Sys2Proof.Machine
end

section
/-!
Calls, returns and branches to an absolute target (spec/08_thread.md R201, R204, R205): the checks of the target, and the course that
`BRX.ABS`, `CALLX` and `RET` share.
-/
namespace Sys2Proof.Machine
open Sys2Proof

/-! ### Lanes that fail a check -/

theorem failing_eq_none {act : List Nat} {p : Nat → Bool} (cause : Nat) (addr : Nat → Nat) (h : ∀ n ∈ act, p n = false) :
    failing act p cause addr = none := by
  have hf : act.filter p = [] := List.filter_eq_nil_iff.mpr fun n hn => Bool.not_eq_true _ ▸ h n hn
  simp only [failing, hf]

theorem failing_eq_some {act : List Nat} {p : Nat → Bool} {t : Nat} {l : List Nat} (cause : Nat) (addr : Nat → Nat)
    (h : act.filter p = t :: l) : failing act p cause addr = some (.trap { cause := cause, mask := t :: l, addr := addr t }) := by
  simp only [failing, h]

/-! ### The checks of an absolute target (R34, R201) -/

theorem targetTrap_eq_none {s : State} {act : List Nat} {a : Field}
    (h : ∀ n ∈ act, (s.ithread n).pair a % 4 = 0 ∧ (s.ithread n).pair a < 2 ^ 57) : targetTrap s act a = none := by
  unfold targetTrap
  simp only
  rw [failing_eq_none _ _ fun n hn => bne_eq_false_iff_eq.mpr (h n hn).1]
  exact failing_eq_none _ _ fun n hn => decide_eq_false (Nat.not_le.mpr (h n hn).2)

theorem targetTrap_align {s : State} {act : List Nat} {a : Field} {t : Nat} {l : List Nat}
    (h : act.filter (fun n => decide ((s.ithread n).pair a % 4 ≠ 0)) = t :: l) :
    targetTrap s act a = some (.trap { cause := Cause.align, mask := t :: l, addr := (s.ithread t).pair a }) := by
  have hp : (fun n => (s.ithread n).pair a % 4 != 0) = fun n => decide ((s.ithread n).pair a % 4 ≠ 0) := by
    funext n; rw [Bool.eq_iff_iff, bne_iff_ne, decide_eq_true_iff]
  unfold targetTrap
  simp only
  rw [hp, failing_eq_some _ _ h]

theorem targetTrap_page {s : State} {act : List Nat} {a : Field} {t : Nat} {l : List Nat}
    (ha : ∀ n ∈ act, (s.ithread n).pair a % 4 = 0) (h : act.filter (fun n => decide (2 ^ 57 ≤ (s.ithread n).pair a)) = t :: l) :
    targetTrap s act a = some (.trap { cause := Cause.page, mask := t :: l, addr := (s.ithread t).pair a }) := by
  unfold targetTrap
  simp only
  rw [failing_eq_none _ _ fun n hn => bne_eq_false_iff_eq.mpr (ha n hn)]
  exact failing_eq_some _ _ h

/-- The PCs that `State.advance` moves are no part of a target. -/
theorem advance_pair {s : State} {i : Instr} (h : s.Issuable i) (n : Nat) (a : Field) :
    (s.advance.ithread n).pair a = (s.ithread n).pair a := by
  rw [advance_ithread h.placed h.distinct]
  split <;> rfl

theorem targetTrap_advance {s : State} {i : Instr} (h : s.Issuable i) (act : List Nat) (a : Field) :
    targetTrap s.advance act a = targetTrap s act a := by
  unfold targetTrap
  simp only [advance_pair h]

/-! ### The course of a transfer to an absolute target -/

/-- `i` goes to the absolute target in the pair `a`: it takes the traps of the target's checks, and otherwise changes each active lane's
thread by `f` of the address of the next instruction. -/
def TransfersBy (i : Instr) (a : Field) (f : Nat → Thread → Thread) : Prop :=
  ∀ s, exec i s = issue i 1 (fun act s => (targetTrap s act a).getD (.ok (s.setThreads s.issue.wid act fun _ => f s.nextPc))) s

theorem brxAbs_transfersBy (g : Guard) (a : Field) : TransfersBy (.brxAbs g a) a fun _ t => { t with pc := t.pair a } := fun _ => rfl

theorem callx_transfersBy (g : Guard) (d a : Field) :
    TransfersBy (.callx g d a) a fun ret t => { t.writeN d 2 ret with pc := t.pair a } := fun _ => rfl

theorem ret_transfersBy (g : Guard) (a : Field) : TransfersBy (.ret g a) a fun _ t => { t with pc := t.pair a } := fun _ => rfl

section
variable {i : Instr} {a : Field} {f : Nat → Thread → Thread}

theorem TransfersBy.lanesIf (hi : TransfersBy i a f) :
    LanesIf i (fun _ x => x.pair a % 4 = 0 ∧ x.pair a < 2 ^ 57) 1 fun s _ u v => v = f s.nextPc u := by
  intro s h ht
  refine runs_threads (fun _ => f s.nextPc) h (hi s) ?_ fun _ _ => rfl
  rw [targetTrap_advance h, targetTrap_eq_none ht]
  rfl

theorem TransfersBy.traps_of_targetTrap (hi : TransfersBy i a f) {s : State} {r : TrapReq} (h : s.Issuable i)
    (ht : targetTrap s (s.active i) a = some (.trap r)) : exec i s = .next (s.trapIssue r) := by
  rw [hi s]
  exact issue_trap h (by rw [targetTrap_advance h, ht]; rfl)

theorem TransfersBy.trapsAt_align (hi : TransfersBy i a f) (s : State) :
    TrapsAt i s (fun x => x.pair a % 4 ≠ 0) Cause.align fun x => x.pair a :=
  fun h _ _ hl => hi.traps_of_targetTrap h (targetTrap_align hl)

theorem TransfersBy.trapsAt_page (hi : TransfersBy i a f) {s : State} (ha : ∀ n ∈ s.active i, (s.ithread n).pair a % 4 = 0) :
    TrapsAt i s (fun x => 2 ^ 57 ≤ x.pair a) Cause.page fun x => x.pair a :=
  fun h _ _ hl => hi.traps_of_targetTrap h (targetTrap_page ha hl)

end

/-! ### Calls -/

/-- Where a thread stands after it wrote its return address and went to `pc` (R205). -/
theorem Thread.writeN_call (t : Thread) (d : Field) (ret pc : Nat) :
    ∃ y, t.WroteN y d 2 ret ∧ { t.writeN d 2 ret with pc := pc } = { y with pc := pc } :=
  ⟨t.writeN d 2 ret, t.writeN_wrote d 2 ret (by decide), rfl⟩

theorem call_lanes (g : Guard) (d : Field) (off : Off) : Lanes (.call g d off) 1 fun s _ u v =>
    ∃ y, u.WroteN y d 2 s.nextPc ∧ v = { y with pc := (((s.issue.pc : Int) + 4 * Off.val off) % 2 ^ 57).toNat } :=
  fun s h => runs_threads (fun _ t => { t.writeN d 2 s.nextPc with pc := s.target (Off.val off) }) h
    (show exec (.call g d off) s = execCall g d off s from rfl) rfl fun n _ => (s.stepped n).writeN_call d s.nextPc _

theorem callx_lanesIf (g : Guard) (d a : Field) :
    LanesIf (.callx g d a) (fun _ x => x.pair a % 4 = 0 ∧ x.pair a < 2 ^ 57) 1 fun s _ u v =>
      ∃ y, u.WroteN y d 2 s.nextPc ∧ v = { y with pc := u.pair a } := by
  intro s h ht
  obtain ⟨t, ht, hk, hidle, hact⟩ := (callx_transfersBy g d a).lanesIf s h ht
  exact ⟨t, ht, hk, hidle, fun n hn => hact n hn ▸ (s.stepped n).writeN_call d s.nextPc _⟩

theorem absolute_transfersBy (g : Guard) (d a : Field) {i : Instr} (hi : i ∈ [Instr.brxAbs g a, .callx g d a, .ret g a]) :
    ∃ f, TransfersBy i a f := by
  simp only [List.mem_cons, List.not_mem_nil, or_false] at hi
  obtain rfl | rfl | rfl := hi
  · exact ⟨_, brxAbs_transfersBy g a⟩
  · exact ⟨_, callx_transfersBy g d a⟩
  · exact ⟨_, ret_transfersBy g a⟩

/-- Settles O10: the calls by the write of the return pair, the absolute transfers by the course that they share. -/
theorem callsAndReturns : Obligations.CallsAndReturns := by
  refine ⟨⟨call_lanes, callx_lanesIf, fun g a => (brxAbs_transfersBy g a).lanesIf, fun g a => (ret_transfersBy g a).lanesIf⟩, ?_⟩
  intro s g d a i hi
  obtain ⟨f, hf⟩ := absolute_transfersBy g d a hi
  exact ⟨hf.trapsAt_align s, hf.trapsAt_page⟩

end Sys2Proof.Machine
end

section
/-!
FP32 arithmetic (spec/09_vector.md R242 to R246): the rule for an instruction that writes one FP32 word in each active lane, and the words of
minimum, maximum and rounding to an integer.
-/
namespace Sys2Proof.Machine
open Sys2Proof

theorem lanes_fput {i : Instr} {cost : Nat} {d : Field} {x w : Thread → Word}
    (he : ∀ s, exec i s = perLane i cost (fun t => t.fput d (x t)) s) (hx : ∀ t, x t = w t) :
    Lanes i cost fun _ _ u v => u.Wrote v d (w u) full :=
  runs_perLane he fun _ _ u => hx u ▸ u.write_wrote d (x u) full

/-! ### Words of FP32 results -/

/-- Which operand `FMIN` and `FMAX` answer (R243). -/
theorem ofNat_minMax_fp32 (isMax : Bool) (a b : Word) :
    BitVec.ofNat 32 (minMax fp32 isMax a.toNat b.toNat) =
      if (f32 a).isNan ∧ (f32 b).isNan then 0x7FC00000 else if (f32 a).isNan then b else if (f32 b).isNan then a
      else if (if isMax then below (f32 a) (f32 b) else below (f32 b) (f32 a)) then b else a := by
  have hnan : BitVec.ofNat 32 (encodeFp fp32 .nan) = 0x7FC00000 := by decide
  unfold minMax f32
  cases isMax <;>
    simp only [Bool.and_eq_true, apply_ite (BitVec.ofNat 32), hnan, BitVec.ofNat_toNat, BitVec.setWidth_eq, Bool.false_eq_true, if_false, if_true]

/-- Below 2^23 `FRND` rounds the magnitude to an integer, which keeps the sign of the source (R245). -/
theorem frndWord_of_lt {r : Rnd} {a : Word} {sg : Bool} {n m : Nat} (ha : f32 a = .fin sg n m) (h : n < m * 2 ^ 23) :
    frndWord r a = w32 (.fin sg (roundQ r sg n m) 1) := by
  unfold frndWord
  simp only [ha]
  exact if_neg (Nat.not_le.mpr h)

theorem frnd_lanes (g : Guard) (r : Rnd) (o : Alu1) : Lanes (.frnd g r o) 1 fun _ _ u v => ∃ w, u.Wrote v o.d w full ∧
    ∀ sg n m, f32 (u.val o.a) = .fin sg n m → n < m * 2 ^ 23 → w = w32 (.fin sg (roundQ r sg n m) 1) :=
  runs_perLane (fun _ => rfl) fun _ _ u => ⟨_, u.write_wrote o.d (frndWord r (u.val o.a)) full, fun _ _ _ => frndWord_of_lt⟩

/-- Settles O19: each operation writes the word of its one rounding, and the minimum and the maximum the operand that R243 names. -/
theorem fp32Arithmetic : Obligations.Fp32Arithmetic := by
  refine ⟨⟨fun g r o => ?fadd, fun g r o => ?fsub, fun g r o => ?fmul, fun g r o => ?ffma, frnd_lanes, fun g o => ?fsqrt⟩,
    fun g o => ?fmin, fun g o => ?fmax⟩
  case fadd => exact lanes_fput (fun _ => rfl) fun _ => rfl
  case fsub => exact lanes_fput (fun _ => rfl) fun _ => rfl
  case fmul => exact lanes_fput (fun _ => rfl) fun _ => rfl
  case ffma => exact lanes_fput (fun _ => rfl) fun _ => rfl
  case fsqrt => exact lanes_fput (fun _ => rfl) fun _ => rfl
  case fmin => exact lanes_fput (fun _ => rfl) fun u => ofNat_minMax_fp32 false (u.val o.a) (u.fpB o.b)
  case fmax => exact lanes_fput (fun _ => rfl) fun u => ofNat_minMax_fp32 true (u.val o.a) (u.fpB o.b)

end Sys2Proof.Machine
end

section
/-!
Cross-lane instructions (spec/09_vector.md R232 to R238): the threads after a chain of changes within the issue group's workgroup, the course
of a cross-lane instruction whose sets are whole, and what each exchange writes.
-/
namespace Sys2Proof.Machine
open Sys2Proof

/-! ### Changes of threads of the issue group's workgroup -/

/-- The machine `t` is `s` with thread n of the issue group's workgroup standing as `x n`, and nothing else changed. -/
structure State.ThreadsStand (s t : State) (x : Nat → Thread) : Prop where
  rest    : t = { s with wgs := t.wgs }
  placed  : t.wgs.has s.issue.wid = true
  group   : t.wg s.issue.wid = { s.iwg with threads := (t.wg s.issue.wid).threads }
  others  : ∀ w, w ≠ s.issue.wid → t.wgs.get? w = s.wgs.get? w
  threads : ∀ n, t.thread s.issue.wid n = x n

theorem State.ThreadsStand.refl {s : State} (h : s.wgs.has s.issue.wid = true) : s.ThreadsStand s s.ithread :=
  ⟨rfl, h, rfl, fun _ _ => rfl, fun _ => rfl⟩

theorem State.ThreadsStand.setThreads {s t : State} {x : Nat → Thread} (h : s.ThreadsStand t x) {l : List Nat} (hl : l.Nodup)
    (f : Nat → Thread → Thread) :
    s.ThreadsStand (t.setThreads s.issue.wid l f) fun n => if n ∈ l then f n (x n) else x n where
  rest := congrArg (fun u : State => { u with wgs := (t.setThreads s.issue.wid l f).wgs }) h.rest
  placed := (t.setThreads_has ..).trans h.placed
  group := by
    rw [t.setThreads_wg _ l f h.placed, h.group]
  others w hw := (t.setThreads_get? l f (Ne.symm hw)).trans (h.others w hw)
  threads n := by rw [t.setThreads_thread _ l f h.placed hl, h.threads]

theorem State.ThreadsStand.congr {s t : State} {x y : Nat → Thread} (h : s.ThreadsStand t x) (hxy : ∀ n, x n = y n) : s.ThreadsStand t y :=
  funext hxy ▸ h

/-- A chain of changes that moves the meeting threads on, the active ones as `R` says, is a crossing once it is counted. -/
theorem State.ThreadsStand.crossed {s t : State} {x : Nat → Thread} (h : s.ThreadsStand t x) {i : Instr} (cost : Nat)
    {R : Nat → Thread → Thread → Prop} (away : ∀ n, n ∉ s.meeting → x n = s.ithread n)
    (idle : ∀ n ∈ s.meeting, s.guards i n = false → x n = s.arrived n)
    (active : ∀ n ∈ s.meeting, s.guards i n = true → R n (s.arrived n) (x n)) : s.Crossed (t.counted cost) i cost R := by
  have hi : t.issue = s.issue := by rw [h.rest]
  have hw : t.wgs.has t.issue.wid = true := hi ▸ h.placed
  have hg : t.iwg = { s.iwg with threads := t.iwg.threads } := by
    unfold State.iwg
    rw [hi]
    exact h.group
  have ht : ∀ n, (t.counted cost).ithread n = x n := fun n => by
    rw [counted_ithread hw, ← h.threads n]
    exact congrArg (fun w => t.thread w.wid n) hi
  constructor
  case rest =>
    rw [counted_rest]
    exact congrArg (fun u : State => { u with clk := u.clk + cost, wgs := (t.counted cost).wgs, cores := (t.counted cost).cores }) h.rest
  case mem => exact fun a => by rw [counted_mem, h.rest]
  case others => exact fun w hne => (counted_other cost (hi ▸ hne)).trans (h.others w hne)
  case group =>
    rw [counted_wg hw, hg]
    rfl
  case away => exact fun n hn => (ht n).trans (away n hn)
  case idle => exact fun n hn hf => (ht n).trans (idle n hn hf)
  case active => exact fun n hn hf => ht n ▸ active n hn hf

/-! ### The course of a cross-lane instruction -/

theorem filter_const_false {α : Type} (l : List α) : l.filter (fun _ => false) = [] :=
  List.filter_eq_nil_iff.mpr fun _ _ => Bool.false_ne_true

section
variable {s : State} {mask : Nat → Thread → BitVec 64}

theorem State.Meets.filter_whole (h : s.Meets mask) :
    (s.meeting.filter fun t => (s.iwg.crossSet t (mask t (s.iwg.thread t))).all s.meeting.contains) = s.meeting :=
  List.filter_eq_self.mpr fun n hn => List.all_eq_true.mpr fun u hu => List.contains_iff_mem.mpr (h.whole n hn u hu)

theorem State.Meets.filter_split (h : s.Meets mask) :
    (s.meeting.filter fun t => (s.iwg.crossSet t (mask t (s.iwg.thread t))).any fun u =>
      s.iwg.crossSet u (mask u (s.iwg.thread u)) != s.iwg.crossSet t (mask t (s.iwg.thread t))) = [] :=
  List.filter_eq_nil_iff.mpr fun n hn => by
    rw [List.any_eq_true]
    rintro ⟨u, hu, hne⟩
    exact bne_iff_ne.mp hne (h.agree n hn u hu)

theorem State.Meets.filter_late (h : s.Meets mask) : (s.issue.lanes.filter fun t => !s.meeting.contains t) = [] :=
  List.filter_eq_nil_iff.mpr fun n hn => by simpa using h.lanes n hn

end

/-- How thread n of the group's workgroup stands after the cross-lane instruction `i`: a meeting thread leaves the rendezvous, and one whose guard
holds is then changed by `f` of the active members of its set (R162, R163, R233). -/
def State.crossedThread (s : State) (i : Instr) (mask : Nat → Thread → BitVec 64) (f : State → List Nat → Nat → Thread → Thread) (n : Nat) :
    Thread :=
  if n ∈ s.meeting then
    if s.guards i n then f s (s.members i n (mask n (s.ithread n))) n (s.arrived n) else s.arrived n
  else s.ithread n

theorem crossLane_of_meets {s : State} {i : Instr} {mask : Nat → Thread → BitVec 64} (h : s.Issuable i) (hm : s.Meets mask) (cost : Nat)
    (f : State → List Nat → Nat → Thread → Thread) :
    ∃ t, crossLane i cost mask f s = .next (t.counted cost) ∧ s.ThreadsStand t (s.crossedThread i mask f) := by
  have hs := ((((State.ThreadsStand.refl h.placed).setThreads h.distinct fun _ t => { t with pc := s.nextPc, last := s.clk }).setThreads
    hm.once fun _ t => { t with pc := s.nextPc, hold := .none, last := s.clk }).setThreads
    (hm.once.filter (s.guards i)) fun n t => f s (s.members i n (mask n (s.ithread n))) n t).setThreads
    List.nodup_nil fun n t => { t.waitAt s.issue.pc (.lane (mask n t) s.clk) with last := (s.iwg.thread n).last }
  refine ⟨_, issue_ok h ?body, hs.congr fun n => ?thread⟩
  case body =>
    simp only [hm.filter_whole, hm.filter_split, hm.filter_late, List.any_nil, filter_const_false, ne_eq, not_true, if_false, if_neg hm.some]
    rfl
  case thread =>
    unfold State.crossedThread
    by_cases hn : n ∈ s.meeting
    · by_cases hl : n ∈ s.issue.lanes <;> simp [hn, hl, State.arrived]
    · have hl : n ∉ s.issue.lanes := fun hl => hn (hm.lanes n hl)
      simp [hn, hl]

/-- A cross-lane instruction is known by what its function makes of a thread that only left the rendezvous. -/
theorem crosses_crossLane {i : Instr} {cost : Nat} {mask : State → Nat → Thread → BitVec 64} {f : State → List Nat → Nat → Thread → Thread}
    {R : State → Nat → Thread → Thread → Prop} (he : ∀ s, exec i s = crossLane i cost (mask s) f s)
    (hR : ∀ s n, R s n (s.arrived n) (f s (s.members i n (mask s n (s.ithread n))) n (s.arrived n))) : Crosses i mask cost R := by
  intro s h hm
  obtain ⟨t, ht, hs⟩ := crossLane_of_meets h hm cost f
  refine ⟨_, (he s).trans ht, hs.crossed cost (fun n hn => if_neg hn) (fun n hn hg => ?idle) fun n hn hg => ?active⟩
  case idle => simp only [State.crossedThread, hn, hg, if_true, Bool.false_eq_true, if_false]
  case active =>
    simp only [State.crossedThread, hn, hg, if_true]
    exact hR s n

/-! ### Members of a set -/

theorem gangOf_of_mem_members {s : State} {i : Instr} {n x : Nat} {m : BitVec 64} (h : x ∈ s.members i n m) :
    s.iwg.gangOf x = s.iwg.gangOf n := by
  have hx := (List.mem_filter.mp (List.mem_filter.mp (List.mem_filter.mp h).1).1).2
  exact beq_iff_eq.mp hx

/-- Two members of a set in the same lane are the same thread (R150). -/
theorem members_eq_of_laneOf {s : State} {i : Instr} {n x y : Nat} {m : BitVec 64} (hx : x ∈ s.members i n m) (hy : y ∈ s.members i n m)
    (h : s.iwg.laneOf x = s.iwg.laneOf y) : x = y := by
  have hg : x / s.iwg.width = y / s.iwg.width := (gangOf_of_mem_members hx).trans (gangOf_of_mem_members hy).symm
  rw [← Nat.div_add_mod x s.iwg.width, ← Nat.div_add_mod y s.iwg.width, hg]
  exact congrArg _ h

theorem length_filter_beq_length {α : Type} (l : List α) (p : α → Bool) :
    ((l.filter p).length == l.length) = decide (∀ x ∈ l, p x = true) := by
  rw [Bool.eq_iff_iff, beq_iff_eq, List.length_filter_eq_length_iff, decide_eq_true_iff]

theorem isEmpty_filter {α : Type} (l : List α) (p : α → Bool) : (l.filter p).isEmpty = decide (∀ x ∈ l, p x = false) := by
  rw [Bool.eq_iff_iff, List.isEmpty_iff, List.filter_eq_nil_iff, decide_eq_true_iff]
  simp only [Bool.not_eq_true]

theorem not_isEmpty_filter {α : Type} (l : List α) (p : α → Bool) : (!(l.filter p).isEmpty) = decide (∃ x ∈ l, p x = true) := by
  rw [Bool.eq_iff_iff, Bool.not_eq_true', List.isEmpty_eq_false_iff_exists_mem, decide_eq_true_iff]
  simp only [List.mem_filter]

theorem isEmpty_or_length_filter {α : Type} (l : List α) (p : α → Bool) :
    ((l.filter p).isEmpty || (l.filter p).length == l.length) = decide ((∀ x ∈ l, p x = true) ∨ ∀ x ∈ l, p x = false) := by
  rw [isEmpty_filter, length_filter_beq_length, Bool.or_comm, Bool.decide_or]

/-! ### `XLANE` (R235) -/

theorem find?_laneOf {s : State} {i : Instr} {n x l : Nat} {m : BitVec 64} (hx : x ∈ s.members i n m) (hl : s.iwg.laneOf x = l) :
    (s.members i n m).find? (fun u => s.iwg.laneOf u == l) = some x := by
  cases hf : (s.members i n m).find? fun u => s.iwg.laneOf u == l with
  | none => exact absurd (beq_iff_eq.mpr hl) (List.find?_eq_none.mp hf x hx)
  | some y =>
    have hy : s.iwg.laneOf y = l := beq_iff_eq.mp (List.find?_some (p := fun u => s.iwg.laneOf u == l) hf)
    rw [members_eq_of_laneOf (List.mem_of_find?_eq_some hf) hx (hy.trans hl.symm)]

theorem find?_laneOf_eq_none {s : State} {i : Instr} {n l : Nat} {m : BitVec 64} (h : ∀ x ∈ s.members i n m, s.iwg.laneOf x ≠ l) :
    (s.members i n m).find? (fun u => s.iwg.laneOf u == l) = none :=
  List.find?_eq_none.mpr fun x hx => mt beq_iff_eq.mp (h x hx)

theorem xlane_crosses (g : Guard) (m : XMode) (d a b : Field) (mask : LMask) {src : State → Nat → Thread → Nat}
    (hsrc : ∀ s n u, xlaneSrc m (s.iwg.laneOf n) (u.val b).toNat s.iwg.width = src s n u) :
    Crosses (.xlane g m d a b mask) (fun _ => laneMaskOf mask) 2 fun s n u v =>
      let mem := s.members (.xlane g m d a b mask) n (laneMaskOf mask n (s.ithread n))
      (∀ x ∈ mem, x % s.iwg.width = src s n u → u.Wrote v d ((s.ithread x).val a) ((s.ithread x).read a).2) ∧
      ((∀ x ∈ mem, x % s.iwg.width ≠ src s n u) → u.Wrote v d (u.val a) (u.read a).2) := by
  refine crosses_crossLane (fun s => show execXlane g m d a b mask s = _ from rfl) fun s n => ⟨fun x hx hl => ?member, fun hl => ?none⟩
  case member =>
    simp only [hsrc, find?_laneOf hx hl]
    exact Thread.write_wrote ..
  case none =>
    simp only [hsrc, find?_laneOf_eq_none hl]
    exact Thread.write_wrote ..

/-! ### `PCOLL` (R236) -/

theorem Thread.setPred_wrote_of_eq (t : Thread) (k : Nat) {b c : Bool} (h : b = c) : t.WroteP (t.setPred k b) k c :=
  h ▸ t.setPred_wrote k b

/-! ### `LREDUCE`, `LSCAN` and `XEQ` (R237, R238) -/

theorem lscan_reach (excl : Bool) (x n : Nat) :
    (decide (x < n) || (!excl && x == n)) = if excl then decide (x < n) else decide (x ≤ n) := by
  cases excl
  case false =>
    rw [Bool.eq_iff_iff]
    simp [Nat.le_iff_lt_or_eq]
  case true => simp

/-- Settles O17: each exchange is a crossing whose function is the one write that R235 to R238 give it. -/
theorem laneExchanges : Obligations.LaneExchanges := by
  refine ⟨fun g m d a b mask => ?xlane, ⟨fun g m pd d pa mask => ?pcoll, fun g b64 d a mask => ?xeq⟩,
    fun g op d a mask => ?lreduce, fun g op excl d a mask => ?lscan, fun _ _ => rfl, rfl, rfl, rfl, rfl, rfl, rfl, rfl, rfl⟩
  case xlane =>
    cases m
    case seg => exact xlane_crosses g .seg d a b mask fun _ _ _ => (Nat.div_mul_self_eq_mod_sub_self ..).symm
    all_goals exact xlane_crosses g _ d a b mask fun _ _ _ => rfl
  case pcoll =>
    refine crosses_crossLane (fun s => show execPcoll g m pd d pa mask s = _ from rfl) fun s n => ?_
    cases m
    case some => exact Thread.setPred_wrote_of_eq _ _ (not_isEmpty_filter _ _)
    case every => exact Thread.setPred_wrote_of_eq _ _ (length_filter_beq_length _ _)
    case same => exact Thread.setPred_wrote_of_eq _ _ (isEmpty_or_length_filter _ _)
    case mask => exact Thread.writeN_wrote _ d 2 _ (by decide)
    case count => exact Thread.write_wrote _ d _ full
  case xeq =>
    refine crosses_crossLane (fun s => show execXeq g b64 d a mask s = _ from rfl) fun s n => ?_
    exact Thread.writeN_wrote _ d 2 _ (by decide)
  case lreduce => exact crosses_crossLane (fun s => show execLreduce g op d a mask s = _ from rfl) fun s n => Thread.write_wrote _ d _ full
  case lscan =>
    refine crosses_crossLane (fun s => show execLscan g op excl d a mask s = _ from rfl) fun s n => ?_
    simp only [lscan_reach]
    exact Thread.write_wrote ..

end Sys2Proof.Machine
end
